-- ==== Sys2Proof/Word.lean ====
section
/-! DEFINITION. The word types of the block and their plainest arithmetic (00_scope.md rules R5, R6, R10, R11). -/

namespace Sys2Proof

/-- A byte of the buffer RAM or of a byte sequence (R6). -/
abbrev Byte := BitVec 8

/-- A 32-bit register value (R4, R6). -/
abbrev Word := BitVec 32

/-- `ceil(a / b)` for `b > 0` (R6). -/
def ceilDiv (a b : Nat) : Nat := (a + b - 1) / b

end Sys2Proof
end

