-- ==== Sys2Proof/Syntax.lean ====
section
/-! DEFINITION. The commands of the block, one constructor per row of spec/opcode_table.json (30_encoding.md rules R81 to
R87), and the fields of a command word. -/

namespace Sys2Proof

/-- The five scanline filter types (42_filter.md rule R162). -/
inductive FilterType where
  | none
  | sub
  | up
  | average
  | paeth
deriving DecidableEq, Repr

/-- The mode of FILTER_IMAGE (R83, R183): one filter on every row, or selection per row. -/
inductive FilterMode where
  | fixed (f : FilterType)
  | adaptive
deriving DecidableEq, Repr

/-- The five colour types (10_state.md rule R26). -/
inductive ColorType where
  | gray
  | rgb
  | palette
  | grayAlpha
  | rgba
deriving DecidableEq, Repr

/-- The four fields of a command word (R81). -/
structure CmdFields where
  opcode : Byte
  sub : Byte
  flags : Byte
  rsv : Byte
deriving DecidableEq, Repr

/-- The commands. A Bool argument is the one FLAGS bit the opcode allows (R84): FIRST, NARROW or S16. Every other field of
the word is fixed by the row, and COLOR_CONVERT's two SUB nibbles are its source and destination colour type (R83). -/
inductive Instr where
  /-- NOP (R140). -/
  | nop
  /-- CRC_INIT (R103). -/
  | crcInit
  /-- CRC_UPDATE (R104). -/
  | crcUpdate
  /-- CRC_FINAL (R105). -/
  | crcFinal
  /-- CRC32 (R106). -/
  | crc32
  /-- FRAMER_RESET (R120). -/
  | framerReset
  /-- SIG_CHECK (R123). -/
  | sigCheck
  /-- CHUNK_PARSE (R124, R125). -/
  | chunkParse
  /-- STREAM_PARSE (R126). -/
  | streamParse
  /-- SIG_WRITE (R135). -/
  | sigWrite
  /-- CHUNK_WRITE (R136). -/
  | chunkWrite
  /-- IHDR_WRITE (R137). -/
  | ihdrWrite
  /-- IDAT_WRITE (R138). -/
  | idatWrite
  /-- FILT_APPLY.NONE (R185, R170). -/
  | filtApplyNone (first : Bool)
  /-- FILT_APPLY.SUB (R185, R171). -/
  | filtApplySub (first : Bool)
  /-- FILT_APPLY.UP (R185, R172). -/
  | filtApplyUp (first : Bool)
  /-- FILT_APPLY.AVG (R185, R173). -/
  | filtApplyAvg (first : Bool)
  /-- FILT_APPLY.PAETH (R185, R174). -/
  | filtApplyPaeth (first : Bool)
  /-- FILT_REVERSE.NONE (R186, R175). -/
  | filtReverseNone (first : Bool)
  /-- FILT_REVERSE.SUB (R186, R176). -/
  | filtReverseSub (first : Bool)
  /-- FILT_REVERSE.UP (R186, R177). -/
  | filtReverseUp (first : Bool)
  /-- FILT_REVERSE.AVG (R186, R178). -/
  | filtReverseAvg (first : Bool)
  /-- FILT_REVERSE.PAETH (R186, R179). -/
  | filtReversePaeth (first : Bool)
  /-- FILT_SELECT (R180). -/
  | filtSelect (first : Bool)
  /-- PAETH (R181). -/
  | paeth
  /-- FILTER_IMAGE.NONE (R183). -/
  | filterImageNone
  /-- FILTER_IMAGE.SUB (R183). -/
  | filterImageSub
  /-- FILTER_IMAGE.UP (R183). -/
  | filterImageUp
  /-- FILTER_IMAGE.AVG (R183). -/
  | filterImageAvg
  /-- FILTER_IMAGE.PAETH (R183). -/
  | filterImagePaeth
  /-- FILTER_IMAGE.ADAPTIVE (R183). -/
  | filterImageAdaptive
  /-- UNFILTER_IMAGE (R184). -/
  | unfilterImage
  /-- ADAM7_GEOM.P0 (R203). -/
  | adam7GeomP0
  /-- ADAM7_GEOM.P1 (R203). -/
  | adam7GeomP1
  /-- ADAM7_GEOM.P2 (R203). -/
  | adam7GeomP2
  /-- ADAM7_GEOM.P3 (R203). -/
  | adam7GeomP3
  /-- ADAM7_GEOM.P4 (R203). -/
  | adam7GeomP4
  /-- ADAM7_GEOM.P5 (R203). -/
  | adam7GeomP5
  /-- ADAM7_GEOM.P6 (R203). -/
  | adam7GeomP6
  /-- DEINTERLACE (R204). -/
  | deinterlace
  /-- INTERLACE (R205). -/
  | interlace
  /-- DEPTH_EXPAND (R230). -/
  | depthExpand (narrow : Bool)
  /-- DEPTH_PACK (R231). -/
  | depthPack (s16 : Bool)
  /-- COLOR_CONVERT.<src>_TO_<dst> (R235). -/
  | colorConvert (src dst : ColorType) (s16 : Bool)
  /-- DECODE_NORMALIZE (R238). -/
  | decodeNormalize (narrow : Bool)
deriving DecidableEq, Repr

end Sys2Proof
end

