-- ==== Sys2Proof/WellFormed.lean ====
section
/-! DEFINITION. When the fields of a command word are well formed: the opcode map R87 with the SUB values of R83 and the
FLAGS of R84, written as rows. A term of Instr carries no field that could be ill formed (its types admit only what R83 and
R84 allow), so the checks bear on the fields of a word. Decode.lean is written from the rules a second time, and an
obligation says that it accepts exactly the words whose fields pass here. -/

namespace Sys2Proof

/-- One row of the opcode map R87: the opcode, its allowed SUB values (R83) and its allowed FLAGS bits (R84). -/
structure OpcodeRow where
  opcode : Byte
  subs : List Byte
  flagMask : Byte
deriving DecidableEq, Repr

/-- The colour-type numbers of R26, R83. -/
def colorCodes : List Nat := [0, 2, 3, 4, 6]

/-- The SUB values of COLOR_CONVERT: source type in SUB[3:0], destination type in SUB[7:4] (R83). -/
def colorPairSubs : List Byte :=
  colorCodes.flatMap fun src => colorCodes.map fun dst => BitVec.ofNat 8 (src + 16 * dst)

/-- The opcode map (R87). -/
def opcodeRows : List OpcodeRow :=
  [⟨0x00, [0], 0⟩, ⟨0x01, [0], 0⟩, ⟨0x02, [0], 0⟩, ⟨0x03, [0], 0⟩, ⟨0x04, [0], 0⟩,
   ⟨0x10, [0], 0⟩, ⟨0x11, [0], 0⟩, ⟨0x12, [0], 0⟩, ⟨0x13, [0], 0⟩,
   ⟨0x18, [0], 0⟩, ⟨0x19, [0], 0⟩, ⟨0x1A, [0], 0⟩, ⟨0x1B, [0], 0⟩] ++
  [⟨0x20, [0, 1, 2, 3, 4], 1⟩, ⟨0x21, [0, 1, 2, 3, 4], 1⟩, ⟨0x22, [0], 1⟩, ⟨0x23, [0], 0⟩,
   ⟨0x24, [0, 1, 2, 3, 4, 5], 0⟩, ⟨0x25, [0], 0⟩,
   ⟨0x30, [0, 1, 2, 3, 4, 5, 6], 0⟩, ⟨0x31, [0], 0⟩, ⟨0x32, [0], 0⟩,
   ⟨0x40, [0], 2⟩, ⟨0x41, [0], 4⟩, ⟨0x42, colorPairSubs, 4⟩, ⟨0x43, [0], 2⟩]

/-- The opcode is in the map (R82 check 1). -/
def CmdFields.opcodeOk (f : CmdFields) : Bool := opcodeRows.any fun r => r.opcode == f.opcode

/-- RSV is 0 (R82 check 2). -/
def CmdFields.rsvOk (f : CmdFields) : Bool := f.rsv == 0

/-- SUB is one of the opcode's (R82 check 3). -/
def CmdFields.subOk (f : CmdFields) : Bool := opcodeRows.any fun r => r.opcode == f.opcode && r.subs.contains f.sub

/-- No FLAGS bit is set that the opcode does not allow (R82 check 4). -/
def CmdFields.flagsOk (f : CmdFields) : Bool :=
  opcodeRows.any fun r => r.opcode == f.opcode && (f.flags &&& ~~~r.flagMask == 0)

/-- All four checks of R82 pass. -/
def CmdFields.wellFormed (f : CmdFields) : Bool := f.opcodeOk && f.rsvOk && f.subOk && f.flagsOk

end Sys2Proof
end

