-- ==== Sys2Proof/Decode.lean ====
section
/-! DEFINITION. Decoding a command word (30_encoding.md rules R81 to R89), total on all words and rejecting by the name of
the failing check of R82; then the encoder, from the same rules. -/

namespace Sys2Proof

/-- Why a command word is refused (R82), in the order the checks are made. -/
inductive DecodeError where
  /-- Check 1: OPCODE is not in the map. -/
  | unassignedOpcode
  /-- Check 2: RSV is not 0. -/
  | reservedNotZero
  /-- Check 3: SUB is not one of the opcode's. -/
  | badSub
  /-- Check 4: a FLAGS bit is set that the opcode does not allow. -/
  | badFlags
deriving DecidableEq, Repr

/-- The fields of a command word (R81), each taken as it stands (R86). -/
def CmdFields.ofWord (w : Word) : CmdFields where
  opcode := w.extractLsb' 0 8
  sub := w.extractLsb' 8 8
  flags := w.extractLsb' 16 8
  rsv := w.extractLsb' 24 8

/-- `w = RSV·2^24 + FLAGS·2^16 + SUB·2^8 + OPCODE` (R81). -/
def CmdFields.toWord (f : CmdFields) : Word :=
  BitVec.ofNat 32 (f.rsv.toNat * 2 ^ 24 + f.flags.toNat * 2 ^ 16 + f.sub.toNat * 2 ^ 8 + f.opcode.toNat)

/-- FLAGS bit 0, FIRST (R84). -/
def CmdFields.first (f : CmdFields) : Bool := f.flags.getLsbD 0

/-- FLAGS bit 1, NARROW (R84). -/
def CmdFields.narrow (f : CmdFields) : Bool := f.flags.getLsbD 1

/-- FLAGS bit 2, S16 (R84). -/
def CmdFields.s16 (f : CmdFields) : Bool := f.flags.getLsbD 2

/-- The colour type with this number (R26). -/
def ColorType.ofCode (n : Nat) : Option ColorType :=
  match n with
  | 0 => some .gray
  | 2 => some .rgb
  | 3 => some .palette
  | 4 => some .grayAlpha
  | 6 => some .rgba
  | _ => none

/-- The number of a colour type (R26). -/
def ColorType.code (c : ColorType) : Nat :=
  match c with
  | .gray => 0
  | .rgb => 2
  | .palette => 3
  | .grayAlpha => 4
  | .rgba => 6

/-- Channels per colour type, `Ch(ct)` (R26). -/
def ColorType.channels (c : ColorType) : Nat :=
  match c with
  | .gray => 1
  | .rgb => 3
  | .palette => 1
  | .grayAlpha => 2
  | .rgba => 4

/-- The number of a filter type (R162). -/
def FilterType.code (f : FilterType) : Nat :=
  match f with
  | .none => 0
  | .sub => 1
  | .up => 2
  | .average => 3
  | .paeth => 4

/-- The filter type with this number (R162). -/
def FilterType.ofCode (n : Nat) : Option FilterType :=
  match n with
  | 0 => some .none
  | 1 => some .sub
  | 2 => some .up
  | 3 => some .average
  | 4 => some .paeth
  | _ => Option.none

/-- The opcodes of R87 that take SUB = 0 only (R83). -/
def soleSub (f : CmdFields) (i : Instr) : Option Instr := if f.sub = 0 then some i else none

/-- FILT_APPLY by its SUB (R83, R185). -/
def applyOfSub (sub : Nat) (first : Bool) : Option Instr :=
  match sub with
  | 0 => some (.filtApplyNone first)
  | 1 => some (.filtApplySub first)
  | 2 => some (.filtApplyUp first)
  | 3 => some (.filtApplyAvg first)
  | 4 => some (.filtApplyPaeth first)
  | _ => none

/-- FILT_REVERSE by its SUB (R83, R186). -/
def reverseOfSub (sub : Nat) (first : Bool) : Option Instr :=
  match sub with
  | 0 => some (.filtReverseNone first)
  | 1 => some (.filtReverseSub first)
  | 2 => some (.filtReverseUp first)
  | 3 => some (.filtReverseAvg first)
  | 4 => some (.filtReversePaeth first)
  | _ => none

/-- FILTER_IMAGE by its SUB (R83, R183). -/
def imageOfSub (sub : Nat) : Option Instr :=
  match sub with
  | 0 => some .filterImageNone
  | 1 => some .filterImageSub
  | 2 => some .filterImageUp
  | 3 => some .filterImageAvg
  | 4 => some .filterImagePaeth
  | 5 => some .filterImageAdaptive
  | _ => none

/-- ADAM7_GEOM by its SUB (R83, R203). -/
def geomOfSub (sub : Nat) : Option Instr :=
  match sub with
  | 0 => some .adam7GeomP0
  | 1 => some .adam7GeomP1
  | 2 => some .adam7GeomP2
  | 3 => some .adam7GeomP3
  | 4 => some .adam7GeomP4
  | 5 => some .adam7GeomP5
  | 6 => some .adam7GeomP6
  | _ => none

/-- COLOR_CONVERT by its SUB: source type in SUB[3:0], destination type in SUB[7:4] (R83). -/
def convertOfSub (sub : Nat) (s16 : Bool) : Option Instr :=
  match ColorType.ofCode (sub % 16), ColorType.ofCode (sub / 16) with
  | some src, some dst => some (.colorConvert src dst s16)
  | _, _ => none

/-- The opcode map (R87). The outer `none`: the opcode is unassigned. Otherwise the FLAGS bits the opcode allows (R84), and
the command that SUB selects, `none` where SUB is not allowed (R83). -/
def opcodeEntry (f : CmdFields) : Option (Byte × Option Instr) :=
  match f.opcode.toNat with
  | 0x00 => some (0, soleSub f .nop)
  | 0x01 => some (0, soleSub f .crcInit)
  | 0x02 => some (0, soleSub f .crcUpdate)
  | 0x03 => some (0, soleSub f .crcFinal)
  | 0x04 => some (0, soleSub f .crc32)
  | 0x10 => some (0, soleSub f .framerReset)
  | 0x11 => some (0, soleSub f .sigCheck)
  | 0x12 => some (0, soleSub f .chunkParse)
  | 0x13 => some (0, soleSub f .streamParse)
  | 0x18 => some (0, soleSub f .sigWrite)
  | 0x19 => some (0, soleSub f .chunkWrite)
  | 0x1A => some (0, soleSub f .ihdrWrite)
  | 0x1B => some (0, soleSub f .idatWrite)
  | 0x20 => some (1, applyOfSub f.sub.toNat f.first)
  | 0x21 => some (1, reverseOfSub f.sub.toNat f.first)
  | 0x22 => some (1, soleSub f (.filtSelect f.first))
  | 0x23 => some (0, soleSub f .paeth)
  | 0x24 => some (0, imageOfSub f.sub.toNat)
  | 0x25 => some (0, soleSub f .unfilterImage)
  | 0x30 => some (0, geomOfSub f.sub.toNat)
  | 0x31 => some (0, soleSub f .deinterlace)
  | 0x32 => some (0, soleSub f .interlace)
  | 0x40 => some (2, soleSub f (.depthExpand f.narrow))
  | 0x41 => some (4, soleSub f (.depthPack f.s16))
  | 0x42 => some (4, convertOfSub f.sub.toNat f.s16)
  | 0x43 => some (2, soleSub f (.decodeNormalize f.narrow))
  | _ => none

/-- The four checks of R82 in their order, on the fields of a word. -/
def decodeFields (f : CmdFields) : Except DecodeError Instr :=
  match opcodeEntry f with
  | none => .error .unassignedOpcode
  | some (flagMask, byName) =>
    if f.rsv = 0 then
      match byName with
      | none => .error .badSub
      | some i => if f.flags &&& ~~~flagMask = 0 then .ok i else .error .badFlags
    else .error .reservedNotZero

/-- Decode a command word (R82). -/
def decode (w : Word) : Except DecodeError Instr := decodeFields (CmdFields.ofWord w)

/-- The instruction the decoder reads from a command whose bits are `w`: a command is one 32-bit word (R89), written to
CMD whole, so there is no byte order to lay out. -/
def decodeTableWord (nbits w : Nat) : Option Instr :=
  match decode (BitVec.ofNat 32 (w % 2 ^ nbits)) with
  | .ok i => some i
  | .error _ => none

/-- One FLAGS bit (R84). -/
def flagBit (bit : Nat) (b : Bool) : Byte := if b then BitVec.ofNat 8 (2 ^ bit) else 0

/-- The fields of a command's word (R81, R83, R84, R87). -/
def encodeFields (i : Instr) : CmdFields :=
  match i with
  | .nop => ⟨0x00, 0x00, 0, 0⟩
  | .crcInit => ⟨0x01, 0x00, 0, 0⟩
  | .crcUpdate => ⟨0x02, 0x00, 0, 0⟩
  | .crcFinal => ⟨0x03, 0x00, 0, 0⟩
  | .crc32 => ⟨0x04, 0x00, 0, 0⟩
  | .framerReset => ⟨0x10, 0x00, 0, 0⟩
  | .sigCheck => ⟨0x11, 0x00, 0, 0⟩
  | .chunkParse => ⟨0x12, 0x00, 0, 0⟩
  | .streamParse => ⟨0x13, 0x00, 0, 0⟩
  | .sigWrite => ⟨0x18, 0x00, 0, 0⟩
  | .chunkWrite => ⟨0x19, 0x00, 0, 0⟩
  | .ihdrWrite => ⟨0x1A, 0x00, 0, 0⟩
  | .idatWrite => ⟨0x1B, 0x00, 0, 0⟩
  | .filtApplyNone first => ⟨0x20, 0x00, flagBit 0 first, 0⟩
  | .filtApplySub first => ⟨0x20, 0x01, flagBit 0 first, 0⟩
  | .filtApplyUp first => ⟨0x20, 0x02, flagBit 0 first, 0⟩
  | .filtApplyAvg first => ⟨0x20, 0x03, flagBit 0 first, 0⟩
  | .filtApplyPaeth first => ⟨0x20, 0x04, flagBit 0 first, 0⟩
  | .filtReverseNone first => ⟨0x21, 0x00, flagBit 0 first, 0⟩
  | .filtReverseSub first => ⟨0x21, 0x01, flagBit 0 first, 0⟩
  | .filtReverseUp first => ⟨0x21, 0x02, flagBit 0 first, 0⟩
  | .filtReverseAvg first => ⟨0x21, 0x03, flagBit 0 first, 0⟩
  | .filtReversePaeth first => ⟨0x21, 0x04, flagBit 0 first, 0⟩
  | .filtSelect first => ⟨0x22, 0x00, flagBit 0 first, 0⟩
  | .paeth => ⟨0x23, 0x00, 0, 0⟩
  | .filterImageNone => ⟨0x24, 0x00, 0, 0⟩
  | .filterImageSub => ⟨0x24, 0x01, 0, 0⟩
  | .filterImageUp => ⟨0x24, 0x02, 0, 0⟩
  | .filterImageAvg => ⟨0x24, 0x03, 0, 0⟩
  | .filterImagePaeth => ⟨0x24, 0x04, 0, 0⟩
  | .filterImageAdaptive => ⟨0x24, 0x05, 0, 0⟩
  | .unfilterImage => ⟨0x25, 0x00, 0, 0⟩
  | .adam7GeomP0 => ⟨0x30, 0x00, 0, 0⟩
  | .adam7GeomP1 => ⟨0x30, 0x01, 0, 0⟩
  | .adam7GeomP2 => ⟨0x30, 0x02, 0, 0⟩
  | .adam7GeomP3 => ⟨0x30, 0x03, 0, 0⟩
  | .adam7GeomP4 => ⟨0x30, 0x04, 0, 0⟩
  | .adam7GeomP5 => ⟨0x30, 0x05, 0, 0⟩
  | .adam7GeomP6 => ⟨0x30, 0x06, 0, 0⟩
  | .deinterlace => ⟨0x31, 0x00, 0, 0⟩
  | .interlace => ⟨0x32, 0x00, 0, 0⟩
  | .depthExpand narrow => ⟨0x40, 0x00, flagBit 1 narrow, 0⟩
  | .depthPack s16 => ⟨0x41, 0x00, flagBit 2 s16, 0⟩
  | .colorConvert src dst s16 => ⟨0x42, BitVec.ofNat 8 (src.code + 16 * dst.code), flagBit 2 s16, 0⟩
  | .decodeNormalize narrow => ⟨0x43, 0x00, flagBit 1 narrow, 0⟩

/-- The word of a command (R81). -/
def encode (i : Instr) : Word := (encodeFields i).toWord

end Sys2Proof
end

