-- ==== Sys2Proof/Config.lean ====
section
/-! DEFINITION. What an implementation fixes (00_scope.md rule R4) and the values the spec leaves open
(93_implementation_defined.md part 1). The parameters are a record that State carries, so that a statement about every
state is a statement about every build (log 1). The open values are constants without a body (log 2, 5, 6). -/

namespace Sys2Proof

/-- HOST_LANE_ORDER (R4, R63). -/
inductive LaneOrder where
  | little
  | big
deriving DecidableEq, Repr

/-- SCORE_READING (R4, R167, conflict C8). -/
inductive ScoreReading where
  | signed
  | offset128
deriving DecidableEq, Repr

/-- The implementation parameters of R4 that some rule reads. LATENCY is read by no rule (log 3). -/
structure Params where
  /-- MEM_BYTES: bytes of buffer RAM, 1 to 2^32 (D2). -/
  memBytes : Nat
  /-- BLOCK_BASE: host address of the register window, 4 KiB aligned (D3). -/
  blockBase : Nat
  /-- BUF_BASE: host address of byte 0 of the buffer RAM (D4). -/
  bufBase : Nat
  /-- HOST_LANE_ORDER (D4). -/
  laneOrder : LaneOrder
  /-- SCORE_READING (D37). -/
  scoreReading : ScoreReading
  /-- LEGAL_PAIRS: the (bit depth, colour type) pairs this build accepts (D20). -/
  legalPairs : List (Nat × Nat)
deriving DecidableEq, Repr

/-- The 15 pairs of R27, (bit depth, colour type). -/
def Config.pngPairs : List (Nat × Nat) :=
  [(1, 0), (2, 0), (4, 0), (8, 0), (16, 0), (8, 2), (16, 2), (1, 3), (2, 3), (4, 3), (8, 3), (8, 4), (16, 4), (8, 6), (16, 6)]

/-- The parameters State.reset carries (log 1): MEM_BYTES as in 95_test_vectors.md, DESIGN CHOICE bases, the spec's
defaults for the rest. -/
def Params.default : Params where
  memBytes := 0x10000
  blockBase := 0x40000000
  bufBase := 0x50000000
  laneOrder := .little
  scoreReading := .signed
  legalPairs := Config.pngPairs

/-- What R4, D2, D3 and D20 ask of the parameters. -/
abbrev Params.wf (p : Params) : Prop :=
  1 ≤ p.memBytes ∧ p.memBytes ≤ 2 ^ 32 ∧ p.blockBase % 4096 = 0 ∧ ∀ q ∈ p.legalPairs, q ∈ Config.pngPairs

/-- The buffer byte at address `addr` that nothing has written since power-on number `epoch` (R79, item 1; log 2). -/
opaque Config.ramByte (epoch addr : Nat) : Byte

/-- The PLTE_RAM entry that nothing has written since power-on (R49, R79, item 2; log 2). -/
opaque Config.plteEntry (epoch i : Nat) : BitVec 24

/-- The ALPHA_RAM entry that nothing has written since power-on (R50, R79, item 2; log 2). -/
opaque Config.alphaEntry (epoch i : Nat) : Byte

/-- Draw number `n` of an unspecified byte: what a buffer byte holds after a host write while BUSY (item 6; log 6). -/
opaque Config.freeByte (n : Nat) : Byte

/-- Draw number `n` of an unspecified word: what a host read while BUSY returns (item 5; log 5). -/
opaque Config.freeWord (n : Nat) : Word

end Sys2Proof
end

