-- ==== Sys2Proof/Machine/State.lean ====
section
/-! DEFINITION. The state of the block (10_state.md), the events that drive it, the errors a command completes with
(60_exceptions.md rule R260), the reasons a step can stop, and the state after power-on reset (70_reset_and_hazards.md rule
R291). -/

namespace Sys2Proof.Machine

/-- Entries written since power-on, by number: addresses strictly rising (Ram.wf in Machine/Ops.lean). An unlisted entry
holds no value here; reading it gives the free value of Config (log 2). -/
abbrev Ram (α : Type) := List (Nat × α)

/-- The buffer RAM (R52, R60), a list of Host.Cell. -/
abbrev Memory := List Host.Cell

/-- The region ids of INFO (R9). -/
inductive Region where
  | src
  | dst
  | aux
  | idat
  | dir
deriving DecidableEq, Repr

/-- The INFO values of IllegalCommand (R82, R260). -/
inductive IllegalKind where
  | opcode
  | reserved
  | sub
  | flags
  | parameter
deriving DecidableEq, Repr

/-- The INFO values of MissingChunk (R260). -/
inductive MissingKind where
  | ihdr
  | plte
  | idat
  | iend
deriving DecidableEq, Repr

/-- The errors some command raises (R260). The reserved codes, CompressionFailure and DecompressionFailure are never raised
(item 15), so no term stands for them. -/
inductive Err where
  | signatureMismatch
  | missingChunk (k : MissingKind)
  | unexpectedChunkOrder
  | chunkCrcMismatch
  | truncatedChunk
  | invalidHeader
  | paletteRequired
  | paletteIndexOutOfRange (index : Byte)
  | unsupportedColorConversion
  | insufficientPixelData
  | illegalCommand (k : IllegalKind)
  | addressOutOfRange (r : Region)
  | regionOverlap (r : Region)
  | bufferTooSmall (r : Region)
  | invalidFilterType (type : Byte)
  | invalidChunkData
  | unknownCriticalChunk
  | framerFailed (failCode : Byte)
deriving DecidableEq, Repr

/-- FRAMER.STATE (R40). Values 6 to 14 are never held, so no term stands for them. -/
inductive Phase where
  | start
  | sigOk
  | header
  | idat
  | postIdat
  | ended
  | failed
deriving DecidableEq, Repr

/-- The width of a host access (R65): the three that some window defines, and any other, of `bytes` bytes, that none does
(log 18). -/
inductive Width where
  | w8
  | w16
  | w32
  | other (bytes : Nat)
deriving DecidableEq, Repr

/-- What happens next at the block (R72; log 3). -/
inductive Event where
  /-- A host write of the low bits of `data` at a host address. -/
  | write (addr : Nat) (width : Width) (data : Word)
  /-- A host read at a host address; its value goes to Bus.lastRead (log 11). -/
  | read (addr : Nat) (width : Width)
  /-- A pulse of the reset input (R290; log 13). -/
  | powerOn
  /-- The engine's turn: a running command completes (R302; log 3). -/
  | engine
deriving DecidableEq, Repr

/-- CTRL, STATUS, ERROR and CMD (R21 to R24). -/
structure Ctl where
  /-- CTRL.IRQ_EN (R21). -/
  irqEn : Bool
  /-- STATUS.BUSY (R22). -/
  busy : Bool
  /-- STATUS.DONE (R22). -/
  done : Bool
  /-- STATUS.OVERRUN (R22). -/
  overrun : Bool
  /-- ERROR.CODE (R23). STATUS.ERR is computed from it (R22). -/
  errCode : Byte
  /-- ERROR.INFO (R23). -/
  errInfo : Byte
  /-- CMD: the last accepted word (R24). -/
  cmd : Word
deriving DecidableEq, Repr

/-- The operand registers that only the host writes (R31 to R34, R37, R38, R41, R42). -/
structure Operands where
  srcAddr : Word
  srcLen : Word
  dstAddr : Word
  dstLen : Word
  auxAddr : Word
  param : Word
  chunkType : Word
  idatMax : Word
  idatBase : Word
  idatCap : Word
  dirBase : Word
  dirCap : Word
deriving DecidableEq, Repr

/-- RES0 to RES3 (R35). -/
structure Results where
  res0 : Word
  res1 : Word
  res2 : Word
  res3 : Word
deriving DecidableEq, Repr

/-- The image header registers (R25), HDR_FORMAT by its fields. -/
structure HeaderRegs where
  width : Word
  height : Word
  bitDepth : Byte
  colorType : Byte
  interlace : Byte
deriving DecidableEq, Repr

/-- FRAMER by its fields (R39, R40), IDAT_LEN (R41) and DIR_COUNT (R42). -/
structure Framer where
  phase : Phase
  plteSeen : Bool
  trnsSeen : Bool
  idatSeen : Bool
  failCode : Byte
  idatLen : Word
  dirCount : Word
deriving DecidableEq, Repr

/-- PLTE_N (R43), TRNS_CTRL by its fields (R44), TRNS_N (R45) and the transparent colours (R46, R47). -/
structure Pal where
  plteN : BitVec 9
  grayValid : Bool
  rgbValid : Bool
  palValid : Bool
  trnsN : BitVec 9
  trnsGray : BitVec 16
  trnsR : BitVec 16
  trnsG : BitVec 16
  trnsB : BitVec 16
deriving DecidableEq, Repr

/-- The MODEL's own fields: what comes next, the value of the last host read, what the host wrote while BUSY, and the two
counters of free values (log 2, 3, 6, 11, 12). -/
structure Bus where
  /-- What the host, the reset input and the engine do next, in order (log 3). -/
  inbox : List Event
  /-- The value the last host read returned (log 11). -/
  lastRead : Word
  /-- A host access that R300(c) forbids has written while BUSY (log 6). -/
  hazard : Bool
  /-- The buffer bytes such accesses wrote (log 6). -/
  busyWrites : List Nat
  /-- How many power-on resets there have been (log 2). -/
  epoch : Nat
  /-- How many free values have been drawn (log 12). -/
  draws : Nat
deriving DecidableEq, Repr

/-- The state of the block: every piece of state of R20 to R52, the parameters of R4, and the model's own fields. -/
structure State where
  params : Params
  ctl : Ctl
  opd : Operands
  res : Results
  /-- CRC_REG (R36). -/
  crcReg : Word
  hdr : HeaderRegs
  framer : Framer
  pal : Pal
  /-- PLTE_RAM (R49). -/
  plteRam : Ram (BitVec 24)
  /-- ALPHA_RAM (R50). -/
  alphaRam : Ram (BitVec 8)
  /-- The buffer RAM (R52). -/
  buf : Memory
  bus : Bus
deriving DecidableEq, Repr

/-- Why a step stops with a fault. -/
inductive Fault where
  /-- Raised by a host access whose first byte is outside the register window and any byte of which is outside the buffer
  window: 93_implementation_defined.md item 12, "the platform's; outside this spec. A model faults". Safe. An access whose
  first byte is in the register window never raises it, also where it runs past the window's end (DESIGN CHOICE, log 9). No
  command raises it. -/
  | hostAccessOutsideWindows
deriving DecidableEq, Repr

/-- Why a step is refused. -/
inductive Refusal where
  /-- Raised by an arm of exec whose instruction has no meaning in this model; no arm does. Safe. -/
  | notModelled (mnemonic : String)
deriving DecidableEq, Repr

/-- The register values of R291, group by group. -/
def Ctl.reset : Ctl where
  irqEn := false
  busy := false
  done := false
  overrun := false
  errCode := 0
  errInfo := 0
  cmd := 0

/-- R291: all 0 but IDAT_MAX, 0x8000 (R38). -/
def Operands.reset : Operands where
  srcAddr := 0
  srcLen := 0
  dstAddr := 0
  dstLen := 0
  auxAddr := 0
  param := 0
  chunkType := 0
  idatMax := 0x8000
  idatBase := 0
  idatCap := 0
  dirBase := 0
  dirCap := 0

/-- R291. -/
def Results.reset : Results := ⟨0, 0, 0, 0⟩

/-- R291, and FRAMER_RESET (R120). -/
def HeaderRegs.reset : HeaderRegs := ⟨0, 0, 0, 0, 0⟩

/-- R291, and FRAMER_RESET (R120): START, nothing seen, no failure. -/
def Framer.reset : Framer where
  phase := .start
  plteSeen := false
  trnsSeen := false
  idatSeen := false
  failCode := 0
  idatLen := 0
  dirCount := 0

/-- R291, and FRAMER_RESET (R120): no palette, no transparency. -/
def Pal.reset : Pal where
  plteN := 0
  grayValid := false
  rgbValid := false
  palValid := false
  trnsN := 0
  trnsGray := 0
  trnsR := 0
  trnsG := 0
  trnsB := 0

/-- The model's own fields, DESIGN CHOICE (log 3, 6, 11, 12). -/
def Bus.reset : Bus where
  inbox := []
  lastRead := 0
  hazard := false
  busyWrites := []
  epoch := 0
  draws := 0

/-- The block right after power-on reset (R290, R291): every register at its reset value, no command running, nothing
written to the three RAMs, nothing to do. -/
def State.reset : State where
  params := Params.default
  ctl := Ctl.reset
  opd := Operands.reset
  res := Results.reset
  crcReg := 0xFFFFFFFF
  hdr := HeaderRegs.reset
  framer := Framer.reset
  pal := Pal.reset
  plteRam := []
  alphaRam := []
  buf := []
  bus := Bus.reset

end Sys2Proof.Machine
end

