-- ==== Sys2Proof/Machine/Ops.lean ====
section
/-! DEFINITION. The named operations over memory and registers: sparse RAMs, reads and writes of the buffer, big-endian
fields (00_scope.md rules R7, R8), the region checks (R9), error codes (60_exceptions.md rules R260, R261), acceptance of a
command (10_state.md rule R24), completion and failure (R262, R263; 41_framer.md rule R121), the resets (R290, R292), and
what host accesses while BUSY leave behind (70_reset_and_hazards.md rule R300). -/

namespace Sys2Proof.Machine

/-! ### Sparse RAMs -/

/-- The value written at `a` since power-on, if any. -/
def ramGet {α : Type} : Ram α → Nat → Option α
  | [], _ => none
  | (k, v) :: m, a => if k = a then some v else ramGet m a

/-- Write `v` at `a`, keeping the addresses strictly rising. -/
def ramSet {α : Type} : Ram α → Nat → α → Ram α
  | [], a, v => [(a, v)]
  | (k, w) :: m, a, v =>
    if a < k then (a, v) :: (k, w) :: m
    else if a = k then (a, v) :: m
    else (k, w) :: ramSet m a v

/-- Write the values of a list at `a`, `a + 1`, .... -/
def ramStore {α : Type} : Ram α → Nat → List α → Ram α
  | m, _, [] => m
  | m, a, v :: vs => ramStore (ramSet m a v) (a + 1) vs

/-- The canonical form: addresses strictly rising, all below the size. An unlisted address has no value of its own in the
list (log 2), so no entry can equal one. -/
abbrev Ram.wf {α : Type} (size : Nat) (m : Ram α) : Prop :=
  (m.map Prod.fst).Pairwise (· < ·) ∧ ∀ k ∈ m.map Prod.fst, k < size

/-- The canonical form of the buffer RAM. -/
abbrev Memory.wf (size : Nat) (m : Memory) : Prop := Ram.wf size m

/-! ### The buffer RAM, PLTE_RAM and ALPHA_RAM -/

/-- `mem[a]`: the byte written there since power-on, else the unspecified value it holds (R79). -/
def bufByte (s : State) (a : Nat) : Byte := (ramGet s.buf a).getD (Config.ramByte s.bus.epoch a)

/-- `PLTE_RAM[i]` (R49). -/
def plteEntry (s : State) (i : Nat) : BitVec 24 := (ramGet s.plteRam i).getD (Config.plteEntry s.bus.epoch i)

/-- `ALPHA_RAM[i]` (R50). -/
def alphaEntry (s : State) (i : Nat) : Byte := (ramGet s.alphaRam i).getD (Config.alphaEntry s.bus.epoch i)

/-- `MemRead(a, n)` (R7). -/
def memRead (s : State) (a n : Nat) : List Byte := (List.range n).map fun i => bufByte s (a + i)

/-- `MemWrite(a, |bs|, bs)` (R7). -/
def memWrite (s : State) (a : Nat) (bs : List Byte) : State := { s with buf := ramStore s.buf a bs }

/-- `BE(bs)`: the most significant byte first (R8). -/
def beNat (bs : List Byte) : Nat := bs.foldl (fun v b => v * 256 + b.toNat) 0

/-- `BEbytes(v, k)` (R8). -/
def beBytes (v k : Nat) : List Byte := (List.range k).map fun i => BitVec.ofNat 8 (v / 256 ^ (k - 1 - i))

/-- The 32-bit big-endian field at `a` (R8, R62). -/
def be32 (s : State) (a : Nat) : Nat := beNat (memRead s a 4)

/-- The 16-bit big-endian field at `a` (R8, R62). -/
def be16 (s : State) (a : Nat) : Nat := beNat (memRead s a 2)

/-! ### Region checks -/

/-- `CheckRegion(a, n, id)`, in unbounded integers (R9, R68). -/
def checkRegion (s : State) (a n : Nat) (r : Region) : Except Err Unit :=
  if a + n ≤ s.params.memBytes then .ok () else .error (.addressOutOfRange r)

/-- `Overlap(a, n, b, m)` (R9). -/
def overlap (a n b m : Nat) : Bool := decide (0 < n ∧ 0 < m ∧ a < b + m ∧ b < a + n)

/-- `CheckDisjoint(d, n, id, sources)` (R9, R69). -/
def checkDisjoint (d n : Nat) (r : Region) (sources : List (Nat × Nat)) : Except Err Unit :=
  if sources.any fun q => overlap d n q.1 q.2 then .error (.regionOverlap r) else .ok ()

/-- `CheckCap(need, cap, id)` (R9). -/
def checkCap (need cap : Nat) (r : Region) : Except Err Unit :=
  if need ≤ cap then .ok () else .error (.bufferTooSmall r)

/-- Raise `e` unless `c` holds (R263). -/
def require (c : Bool) (e : Err) : Except Err Unit := if c then .ok () else .error e

/-! ### Error codes -/

/-- The number of a region (R9). -/
def Region.code (r : Region) : Byte :=
  match r with
  | .src => 0
  | .dst => 1
  | .aux => 2
  | .idat => 3
  | .dir => 4

/-- The INFO of IllegalCommand (R82, R260). -/
def IllegalKind.code (k : IllegalKind) : Byte :=
  match k with
  | .opcode => 0
  | .reserved => 1
  | .sub => 2
  | .flags => 3
  | .parameter => 4

/-- The INFO of MissingChunk (R260). -/
def MissingKind.code (k : MissingKind) : Byte :=
  match k with
  | .ihdr => 0
  | .plte => 1
  | .idat => 2
  | .iend => 3

/-- ERROR.CODE of an error (R260). -/
def Err.code (e : Err) : Byte :=
  match e with
  | .signatureMismatch => 0x01
  | .missingChunk _ => 0x02
  | .unexpectedChunkOrder => 0x03
  | .chunkCrcMismatch => 0x04
  | .truncatedChunk => 0x05
  | .invalidHeader => 0x06
  | .paletteRequired => 0x07
  | .paletteIndexOutOfRange _ => 0x08
  | .unsupportedColorConversion => 0x09
  | .insufficientPixelData => 0x0C
  | .illegalCommand _ => 0x20
  | .addressOutOfRange _ => 0x21
  | .regionOverlap _ => 0x22
  | .bufferTooSmall _ => 0x23
  | .invalidFilterType _ => 0x24
  | .invalidChunkData => 0x25
  | .unknownCriticalChunk => 0x26
  | .framerFailed _ => 0x27

/-- ERROR.INFO of an error (R260, R261). -/
def Err.info (e : Err) : Byte :=
  match e with
  | .missingChunk k => k.code
  | .paletteIndexOutOfRange i => i
  | .illegalCommand k => k.code
  | .addressOutOfRange r => r.code
  | .regionOverlap r => r.code
  | .bufferTooSmall r => r.code
  | .invalidFilterType t => t
  | .framerFailed c => c
  | .signatureMismatch => 0
  | .unexpectedChunkOrder => 0
  | .chunkCrcMismatch => 0
  | .truncatedChunk => 0
  | .invalidHeader => 0
  | .paletteRequired => 0
  | .unsupportedColorConversion => 0
  | .insufficientPixelData => 0
  | .invalidChunkData => 0
  | .unknownCriticalChunk => 0

/-- The error a word that does not decode completes with (R82). -/
def decodeErr (e : DecodeError) : Err :=
  match e with
  | .unassignedOpcode => .illegalCommand .opcode
  | .reservedNotZero => .illegalCommand .reserved
  | .badSub => .illegalCommand .sub
  | .badFlags => .illegalCommand .flags

/-! ### Result registers -/

/-- `reg[RES0] <- n` (R35), modulo 2^32 (item 25). -/
def setRes0 (s : State) (n : Nat) : State := { s with res := { s.res with res0 := BitVec.ofNat 32 n } }

/-- `reg[RES1] <- n` (R35). -/
def setRes1 (s : State) (n : Nat) : State := { s with res := { s.res with res1 := BitVec.ofNat 32 n } }

/-- `reg[RES2] <- n` (R35). -/
def setRes2 (s : State) (n : Nat) : State := { s with res := { s.res with res2 := BitVec.ofNat 32 n } }

/-- `reg[RES3] <- n` (R35). -/
def setRes3 (s : State) (n : Nat) : State := { s with res := { s.res with res3 := BitVec.ofNat 32 n } }

/-! ### Acceptance, completion and failure

This block has no trap entry and no return from one (R272, R273): an error is the way a command completes, and `fail` is
the one operation every error goes through. -/

/-- Acceptance of the command word `w` (R24). The operand sample is the registers themselves (log 4). -/
def accept (s : State) (w : Word) : State :=
  { s with ctl := { s.ctl with cmd := w, busy := true, done := false, errCode := 0, errInfo := 0 } }

/-- The command word the engine runs: the last accepted one (R24, R80). -/
def fetchWord (s : State) : Word := s.ctl.cmd

/-- `Complete(code, info)`'s register writes (R262): ERROR, BUSY and DONE. -/
def complete (s : State) (code info : Byte) : State :=
  { s with ctl := { s.ctl with busy := false, done := true, errCode := code, errInfo := info } }

/-- Successful completion: `s` holds the command's writes (R262). -/
def succeed (s : State) : State := complete s 0 0

/-- Completion with an error (R262, R263): `s` is the state at acceptance, so every write of the command is discarded. -/
def fail (s : State) (e : Err) : State := complete s e.code e.info

/-- FRAMER after a failed parse command (R121): FramerFailed changes nothing, any other error enters FAILED. -/
def failFramer (s : State) (e : Err) : State :=
  match e with
  | .framerFailed _ => s
  | _ => { s with framer := { s.framer with phase := .failed, failCode := e.code } }

/-- The completion of a command that answers the state its writes leave, or raises (R262). -/
def finish (s : State) (r : Except Err State) : Host.Outcome State Fault Refusal :=
  match r with
  | .ok t => .next (succeed t)
  | .error e => .next (fail s e)

/-- The completion of SIG_CHECK and CHUNK_PARSE (R121, R262). -/
def finishParse (s : State) (r : Except Err State) : Host.Outcome State Fault Refusal :=
  match r with
  | .ok t => .next (succeed t)
  | .error e => .next (fail (failFramer s e) e)

/-! ### Resets -/

/-- Soft reset (R292): every register as after power-on; the three RAMs, the parameters and the model's own fields stay. -/
def softReset (s : State) : State :=
  { State.reset with
    params := s.params
    plteRam := s.plteRam
    alphaRam := s.alphaRam
    buf := s.buf
    bus := s.bus }

/-- Power-on reset (R290, R293): every register at its reset value, a running command abandoned, the three RAMs
unspecified anew. What is still to come stays in the inbox (log 13). -/
def powerOn (s : State) : State :=
  { State.reset with
    params := s.params
    bus := { Bus.reset with
      inbox := s.bus.inbox
      lastRead := s.bus.lastRead
      epoch := s.bus.epoch + 1
      draws := s.bus.draws } }

/-! ### What the host leaves behind while BUSY (R300(c), D51; log 5, 6) -/

/-- A host access while BUSY has written the buffer bytes `addrs`; they are unspecified after the completion. -/
def markHazard (s : State) (addrs : List Nat) : State :=
  { s with bus := { s.bus with hazard := true, busyWrites := s.bus.busyWrites ++ addrs } }

/-- The buffer byte at `a` takes an unspecified value. -/
def freeByteAt (s : State) (a : Nat) : State :=
  { s with
    buf := ramSet s.buf a (Config.freeByte s.bus.draws)
    bus := { s.bus with draws := s.bus.draws + 1 } }

/-- The buffer bytes of a region that exist. -/
def regionAddrs (size : Nat) (q : Nat × Nat) : List Nat := (List.range (min q.2 (size - q.1))).map fun i => q.1 + i

/-- After a completion: where a forbidden host write happened while BUSY, the destination bytes of the command and the bytes
so written are unspecified (R300(c), D51; log 6). -/
def settle (dests : List (Nat × Nat)) (s : State) : State :=
  if s.bus.hazard then
    let t := (dests.flatMap (regionAddrs s.params.memBytes) ++ s.bus.busyWrites).foldl freeByteAt s
    { t with bus := { t.bus with hazard := false, busyWrites := [] } }
  else s

end Sys2Proof.Machine
end

