-- ==== Sys2Proof/Machine/Operands.lean ====
section
/-! DEFINITION. The operands of the commands: the header and what is derived from it (10_state.md rules R26 to R30), the
fields of PARAM (30_encoding.md rule R84), packed pixels (00_scope.md rule R13), sample arrays (R14), rounding and rescale
(R10 to R12), and the shared region checks. -/

namespace Sys2Proof.Machine

/-! ### The header -/

/-- A valid header (R28), its fields by their meaning. -/
structure Header where
  width : Nat
  height : Nat
  depth : Nat
  color : ColorType
  interlaced : Bool
deriving DecidableEq, Repr

/-- `Legal(d, ct)` (R27); LEGAL_PAIRS can only drop pairs (D20; log 14). -/
def legalPair (p : Params) (d ct : Nat) : Bool := Config.pngPairs.contains (d, ct) && p.legalPairs.contains (d, ct)

/-- The header of given field values, where it is valid (R28). -/
def headerOf (p : Params) (w h d ct im : Nat) : Option Header :=
  if 1 ≤ w ∧ 1 ≤ h ∧ legalPair p d ct = true ∧ im ≤ 1 then
    (ColorType.ofCode ct).map fun c => ⟨w, h, d, c, im == 1⟩
  else none

/-- The header in the header registers, where `HeaderValid()` holds (R28). -/
def header (s : State) : Option Header :=
  headerOf s.params s.hdr.width.toNat s.hdr.height.toNat s.hdr.bitDepth.toNat s.hdr.colorType.toNat s.hdr.interlace.toNat

/-- `HeaderValid()`, or InvalidHeader(0) (R28). -/
def requireHeader (s : State) : Except Err Header :=
  match header s with
  | some h => .ok h
  | none => .error .invalidHeader

/-- BITS_PP (R29). -/
def Header.bitsPP (h : Header) : Nat := h.color.channels * h.depth

/-- BPP, filter bytes per pixel (R29). -/
def Header.bpp (h : Header) : Nat := max 1 (h.bitsPP / 8)

/-- `RowBytes(w, b)` (R13). -/
def rowBytes (w b : Nat) : Nat := ceilDiv (w * b) 8

/-- ROW_BYTES, exact (R30). -/
def Header.rowBytes (h : Header) : Nat := Sys2Proof.Machine.rowBytes h.width h.bitsPP

/-! ### Operand registers as numbers -/

/-- SRC_ADDR (R31). -/
def srcAddr (s : State) : Nat := s.opd.srcAddr.toNat

/-- SRC_LEN (R31). -/
def srcLen (s : State) : Nat := s.opd.srcLen.toNat

/-- DST_ADDR (R32). -/
def dstAddr (s : State) : Nat := s.opd.dstAddr.toNat

/-- DST_LEN (R32). -/
def dstLen (s : State) : Nat := s.opd.dstLen.toNat

/-- AUX_ADDR (R33). -/
def auxAddr (s : State) : Nat := s.opd.auxAddr.toNat

/-- PARAM[3:0], the bpp of the row commands (R84, R160). -/
def paramBpp (s : State) : Nat := s.opd.param.toNat % 16

/-- PARAM[7:0], the Paeth input a (R84, R181). -/
def paramA (s : State) : Nat := s.opd.param.toNat % 256

/-- PARAM[15:8], the Paeth input b (R84, R181). -/
def paramB (s : State) : Nat := s.opd.param.toNat / 256 % 256

/-- PARAM[23:16], the Paeth input c (R84, R181). -/
def paramC (s : State) : Nat := s.opd.param.toNat / 65536 % 256

/-- PARAM[31:0], the pixel count of COLOR_CONVERT (R84, R235). -/
def paramCount (s : State) : Nat := s.opd.param.toNat

/-- The checks on an output of `n` bytes at DST_ADDR whose sources are `sources`, in the order the rules write them:
capacity, range, disjointness (R9, R160, R182, R204, R230). -/
def checkDest (s : State) (n : Nat) (sources : List (Nat × Nat)) : Except Err Unit := do
  checkCap n (dstLen s) .dst
  checkRegion s (dstAddr s) n .dst
  checkDisjoint (dstAddr s) n .dst sources

/-- The checks on an input of `nIn` bytes at SRC_ADDR and an output of `nOut` bytes at DST_ADDR (R182, R204, R230). -/
def checkSrcDest (s : State) (nIn nOut : Nat) : Except Err Unit := do
  checkRegion s (srcAddr s) nIn .src
  checkDest s nOut [(srcAddr s, nIn)]

/-! ### Rounding and rescale -/

/-- `RoundDiv(a, b)`: halves rounded up (R10). -/
def roundDiv (a b : Nat) : Nat := (2 * a + b) / (2 * b)

/-- `Max(n)` (R11). -/
def maxSample (n : Nat) : Nat := 2 ^ n - 1

/-- `Rescale(v, n_in, n_out)` (R12, R223). -/
def rescale (v nIn nOut : Nat) : Nat := roundDiv (v * maxSample nOut) (maxSample nIn)

/-! ### Packed pixels and sample arrays -/

/-- Byte `i` of a row. -/
def byteAt (r : List Byte) (i : Nat) : Byte := r.getD i 0

/-- String bit `k` of a row: bit `7 - (k mod 8)` of byte `floor(k / 8)` (R13). -/
def rowBit (r : List Byte) (k : Nat) : Bool := (byteAt r (k / 8)).getLsbD (7 - k % 8)

/-- `GetPix(r, x, b)`: string bits `x·b .. x·b + b - 1`, most significant first (R13). -/
def getPix (r : List Byte) (x b : Nat) : Nat :=
  (List.range b).foldl (fun v j => 2 * v + (rowBit r (x * b + j)).toNat) 0

/-- A byte with bit `i` (0 the least significant) set to `v`. -/
def setByteBit (c : Byte) (i : Nat) (v : Bool) : Byte :=
  if v then c ||| BitVec.ofNat 8 (2 ^ i) else c &&& ~~~BitVec.ofNat 8 (2 ^ i)

/-- A row with string bit `k` set to `v` (R13). -/
def setRowBit (r : List Byte) (k : Nat) (v : Bool) : List Byte :=
  r.set (k / 8) (setByteBit (byteAt r (k / 8)) (7 - k % 8) v)

/-- `SetPix(r, x, b, v)` (R13). -/
def setPix (r : List Byte) (x b v : Nat) : List Byte :=
  (List.range b).foldl (fun r j => setRowBit r (x * b + j) (v.testBit (b - 1 - j))) r

/-- `zeros(n)` (R5). -/
def zeros (n : Nat) : List Byte := List.replicate n 0

/-- Row `y` of a byte sequence of rows of `rb` bytes. -/
def rowOf (bs : List Byte) (rb y : Nat) : List Byte := (bs.drop (y * rb)).take rb

/-- Sample `i` of a sample array of width `sw`, 8 or 16 bits (R14). -/
def sampOf (bs : List Byte) (i sw : Nat) : Nat :=
  if sw = 8 then (byteAt bs i).toNat else beNat [byteAt bs (2 * i), byteAt bs (2 * i + 1)]

/-- The sample width a flag selects: 16 bits where it is set, else 8 (R84, R222). -/
def sampleWidth (wide : Bool) : Nat := if wide then 16 else 8

end Sys2Proof.Machine
end

