-- ==== Sys2Proof/Machine/Control.lean ====
section
/-! DEFINITION. The control command (45_control.md). -/

namespace Sys2Proof.Machine

/-- NOP (R140): nothing but the completion. -/
def execNop (s : State) : Host.Outcome State Fault Refusal := finish s (.ok s)

end Sys2Proof.Machine
end

