-- ==== Sys2Proof/Machine/Crc.lean ====
section
/-! DEFINITION. The CRC32 engine (40_crc.md). -/

namespace Sys2Proof.Machine

/-- One of the eight steps that build a table entry (R101). -/
def crcBitStep (c : Word) : Word := if c &&& 1 = 1 then 0xEDB88320 ^^^ (c >>> 1) else c >>> 1

/-- `CRC_TABLE[i]` (R101). -/
def crcTable (i : Nat) : Word := (List.range 8).foldl (fun c _ => crcBitStep c) (BitVec.ofNat 32 i)

/-- `CrcStep(c, b)` (R102). -/
def crcStep (c : Word) (b : Byte) : Word := crcTable ((c ^^^ b.setWidth 32) &&& 0xFF).toNat ^^^ (c >>> 8)

/-- `Fold(c, bs)`: the first byte first (R100). -/
def crcFold (c : Word) (bs : List Byte) : Word := bs.foldl crcStep c

/-- `crc32(bs)` (R100). -/
def crc32 (bs : List Byte) : Word := crcFold 0xFFFFFFFF bs ^^^ 0xFFFFFFFF

/-- CRC_INIT (R103). -/
def execCrcInit (s : State) : Host.Outcome State Fault Refusal := finish s (.ok { s with crcReg := 0xFFFFFFFF })

/-- CRC_UPDATE's rule (R104). -/
def crcUpdate (s : State) : Except Err State := do
  checkRegion s (srcAddr s) (srcLen s) .src
  .ok { s with crcReg := crcFold s.crcReg (memRead s (srcAddr s) (srcLen s)) }

/-- CRC_UPDATE (R104). -/
def execCrcUpdate (s : State) : Host.Outcome State Fault Refusal := finish s (crcUpdate s)

/-- CRC_FINAL (R105). -/
def execCrcFinal (s : State) : Host.Outcome State Fault Refusal :=
  finish s (.ok (setRes0 s (s.crcReg ^^^ 0xFFFFFFFF).toNat))

/-- CRC32's rule (R106). -/
def crcOneShot (s : State) : Except Err State := do
  checkRegion s (srcAddr s) (srcLen s) .src
  .ok (setRes0 s (crc32 (memRead s (srcAddr s) (srcLen s))).toNat)

/-- CRC32 (R106). -/
def execCrc32 (s : State) : Host.Outcome State Fault Refusal := finish s (crcOneShot s)

end Sys2Proof.Machine
end

