-- ==== Sys2Proof/Machine/Framer.lean ====
section
/-! DEFINITION. The chunk framer (41_framer.md; wire formats of 30_encoding.md rules R92 to R97). The parse rules work on
any (address, remaining length) so that CHUNK_PARSE and the steps of STREAM_PARSE share them. -/

namespace Sys2Proof.Machine

/-! ### Chunk types (R97, R127) -/

/-- IHDR (R97). -/
def typeIhdr : Nat := 0x49484452

/-- PLTE (R97). -/
def typePlte : Nat := 0x504C5445

/-- IDAT (R97). -/
def typeIdat : Nat := 0x49444154

/-- IEND (R97). -/
def typeIend : Nat := 0x49454E44

/-- tRNS (R97). -/
def typeTrns : Nat := 0x74524E53

/-- The classes of R127. -/
inductive Kind where
  | ihdr
  | plte
  | trns
  | idat
  | iend
  | ancillary
  | unknownCritical
deriving DecidableEq, Repr

/-- `Kind(t)` (R127): bit 29 of the code tells ancillary from critical (R97). -/
def kindOf (t : Nat) : Kind :=
  if t = typeIhdr then .ihdr
  else if t = typePlte then .plte
  else if t = typeTrns then .trns
  else if t = typeIdat then .idat
  else if t = typeIend then .iend
  else if t.testBit 29 then .ancillary
  else .unknownCritical

/-- A framed chunk: its length L, its type t, and the address d of its data (R124, R125). -/
structure Chunk where
  len : Nat
  type : Nat
  data : Nat
deriving DecidableEq, Repr

/-- The PNG signature (R92). -/
def signature : List Byte := [0x89, 0x50, 0x4E, 0x47, 0x0D, 0x0A, 0x1A, 0x0A]

/-! ### FRAMER_RESET and SIG_CHECK -/

/-- FRAMER_RESET's writes (R120). -/
def framerReset (s : State) : State :=
  { s with framer := Framer.reset, pal := Pal.reset, hdr := HeaderRegs.reset }

/-- FRAMER_RESET (R120). -/
def execFramerReset (s : State) : Host.Outcome State Fault Refusal := finish s (.ok (framerReset s))

/-- FRAMER.STATE <- p. -/
def setPhase (s : State) (p : Phase) : State := { s with framer := { s.framer with phase := p } }

/-- SIG_CHECK's checks and its commit of SIG_OK (R123). -/
def parseSignature (s : State) : Except Err State := do
  require (s.framer.phase != .failed) (.framerFailed s.framer.failCode)
  require (s.framer.phase == .start) .unexpectedChunkOrder
  require (decide (8 ≤ srcLen s)) .signatureMismatch
  checkRegion s (srcAddr s) 8 .src
  require (memRead s (srcAddr s) 8 == signature) .signatureMismatch
  .ok (setPhase s .sigOk)

/-- SIG_CHECK's rule with its result (R123). -/
def sigCheck (s : State) : Except Err State := do
  let t ← parseSignature s
  .ok (setRes0 t 8)

/-- SIG_CHECK (R123, R121). -/
def execSigCheck (s : State) : Host.Outcome State Fault Refusal := finishParse s (sigCheck s)

/-! ### CHUNK_PARSE, part 1: framing and integrity -/

/-- `MissingKind(st)` (R124). -/
def missingKind (s : State) : MissingKind :=
  match s.framer.phase with
  | .sigOk => .ihdr
  | .header => if s.hdr.colorType = 3 ∧ s.framer.plteSeen = false then .plte else .idat
  | _ => .iend

/-- The framing and integrity checks on the chunk at `a` with `rem` bytes left in the stream (R124). -/
def frameChunk (s : State) (a rem : Nat) : Except Err Chunk := do
  require (s.framer.phase != .failed) (.framerFailed s.framer.failCode)
  require (s.framer.phase != .start && s.framer.phase != .ended) .unexpectedChunkOrder
  require (decide (rem ≠ 0)) (.missingChunk (missingKind s))
  require (decide (8 ≤ rem)) .truncatedChunk
  checkRegion s a 8 .src
  let len := be32 s a
  require (decide (len ≤ rem - 8)) .truncatedChunk
  require (decide (4 ≤ rem - 8 - len)) .truncatedChunk
  checkRegion s a (12 + len) .src
  require ((crc32 (memRead s (a + 4) (4 + len))).toNat == be32 s (a + 8 + len)) .chunkCrcMismatch
  .ok ⟨len, be32 s (a + 4), a + 8⟩

/-! ### The per-type rules -/

/-- IHDR (R128). -/
def parseIhdr (s : State) (c : Chunk) : Except Err State := do
  require (s.framer.phase == .sigOk) .unexpectedChunkOrder
  require (c.len == 13) .invalidHeader
  let w := be32 s c.data
  let h := be32 s (c.data + 4)
  let dep := bufByte s (c.data + 8)
  let ct := bufByte s (c.data + 9)
  let cm := bufByte s (c.data + 10)
  let fm := bufByte s (c.data + 11)
  let im := bufByte s (c.data + 12)
  require (decide (w ≠ 0 ∧ h ≠ 0) && legalPair s.params dep.toNat ct.toNat && decide (cm = 0 ∧ fm = 0 ∧ im.toNat ≤ 1))
    .invalidHeader
  .ok (setPhase { s with hdr := ⟨BitVec.ofNat 32 w, BitVec.ofNat 32 h, dep, ct, im⟩ } .header)

/-- A PLTE_RAM entry: red [23:16], green [15:8], blue [7:0] (R49). -/
def rgbEntry (r g b : Byte) : BitVec 24 := r ++ g ++ b

/-- PLTE (R129). -/
def parsePlte (s : State) (c : Chunk) : Except Err State := do
  require (s.framer.phase == .header && !s.framer.plteSeen && !s.framer.trnsSeen) .unexpectedChunkOrder
  require (s.hdr.colorType != 0 && s.hdr.colorType != 4) .invalidChunkData
  require (decide (c.len ≠ 0 ∧ c.len % 3 = 0 ∧ c.len ≤ 768 ∧ ¬(s.hdr.colorType = 3 ∧ 2 ^ s.hdr.bitDepth.toNat < c.len / 3)))
    .invalidChunkData
  let entries := (List.range (c.len / 3)).map fun i =>
    rgbEntry (bufByte s (c.data + 3 * i)) (bufByte s (c.data + 3 * i + 1)) (bufByte s (c.data + 3 * i + 2))
  .ok { s with
    plteRam := ramStore s.plteRam 0 entries
    pal := { s.pal with plteN := BitVec.ofNat 9 (c.len / 3) }
    framer := { s.framer with plteSeen := true } }

/-- IDAT (R130). `source` is the region whose overlap is refused. -/
def parseIdat (s : State) (c : Chunk) (source : Nat × Nat) : Except Err State := do
  require (s.framer.phase == .header || s.framer.phase == .idat) .unexpectedChunkOrder
  require (decide (¬(s.hdr.colorType = 3 ∧ s.framer.plteSeen = false))) (.missingChunk .plte)
  checkCap (s.framer.idatLen.toNat + c.len) s.opd.idatCap.toNat .idat
  let a := s.opd.idatBase.toNat + s.framer.idatLen.toNat
  checkRegion s a c.len .idat
  checkDisjoint a c.len .idat [source]
  let t := memWrite s a (memRead s c.data c.len)
  .ok { t with
    framer := { s.framer with
      phase := .idat
      idatSeen := true
      idatLen := BitVec.ofNat 32 (s.framer.idatLen.toNat + c.len) } }

/-- `DirRecord(t, d, L)` (R134). -/
def dirRecord (c : Chunk) : List Byte := beBytes c.type 4 ++ beBytes c.data 4 ++ beBytes c.len 4

/-- The address of the next directory record (R131). -/
def dirNext (s : State) : Nat := s.opd.dirBase.toNat + 12 * s.framer.dirCount.toNat

/-- Every other ancillary chunk: a directory record (R131). -/
def parseAncillary (s : State) (c : Chunk) (source : Nat × Nat) : Except Err State := do
  require (decide (s.framer.dirCount.toNat < s.opd.dirCap.toNat)) (.bufferTooSmall .dir)
  checkRegion s (dirNext s) 12 .dir
  checkDisjoint (dirNext s) 12 .dir [source]
  let t := memWrite s (dirNext s) (dirRecord c)
  .ok { t with
    framer := { s.framer with
      phase := if s.framer.phase = .idat then .postIdat else s.framer.phase
      dirCount := BitVec.ofNat 32 (s.framer.dirCount.toNat + 1) } }

/-- What a tRNS chunk of a length that fits its colour type writes (R132). A colour type of none of the three shapes (it can
only be a host-written one) writes nothing of its own (log 15). -/
def trnsBody (s : State) (c : Chunk) : Except Err State :=
  match s.hdr.colorType.toNat with
  | 0 => do
    require (c.len == 2) .invalidChunkData
    .ok { s with pal := { s.pal with trnsGray := BitVec.ofNat 16 (be16 s c.data), grayValid := true } }
  | 2 => do
    require (c.len == 6) .invalidChunkData
    .ok { s with
      pal := { s.pal with
        trnsR := BitVec.ofNat 16 (be16 s c.data)
        trnsG := BitVec.ofNat 16 (be16 s (c.data + 2))
        trnsB := BitVec.ofNat 16 (be16 s (c.data + 4))
        rgbValid := true } }
  | 3 => do
    require (decide (c.len ≤ s.pal.plteN.toNat)) .invalidChunkData
    .ok { s with
      alphaRam := ramStore s.alphaRam 0 (memRead s c.data c.len)
      pal := { s.pal with trnsN := BitVec.ofNat 9 c.len, palValid := true } }
  | _ => .ok s

/-- tRNS (R132). -/
def parseTrns (s : State) (c : Chunk) : Except Err State := do
  require (s.framer.phase == .header && !s.framer.trnsSeen) .unexpectedChunkOrder
  require (decide (¬(s.hdr.colorType = 3 ∧ s.framer.plteSeen = false))) .unexpectedChunkOrder
  require (s.hdr.colorType != 4 && s.hdr.colorType != 6) .invalidChunkData
  let t ← trnsBody s c
  .ok { t with framer := { s.framer with trnsSeen := true } }

/-- IEND (R133). -/
def parseIend (s : State) (c : Chunk) : Except Err State := do
  require (s.framer.phase != .header) (.missingChunk (missingKind s))
  require (c.len == 0) .invalidChunkData
  .ok (setPhase s .ended)

/-! ### CHUNK_PARSE, part 2: dispatch -/

/-- The rule for the chunk's kind; before IHDR every other kind is out of order (R122, R125). -/
def commitChunk (s : State) (c : Chunk) (source : Nat × Nat) : Except Err State := do
  require (s.framer.phase != .sigOk || kindOf c.type == .ihdr) .unexpectedChunkOrder
  match kindOf c.type with
  | .ihdr => parseIhdr s c
  | .plte => parsePlte s c
  | .trns => parseTrns s c
  | .idat => parseIdat s c source
  | .iend => parseIend s c
  | .ancillary => parseAncillary s c source
  | .unknownCritical => .error .unknownCriticalChunk

/-- One chunk, checked and committed (R124, R125): the state after it and the chunk. -/
def parseChunk (s : State) (a rem : Nat) (source : Nat × Nat) : Except Err (State × Chunk) := do
  let c ← frameChunk s a rem
  let t ← commitChunk s c source
  .ok (t, c)

/-- The results of CHUNK_PARSE (R125). -/
def chunkResults (t : State) (c : Chunk) : State :=
  setRes3 (setRes2 (setRes1 (setRes0 t (12 + c.len)) c.type) c.len) c.data

/-- CHUNK_PARSE's rule (R124, R125). -/
def chunkParse (s : State) : Except Err State := do
  let (t, c) ← parseChunk s (srcAddr s) (srcLen s) (srcAddr s, srcLen s)
  .ok (chunkResults t c)

/-- CHUNK_PARSE (R124, R125, R121). -/
def execChunkParse (s : State) : Host.Outcome State Fault Refusal := finishParse s (chunkParse s)

/-! ### STREAM_PARSE -/

/-- How a STREAM_PARSE ends (R126). -/
inductive StreamEnd where
  /-- IEND was committed: the state, the bytes consumed and the chunks parsed. -/
  | finished (t : State) (off n : Nat)
  /-- A check or a step raised: the error, the state with the steps before it committed, and the offset of the step. -/
  | raised (e : Err) (t : State) (off : Nat)

/-- The loop of R126 over the stream `source`, `off` bytes and `n` chunks in. Each chunk takes at least 12 bytes, so
`fuel` above the chunks that fit is never used up (log 16). -/
def streamLoop (source : Nat × Nat) : Nat → Nat → Nat → State → StreamEnd
  | 0, off, n, s => .finished s off n
  | fuel + 1, off, n, s =>
    match parseChunk s (source.1 + off) (source.2 - off) source with
    | .error e => .raised e s off
    | .ok (t, c) =>
      if t.framer.phase = .ended then .finished t (off + 12 + c.len) (n + 1)
      else streamLoop source fuel (off + 12 + c.len) (n + 1) t

/-- The checks of STREAM_PARSE before its first step (R126). -/
def streamChecks (s : State) : Except Err Unit := do
  require (s.framer.phase != .failed) (.framerFailed s.framer.failCode)
  require (s.framer.phase == .start) .unexpectedChunkOrder
  checkRegion s (srcAddr s) (srcLen s) .src
  checkDisjoint s.opd.idatBase.toNat s.opd.idatCap.toNat .idat [(srcAddr s, srcLen s)]
  checkDisjoint s.opd.dirBase.toNat (12 * s.opd.dirCap.toNat) .dir [(srcAddr s, srcLen s)]

/-- STREAM_PARSE's rule (R126). -/
def streamParse (s : State) : StreamEnd :=
  match streamChecks s with
  | .error e => .raised e s 0
  | .ok _ =>
    match parseSignature s with
    | .error e => .raised e s 0
    | .ok t => streamLoop (srcAddr s, srcLen s) (srcLen s / 12 + 1) 8 0 t

/-- The completion of STREAM_PARSE (R126, R262; conflict C12): the steps before the failing one stay committed and RES0
takes its offset, but FramerFailed changes nothing. -/
def finishStream (s : State) (r : StreamEnd) : Host.Outcome State Fault Refusal :=
  match r with
  | .finished t off n => .next (succeed (setRes3 (setRes2 (setRes1 (setRes0 t off) t.framer.idatLen.toNat) t.framer.dirCount.toNat) n))
  | .raised (.framerFailed c) _ _ => .next (fail s (.framerFailed c))
  | .raised e t off => .next (fail (failFramer (setRes0 t off) e) e)

/-- STREAM_PARSE (R126). -/
def execStreamParse (s : State) : Host.Outcome State Fault Refusal := finishStream s (streamParse s)

/-! ### Serialisation -/

/-- `ChunkBytes(t, bs)` (R136, R93). -/
def chunkBytes (t : Nat) (bs : List Byte) : List Byte :=
  beBytes bs.length 4 ++ beBytes t 4 ++ bs ++ beBytes (crc32 (beBytes t 4 ++ bs)).toNat 4

/-- SIG_WRITE's rule (R135). -/
def sigWrite (s : State) : Except Err State := do
  checkCap 8 (dstLen s) .dst
  checkRegion s (dstAddr s) 8 .dst
  .ok (setRes0 (memWrite s (dstAddr s) signature) 8)

/-- SIG_WRITE (R135). -/
def execSigWrite (s : State) : Host.Outcome State Fault Refusal := finish s (sigWrite s)

/-- CHUNK_WRITE's rule (R136). -/
def chunkWrite (s : State) : Except Err State := do
  checkSrcDest s (srcLen s) (12 + srcLen s)
  let bs := memRead s (srcAddr s) (srcLen s)
  let t := memWrite s (dstAddr s) (chunkBytes s.opd.chunkType.toNat bs)
  .ok (setRes1 (setRes0 t (12 + srcLen s)) (crc32 (beBytes s.opd.chunkType.toNat 4 ++ bs)).toNat)

/-- CHUNK_WRITE (R136). -/
def execChunkWrite (s : State) : Host.Outcome State Fault Refusal := finish s (chunkWrite s)

/-- The 13 data bytes of the header registers (R94, R137). -/
def ihdrData (s : State) : List Byte :=
  beBytes s.hdr.width.toNat 4 ++ beBytes s.hdr.height.toNat 4 ++ [s.hdr.bitDepth, s.hdr.colorType, 0, 0, s.hdr.interlace]

/-- IHDR_WRITE's rule (R137). -/
def ihdrWrite (s : State) : Except Err State := do
  let _ ← requireHeader s
  checkCap 25 (dstLen s) .dst
  checkRegion s (dstAddr s) 25 .dst
  let t := memWrite s (dstAddr s) (chunkBytes typeIhdr (ihdrData s))
  .ok (setRes1 (setRes0 t 25) (crc32 (beBytes typeIhdr 4 ++ ihdrData s)).toNat)

/-- IHDR_WRITE (R137). -/
def execIhdrWrite (s : State) : Host.Outcome State Fault Refusal := finish s (ihdrWrite s)

/-- The number of IDAT chunks IDAT_WRITE emits (R138). -/
def idatCount (s : State) : Nat := max 1 (ceilDiv (srcLen s) s.opd.idatMax.toNat)

/-- The bytes IDAT_WRITE emits (R138). -/
def idatBytes (s : State) : List Byte :=
  (List.range (idatCount s)).flatMap fun j =>
    chunkBytes typeIdat (memRead s (srcAddr s + j * s.opd.idatMax.toNat)
      (min s.opd.idatMax.toNat (srcLen s - j * s.opd.idatMax.toNat)))

/-- IDAT_WRITE's rule (R138). -/
def idatWrite (s : State) : Except Err State := do
  require (s.opd.idatMax != 0) (.illegalCommand .parameter)
  checkSrcDest s (srcLen s) (srcLen s + 12 * idatCount s)
  let t := memWrite s (dstAddr s) (idatBytes s)
  .ok (setRes1 (setRes0 t (srcLen s + 12 * idatCount s)) (idatCount s))

/-- IDAT_WRITE (R138). -/
def execIdatWrite (s : State) : Host.Outcome State Fault Refusal := finish s (idatWrite s)

end Sys2Proof.Machine
end

