-- ==== Sys2Proof/Machine/Filter.lean ====
section
/-! DEFINITION. The scanline filters (42_filter.md). The pass sizes of the sub-images are 43_interlace.md rules R200, R201. -/

namespace Sys2Proof.Machine

/-! ### Predictors (R161 to R163) -/

/-- `paeth(a, b, c)`: signed distances, ties to a, then b (R163). -/
def paeth (a b c : Nat) : Nat :=
  let p : Int := a + b - c
  let pa := (p - a).natAbs
  let pb := (p - b).natAbs
  let pc := (p - c).natAbs
  if pa ≤ pb ∧ pa ≤ pc then a else if pb ≤ pc then b else c

/-- `Pred(f, a, b, c)` (R162). -/
def predict (f : FilterType) (a b c : Nat) : Nat :=
  match f with
  | .none => 0
  | .sub => a
  | .up => b
  | .average => (a + b) / 2
  | .paeth => paeth a b c

/-- The neighbour `bpp` bytes to the left of position `x`, 0 where there is none (R161). -/
def leftOf (r : List Byte) (bpp x : Nat) : Byte := if bpp ≤ x then byteAt r (x - bpp) else 0

/-- The predictor at byte position `x`, from the reconstructed row `recon` and the prior row (R161, R162). -/
def predictAt (f : FilterType) (recon prior : List Byte) (bpp x : Nat) : Byte :=
  BitVec.ofNat 8 (predict f (leftOf recon bpp x).toNat (byteAt prior x).toNat (leftOf prior bpp x).toNat)

/-- `Apply(f, raw, prior, bpp)` (R164). -/
def applyFilter (f : FilterType) (raw prior : List Byte) (bpp : Nat) : List Byte :=
  (List.range raw.length).map fun x => byteAt raw x - predictAt f raw prior bpp x

/-- `Reverse(f, filt, prior, bpp)`: byte by byte, each from the bytes reconstructed before it (R165). -/
def reverseFilter (f : FilterType) (filt prior : List Byte) (bpp : Nat) : List Byte :=
  (List.range filt.length).foldl (fun recon x => recon ++ [byteAt filt x + predictAt f recon prior bpp x]) []

/-- The weight of a byte in a score, by SCORE_READING (R167). -/
def scoreWeight (r : ScoreReading) (v : Byte) : Nat :=
  match r with
  | .signed => if v.toNat < 128 then v.toNat else 256 - v.toNat
  | .offset128 => if v.toNat < 128 then 128 - v.toNat else v.toNat - 128

/-- `Score(bs)` (R167). -/
def score (r : ScoreReading) (bs : List Byte) : Nat := (bs.map (scoreWeight r)).sum

/-- `Select(raw, prior, bpp)`: the lowest filter type of minimal score, and that score (R168). -/
def selectFilter (r : ScoreReading) (raw prior : List Byte) (bpp : Nat) : FilterType × Nat :=
  [FilterType.sub, .up, .average, .paeth].foldl
    (fun best f =>
      let v := score r (applyFilter f raw prior bpp)
      if v < best.2 then (f, v) else best)
    (.none, score r (applyFilter .none raw prior bpp))

/-! ### Row commands (R160) -/

/-- The prior row: zeros with FIRST, else the bytes at AUX_ADDR (R160). -/
def priorRow (s : State) (first : Bool) : List Byte :=
  if first then zeros (srcLen s) else memRead s (auxAddr s) (srcLen s)

/-- The input row (R160). -/
def inputRow (s : State) : List Byte := memRead s (srcAddr s) (srcLen s)

/-- The source regions of a row command (R160). -/
def rowSources (s : State) (first : Bool) : List (Nat × Nat) :=
  (srcAddr s, srcLen s) :: if first then [] else [(auxAddr s, srcLen s)]

/-- The checks of a row command with an output of `m` bytes (R160). -/
def rowChecks (s : State) (first : Bool) (m : Nat) : Except Err Unit := do
  require (decide (1 ≤ paramBpp s ∧ paramBpp s ≤ 8)) (.illegalCommand .parameter)
  checkRegion s (srcAddr s) (srcLen s) .src
  if first then .ok () else checkRegion s (auxAddr s) (srcLen s) .aux
  checkDest s m (rowSources s first)

/-- FILT_APPLY's common part (R185). -/
def filtApply (f : FilterType) (first : Bool) (s : State) : Except Err State := do
  rowChecks s first (srcLen s)
  let out := applyFilter f (inputRow s) (priorRow s first) (paramBpp s)
  .ok (setRes1 (setRes0 (memWrite s (dstAddr s) out) (srcLen s)) (score s.params.scoreReading out))

/-- FILT_APPLY.NONE (R185, R170). -/
def execFiltApplyNone (first : Bool) (s : State) : Host.Outcome State Fault Refusal := finish s (filtApply .none first s)

/-- FILT_APPLY.SUB (R185, R171). -/
def execFiltApplySub (first : Bool) (s : State) : Host.Outcome State Fault Refusal := finish s (filtApply .sub first s)

/-- FILT_APPLY.UP (R185, R172). -/
def execFiltApplyUp (first : Bool) (s : State) : Host.Outcome State Fault Refusal := finish s (filtApply .up first s)

/-- FILT_APPLY.AVG (R185, R173). -/
def execFiltApplyAvg (first : Bool) (s : State) : Host.Outcome State Fault Refusal := finish s (filtApply .average first s)

/-- FILT_APPLY.PAETH (R185, R174). -/
def execFiltApplyPaeth (first : Bool) (s : State) : Host.Outcome State Fault Refusal := finish s (filtApply .paeth first s)

/-- FILT_REVERSE's common part (R186). -/
def filtReverse (f : FilterType) (first : Bool) (s : State) : Except Err State := do
  rowChecks s first (srcLen s)
  .ok (setRes0 (memWrite s (dstAddr s) (reverseFilter f (inputRow s) (priorRow s first) (paramBpp s))) (srcLen s))

/-- FILT_REVERSE.NONE (R186, R175). -/
def execFiltReverseNone (first : Bool) (s : State) : Host.Outcome State Fault Refusal := finish s (filtReverse .none first s)

/-- FILT_REVERSE.SUB (R186, R176). -/
def execFiltReverseSub (first : Bool) (s : State) : Host.Outcome State Fault Refusal := finish s (filtReverse .sub first s)

/-- FILT_REVERSE.UP (R186, R177). -/
def execFiltReverseUp (first : Bool) (s : State) : Host.Outcome State Fault Refusal := finish s (filtReverse .up first s)

/-- FILT_REVERSE.AVG (R186, R178). -/
def execFiltReverseAvg (first : Bool) (s : State) : Host.Outcome State Fault Refusal := finish s (filtReverse .average first s)

/-- FILT_REVERSE.PAETH (R186, R179). -/
def execFiltReversePaeth (first : Bool) (s : State) : Host.Outcome State Fault Refusal := finish s (filtReverse .paeth first s)

/-- FILT_SELECT's rule (R180). -/
def filtSelect (first : Bool) (s : State) : Except Err State := do
  rowChecks s first (srcLen s + 1)
  let best := selectFilter s.params.scoreReading (inputRow s) (priorRow s first) (paramBpp s)
  let out := BitVec.ofNat 8 best.1.code :: applyFilter best.1 (inputRow s) (priorRow s first) (paramBpp s)
  .ok (setRes1 (setRes0 (memWrite s (dstAddr s) out) best.1.code) best.2)

/-- FILT_SELECT (R180). -/
def execFiltSelect (first : Bool) (s : State) : Host.Outcome State Fault Refusal := finish s (filtSelect first s)

/-- PAETH (R181). -/
def execPaeth (s : State) : Host.Outcome State Fault Refusal :=
  finish s (.ok (setRes0 s (paeth (paramA s) (paramB s) (paramC s))))

/-! ### Sub-images and layouts (R169, R200, R201) -/

/-- One row of the pass table (R200). -/
structure Pass where
  xOffset : Nat
  yOffset : Nat
  xStep : Nat
  yStep : Nat
deriving DecidableEq, Repr

/-- The pass table, passes 0 to 6 (R200). -/
def passes : List Pass :=
  [⟨0, 0, 8, 8⟩, ⟨4, 0, 8, 8⟩, ⟨0, 4, 4, 8⟩, ⟨2, 0, 4, 4⟩, ⟨0, 2, 2, 4⟩, ⟨1, 0, 2, 2⟩, ⟨0, 1, 1, 2⟩]

/-- `ceil((size - offset) / step)` where `size > offset`, else 0 (R201). -/
def passSize (size offset step : Nat) : Nat := if offset < size then ceilDiv (size - offset) step else 0

/-- PW (R201). -/
def passWidth (h : Header) (p : Pass) : Nat := passSize h.width p.xOffset p.xStep

/-- PH (R201). -/
def passHeight (h : Header) (p : Pass) : Nat := passSize h.height p.yOffset p.yStep

/-- A pass that has pixels (R201). -/
def passNonempty (h : Header) (p : Pass) : Bool := passWidth h p != 0 && passHeight h p != 0

/-- The non-empty passes of the image, in order (R201). -/
def livePasses (h : Header) : List Pass := passes.filter (passNonempty h)

/-- The sub-images (w, h) of an image: the whole image, or its non-empty passes (R169). -/
def subImages (h : Header) : List (Nat × Nat) :=
  if h.interlaced then (livePasses h).map fun p => (passWidth h p, passHeight h p) else [(h.width, h.height)]

/-- `RasterBytes` (R169). -/
def rasterBytes (h : Header) : Nat := ((subImages h).map fun q => q.2 * rowBytes q.1 h.bitsPP).sum

/-- `StreamBytes` (R169). -/
def streamBytes (h : Header) : Nat := ((subImages h).map fun q => q.2 * (1 + rowBytes q.1 h.bitsPP)).sum

/-- The rows of all sub-images. -/
def imageRows (h : Header) : Nat := ((subImages h).map Prod.snd).sum

/-! ### Whole-image commands -/

/-- The checks of the image commands (R182). -/
def imageChecks (s : State) (nIn nOut : Nat) : Except Err Unit := do
  require (srcLen s == nIn) .insufficientPixelData
  checkSrcDest s nIn nOut

/-- The filter a row is given: the mode's, or the selected one (R183). -/
def modeFilter (r : ScoreReading) (m : FilterMode) (raw prior : List Byte) (bpp : Nat) : FilterType :=
  match m with
  | .fixed f => f
  | .adaptive => (selectFilter r raw prior bpp).1

/-- Filter `rows` rows of `rb` bytes, each with the one before it as its prior row (R183). -/
def filterRows (r : ScoreReading) (m : FilterMode) (bpp rb : Nat) : Nat → List Byte → List Byte → List Byte
  | 0, _, _ => []
  | rows + 1, prior, bs =>
    let raw := bs.take rb
    let f := modeFilter r m raw prior bpp
    BitVec.ofNat 8 f.code :: applyFilter f raw prior bpp ++ filterRows r m bpp rb rows raw (bs.drop rb)

/-- Filter the sub-images one after another, each from a zero prior row (R183, R169). -/
def filterImages (r : ScoreReading) (m : FilterMode) (bpp bits : Nat) : List (Nat × Nat) → List Byte → List Byte
  | [], _ => []
  | (w, h) :: rest, bs =>
    let rb := rowBytes w bits
    filterRows r m bpp rb h (zeros rb) bs ++ filterImages r m bpp bits rest (bs.drop (h * rb))

/-- FILTER_IMAGE's rule (R183). -/
def filterImage (m : FilterMode) (s : State) : Except Err State := do
  let h ← requireHeader s
  imageChecks s (rasterBytes h) (streamBytes h)
  let out := filterImages s.params.scoreReading m h.bpp h.bitsPP (subImages h) (memRead s (srcAddr s) (rasterBytes h))
  .ok (setRes1 (setRes0 (memWrite s (dstAddr s) out) (streamBytes h)) (imageRows h))

/-- FILTER_IMAGE.NONE (R183). -/
def execFilterImageNone (s : State) : Host.Outcome State Fault Refusal := finish s (filterImage (.fixed .none) s)

/-- FILTER_IMAGE.SUB (R183). -/
def execFilterImageSub (s : State) : Host.Outcome State Fault Refusal := finish s (filterImage (.fixed .sub) s)

/-- FILTER_IMAGE.UP (R183). -/
def execFilterImageUp (s : State) : Host.Outcome State Fault Refusal := finish s (filterImage (.fixed .up) s)

/-- FILTER_IMAGE.AVG (R183). -/
def execFilterImageAvg (s : State) : Host.Outcome State Fault Refusal := finish s (filterImage (.fixed .average) s)

/-- FILTER_IMAGE.PAETH (R183). -/
def execFilterImagePaeth (s : State) : Host.Outcome State Fault Refusal := finish s (filterImage (.fixed .paeth) s)

/-- FILTER_IMAGE.ADAPTIVE (R183). -/
def execFilterImageAdaptive (s : State) : Host.Outcome State Fault Refusal := finish s (filterImage .adaptive s)

/-- Reverse `rows` rows of a filter-type byte and `rb` bytes each; the first bad filter byte raises (R184). -/
def unfilterRows (bpp rb : Nat) : Nat → List Byte → List Byte → Except Err (List Byte)
  | 0, _, _ => .ok []
  | rows + 1, prior, bs =>
    match FilterType.ofCode (byteAt bs 0).toNat with
    | none => .error (.invalidFilterType (byteAt bs 0))
    | some f => do
      let row := reverseFilter f ((bs.drop 1).take rb) prior bpp
      let rest ← unfilterRows bpp rb rows row (bs.drop (1 + rb))
      .ok (row ++ rest)

/-- Reverse the sub-images one after another, each from a zero prior row (R184, R169). -/
def unfilterImages (bpp bits : Nat) : List (Nat × Nat) → List Byte → Except Err (List Byte)
  | [], _ => .ok []
  | (w, h) :: rest, bs => do
    let rb := rowBytes w bits
    let rows ← unfilterRows bpp rb h (zeros rb) bs
    let others ← unfilterImages bpp bits rest (bs.drop (h * (1 + rb)))
    .ok (rows ++ others)

/-- UNFILTER_IMAGE's rule (R184). -/
def unfilterImage (s : State) : Except Err State := do
  let h ← requireHeader s
  imageChecks s (streamBytes h) (rasterBytes h)
  let out ← unfilterImages h.bpp h.bitsPP (subImages h) (memRead s (srcAddr s) (streamBytes h))
  .ok (setRes1 (setRes0 (memWrite s (dstAddr s) out) (rasterBytes h)) (imageRows h))

/-- UNFILTER_IMAGE (R184). -/
def execUnfilterImage (s : State) : Host.Outcome State Fault Refusal := finish s (unfilterImage s)

end Sys2Proof.Machine
end

