-- ==== Sys2Proof/Machine/Interlace.lean ====
section
/-! DEFINITION. Adam7 geometry, scatter and gather (43_interlace.md). -/

namespace Sys2Proof.Machine

/-! ### ADAM7_GEOM -/

/-- Pass `p` of the table (R200). -/
def passOf (p : Nat) : Pass := passes.getD p ⟨0, 0, 1, 1⟩

/-- The bytes of a pass in the pass raster (R201, R206). -/
def passBytesOf (h : Header) (p : Pass) : Nat := passHeight h p * rowBytes (passWidth h p) h.bitsPP

/-- The byte offset of pass `p` in the pass raster (R203). -/
def passStart (h : Header) (p : Nat) : Nat := ((passes.take p).map (passBytesOf h)).sum

/-- ADAM7_GEOM's rule for pass `p` (R203). -/
def adam7Geom (p : Nat) (s : State) : Except Err State := do
  let h ← requireHeader s
  let q := passOf p
  .ok (setRes3
    (setRes2 (setRes1 (setRes0 s (passWidth h q)) (passHeight h q))
      (q.xOffset + 256 * q.yOffset + 65536 * q.xStep + 16777216 * q.yStep))
    (passStart h p))

/-- ADAM7_GEOM.P0 (R203). -/
def execAdam7GeomP0 (s : State) : Host.Outcome State Fault Refusal := finish s (adam7Geom 0 s)

/-- ADAM7_GEOM.P1 (R203). -/
def execAdam7GeomP1 (s : State) : Host.Outcome State Fault Refusal := finish s (adam7Geom 1 s)

/-- ADAM7_GEOM.P2 (R203). -/
def execAdam7GeomP2 (s : State) : Host.Outcome State Fault Refusal := finish s (adam7Geom 2 s)

/-- ADAM7_GEOM.P3 (R203). -/
def execAdam7GeomP3 (s : State) : Host.Outcome State Fault Refusal := finish s (adam7Geom 3 s)

/-- ADAM7_GEOM.P4 (R203). -/
def execAdam7GeomP4 (s : State) : Host.Outcome State Fault Refusal := finish s (adam7Geom 4 s)

/-- ADAM7_GEOM.P5 (R203). -/
def execAdam7GeomP5 (s : State) : Host.Outcome State Fault Refusal := finish s (adam7Geom 5 s)

/-- ADAM7_GEOM.P6 (R203). -/
def execAdam7GeomP6 (s : State) : Host.Outcome State Fault Refusal := finish s (adam7Geom 6 s)

/-! ### Layouts (R206) -/

/-- `PassBytes`, whatever INTERLACE holds (R206). -/
def passBytes (h : Header) : Nat := (passes.map (passBytesOf h)).sum

/-- `FullBytes` (R206). -/
def fullBytes (h : Header) : Nat := h.height * h.rowBytes

/-! ### DEINTERLACE -/

/-- Scatter the pixels of one pass row to image row `y` (R204): pixel px goes to `x_offset + px·x_step`. -/
def scatterRow (h : Header) (p : Pass) (row : List Byte) (out : List Byte) : List Byte :=
  (List.range (passWidth h p)).foldl
    (fun r px => setPix r (p.xOffset + px * p.xStep) h.bitsPP (getPix row px h.bitsPP)) out

/-- Scatter one pass into the image rows (R204). `bs` starts at the pass's first byte. -/
def scatterPass (h : Header) (p : Pass) (bs : List Byte) (rows : List (List Byte)) : List (List Byte) :=
  (List.range (passHeight h p)).foldl
    (fun out py =>
      out.modify (p.yOffset + py * p.yStep) (scatterRow h p (rowOf bs (rowBytes (passWidth h p) h.bitsPP) py)))
    rows

/-- Scatter the passes of a pass raster one after another (R204). -/
def scatterPasses (h : Header) : List Pass → List Byte → List (List Byte) → List (List Byte)
  | [], _, rows => rows
  | p :: rest, bs, rows => scatterPasses h rest (bs.drop (passBytesOf h p)) (scatterPass h p bs rows)

/-- The full raster of a pass raster (R204). -/
def deinterlaceBytes (h : Header) (bs : List Byte) : List Byte :=
  (scatterPasses h (livePasses h) bs (List.replicate h.height (zeros h.rowBytes))).flatten

/-- DEINTERLACE's rule (R204). -/
def deinterlace (s : State) : Except Err State := do
  let h ← requireHeader s
  imageChecks s (passBytes h) (fullBytes h)
  let out := deinterlaceBytes h (memRead s (srcAddr s) (passBytes h))
  .ok (setRes0 (memWrite s (dstAddr s) out) (fullBytes h))

/-- DEINTERLACE (R204). -/
def execDeinterlace (s : State) : Host.Outcome State Fault Refusal := finish s (deinterlace s)

/-! ### INTERLACE -/

/-- Gather one pass row from an image row (R205). -/
def gatherRow (h : Header) (p : Pass) (row : List Byte) : List Byte :=
  (List.range (passWidth h p)).foldl
    (fun r px => setPix r px h.bitsPP (getPix row (p.xOffset + px * p.xStep) h.bitsPP))
    (zeros (rowBytes (passWidth h p) h.bitsPP))

/-- Gather one pass from a full raster (R205). -/
def gatherPass (h : Header) (bs : List Byte) (p : Pass) : List Byte :=
  (List.range (passHeight h p)).flatMap fun py => gatherRow h p (rowOf bs h.rowBytes (p.yOffset + py * p.yStep))

/-- The pass raster of a full raster (R205). -/
def interlaceBytes (h : Header) (bs : List Byte) : List Byte := (livePasses h).flatMap (gatherPass h bs)

/-- INTERLACE's rule (R205). -/
def interlace (s : State) : Except Err State := do
  let h ← requireHeader s
  imageChecks s (fullBytes h) (passBytes h)
  let out := interlaceBytes h (memRead s (srcAddr s) (fullBytes h))
  .ok (setRes0 (memWrite s (dstAddr s) out) (passBytes h))

/-- INTERLACE (R205). -/
def execInterlace (s : State) : Host.Outcome State Fault Refusal := finish s (interlace s)

end Sys2Proof.Machine
end

