-- ==== Sys2Proof/Machine/Normalizer.lean ====
section
/-! DEFINITION. The bitmap normaliser (44_normalizer.md). -/

namespace Sys2Proof.Machine

/-! ### Palette, transparency, luma (R225 to R227) -/

/-- `Lookup(i)`: red, green and blue of palette index `i`, never clamped (R225). -/
def lookup (s : State) (i : Nat) : Except Err (List Nat) :=
  if i < s.pal.plteN.toNat then
    let e := (plteEntry s i).toNat
    .ok [e / 65536 % 256, e / 256 % 256, e % 256]
  else .error (.paletteIndexOutOfRange (BitVec.ofNat 8 i))

/-- `PalAlpha(i)`: unlisted indices are opaque (R225). -/
def palAlpha (s : State) (i : Nat) : Nat :=
  if s.pal.palValid = true ∧ i < s.pal.trnsN.toNat then (alphaEntry s i).toNat else 255

/-- `KeyGray(g)` (R226). -/
def keyGray (s : State) (g : Nat) : Bool := s.pal.grayValid && g == s.pal.trnsGray.toNat

/-- `KeyRGB(r, g, b)` (R226). -/
def keyRgb (s : State) (r g b : Nat) : Bool :=
  s.pal.rgbValid && r == s.pal.trnsR.toNat && g == s.pal.trnsG.toNat && b == s.pal.trnsB.toNat

/-- `Luma(r, g, b)` (R227). -/
def luma (r g b : Nat) : Nat := (299 * r + 587 * g + 114 * b + 500) / 1000

/-! ### Scanning (R220, R237) -/

/-- `OutW` (R222). -/
def outWidth (h : Header) (narrow : Bool) : Nat := if h.depth = 16 ∧ narrow = false then 16 else 8

/-- `Raw(y, x, k)` for every sample of pixel (x, y) in channel order (R220). -/
def rawPixel (h : Header) (bs : List Byte) (y x : Nat) : List Nat :=
  (List.range h.color.channels).map fun k => getPix (rowOf bs h.rowBytes y) (x * h.color.channels + k) h.depth

/-- The pixels (y, x) of the image in raster order (R237). -/
def pixelsOf (h : Header) : List (Nat × Nat) :=
  (List.range h.height).flatMap fun y => (List.range h.width).map fun x => (y, x)

/-- Samples as the bytes of a sample array of width `sw` (R14, R221). -/
def sampleBytes (sw : Nat) (vs : List Nat) : List Byte := vs.flatMap fun v => beBytes v (sw / 8)

/-- Concatenate what a rule gives for each item, in order; the first error met is raised (R237). -/
def collect {α : Type} (f : α → Except Err (List Byte)) : List α → Except Err (List Byte)
  | [] => .ok []
  | x :: xs => do
    let bs ← f x
    let rest ← collect f xs
    .ok (bs ++ rest)

/-! ### DEPTH_EXPAND -/

/-- A raw sample in the sample array: rescaled, unless it is a palette index (R224, R230). -/
def expandSample (h : Header) (sw v : Nat) : Nat := if h.color = .palette then v else rescale v h.depth sw

/-- The sample array of an image raster (R230). -/
def expandBytes (h : Header) (narrow : Bool) (bs : List Byte) : List Byte :=
  (pixelsOf h).flatMap fun q =>
    sampleBytes (outWidth h narrow) ((rawPixel h bs q.1 q.2).map (expandSample h (outWidth h narrow)))

/-- The bytes of the sample array of `n` pixels of `c` channels and width `sw` (R221). -/
def arrayBytes (n c sw : Nat) : Nat := n * c * sw / 8

/-- DEPTH_EXPAND's rule (R230). -/
def depthExpand (narrow : Bool) (s : State) : Except Err State := do
  let h ← requireHeader s
  let nOut := arrayBytes (h.width * h.height) h.color.channels (outWidth h narrow)
  imageChecks s (fullBytes h) nOut
  let out := expandBytes h narrow (memRead s (srcAddr s) (fullBytes h))
  .ok (setRes0 (memWrite s (dstAddr s) out) nOut)

/-- DEPTH_EXPAND (R230). -/
def execDepthExpand (narrow : Bool) (s : State) : Host.Outcome State Fault Refusal := finish s (depthExpand narrow s)

/-! ### DEPTH_PACK -/

/-- A sample of the array at the header's depth: rescaled, or a palette index that must fit (R231). -/
def packSample (h : Header) (sw v : Nat) : Except Err Nat :=
  if h.color = .palette then
    if v < 2 ^ h.depth then .ok v else .error (.paletteIndexOutOfRange (BitVec.ofNat 8 v))
  else .ok (rescale v sw h.depth)

/-- Pack `n` samples of the array, from sample `i` on, into a row from position `x` on (R231). -/
def packRow (h : Header) (sw : Nat) (bs : List Byte) : Nat → Nat → Nat → List Byte → Except Err (List Byte)
  | 0, _, _, row => .ok row
  | n + 1, i, x, row => do
    let v ← packSample h sw (sampOf bs i sw)
    packRow h sw bs n (i + 1) (x + 1) (setPix row x h.depth v)

/-- The image raster of a sample array: row y holds the samples from `y·W·c` on (R231). -/
def packBytes (h : Header) (sw : Nat) (bs : List Byte) : Except Err (List Byte) :=
  collect
    (fun y => packRow h sw bs (h.width * h.color.channels) (y * h.width * h.color.channels) 0 (zeros h.rowBytes))
    (List.range h.height)

/-- DEPTH_PACK's rule (R231). -/
def depthPack (s16 : Bool) (s : State) : Except Err State := do
  let h ← requireHeader s
  let nIn := arrayBytes (h.width * h.height) h.color.channels (sampleWidth s16)
  imageChecks s nIn (fullBytes h)
  let out ← packBytes h (sampleWidth s16) (memRead s (srcAddr s) nIn)
  .ok (setRes0 (memWrite s (dstAddr s) out) (fullBytes h))

/-- DEPTH_PACK (R231). -/
def execDepthPack (s16 : Bool) (s : State) : Host.Outcome State Fault Refusal := finish s (depthPack s16 s)

/-! ### COLOR_CONVERT -/

/-- The pairs of R234 marked "yes". -/
def supportedPair (src dst : ColorType) : Bool :=
  match src, dst with
  | .palette, .palette => true
  | .palette, .rgb => true
  | .palette, .rgba => true
  | .palette, .gray => false
  | .palette, .grayAlpha => false
  | _, .palette => false
  | _, _ => true

/-- The intermediate (R, G, B, A) of a pixel of samples `px` at width `sw`, with the gray level Y beside it (R233). -/
def intermediate (s : State) (src : ColorType) (sw : Nat) (px : List Nat) : Except Err (List Nat × Nat) :=
  let v0 := px.getD 0 0
  let v1 := px.getD 1 0
  let v2 := px.getD 2 0
  match src with
  | .gray => .ok ([v0, v0, v0, if keyGray s v0 then 0 else maxSample sw], v0)
  | .rgb => .ok ([v0, v1, v2, if keyRgb s v0 v1 v2 then 0 else maxSample sw], luma v0 v1 v2)
  | .palette => do
    let rgb ← lookup s v0
    .ok (rgb ++ [palAlpha s v0], v0)
  | .grayAlpha => .ok ([v0, v0, v0, v1], v0)
  | .rgba => .ok ([v0, v1, v2, px.getD 3 0], luma v0 v1 v2)

/-- `Conv(src, dst, px)` (R233). For a palette destination the source is a palette index, kept after its bound is checked. -/
def convertPixel (s : State) (src dst : ColorType) (sw : Nat) (px : List Nat) : Except Err (List Nat) := do
  let (rgba, y) ← intermediate s src sw px
  match dst with
  | .gray => .ok [y]
  | .rgb => .ok (rgba.take 3)
  | .palette => .ok [px.getD 0 0]
  | .grayAlpha => .ok [y, rgba.getD 3 0]
  | .rgba => .ok rgba

/-- Pixel `j` of a sample array of `c` channels and width `sw` (R221). -/
def arrayPixel (bs : List Byte) (c sw j : Nat) : List Nat := (List.range c).map fun k => sampOf bs (j * c + k) sw

/-- The converted sample array of `n` pixels (R235). -/
def convertBytes (s : State) (src dst : ColorType) (sw n : Nat) (bs : List Byte) : Except Err (List Byte) :=
  collect
    (fun j => do
      let vs ← convertPixel s src dst sw (arrayPixel bs src.channels sw j)
      .ok (sampleBytes sw vs))
    (List.range n)

/-- COLOR_CONVERT's rule (R235). -/
def colorConvert (src dst : ColorType) (s16 : Bool) (s : State) : Except Err State := do
  let sw := sampleWidth s16
  let nIn := arrayBytes (paramCount s) src.channels sw
  let nOut := arrayBytes (paramCount s) dst.channels sw
  require (supportedPair src dst && !(src == .palette && s16)) .unsupportedColorConversion
  require (srcLen s == nIn) .insufficientPixelData
  require (!(src == .palette && s.pal.plteN == 0)) .paletteRequired
  checkSrcDest s nIn nOut
  let out ← convertBytes s src dst sw (paramCount s) (memRead s (srcAddr s) nIn)
  .ok (setRes0 (memWrite s (dstAddr s) out) nOut)

/-- COLOR_CONVERT (R235). -/
def execColorConvert (src dst : ColorType) (s16 : Bool) (s : State) : Host.Outcome State Fault Refusal :=
  finish s (colorConvert src dst s16 s)

/-! ### DECODE_NORMALIZE -/

/-- The canonical RGBA pixel of raw samples `px` (R236). The key is compared with the raw samples. -/
def canonicalPixel (s : State) (h : Header) (sw : Nat) (px : List Nat) : Except Err (List Nat) :=
  let v0 := px.getD 0 0
  let v1 := px.getD 1 0
  let v2 := px.getD 2 0
  let up := fun v => rescale v h.depth sw
  match h.color with
  | .gray => .ok [up v0, up v0, up v0, if keyGray s v0 then 0 else maxSample sw]
  | .rgb => .ok [up v0, up v1, up v2, if keyRgb s v0 v1 v2 then 0 else maxSample sw]
  | .palette => do
    let rgb ← lookup s v0
    .ok (rgb ++ [palAlpha s v0])
  | .grayAlpha => .ok [up v0, up v0, up v0, up v1]
  | .rgba => .ok [up v0, up v1, up v2, up (px.getD 3 0)]

/-- The canonical RGBA array of an image raster (R238). -/
def normalizeBytes (s : State) (h : Header) (narrow : Bool) (bs : List Byte) : Except Err (List Byte) :=
  collect
    (fun q => do
      let vs ← canonicalPixel s h (outWidth h narrow) (rawPixel h bs q.1 q.2)
      .ok (sampleBytes (outWidth h narrow) vs))
    (pixelsOf h)

/-- DECODE_NORMALIZE's rule (R238). -/
def decodeNormalize (narrow : Bool) (s : State) : Except Err State := do
  let h ← requireHeader s
  let nOut := arrayBytes (h.width * h.height) 4 (outWidth h narrow)
  require (srcLen s == fullBytes h) .insufficientPixelData
  require (!(h.color == .palette && s.pal.plteN == 0)) .paletteRequired
  checkSrcDest s (fullBytes h) nOut
  let out ← normalizeBytes s h narrow (memRead s (srcAddr s) (fullBytes h))
  .ok (setRes0 (memWrite s (dstAddr s) out) nOut)

/-- DECODE_NORMALIZE (R238). -/
def execDecodeNormalize (narrow : Bool) (s : State) : Host.Outcome State Fault Refusal := finish s (decodeNormalize narrow s)

end Sys2Proof.Machine
end

