-- ==== Sys2Proof/Machine/Flags.lean ====
section
/-! DEFINITION. The register words and the interrupt output computed from the state: CTRL, STATUS, ERROR (10_state.md rules
R21 to R23), HDR_FORMAT, HDR_INFO and ROW_BYTES (R25, R29, R30), FRAMER (R39, R40), TRNS_CTRL (R44), IRQ (60_exceptions.md
rule R270). -/

namespace Sys2Proof.Machine

/-- A flag at a bit position. -/
def bitAt (b : Bool) (i : Nat) : Nat := if b then 2 ^ i else 0

/-- CTRL as read: IRQ_EN; SOFT_RESET reads 0 (R21). -/
def ctrlWord (s : State) : Word := BitVec.ofNat 32 (bitAt s.ctl.irqEn 0)

/-- STATUS.ERR: ERROR.CODE is not 0 (R22). -/
def statusErr (s : State) : Bool := s.ctl.errCode != 0

/-- STATUS as read (R22). -/
def statusWord (s : State) : Word :=
  BitVec.ofNat 32 (bitAt s.ctl.busy 0 + bitAt s.ctl.done 1 + bitAt (statusErr s) 2 + bitAt s.ctl.overrun 3)

/-- ERROR as read (R23). -/
def errorWord (s : State) : Word := BitVec.ofNat 32 (s.ctl.errCode.toNat + 256 * s.ctl.errInfo.toNat)

/-- `IRQ = STATUS.DONE and CTRL.IRQ_EN` (R270). -/
def irq (s : State) : Bool := s.ctl.done && s.ctl.irqEn

/-- HDR_FORMAT as read (R25). -/
def hdrFormatWord (s : State) : Word :=
  BitVec.ofNat 32 (s.hdr.bitDepth.toNat + 256 * s.hdr.colorType.toNat + 65536 * s.hdr.interlace.toNat)

/-- HDR_INFO as read: 0 while the header is invalid (R29). -/
def hdrInfoWord (s : State) : Word :=
  match header s with
  | none => 0
  | some h => BitVec.ofNat 32 (1 + 2 ^ 8 * h.color.channels + 2 ^ 16 * h.bitsPP + 2 ^ 24 * h.bpp)

/-- ROW_BYTES as read: 0 while the header is invalid (R30). -/
def rowBytesWord (s : State) : Word :=
  match header s with
  | none => 0
  | some h => BitVec.ofNat 32 h.rowBytes

/-- FRAMER.STATE as a number (R40). -/
def Phase.code (p : Phase) : Nat :=
  match p with
  | .start => 0
  | .sigOk => 1
  | .header => 2
  | .idat => 3
  | .postIdat => 4
  | .ended => 5
  | .failed => 15

/-- FRAMER as read (R39). -/
def framerWord (s : State) : Word :=
  BitVec.ofNat 32 (s.framer.phase.code + bitAt s.framer.plteSeen 8 + bitAt s.framer.trnsSeen 9 + bitAt s.framer.idatSeen 10
    + 2 ^ 16 * s.framer.failCode.toNat)

/-- TRNS_CTRL as read (R44). -/
def trnsCtrlWord (s : State) : Word :=
  BitVec.ofNat 32 (bitAt s.pal.grayValid 0 + bitAt s.pal.rgbValid 1 + bitAt s.pal.palValid 2)

end Sys2Proof.Machine
end

