-- ==== Sys2Proof/Machine/Regs.lean ====
section
/-! DEFINITION. The register window (10_state.md, register map and rules R20 to R51): which offset is which register, what a
register reads as, and what a host write does while the block is idle. -/

namespace Sys2Proof.Machine

/-- The registers and RAM entries of the window, by name. -/
inductive Reg where
  | id
  | ctrl
  | status
  | error
  | cmd
  | srcAddr
  | srcLen
  | dstAddr
  | dstLen
  | auxAddr
  | param
  | res0
  | res1
  | res2
  | res3
  | crcReg
  | chunkType
  | idatMax
  | hdrWidth
  | hdrHeight
  | hdrFormat
  | hdrInfo
  | rowBytes
  | framer
  | idatBase
  | idatCap
  | idatLen
  | dirBase
  | dirCap
  | dirCount
  | plteN
  | trnsCtrl
  | trnsN
  | trnsGray
  | trnsR
  | trnsG
  | trnsB
  | plteRam (i : Nat)
  | alphaRam (i : Nat)
  | crcTable (i : Nat)
deriving DecidableEq, Repr

/-- The register at a 4-byte aligned offset below 0x400; none at a reserved offset (register map, R48). -/
def namedReg (off : Nat) : Option Reg :=
  match off with
  | 0x000 => some .id
  | 0x004 => some .ctrl
  | 0x008 => some .status
  | 0x00C => some .error
  | 0x010 => some .cmd
  | 0x014 => some .srcAddr
  | 0x018 => some .srcLen
  | 0x01C => some .dstAddr
  | 0x020 => some .dstLen
  | 0x024 => some .auxAddr
  | 0x028 => some .param
  | 0x030 => some .res0
  | 0x034 => some .res1
  | 0x038 => some .res2
  | 0x03C => some .res3
  | 0x040 => some .crcReg
  | 0x044 => some .chunkType
  | 0x048 => some .idatMax
  | 0x050 => some .hdrWidth
  | 0x054 => some .hdrHeight
  | 0x058 => some .hdrFormat
  | 0x05C => some .hdrInfo
  | 0x060 => some .rowBytes
  | 0x064 => some .framer
  | 0x068 => some .idatBase
  | 0x06C => some .idatCap
  | 0x070 => some .idatLen
  | 0x074 => some .dirBase
  | 0x078 => some .dirCap
  | 0x07C => some .dirCount
  | 0x080 => some .plteN
  | 0x084 => some .trnsCtrl
  | 0x088 => some .trnsN
  | 0x08C => some .trnsGray
  | 0x090 => some .trnsR
  | 0x094 => some .trnsG
  | 0x098 => some .trnsB
  | _ => none

/-- The register or RAM entry at a 4-byte aligned offset of the window (register map, R49 to R51). -/
def regAt (off : Nat) : Option Reg :=
  if off < 0x400 then namedReg off
  else if off < 0x800 then some (.plteRam ((off - 0x400) / 4))
  else if off < 0xC00 then some (.alphaRam ((off - 0x800) / 4))
  else if off < 0x1000 then some (.crcTable ((off - 0xC00) / 4))
  else none

/-- What a register reads as; no read has a side effect (R67). -/
def readReg (s : State) (r : Reg) : Word :=
  match r with
  | .id => 0x504E4701
  | .ctrl => ctrlWord s
  | .status => statusWord s
  | .error => errorWord s
  | .cmd => s.ctl.cmd
  | .srcAddr => s.opd.srcAddr
  | .srcLen => s.opd.srcLen
  | .dstAddr => s.opd.dstAddr
  | .dstLen => s.opd.dstLen
  | .auxAddr => s.opd.auxAddr
  | .param => s.opd.param
  | .res0 => s.res.res0
  | .res1 => s.res.res1
  | .res2 => s.res.res2
  | .res3 => s.res.res3
  | .crcReg => s.crcReg
  | .chunkType => s.opd.chunkType
  | .idatMax => s.opd.idatMax
  | .hdrWidth => s.hdr.width
  | .hdrHeight => s.hdr.height
  | .hdrFormat => hdrFormatWord s
  | .hdrInfo => hdrInfoWord s
  | .rowBytes => rowBytesWord s
  | .framer => framerWord s
  | .idatBase => s.opd.idatBase
  | .idatCap => s.opd.idatCap
  | .idatLen => s.framer.idatLen
  | .dirBase => s.opd.dirBase
  | .dirCap => s.opd.dirCap
  | .dirCount => s.framer.dirCount
  | .plteN => s.pal.plteN.setWidth 32
  | .trnsCtrl => trnsCtrlWord s
  | .trnsN => s.pal.trnsN.setWidth 32
  | .trnsGray => s.pal.trnsGray.setWidth 32
  | .trnsR => s.pal.trnsR.setWidth 32
  | .trnsG => s.pal.trnsG.setWidth 32
  | .trnsB => s.pal.trnsB.setWidth 32
  | .plteRam i => (plteEntry s i).setWidth 32
  | .alphaRam i => (alphaEntry s i).setWidth 32
  | .crcTable i => crcTable i

/-- A write of CTRL.IRQ_EN (R21). -/
def writeIrqEn (s : State) (v : Word) : State := { s with ctl := { s.ctl with irqEn := v.getLsbD 0 } }

/-- A write of STATUS: the W1C bits DONE and OVERRUN, also while BUSY (R22). -/
def writeStatus (s : State) (v : Word) : State :=
  { s with ctl := { s.ctl with
    done := s.ctl.done && !v.getLsbD 1
    overrun := s.ctl.overrun && !v.getLsbD 3 } }

/-- A host write of a register while BUSY = 0 (register map). A write to a read-only register is ignored, reserved bits
ignore writes (R48), and PLTE_N and TRNS_N ignore a value above 256 (R43, R45; log 8). -/
def writeReg (s : State) (r : Reg) (v : Word) : State :=
  match r with
  | .ctrl => if v.getLsbD 1 then softReset s else writeIrqEn s v
  | .status => writeStatus s v
  | .cmd => accept s v
  | .srcAddr => { s with opd := { s.opd with srcAddr := v } }
  | .srcLen => { s with opd := { s.opd with srcLen := v } }
  | .dstAddr => { s with opd := { s.opd with dstAddr := v } }
  | .dstLen => { s with opd := { s.opd with dstLen := v } }
  | .auxAddr => { s with opd := { s.opd with auxAddr := v } }
  | .param => { s with opd := { s.opd with param := v } }
  | .chunkType => { s with opd := { s.opd with chunkType := v } }
  | .idatMax => { s with opd := { s.opd with idatMax := v } }
  | .idatBase => { s with opd := { s.opd with idatBase := v } }
  | .idatCap => { s with opd := { s.opd with idatCap := v } }
  | .dirBase => { s with opd := { s.opd with dirBase := v } }
  | .dirCap => { s with opd := { s.opd with dirCap := v } }
  | .crcReg => { s with crcReg := v }
  | .hdrWidth => { s with hdr := { s.hdr with width := v } }
  | .hdrHeight => { s with hdr := { s.hdr with height := v } }
  | .hdrFormat =>
    { s with hdr := { s.hdr with
      bitDepth := v.extractLsb' 0 8
      colorType := v.extractLsb' 8 8
      interlace := v.extractLsb' 16 8 } }
  | .plteN => if v.toNat ≤ 256 then { s with pal := { s.pal with plteN := v.setWidth 9 } } else s
  | .trnsCtrl =>
    { s with pal := { s.pal with grayValid := v.getLsbD 0, rgbValid := v.getLsbD 1, palValid := v.getLsbD 2 } }
  | .trnsN => if v.toNat ≤ 256 then { s with pal := { s.pal with trnsN := v.setWidth 9 } } else s
  | .trnsGray => { s with pal := { s.pal with trnsGray := v.setWidth 16 } }
  | .trnsR => { s with pal := { s.pal with trnsR := v.setWidth 16 } }
  | .trnsG => { s with pal := { s.pal with trnsG := v.setWidth 16 } }
  | .trnsB => { s with pal := { s.pal with trnsB := v.setWidth 16 } }
  | .plteRam i => { s with plteRam := ramSet s.plteRam i (v.setWidth 24) }
  | .alphaRam i => { s with alphaRam := ramSet s.alphaRam i (v.setWidth 8) }
  | .id => s
  | .error => s
  | .res0 => s
  | .res1 => s
  | .res2 => s
  | .res3 => s
  | .hdrInfo => s
  | .rowBytes => s
  | .framer => s
  | .idatLen => s
  | .dirCount => s
  | .crcTable _ => s

end Sys2Proof.Machine
end

