-- ==== Sys2Proof/Machine/Effects.lean ====
section
/-! DEFINITION. What a command may write: the registers (30_encoding.md rule R85 and the command rules) and the destination
regions in the buffer. The hazard rule R300(c) (70_reset_and_hazards.md) speaks of both, and so do the frames. -/

namespace Sys2Proof.Machine

/-- The registers a parse command may write, beside the palette RAMs (R124 to R133). DESIGN CHOICE (log 5): HDR_INFO and
ROW_BYTES, read-only and computed from the header (R29, R30), count as written where the header registers may be written; the
spec does not say whether R300(c) means them. -/
def parseWrites : List Reg :=
  [.framer, .res0, .res1, .res2, .res3, .hdrWidth, .hdrHeight, .hdrFormat, .hdrInfo, .rowBytes, .idatLen, .dirCount,
   .plteN, .trnsCtrl, .trnsN, .trnsGray, .trnsR, .trnsG, .trnsB]

/-- The registers FRAMER_RESET writes (R120). DESIGN CHOICE (log 5): HDR_INFO and ROW_BYTES count as written with the header,
as for the parse commands. -/
def framerResetWrites : List Reg :=
  [.framer, .hdrWidth, .hdrHeight, .hdrFormat, .hdrInfo, .rowBytes, .idatLen, .dirCount,
   .plteN, .trnsCtrl, .trnsN, .trnsGray, .trnsR, .trnsG, .trnsB]

/-- A PLTE_RAM or ALPHA_RAM entry. -/
def Reg.isPaletteRam (r : Reg) : Bool :=
  match r with
  | .plteRam _ => true
  | .alphaRam _ => true
  | _ => false

/-- The registers a command's rule writes, besides the completion's ERROR and STATUS. -/
def writesOf (i : Instr) : List Reg :=
  match i with
  | .nop => []
  | .crcInit => [.crcReg]
  | .crcUpdate => [.crcReg]
  | .crcFinal => [.res0]
  | .crc32 => [.res0]
  | .framerReset => framerResetWrites
  | .sigCheck => [.framer, .res0]
  | .chunkParse => parseWrites
  | .streamParse => parseWrites
  | .sigWrite => [.res0]
  | .chunkWrite => [.res0, .res1]
  | .ihdrWrite => [.res0, .res1]
  | .idatWrite => [.res0, .res1]
  | .filtApplyNone _ => [.res0, .res1]
  | .filtApplySub _ => [.res0, .res1]
  | .filtApplyUp _ => [.res0, .res1]
  | .filtApplyAvg _ => [.res0, .res1]
  | .filtApplyPaeth _ => [.res0, .res1]
  | .filtReverseNone _ => [.res0]
  | .filtReverseSub _ => [.res0]
  | .filtReverseUp _ => [.res0]
  | .filtReverseAvg _ => [.res0]
  | .filtReversePaeth _ => [.res0]
  | .filtSelect _ => [.res0, .res1]
  | .paeth => [.res0]
  | .filterImageNone => [.res0, .res1]
  | .filterImageSub => [.res0, .res1]
  | .filterImageUp => [.res0, .res1]
  | .filterImageAvg => [.res0, .res1]
  | .filterImagePaeth => [.res0, .res1]
  | .filterImageAdaptive => [.res0, .res1]
  | .unfilterImage => [.res0, .res1]
  | .adam7GeomP0 => [.res0, .res1, .res2, .res3]
  | .adam7GeomP1 => [.res0, .res1, .res2, .res3]
  | .adam7GeomP2 => [.res0, .res1, .res2, .res3]
  | .adam7GeomP3 => [.res0, .res1, .res2, .res3]
  | .adam7GeomP4 => [.res0, .res1, .res2, .res3]
  | .adam7GeomP5 => [.res0, .res1, .res2, .res3]
  | .adam7GeomP6 => [.res0, .res1, .res2, .res3]
  | .deinterlace => [.res0]
  | .interlace => [.res0]
  | .depthExpand _ => [.res0]
  | .depthPack _ => [.res0]
  | .colorConvert _ _ _ => [.res0]
  | .decodeNormalize _ => [.res0]

/-- The commands that write PLTE_RAM and ALPHA_RAM (R49, R50). -/
def writesPaletteRams (i : Instr) : Bool := i == .chunkParse || i == .streamParse

/-- The command's rule may write register `r` (R300(c)); ERROR is written by every completion (R262; log 5). -/
def mayWrite (i : Instr) (r : Reg) : Bool :=
  r == .error || (writesOf i).contains r || (writesPaletteRams i && r.isPaletteRam)

/-- A destination region of `n` bytes at DST_ADDR (R32). -/
def destAt (s : State) (n : Nat) : List (Nat × Nat) := [(dstAddr s, n)]

/-- A destination region whose size the header gives. DESIGN CHOICE (log 17): none without a valid header. -/
def destByHeader (s : State) (size : Header → Nat) : List (Nat × Nat) :=
  match header s with
  | some h => destAt s (size h)
  | none => []

/-- The destination region of the chunk at `a`: the IDAT payload (R130) or the directory record (R131). DESIGN CHOICE (log
17): a chunk that fails framing or CRC (R124) has none, for its kind and its length are not established; the spec does not
say what such a command's destination regions are. -/
def chunkDests (s : State) (a rem : Nat) : List (Nat × Nat) :=
  match frameChunk s a rem with
  | .ok c =>
    match kindOf c.type with
    | .idat => [(s.opd.idatBase.toNat + s.framer.idatLen.toNat, c.len)]
    | .ancillary => [(dirNext s, 12)]
    | _ => []
  | .error _ => []

/-- The destination regions of a command in the buffer, as its rule names them, whether or not the command
succeeds (log 6, log 17). -/
def destRegions (i : Instr) (s : State) : List (Nat × Nat) :=
  match i with
  | .nop => []
  | .crcInit => []
  | .crcUpdate => []
  | .crcFinal => []
  | .crc32 => []
  | .framerReset => []
  | .sigCheck => []
  | .chunkParse => chunkDests s (srcAddr s) (srcLen s)
  | .streamParse => [(s.opd.idatBase.toNat, s.opd.idatCap.toNat), (s.opd.dirBase.toNat, 12 * s.opd.dirCap.toNat)]
  | .sigWrite => destAt s 8
  | .chunkWrite => destAt s (12 + srcLen s)
  | .ihdrWrite => destAt s 25
  | .idatWrite => destAt s (srcLen s + 12 * idatCount s)
  | .filtApplyNone _ => destAt s (srcLen s)
  | .filtApplySub _ => destAt s (srcLen s)
  | .filtApplyUp _ => destAt s (srcLen s)
  | .filtApplyAvg _ => destAt s (srcLen s)
  | .filtApplyPaeth _ => destAt s (srcLen s)
  | .filtReverseNone _ => destAt s (srcLen s)
  | .filtReverseSub _ => destAt s (srcLen s)
  | .filtReverseUp _ => destAt s (srcLen s)
  | .filtReverseAvg _ => destAt s (srcLen s)
  | .filtReversePaeth _ => destAt s (srcLen s)
  | .filtSelect _ => destAt s (srcLen s + 1)
  | .paeth => []
  | .filterImageNone => destByHeader s streamBytes
  | .filterImageSub => destByHeader s streamBytes
  | .filterImageUp => destByHeader s streamBytes
  | .filterImageAvg => destByHeader s streamBytes
  | .filterImagePaeth => destByHeader s streamBytes
  | .filterImageAdaptive => destByHeader s streamBytes
  | .unfilterImage => destByHeader s rasterBytes
  | .adam7GeomP0 => []
  | .adam7GeomP1 => []
  | .adam7GeomP2 => []
  | .adam7GeomP3 => []
  | .adam7GeomP4 => []
  | .adam7GeomP5 => []
  | .adam7GeomP6 => []
  | .deinterlace => destByHeader s fullBytes
  | .interlace => destByHeader s passBytes
  | .depthExpand narrow => destByHeader s fun h => arrayBytes (h.width * h.height) h.color.channels (outWidth h narrow)
  | .depthPack _ => destByHeader s fullBytes
  | .colorConvert _ dst s16 => destAt s (arrayBytes (paramCount s) dst.channels (sampleWidth s16))
  | .decodeNormalize narrow => destByHeader s fun h => arrayBytes (h.width * h.height) 4 (outWidth h narrow)

end Sys2Proof.Machine
end

