-- ==== Sys2Proof/Machine/HostBus.lean ====
section
/-! DEFINITION. Host accesses to the two windows (20_memory.md rules R60 to R65), idle and while BUSY (10_state.md register
map and rules R21 to R24; 70_reset_and_hazards.md rules R292, R300; 92_eei_decisions.md D8, D51). -/

namespace Sys2Proof.Machine

/-- Bytes of an access. -/
def Width.bytes (w : Width) : Nat :=
  match w with
  | .w8 => 1
  | .w16 => 2
  | .w32 => 4
  | .other n => n

/-- The buffer window defines the width (R65). -/
def Width.inBuffer (w : Width) : Bool :=
  match w with
  | .w8 => true
  | .w16 => true
  | .w32 => true
  | .other _ => false

/-- Bytes of a host access in address order, by lane order (R63). -/
def laneBytes (o : LaneOrder) (n : Nat) (v : Word) : List Byte :=
  let le := (List.range n).map fun k => v.extractLsb' (8 * k) 8
  match o with
  | .little => le
  | .big => le.reverse

/-- The value of a host access from its bytes in address order (R63). -/
def laneValue (o : LaneOrder) (bs : List Byte) : Word :=
  match o with
  | .little => BitVec.ofNat 32 (beNat bs.reverse)
  | .big => BitVec.ofNat 32 (beNat bs)

/-- The running command may write register `r`; a word that does not decode writes only ERROR and STATUS (R88, R300(c)). -/
def runningMayWrite (s : State) (r : Reg) : Bool :=
  match decode (fetchWord s) with
  | .ok i => mayWrite i r
  | .error _ => r == .error

/-- A host write of a register while BUSY = 1: OVERRUN for CMD (R24), IRQ_EN and the W1C bits are honoured (R21, R22), a
CTRL write with SOFT_RESET is ignored whole (R292; log 7), and every other register ignores it (D8); where R300(c) forbids
the write, the command's destination bytes are unspecified after it (log 6). -/
def writeRegBusy (s : State) (r : Reg) (v : Word) : State :=
  match r with
  | .ctrl => if v.getLsbD 1 then s else writeIrqEn s v
  | .status => writeStatus s v
  | .cmd => { s with ctl := { s.ctl with overrun := true } }
  | r => if r.isPaletteRam || runningMayWrite s r then markHazard s [] else s

/-- A host write of a register. -/
def hostWriteReg (s : State) (r : Reg) (v : Word) : State := if s.ctl.busy then writeRegBusy s r v else writeReg s r v

/-- The value of a host read goes to the model's read latch (log 11). -/
def latch (s : State) (v : Word) : State := { s with bus := { s.bus with lastRead := v } }

/-- A host read returns an unspecified value of the access width (R300(c), D51, item 5; log 5). -/
def latchFree (s : State) (w : Width) : State :=
  { s with bus := { s.bus with
    lastRead := BitVec.ofNat 32 ((Config.freeWord s.bus.draws).toNat % 256 ^ w.bytes)
    draws := s.bus.draws + 1 } }

/-- A host read of a register. -/
def hostReadReg (s : State) (r : Reg) : State :=
  if s.ctl.busy && (r.isPaletteRam || runningMayWrite s r) then latchFree s .w32 else latch s (readReg s r)

/-- A host write of buffer bytes from address `a` on: while BUSY the bytes become unspecified at the completion (D51). -/
def hostWriteBuf (s : State) (a : Nat) (w : Width) (v : Word) : State :=
  if s.ctl.busy then markHazard s ((List.range w.bytes).map fun k => a + k)
  else memWrite s a (laneBytes s.params.laneOrder w.bytes v)

/-- A host read of buffer bytes from address `a` on. -/
def hostReadBuf (s : State) (a : Nat) (w : Width) : State :=
  if s.ctl.busy then latchFree s w else latch s (laneValue s.params.laneOrder (memRead s a w.bytes))

/-- The host address lies in the register window (R61). It is the access's FIRST byte that decides: one that starts in the
window and runs past its end (32 bits at offset 0xFFD) is a register access, ignored or read as 0 (R48, R65), and no fault.
DESIGN CHOICE (log 9): the spec does not say which window decides such an access. -/
def inRegWindow (p : Params) (addr : Nat) : Bool := decide (p.blockBase ≤ addr ∧ addr < p.blockBase + 4096)

/-- All bytes of the access lie in the buffer window (R60). DESIGN CHOICE (log 9): one partly inside is not in it. -/
def inBufWindow (p : Params) (addr : Nat) (w : Width) : Bool :=
  decide (p.bufBase ≤ addr ∧ addr + w.bytes ≤ p.bufBase + p.memBytes)

/-- A register access the window defines: 32 bits, 4-byte aligned (R65). -/
def regAccess (p : Params) (addr : Nat) (w : Width) : Option Reg :=
  if w = .w32 ∧ addr % 4 = 0 then regAt (addr - p.blockBase) else none

/-- A buffer access the window defines: 8, 16 or 32 bits, naturally aligned (R65; log 10). -/
def bufAccess (p : Params) (addr : Nat) (w : Width) : Option Nat :=
  if w.inBuffer = true ∧ addr % w.bytes = 0 then some (addr - p.bufBase) else none

/-- A host write (R63, R65). An access that its window does not define is ignored. -/
def hostWrite (s : State) (addr : Nat) (w : Width) (v : Word) : Host.Outcome State Fault Refusal :=
  if inRegWindow s.params addr then
    match regAccess s.params addr w with
    | some r => .next (hostWriteReg s r v)
    | none => .next s
  else if inBufWindow s.params addr w then
    match bufAccess s.params addr w with
    | some a => .next (hostWriteBuf s a w v)
    | none => .next s
  else .fault .hostAccessOutsideWindows

/-- A host read (R63, R65). An access that its window does not define returns 0. -/
def hostRead (s : State) (addr : Nat) (w : Width) : Host.Outcome State Fault Refusal :=
  if inRegWindow s.params addr then
    match regAccess s.params addr w with
    | some r => .next (hostReadReg s r)
    | none => .next (latch s 0)
  else if inBufWindow s.params addr w then
    match bufAccess s.params addr w with
    | some a => .next (hostReadBuf s a w)
    | none => .next (latch s 0)
  else .fault .hostAccessOutsideWindows

end Sys2Proof.Machine
end

