-- ==== Sys2Proof/Machine/Dispatch.lean ====
section
/-! DEFINITION. The meaning of every command, one arm per constructor of Instr. -/

namespace Sys2Proof.Machine

/-- What the command `i` does to the accepted state `s`, completion included (30_encoding.md rule R80). -/
def exec (i : Instr) (s : State) : Host.Outcome State Fault Refusal :=
  match i with
  | .nop => Sys2Proof.Machine.execNop s
  | .crcInit => Sys2Proof.Machine.execCrcInit s
  | .crcUpdate => Sys2Proof.Machine.execCrcUpdate s
  | .crcFinal => Sys2Proof.Machine.execCrcFinal s
  | .crc32 => Sys2Proof.Machine.execCrc32 s
  | .framerReset => Sys2Proof.Machine.execFramerReset s
  | .sigCheck => Sys2Proof.Machine.execSigCheck s
  | .chunkParse => Sys2Proof.Machine.execChunkParse s
  | .streamParse => Sys2Proof.Machine.execStreamParse s
  | .sigWrite => Sys2Proof.Machine.execSigWrite s
  | .chunkWrite => Sys2Proof.Machine.execChunkWrite s
  | .ihdrWrite => Sys2Proof.Machine.execIhdrWrite s
  | .idatWrite => Sys2Proof.Machine.execIdatWrite s
  | .filtApplyNone first => Sys2Proof.Machine.execFiltApplyNone first s
  | .filtApplySub first => Sys2Proof.Machine.execFiltApplySub first s
  | .filtApplyUp first => Sys2Proof.Machine.execFiltApplyUp first s
  | .filtApplyAvg first => Sys2Proof.Machine.execFiltApplyAvg first s
  | .filtApplyPaeth first => Sys2Proof.Machine.execFiltApplyPaeth first s
  | .filtReverseNone first => Sys2Proof.Machine.execFiltReverseNone first s
  | .filtReverseSub first => Sys2Proof.Machine.execFiltReverseSub first s
  | .filtReverseUp first => Sys2Proof.Machine.execFiltReverseUp first s
  | .filtReverseAvg first => Sys2Proof.Machine.execFiltReverseAvg first s
  | .filtReversePaeth first => Sys2Proof.Machine.execFiltReversePaeth first s
  | .filtSelect first => Sys2Proof.Machine.execFiltSelect first s
  | .paeth => Sys2Proof.Machine.execPaeth s
  | .filterImageNone => Sys2Proof.Machine.execFilterImageNone s
  | .filterImageSub => Sys2Proof.Machine.execFilterImageSub s
  | .filterImageUp => Sys2Proof.Machine.execFilterImageUp s
  | .filterImageAvg => Sys2Proof.Machine.execFilterImageAvg s
  | .filterImagePaeth => Sys2Proof.Machine.execFilterImagePaeth s
  | .filterImageAdaptive => Sys2Proof.Machine.execFilterImageAdaptive s
  | .unfilterImage => Sys2Proof.Machine.execUnfilterImage s
  | .adam7GeomP0 => Sys2Proof.Machine.execAdam7GeomP0 s
  | .adam7GeomP1 => Sys2Proof.Machine.execAdam7GeomP1 s
  | .adam7GeomP2 => Sys2Proof.Machine.execAdam7GeomP2 s
  | .adam7GeomP3 => Sys2Proof.Machine.execAdam7GeomP3 s
  | .adam7GeomP4 => Sys2Proof.Machine.execAdam7GeomP4 s
  | .adam7GeomP5 => Sys2Proof.Machine.execAdam7GeomP5 s
  | .adam7GeomP6 => Sys2Proof.Machine.execAdam7GeomP6 s
  | .deinterlace => Sys2Proof.Machine.execDeinterlace s
  | .interlace => Sys2Proof.Machine.execInterlace s
  | .depthExpand narrow => Sys2Proof.Machine.execDepthExpand narrow s
  | .depthPack s16 => Sys2Proof.Machine.execDepthPack s16 s
  | .colorConvert src dst s16 => Sys2Proof.Machine.execColorConvert src dst s16 s
  | .decodeNormalize narrow => Sys2Proof.Machine.execDecodeNormalize narrow s

end Sys2Proof.Machine
end

