-- ==== Sys2Proof/Machine/Step.lean ====
section
/-! DEFINITION. One step of the block: the next event, or, with no event to come, a running command's completion
(20_memory.md rule R72, 70_reset_and_hazards.md rule R302; log 3). -/

namespace Sys2Proof.Machine

/-- The running command completes: the word in CMD is decoded and run (R80), or its decode error is the completion (R82,
R88); then what R300(c) leaves unspecified becomes so (log 6). -/
def runCommand (s : State) : Host.Outcome State Fault Refusal :=
  match decode (fetchWord s) with
  | .error e => .next (settle [] (fail s (decodeErr e)))
  | .ok i =>
    match exec i s with
    | .next t => .next (settle (destRegions i s) t)
    | .fault r => .fault r
    | .refused r => .refused r

/-- The engine's turn: it completes a running command, and does nothing while idle (log 3). -/
def engineTurn (s : State) : Host.Outcome State Fault Refusal := if s.ctl.busy then runCommand s else .next s

/-- The state with `es` still to come. -/
def withInbox (s : State) (es : List Event) : State := { s with bus := { s.bus with inbox := es } }

/-- One event. -/
def handle (e : Event) (s : State) : Host.Outcome State Fault Refusal :=
  match e with
  | .write addr w v => hostWrite s addr w v
  | .read addr w => hostRead s addr w
  | .powerOn => .next (powerOn s)
  | .engine => engineTurn s

/-- One step: the first event of the inbox; with none, the engine's turn (an idle block keeps its state, R280). -/
def step (s : State) : Host.Outcome State Fault Refusal :=
  match s.bus.inbox with
  | [] => engineTurn s
  | e :: es => handle e (withInbox s es)

/-- `s` with the command word of bits `w` accepted (R24) and the engine's turn next, so that the next step runs it. It stands
for the host's CMD write, by which a program comes to the block (log 3). -/
def State.withFetchWord (s : State) (nbits w : Nat) : State :=
  let t := accept s (BitVec.ofNat 32 (w % 2 ^ nbits))
  withInbox t (.engine :: t.bus.inbox)

end Sys2Proof.Machine
end

