-- ==== Sys2Proof/Safety.lean ====
section
/-! DEFINITION. The terms in which claims are made: what a completion leaves, what a command writes and what it keeps, when
the regions of a command are in order, and the invariant of the machine. -/

namespace Sys2Proof.Machine

/-! ### Completions -/

/-- CTRL, STATUS, ERROR and CMD after a successful completion (R262). -/
def okCtl (s : State) : Ctl := { s.ctl with busy := false, done := true, errCode := 0, errInfo := 0 }

/-- CTRL, STATUS, ERROR and CMD after a completion with the error `e` (R262, R260). -/
def errCtl (s : State) (e : Err) : Ctl := { s.ctl with busy := false, done := true, errCode := e.code, errInfo := e.info }

/-- The command completes with the error `e` and changes nothing but STATUS and ERROR (R262, R272). -/
def FailsWith (i : Instr) (s : State) (e : Err) : Prop := exec i s = .next { s with ctl := errCtl s e }

/-- The parse command completes with the error `e`: STATUS and ERROR, and FRAMER enters FAILED with the error's code, unless
it is in FAILED already (R121). -/
def FailsParseWith (i : Instr) (s : State) (e : Err) : Prop :=
  exec i s = .next { s with
    ctl := errCtl s e
    framer := if s.framer.phase = .failed then s.framer else { s.framer with phase := .failed, failCode := e.code } }

/-! ### What a command writes and keeps -/

/-- Every buffer byte reads as before. -/
def SameBytes (s t : State) : Prop := ∀ x, bufByte t x = bufByte s x

/-- Every buffer byte outside `[a, a + n)` reads as before. -/
def SameOutside (s t : State) (a n : Nat) : Prop := ∀ x, x < a ∨ a + n ≤ x → bufByte t x = bufByte s x

/-- Everything but STATUS, ERROR, RES0 to RES3 and the buffer is unchanged. -/
def KeepsRegisters (s t : State) : Prop :=
  t.params = s.params ∧ t.opd = s.opd ∧ t.crcReg = s.crcReg ∧ t.hdr = s.hdr ∧ t.framer = s.framer ∧ t.pal = s.pal ∧
  t.plteRam = s.plteRam ∧ t.alphaRam = s.alphaRam ∧ t.bus = s.bus

/-- `t` is `s` after a successful completion that leaves the results `r`, whose only buffer writes are `n` bytes at DST_ADDR,
and which changes no other register. -/
def Leaves (s t : State) (r : Results) (n : Nat) : Prop :=
  t.ctl = okCtl s ∧ t.res = r ∧ KeepsRegisters s t ∧ SameOutside s t (dstAddr s) n

/-- An address lies in none of the regions. -/
def outsideAll (regions : List (Nat × Nat)) (a : Nat) : Prop := ∀ q ∈ regions, a < q.1 ∨ q.1 + q.2 ≤ a

/-! ### The checks of a rule, in the order it writes them (R263, R264) -/

/-- A check, and the error raised where it does not hold. -/
abbrev Check := Bool × Err

/-- The error of the first check that does not hold; none where all hold. -/
def firstError (cs : List Check) : Option Err := (cs.find? fun c => !c.1).map Prod.snd

/-- CheckRegion (R9, R68). -/
def regionCheck (s : State) (a n : Nat) (r : Region) : Check := (decide (a + n ≤ s.params.memBytes), .addressOutOfRange r)

/-- CheckCap (R9). -/
def capCheck (need cap : Nat) (r : Region) : Check := (decide (need ≤ cap), .bufferTooSmall r)

/-- CheckDisjoint with one source (R9, R69). -/
def apartCheck (a n : Nat) (r : Region) (b m : Nat) : Check :=
  (decide (¬(0 < n ∧ 0 < m ∧ a < b + m ∧ b < a + n)), .regionOverlap r)

/-- The checks on an output of `n` bytes at DST_ADDR with no source (R135, R137). -/
def destChecks (s : State) (n : Nat) : List Check := [capCheck n (dstLen s) .dst, regionCheck s (dstAddr s) n .dst]

/-- The region checks on an input of `nIn` bytes at SRC_ADDR and an output of `nOut` bytes at DST_ADDR (R136, R182). -/
def srcDestChecks (s : State) (nIn nOut : Nat) : List Check :=
  [regionCheck s (srcAddr s) nIn .src, capCheck nOut (dstLen s) .dst, regionCheck s (dstAddr s) nOut .dst,
   apartCheck (dstAddr s) nOut .dst (srcAddr s) nIn]

/-- The checks of a row command with an output of `m` bytes (R160). -/
def rowOrder (s : State) (first : Bool) (m : Nat) : List Check :=
  [(decide (1 ≤ paramBpp s ∧ paramBpp s ≤ 8), .illegalCommand .parameter),
   regionCheck s (srcAddr s) (srcLen s) .src] ++
  (if first then [] else [regionCheck s (auxAddr s) (srcLen s) .aux]) ++
  [capCheck m (dstLen s) .dst, regionCheck s (dstAddr s) m .dst, apartCheck (dstAddr s) m .dst (srcAddr s) (srcLen s)] ++
  (if first then [] else [apartCheck (dstAddr s) m .dst (auxAddr s) (srcLen s)])

/-- The checks of an image command after the header's (R182, R204, R230). -/
def imageOrder (s : State) (nIn nOut : Nat) : List Check :=
  (decide (srcLen s = nIn), .insufficientPixelData) :: srcDestChecks s nIn nOut

/-! ### Commands by their sub-operation -/

/-- FILT_APPLY with filter type `f` (R185). -/
def applyCommand (f : FilterType) (first : Bool) : Instr :=
  match f with
  | .none => .filtApplyNone first
  | .sub => .filtApplySub first
  | .up => .filtApplyUp first
  | .average => .filtApplyAvg first
  | .paeth => .filtApplyPaeth first

/-- FILT_REVERSE with filter type `f` (R186). -/
def reverseCommand (f : FilterType) (first : Bool) : Instr :=
  match f with
  | .none => .filtReverseNone first
  | .sub => .filtReverseSub first
  | .up => .filtReverseUp first
  | .average => .filtReverseAvg first
  | .paeth => .filtReversePaeth first

/-- FILTER_IMAGE in mode `m` (R183). -/
def imageCommand (m : FilterMode) : Instr :=
  match m with
  | .fixed .none => .filterImageNone
  | .fixed .sub => .filterImageSub
  | .fixed .up => .filterImageUp
  | .fixed .average => .filterImageAvg
  | .fixed .paeth => .filterImagePaeth
  | .adaptive => .filterImageAdaptive

/-- ADAM7_GEOM for pass `p` (R203). -/
def geomCommand (p : Fin 7) : Instr :=
  match p with
  | 0 => .adam7GeomP0
  | 1 => .adam7GeomP1
  | 2 => .adam7GeomP2
  | 3 => .adam7GeomP3
  | 4 => .adam7GeomP4
  | 5 => .adam7GeomP5
  | 6 => .adam7GeomP6

/-! ### Rows of the image layouts (R169) -/

/-- The row `y` of sub-image `q`, in a raster layout whose sub-images before `q` are `before`. -/
def rasterRow (h : Header) (bs : List Byte) (before : List (Nat × Nat)) (q : Nat × Nat) (y : Nat) : List Byte :=
  (bs.drop ((before.map fun p => p.2 * rowBytes p.1 h.bitsPP).sum + y * rowBytes q.1 h.bitsPP)).take (rowBytes q.1 h.bitsPP)

/-- The row before it: zeros for the first row of a sub-image. -/
def rasterPrior (h : Header) (bs : List Byte) (before : List (Nat × Nat)) (q : Nat × Nat) (y : Nat) : List Byte :=
  if y = 0 then zeros (rowBytes q.1 h.bitsPP) else rasterRow h bs before q (y - 1)

/-- The row `y` of sub-image `q` in a stream layout, its filter-type byte first. -/
def streamRow (h : Header) (bs : List Byte) (before : List (Nat × Nat)) (q : Nat × Nat) (y : Nat) : List Byte :=
  (bs.drop ((before.map fun p => p.2 * (1 + rowBytes p.1 h.bitsPP)).sum + y * (1 + rowBytes q.1 h.bitsPP))).take
    (1 + rowBytes q.1 h.bitsPP)

/-- `f` is the lowest filter type of minimal score (R168). -/
def Best (r : ScoreReading) (raw prior : List Byte) (bpp : Nat) (f : FilterType) : Prop :=
  ∀ g : FilterType, score r (applyFilter f raw prior bpp) ≤ score r (applyFilter g raw prior bpp) ∧
    (g.code < f.code → score r (applyFilter f raw prior bpp) < score r (applyFilter g raw prior bpp))

/-! ### The chunk framer -/

/-- The length field of the chunk at SRC_ADDR (R93). -/
def chunkLen (s : State) : Nat := be32 s (srcAddr s)

/-- The type code of the chunk at SRC_ADDR (R93). -/
def chunkCode (s : State) : Nat := be32 s (srcAddr s + 4)

/-- The address of the chunk's data (R125). -/
def chunkData (s : State) : Nat := srcAddr s + 8

/-- The palette image that has no palette yet (R124, R130, R132). -/
def paletteMissing (s : State) : Bool := s.hdr.colorType == 3 && !s.framer.plteSeen

/-- The framing and integrity checks of CHUNK_PARSE (R124). -/
def framingOrder (s : State) : List Check :=
  [(s.framer.phase != .failed, .framerFailed s.framer.failCode),
   (s.framer.phase != .start && s.framer.phase != .ended, .unexpectedChunkOrder),
   (decide (srcLen s ≠ 0), .missingChunk (
      if s.framer.phase = .sigOk then .ihdr
      else if s.framer.phase = .header then (if paletteMissing s then .plte else .idat)
      else .iend)),
   (decide (8 ≤ srcLen s), .truncatedChunk),
   regionCheck s (srcAddr s) 8 .src,
   (decide (chunkLen s ≤ srcLen s - 8), .truncatedChunk),
   (decide (4 ≤ srcLen s - 8 - chunkLen s), .truncatedChunk),
   regionCheck s (srcAddr s) (12 + chunkLen s) .src,
   (decide ((crc32 (memRead s (srcAddr s + 4) (4 + chunkLen s))).toNat = be32 s (srcAddr s + 8 + chunkLen s)),
      .chunkCrcMismatch)]

/-- The results of CHUNK_PARSE (R125). -/
def chunkResult (s : State) : Results :=
  ⟨BitVec.ofNat 32 (12 + chunkLen s), BitVec.ofNat 32 (chunkCode s), BitVec.ofNat 32 (chunkLen s),
   BitVec.ofNat 32 (chunkData s)⟩

/-- `u` with the operands of the chunk step of STREAM_PARSE at offset `off` of the stream of `s` (R126). -/
def atOffset (s : State) (off : Nat) (u : State) : State :=
  { u with opd := { u.opd with
      srcAddr := BitVec.ofNat 32 (srcAddr s + off)
      srcLen := BitVec.ofNat 32 (srcLen s - off) } }

/-- From `s`, a SIG_CHECK and `n` CHUNK_PARSE commands that all succeed, `off` bytes in all, one after another over the
stream at SRC_ADDR, lead to `u` (R126). -/
inductive ChunkRun (s : State) : Nat → Nat → State → Prop where
  | signature {u : State} : exec .sigCheck s = .next u → u.ctl.errCode = 0 → ChunkRun s 8 0 u
  | chunk {off n : Nat} {u v : State} : ChunkRun s off n u → u.framer.phase ≠ .ended →
      exec .chunkParse (atOffset s off u) = .next v → v.ctl.errCode = 0 →
      ChunkRun s (off + v.res.res0.toNat) (n + 1) v

/-! ### The invariant -/

/-- The codes of R260 that some completion reports; the reserved ones are never among them (item 15). -/
def reportedCodes : List Byte :=
  [0x00, 0x01, 0x02, 0x03, 0x04, 0x05, 0x06, 0x07, 0x08, 0x09, 0x0C, 0x20, 0x21, 0x22, 0x23, 0x24, 0x25, 0x26, 0x27]

/-- FRAMER: a code is recorded exactly in FAILED (R39, R121), and the seen-bits fit the state (R39, R40, R122). -/
def FramerInv (f : Framer) : Prop :=
  (f.phase = .failed ↔ f.failCode ≠ 0) ∧
  (f.phase = .start ∨ f.phase = .sigOk → f.plteSeen = false ∧ f.trnsSeen = false) ∧
  (f.phase = .start ∨ f.phase = .sigOk ∨ f.phase = .header → f.idatSeen = false) ∧
  (f.phase = .idat ∨ f.phase = .postIdat ∨ f.phase = .ended → f.idatSeen = true)

/-- STATUS and ERROR: while BUSY both are clear (R24), and ERROR.CODE is never a reserved code (R260). -/
def CtlInv (c : Ctl) : Prop :=
  (c.busy = true → c.done = false ∧ c.errCode = 0 ∧ c.errInfo = 0) ∧ c.errCode ∈ reportedCodes

/-- The model's own fields: nothing is marked while idle (log 6). -/
def BusInv (size : Nat) (c : Ctl) (b : Bus) : Prop :=
  (c.busy = false → b.hazard = false) ∧ (b.hazard = false → b.busyWrites = []) ∧ ∀ a ∈ b.busyWrites, a < size

/-- The invariant of the machine: the parameters are legal, the three RAMs are in canonical form within their size, the
entry counts are at most 256 (R43, R45), and FRAMER, STATUS, ERROR and the model's own fields are consistent. -/
structure Inv (s : State) : Prop where
  params : s.params.wf
  buf : Memory.wf s.params.memBytes s.buf
  plteRam : Ram.wf 256 s.plteRam
  alphaRam : Ram.wf 256 s.alphaRam
  plteN : s.pal.plteN.toNat ≤ 256
  trnsN : s.pal.trnsN.toNat ≤ 256
  framer : FramerInv s.framer
  ctl : CtlInv s.ctl
  bus : BusInv s.params.memBytes s.ctl s.bus

end Sys2Proof.Machine
end

