-- ==== Sys2Proof/Certificates/Slice0/Obligations.lean ====
section
/-! DEFINITION. The statements about the block, each with the rules of the spec it says. An instruction of the block is a
command; `Sys2Proof.Machine.exec i s` is its whole effect on the accepted state `s`, completion included. -/

open Sys2Proof Sys2Proof.Machine

/-! ### Command words (30_encoding.md) -/

/-- R81 to R87: decoding and encoding are inverse in both directions, so each command has one word and no bit is dropped. -/
def Obligations.DecodeAndEncodeAgree : Prop := ∀ (w : Word) (i : Instr), decode w = .ok i ↔ w = encode i

/-- R82: the four checks on the fields of a word, in their order; a word that passes all of them decodes to the command that
has its fields. -/
def Obligations.FirstFailingDecodeCheckDecides : Prop :=
  ∀ w : Word,
    let f := CmdFields.ofWord w
    (f.opcodeOk = false → decode w = .error .unassignedOpcode) ∧
    (f.opcodeOk = true → f.rsvOk = false → decode w = .error .reservedNotZero) ∧
    (f.opcodeOk = true → f.rsvOk = true → f.subOk = false → decode w = .error .badSub) ∧
    (f.opcodeOk = true → f.rsvOk = true → f.subOk = true → f.flagsOk = false → decode w = .error .badFlags) ∧
    (f.wellFormed = true → ∃ i, decode w = .ok i ∧ encodeFields i = f)

/-- R87, R90: words written out from the encoding, one of each family. -/
def Obligations.SpecWordsDecode : Prop :=
  decode 0x00000000 = .ok .nop ∧ decode 0x00000004 = .ok .crc32 ∧ decode 0x00000012 = .ok .chunkParse ∧
  decode 0x00010420 = .ok (.filtApplyPaeth true) ∧ decode 0x00000524 = .ok .filterImageAdaptive ∧
  decode 0x00000430 = .ok .adam7GeomP4 ∧ decode 0x00006342 = .ok (.colorConvert .palette .rgba false) ∧
  decode 0x00040642 = .ok (.colorConvert .rgba .gray true) ∧ decode 0x00020043 = .ok (.decodeNormalize true)

/-! ### Steps, the host's accesses and resets -/

/-- R80: when it is the engine's turn and the word in CMD decodes to `i`, the step is `exec i`, followed only by what
R300(c) makes unspecified where the host wrote while BUSY (nothing where it did not). -/
def Obligations.StepRunsTheDecodedCommand : Prop :=
  ∀ (s t : State) (i : Instr) (es : List Event), s.ctl.busy = true → decode s.ctl.cmd = .ok i →
    (s.bus.inbox = .engine :: es ∨ (s.bus.inbox = [] ∧ es = [])) → exec i (withInbox s es) = .next t →
    step s = .next (settle (destRegions i (withInbox s es)) t) ∧
    (s.bus.hazard = false → settle (destRegions i (withInbox s es)) t = t)

/-- R88: a word that does not decode completes with IllegalCommand and the number of the failing check, changing no state
but STATUS and ERROR. -/
def Obligations.IllegalWordChangesOnlyStatusAndError : Prop :=
  ∀ (s : State) (e : DecodeError) (es : List Event), s.ctl.busy = true → s.bus.hazard = false →
    decode s.ctl.cmd = .error e → s.bus.inbox = .engine :: es →
    step s = .next { withInbox s es with
      ctl := { s.ctl with
        busy := false
        done := true
        errCode := 0x20
        errInfo := match e with
          | .unassignedOpcode => 0
          | .reservedNotZero => 1
          | .badSub => 2
          | .badFlags => 3 } }

/-- R24: a CMD write is accepted while idle (CMD, BUSY, DONE and ERROR change, nothing else) and dropped while BUSY (OVERRUN
is set, nothing else changes); a read of CMD gives the last accepted word, busy or idle; and until the completion no host
write changes any register but IRQ_EN, DONE and OVERRUN, nor the RAMs, so the operands are those at the acceptance; CMD is 0
at reset. The model's own: that the registers serve as the operand sample (log 4), that a host write while BUSY leaves the
three RAMs as they are until the completion (log 6), and where a read's value stands (log 11). -/
def Obligations.CmdWriteStartsOrIsDropped : Prop :=
  ∀ (s : State) (es : List Event), s.params.wf →
    (∀ w : Word, s.bus.inbox = .write (s.params.blockBase + 0x010) .w32 w :: es →
      (s.ctl.busy = false → step s = .next { withInbox s es with
        ctl := { s.ctl with cmd := w, busy := true, done := false, errCode := 0, errInfo := 0 } }) ∧
      (s.ctl.busy = true → step s = .next { withInbox s es with ctl := { s.ctl with overrun := true } })) ∧
    (s.bus.inbox = .read (s.params.blockBase + 0x010) .w32 :: es →
      step s = .next { s with bus := { s.bus with inbox := es, lastRead := s.ctl.cmd } }) ∧
    (∀ (t : State) (a : Nat) (wd : Width) (v : Word), s.ctl.busy = true → s.bus.inbox = .write a wd v :: es →
      step s = .next t →
      t = { s with
        ctl := { s.ctl with irqEn := t.ctl.irqEn, done := t.ctl.done, overrun := t.ctl.overrun }
        bus := t.bus }) ∧
    readReg State.reset .cmd = 0

/-- R22: STATUS as read, a write of STATUS (busy or idle), and what sets and clears BUSY, DONE and OVERRUN: a CMD write and
a completion. -/
def Obligations.StatusFollowsTheHandshake : Prop :=
  ∀ s : State, s.params.wf →
    (∀ k : Nat, (readReg s .status).getLsbD k =
      match k with
      | 0 => s.ctl.busy
      | 1 => s.ctl.done
      | 2 => s.ctl.errCode != 0
      | 3 => s.ctl.overrun
      | _ => false) ∧
    (∀ (v : Word) (es : List Event), s.bus.inbox = .write (s.params.blockBase + 0x008) .w32 v :: es →
      step s = .next { withInbox s es with
        ctl := { s.ctl with done := s.ctl.done && !v.getLsbD 1, overrun := s.ctl.overrun && !v.getLsbD 3 } }) ∧
    (∀ (w : Word) (es : List Event), s.bus.inbox = .write (s.params.blockBase + 0x010) .w32 w :: es →
      ∃ t, step s = .next t ∧ t.ctl.busy = true ∧ t.ctl.done = (s.ctl.busy && s.ctl.done) ∧
        t.ctl.overrun = (s.ctl.busy || s.ctl.overrun)) ∧
    (∀ i : Instr, ∃ t, exec i s = .next t ∧ t.ctl.busy = false ∧ t.ctl.done = true ∧ t.ctl.overrun = s.ctl.overrun) ∧
    readReg State.reset .status = 0

/-- R21, R270, R292: CTRL as read; IRQ; a CTRL write without SOFT_RESET sets IRQ_EN, busy or idle; one with SOFT_RESET is
ignored while BUSY, and while idle sets every register to its reset value and keeps the three RAMs. -/
def Obligations.CtrlWriteMasksOrResets : Prop :=
  ∀ (s : State) (v : Word) (es : List Event), s.params.wf →
    (∀ k : Nat, (readReg s .ctrl).getLsbD k = (k == 0 && s.ctl.irqEn)) ∧
    irq s = (s.ctl.done && s.ctl.irqEn) ∧
    (s.bus.inbox = .write (s.params.blockBase + 0x004) .w32 v :: es →
      (v.getLsbD 1 = false → step s = .next { withInbox s es with ctl := { s.ctl with irqEn := v.getLsbD 0 } }) ∧
      (v.getLsbD 1 = true → s.ctl.busy = true → step s = .next (withInbox s es)) ∧
      (v.getLsbD 1 = true → s.ctl.busy = false → ∃ t, step s = .next t ∧
        (∀ r : Reg, r.isPaletteRam = false → readReg t r = readReg State.reset r) ∧
        irq t = false ∧ t.plteRam = s.plteRam ∧ t.alphaRam = s.alphaRam ∧ t.buf = s.buf ∧
        t.params = s.params ∧ t.bus = (withInbox s es).bus))

/-- R290, R291, R293: after a power-on reset, from any state and whatever runs, every register reads its reset value, no
command runs and IRQ is 0; State.reset reads the same values. -/
def Obligations.ResetValues : Prop :=
  ∀ (s t : State) (es : List Event), (t = State.reset ∨ s.bus.inbox = .powerOn :: es ∧ step s = .next t) →
    (∀ r : Reg, r.isPaletteRam = false → readReg t r =
      match r with
      | .id => 0x504E4701
      | .crcReg => 0xFFFFFFFF
      | .idatMax => 0x00008000
      | .crcTable i => crcTable i
      | _ => 0) ∧
    irq t = false

/-- R48, R65: in the register window an access that is not 32 bits wide, not 4-byte aligned or at a reserved offset is
ignored when a write and reads 0 (the first byte decides the window: the model's choice, log 9); in the buffer window so is
one that is not 8, 16 or 32 bits wide (log 18) or not naturally aligned (measured on the host address, log 10). Item 12 of 93_implementation_defined.md: an access with a byte in neither window faults (one
partly inside too: the model's choice, log 9). -/
def Obligations.UndefinedAccessesAreIgnored : Prop :=
  ∀ (s : State) (a : Nat) (wd : Width) (v : Word) (es : List Event), s.params.wf →
    ((s.params.blockBase ≤ a ∧ a < s.params.blockBase + 4096 ∧
        (wd ≠ .w32 ∨ a % 4 ≠ 0 ∨ a - s.params.blockBase ∈ [0x02C, 0x04C] ∨
          0x09C ≤ a - s.params.blockBase ∧ a - s.params.blockBase ≤ 0x3FC) ∨
      inRegWindow s.params a = false ∧ s.params.bufBase ≤ a ∧ a + wd.bytes ≤ s.params.bufBase + s.params.memBytes ∧
        (a % wd.bytes ≠ 0 ∨ wd ∉ [Width.w8, .w16, .w32])) →
      (s.bus.inbox = .write a wd v :: es → step s = .next (withInbox s es)) ∧
      (s.bus.inbox = .read a wd :: es → step s = .next { s with bus := { s.bus with inbox := es, lastRead := 0 } })) ∧
    ((a < s.params.blockBase ∨ s.params.blockBase + 4096 ≤ a) →
      (a < s.params.bufBase ∨ s.params.bufBase + s.params.memBytes < a + wd.bytes) →
      (s.bus.inbox = .write a wd v :: es → step s = .fault .hostAccessOutsideWindows) ∧
      (s.bus.inbox = .read a wd :: es → step s = .fault .hostAccessOutsideWindows))

/-- The register map of 10_state.md (R20 to R51): which register stands at each offset. R25, R31 to R38, R41 to R51, R67: while
idle, a host read of a register gives its value and changes nothing but the model's read latch (log 11); a host write of a register other than CTRL, STATUS and CMD stores the value under the register's
width (R48), or nothing where the register is read-only or the value is above 256 in PLTE_N or TRNS_N (R43, R45; the whole
32-bit value is compared, log 8); no other register changes but HDR_INFO and ROW_BYTES with the header, and no buffer byte. -/
def Obligations.RegistersReadBack : Prop :=
  (∀ q ∈ ([
      (0x000, .id), (0x004, .ctrl), (0x008, .status), (0x00C, .error), (0x010, .cmd), (0x014, .srcAddr),
      (0x018, .srcLen), (0x01C, .dstAddr), (0x020, .dstLen), (0x024, .auxAddr), (0x028, .param), (0x030, .res0),
      (0x034, .res1), (0x038, .res2), (0x03C, .res3), (0x040, .crcReg), (0x044, .chunkType), (0x048, .idatMax),
      (0x050, .hdrWidth), (0x054, .hdrHeight), (0x058, .hdrFormat), (0x05C, .hdrInfo), (0x060, .rowBytes),
      (0x064, .framer), (0x068, .idatBase), (0x06C, .idatCap), (0x070, .idatLen), (0x074, .dirBase),
      (0x078, .dirCap), (0x07C, .dirCount), (0x080, .plteN), (0x084, .trnsCtrl), (0x088, .trnsN), (0x08C, .trnsGray),
      (0x090, .trnsR), (0x094, .trnsG), (0x098, .trnsB)] : List (Nat × Reg)), regAt q.1 = some q.2) ∧
  (∀ i : Nat, i < 256 → regAt (0x400 + 4 * i) = some (.plteRam i) ∧ regAt (0x800 + 4 * i) = some (.alphaRam i) ∧
    regAt (0xC00 + 4 * i) = some (.crcTable i)) ∧
  ∀ (s : State) (off : Nat) (r : Reg) (v : Word) (es : List Event), s.params.wf → s.ctl.busy = false → off % 4 = 0 →
    regAt off = some r →
    (s.bus.inbox = .read (s.params.blockBase + off) .w32 :: es →
      step s = .next { s with bus := { s.bus with inbox := es, lastRead := readReg s r } }) ∧
    (r ∉ [Reg.ctrl, .status, .cmd] → s.bus.inbox = .write (s.params.blockBase + off) .w32 v :: es →
    ∃ t, step s = .next t ∧
      readReg t r = (match r with
        | .hdrFormat => v &&& 0x00FFFFFF
        | .plteN => if v.toNat ≤ 256 then v else readReg s r
        | .trnsN => if v.toNat ≤ 256 then v else readReg s r
        | .trnsCtrl => v &&& 7
        | .trnsGray => v &&& 0xFFFF
        | .trnsR => v &&& 0xFFFF
        | .trnsG => v &&& 0xFFFF
        | .trnsB => v &&& 0xFFFF
        | .plteRam _ => v &&& 0x00FFFFFF
        | .alphaRam _ => v &&& 0xFF
        | .id => readReg s r
        | .error => readReg s r
        | .res0 => readReg s r
        | .res1 => readReg s r
        | .res2 => readReg s r
        | .res3 => readReg s r
        | .hdrInfo => readReg s r
        | .rowBytes => readReg s r
        | .framer => readReg s r
        | .idatLen => readReg s r
        | .dirCount => readReg s r
        | .crcTable _ => readReg s r
        | _ => v) ∧
      (∀ r' : Reg, r' ≠ r → (r' ∈ [Reg.hdrInfo, .rowBytes] → r ∉ [Reg.hdrWidth, .hdrHeight, .hdrFormat]) →
        readReg t r' = readReg s r') ∧
      SameBytes s t ∧ t.params = s.params ∧ t.bus = (withInbox s es).bus)

/-- R63: an idle host access of the buffer of 8, 16 or 32 bits carries the byte at `a + k` in lane `k`, counted from bits [7:0] with
little-endian lanes and from the access's top byte with big-endian ones; a write changes no other byte and no register, a
read changes nothing but the model's read latch (log 11), whose bits above the access are 0. -/
def Obligations.BufferLanesFollowTheLaneOrder : Prop :=
  ∀ (s : State) (a : Nat) (wd : Width) (v : Word) (es : List Event), s.ctl.busy = false →
    wd ∈ [Width.w8, .w16, .w32] → inRegWindow s.params (s.params.bufBase + a) = false → a + wd.bytes ≤ s.params.memBytes →
    (s.params.bufBase + a) % wd.bytes = 0 →
    let lane := fun k => if s.params.laneOrder = .little then 8 * k else 8 * (wd.bytes - 1 - k)
    (s.bus.inbox = .write (s.params.bufBase + a) wd v :: es →
      ∃ t, step s = .next t ∧ (∀ k, k < wd.bytes → bufByte t (a + k) = v.extractLsb' (lane k) 8) ∧
        SameOutside s t a wd.bytes ∧ t = { withInbox s es with buf := t.buf }) ∧
    (s.bus.inbox = .read (s.params.bufBase + a) wd :: es →
      ∃ t, step s = .next t ∧ (∀ k, k < wd.bytes → t.bus.lastRead.extractLsb' (lane k) 8 = bufByte s (a + k)) ∧
        t.bus.lastRead.toNat < 256 ^ wd.bytes ∧
        t = { s with bus := { s.bus with inbox := es, lastRead := t.bus.lastRead } })

/-! ### Whole-machine rules -/

/-- R262, R272, R121, R35, R260: every command, in every state, completes: BUSY falls and DONE rises, and of CTRL, STATUS,
CMD, the operand registers, the parameters and the model's own fields nothing else changes; the code is never a reserved one,
and success has INFO 0. A failed command other than STREAM_PARSE changes nothing but STATUS and ERROR, and FRAMER where it is
a parse command outside FAILED; a failed STREAM_PARSE enters FAILED the same way and writes no result but RES0. -/
def Obligations.CompletionCommitsOrDiscards : Prop :=
  ∀ (i : Instr) (s : State), ∃ t, exec i s = .next t ∧
    t.ctl = { s.ctl with busy := false, done := true, errCode := t.ctl.errCode, errInfo := t.ctl.errInfo } ∧
    t.ctl.errCode ∈ reportedCodes ∧ (t.ctl.errCode = 0 → t.ctl.errInfo = 0) ∧
    t.opd = s.opd ∧ t.params = s.params ∧ t.bus = s.bus ∧
    (t.ctl.errCode ≠ 0 →
      (i ∉ [Instr.sigCheck, .chunkParse, .streamParse] → t = { s with ctl := t.ctl }) ∧
      (i ∈ [Instr.sigCheck, .chunkParse, .streamParse] →
        (s.framer.phase = .failed →
          t = { s with ctl := t.ctl } ∧ t.ctl.errCode = 0x27 ∧ t.ctl.errInfo = s.framer.failCode) ∧
        (s.framer.phase ≠ .failed → t.framer.phase = .failed ∧ t.framer.failCode = t.ctl.errCode ∧
          (i ≠ .streamParse → t = { s with
            ctl := t.ctl
            framer := { s.framer with phase := .failed, failCode := t.ctl.errCode } }) ∧
          t.res = { s.res with res0 := t.res.res0 } ∧ t.crcReg = s.crcReg)))

/-- R25, R35, R36, R39, R41 to R47, R49, R50 (which commands write each register) and the command rules: a register that a
command's rule does not name reads as before its completion. ERROR and
STATUS are the completion's (R262). -/
def Obligations.CommandsWriteOnlyTheirRegisters : Prop :=
  ∀ (i : Instr) (s t : State) (r : Reg), exec i s = .next t → mayWrite i r = false → r ≠ .status →
    readReg t r = readReg s r

/-- The command rules with R68, R69: a command writes no buffer byte outside its destination regions, whether it succeeds or
fails. -/
def Obligations.CommandsWriteOnlyTheirDestinations : Prop :=
  ∀ (i : Instr) (s t : State) (a : Nat), exec i s = .next t → outsideAll (destRegions i s) a → bufByte t a = bufByte s a

/-- R120, R121: only FRAMER_RESET, a soft reset and a power-on reset leave the state FAILED. -/
def Obligations.FailedIsLeftOnlyByReset : Prop :=
  ∀ s t : State, s.framer.phase = .failed → step s = .next t → t.framer.phase ≠ .failed →
    (∃ es, s.bus.inbox = .powerOn :: es) ∨
    (∃ a v es, s.bus.inbox = .write a .w32 v :: es ∧ a = s.params.blockBase + 0x004 ∧ v.getLsbD 1 = true ∧
      s.ctl.busy = false) ∨
    (decode s.ctl.cmd = .ok .framerReset ∧ s.ctl.busy = true ∧ ((∃ es, s.bus.inbox = .engine :: es) ∨ s.bus.inbox = []))

/-- Every step keeps the invariant of the machine (Safety.lean) and the parameters. -/
def Obligations.EveryStepKeepsTheInvariant : Prop :=
  ∀ s t : State, Inv s → step s = .next t → Inv t ∧ t.params = s.params

/-- The invariant holds at reset, with the model's default parameters (log 1). -/
def Obligations.ResetSatisfiesTheInvariant : Prop := Inv State.reset

/-! ### Header and definitions (00_scope.md, 10_state.md) -/

/-- R26 to R30: the header is valid exactly on R28's condition, with R27's 15 pairs as far as the build keeps them (R4, log
14); HDR_INFO and ROW_BYTES read R29's and R30's values while it is valid and 0 while it is not. -/
def Obligations.HeaderRegistersDeriveFromTheHeader : Prop :=
  ∀ s : State,
    let d := s.hdr.bitDepth.toNat
    let ct := s.hdr.colorType.toNat
    let w := s.hdr.width.toNat
    let legal := (d, ct) ∈ [(1, 0), (2, 0), (4, 0), (8, 0), (16, 0), (8, 2), (16, 2), (1, 3), (2, 3), (4, 3), (8, 3), (8, 4),
      (16, 4), (8, 6), (16, 6)] ∧ (d, ct) ∈ s.params.legalPairs
    let channels := if ct = 2 then 3 else if ct = 4 then 2 else if ct = 6 then 4 else 1
    let bits := channels * d
    let rowBytes := (w * bits + 7) / 8
    let valid := 1 ≤ w ∧ 1 ≤ s.hdr.height.toNat ∧ legal ∧ s.hdr.interlace.toNat ≤ 1
    (valid → ∃ h, header s = some h ∧ h.width = w ∧ h.height = s.hdr.height.toNat ∧ h.depth = d ∧ h.color.code = ct ∧
      (h.interlaced = true ↔ s.hdr.interlace = 1) ∧ h.color.channels = channels ∧ h.bitsPP = bits ∧
      h.bpp = max 1 (bits / 8) ∧ h.rowBytes = rowBytes ∧
      readReg s .hdrInfo = BitVec.ofNat 32 (1 + 2 ^ 8 * channels + 2 ^ 16 * bits + 2 ^ 24 * max 1 (bits / 8)) ∧
      (readReg s .rowBytes).toNat = rowBytes % 2 ^ 32) ∧
    (¬valid → header s = none ∧ readReg s .hdrInfo = 0 ∧ readReg s .rowBytes = 0)

/-- R10 to R12, R223: rescaling keeps a value at the same depth, multiplies by 257 from 8 to 16 bits, by 85 and 17 from 2 and
4 bits to 8, rounds to the nearest value (twice the error is at most the divisor, and a half goes up), stays in range, and
a depth below 8 comes back from 8 bits. -/
def Obligations.RescaleRoundsToNearest : Prop :=
  ∀ v n m : Nat, n ∈ [1, 2, 4, 8, 16] → m ∈ [1, 2, 4, 8, 16] → v ≤ 2 ^ n - 1 →
    rescale v n m ≤ 2 ^ m - 1 ∧
    2 * (v * (2 ^ m - 1)) < (2 * rescale v n m + 1) * (2 ^ n - 1) ∧
    (2 * rescale v n m) * (2 ^ n - 1) ≤ 2 * (v * (2 ^ m - 1)) + (2 ^ n - 1) ∧
    rescale v n n = v ∧ (n = 8 → m = 16 → rescale v n m = 257 * v) ∧
    (n = 2 → m = 8 → rescale v n m = 85 * v) ∧ (n = 4 → m = 8 → rescale v n m = 17 * v) ∧
    (n ≤ 8 → rescale (rescale v n 8) 8 n = v)

/-! ### Control and CRC32 engine (45_control.md, 40_crc.md) -/

/-- R140, R103, R105, R120: the commands without operands. NOP changes nothing; CRC_INIT sets CRC_REG to 0xFFFFFFFF; CRC_FINAL
writes its complement to RES0; FRAMER_RESET clears FRAMER, IDAT_LEN, DIR_COUNT, the palette and transparency registers and the
header. Nothing else changes but STATUS and ERROR. A word with NOP's opcode and another field that is not 0 does not decode. -/
def Obligations.CommandsWithoutOperands : Prop :=
  (∀ s : State,
    exec .nop s = .next { s with ctl := okCtl s } ∧
    exec .crcInit s = .next { s with ctl := okCtl s, crcReg := 0xFFFFFFFF } ∧
    exec .crcFinal s = .next { s with ctl := okCtl s, res := { s.res with res0 := s.crcReg ^^^ 0xFFFFFFFF } } ∧
    ∃ t, exec .framerReset s = .next t ∧
      (∀ r ∈ [Reg.framer, .idatLen, .dirCount, .plteN, .trnsCtrl, .trnsN, .trnsGray, .trnsR, .trnsG, .trnsB, .hdrWidth,
        .hdrHeight, .hdrFormat], readReg t r = 0) ∧
      t = { s with ctl := okCtl s, framer := t.framer, pal := t.pal, hdr := t.hdr }) ∧
  ∀ w : Word, (CmdFields.ofWord w).opcode = 0 →
    decode w =
      if (CmdFields.ofWord w).rsv ≠ 0 then .error .reservedNotZero
      else if (CmdFields.ofWord w).sub ≠ 0 then .error .badSub
      else if (CmdFields.ofWord w).flags ≠ 0 then .error .badFlags
      else .ok .nop

/-- R104, R106, R100: CRC_UPDATE folds the source bytes into CRC_REG; CRC32 writes crc32 of them to RES0 and keeps CRC_REG;
both raise AddressOutOfRange(0) where the source does not fit the buffer. An update over two adjoining pieces equals the
updates over each: an inference the spec marks as its own (R104, R107: "[derived: from rule R100]"). -/
def Obligations.CrcCommandsFoldTheSource : Prop :=
  ∀ s : State,
    (srcAddr s + srcLen s ≤ s.params.memBytes →
      exec .crcUpdate s = .next { s with
        ctl := okCtl s
        crcReg := (memRead s (srcAddr s) (srcLen s)).foldl crcStep s.crcReg } ∧
      exec .crc32 s = .next { s with
        ctl := okCtl s
        res := { s.res with res0 := (memRead s (srcAddr s) (srcLen s)).foldl crcStep 0xFFFFFFFF ^^^ 0xFFFFFFFF } }) ∧
    (s.params.memBytes < srcAddr s + srcLen s →
      FailsWith .crcUpdate s (.addressOutOfRange .src) ∧ FailsWith .crc32 s (.addressOutOfRange .src)) ∧
    (∀ n m : Nat, crcFold s.crcReg (memRead s (srcAddr s) (n + m)) =
      crcFold (crcFold s.crcReg (memRead s (srcAddr s) n)) (memRead s (srcAddr s + n) m))

/-- R101, R102: the table entries are the eight-step division by the reflected polynomial, and a table-driven byte step is
eight steps of that division on the register with the byte added at its low end. -/
def Obligations.CrcStepIsBitwiseDivision : Prop :=
  let bitStep := fun c : Word => if c &&& 1 = 1 then 0xEDB88320 ^^^ (c >>> 1) else c >>> 1
  (∀ (s : State) (i : Nat), i < 256 → readReg s (.crcTable i) = Nat.iterate bitStep 8 (BitVec.ofNat 32 i)) ∧
  ∀ (c : Word) (b : Byte), crcStep c b = Nat.iterate bitStep 8 (c ^^^ b.setWidth 32)

/-- R108 (an inference the spec marks as its own) and R124: changing one bit of a byte sequence changes its CRC; so flipping one bit of the type or data of a chunk that
passes the framing checks gives ChunkCrcMismatch. -/
def Obligations.CrcDetectsEverySingleBitError : Prop :=
  (∀ (bs : List Byte) (i k : Nat) (h : i < bs.length), k < 8 → crc32 (bs.set i (bs[i] ^^^ (1#8 <<< k))) ≠ crc32 bs) ∧
  ∀ (s : State) (x k : Nat), firstError (framingOrder s) = none → k < 8 →
    srcAddr s + 4 ≤ x → x < srcAddr s + 8 + chunkLen s →
    FailsParseWith .chunkParse (memWrite s x [bufByte s x ^^^ (1#8 <<< k)]) .chunkCrcMismatch

/-! ### Chunk framer (41_framer.md) -/

/-- R123, R121: SIG_CHECK's checks in their order; the signature in state START moves FRAMER to SIG_OK and RES0 to 8, and
nothing else changes. -/
def Obligations.SignatureCheck : Prop :=
  ∀ s : State,
    let order : List Check :=
      [(s.framer.phase != .failed, .framerFailed s.framer.failCode),
       (s.framer.phase == .start, .unexpectedChunkOrder),
       (decide (8 ≤ srcLen s), .signatureMismatch),
       regionCheck s (srcAddr s) 8 .src,
       (memRead s (srcAddr s) 8 == [0x89, 0x50, 0x4E, 0x47, 0x0D, 0x0A, 0x1A, 0x0A], .signatureMismatch)]
    (firstError order = none →
      exec .sigCheck s = .next { s with
        ctl := okCtl s
        framer := { s.framer with phase := .sigOk }
        res := { s.res with res0 := 8 } }) ∧
    (∀ e, firstError order = some e → FailsParseWith .sigCheck s e)

/-- R124, R121: CHUNK_PARSE raises the first failing framing or integrity check, before it reads the chunk's type. -/
def Obligations.ChunkFramingIsCheckedFirst : Prop :=
  ∀ (s : State) (e : Err), firstError (framingOrder s) = some e → FailsParseWith .chunkParse s e

/-- R122, R127: for a chunk whose integrity checks pass, the outcome by state and kind. A forbidden cell raises
UnexpectedChunkOrder, an unknown critical type after IHDR raises UnknownCriticalChunk, IEND in HEADER raises MissingChunk;
and a success leads to the state the table names. -/
def Obligations.ChunkOrderTable : Prop :=
  ∀ s : State, firstError (framingOrder s) = none →
    let st := s.framer.phase
    let t := chunkCode s
    let named := [typeIhdr, typePlte, typeTrns, typeIdat, typeIend]
    let ancillary := t ∉ named ∧ t.testBit 29 = true
    let unknown := t ∉ named ∧ t.testBit 29 = false
    let next : Option Phase :=
      if t = typeIhdr then (if st = .sigOk then some .header else none)
      else if st = .sigOk then none
      else if t = typePlte ∨ t = typeTrns then (if st = .header then some .header else none)
      else if t = typeIdat then (if st = .postIdat then none else some .idat)
      else if t = typeIend then some .ended
      else if st = .header then some .header else some .postIdat
    (next = none → FailsParseWith .chunkParse s .unexpectedChunkOrder) ∧
    (st ≠ .sigOk → unknown → FailsParseWith .chunkParse s .unknownCriticalChunk) ∧
    (st = .header → t = typeIend →
      FailsParseWith .chunkParse s (.missingChunk (if paletteMissing s then .plte else .idat))) ∧
    (∀ u, exec .chunkParse s = .next u → u.ctl.errCode = 0 →
      (¬unknown ∧ next = some u.framer.phase) ∧ (ancillary → u.framer.dirCount = s.framer.dirCount + 1))

/-- R128, R125: an IHDR chunk's checks, and the header it loads: width and height big-endian, depth, colour type and interlace
bytes. Nothing else changes but FRAMER.STATE, the results, STATUS and ERROR. -/
def Obligations.IhdrChunkLoadsTheHeader : Prop :=
  ∀ s : State, firstError (framingOrder s) = none → chunkCode s = 0x49484452 →
    let d := chunkData s
    let order : List Check :=
      [(s.framer.phase == .sigOk, .unexpectedChunkOrder),
       (chunkLen s == 13, .invalidHeader),
       (decide (be32 s d ≠ 0 ∧ be32 s (d + 4) ≠ 0 ∧
          legalPair s.params (bufByte s (d + 8)).toNat (bufByte s (d + 9)).toNat = true ∧
          bufByte s (d + 10) = 0 ∧ bufByte s (d + 11) = 0 ∧ (bufByte s (d + 12)).toNat ≤ 1), .invalidHeader)]
    (firstError order = none →
      exec .chunkParse s = .next { s with
        ctl := okCtl s
        res := chunkResult s
        framer := { s.framer with phase := .header }
        hdr := ⟨BitVec.ofNat 32 (be32 s d), BitVec.ofNat 32 (be32 s (d + 4)), bufByte s (d + 8), bufByte s (d + 9),
          bufByte s (d + 12)⟩ }) ∧
    (∀ e, firstError order = some e → FailsParseWith .chunkParse s e)

/-- R129, R125: a PLTE chunk's checks, and the palette it loads: entry i from bytes 3i, 3i + 1, 3i + 2, the other entries
kept, PLTE_N and PLTE_SEEN set. -/
def Obligations.PlteChunkLoadsThePalette : Prop :=
  ∀ s : State, firstError (framingOrder s) = none → chunkCode s = 0x504C5445 →
    let d := chunkData s
    let len := chunkLen s
    let order : List Check :=
      [(s.framer.phase == .header && !s.framer.plteSeen && !s.framer.trnsSeen, .unexpectedChunkOrder),
       (s.hdr.colorType != 0 && s.hdr.colorType != 4, .invalidChunkData),
       (decide (len ≠ 0 ∧ len % 3 = 0 ∧ len ≤ 768 ∧ (s.hdr.colorType = 3 → len / 3 ≤ 2 ^ s.hdr.bitDepth.toNat)),
          .invalidChunkData)]
    (firstError order = none →
      ∃ t, exec .chunkParse s = .next t ∧
        t = { s with
          ctl := okCtl s
          res := chunkResult s
          framer := { s.framer with plteSeen := true }
          pal := { s.pal with plteN := BitVec.ofNat 9 (len / 3) }
          plteRam := t.plteRam } ∧
        (readReg t .plteN).toNat = len / 3 ∧
        (∀ i, i < len / 3 →
          plteEntry t i = bufByte s (d + 3 * i) ++ bufByte s (d + 3 * i + 1) ++ bufByte s (d + 3 * i + 2)) ∧
        ∀ i, len / 3 ≤ i → plteEntry t i = plteEntry s i) ∧
    (∀ e, firstError order = some e → FailsParseWith .chunkParse s e)

/-- R130, R125: an IDAT chunk's checks, and the payload appended to the IDAT buffer; no other byte changes. -/
def Obligations.IdatChunkAppendsThePayload : Prop :=
  ∀ s : State, firstError (framingOrder s) = none → chunkCode s = 0x49444154 →
    let len := chunkLen s
    let a := s.opd.idatBase.toNat + s.framer.idatLen.toNat
    let order : List Check :=
      [(s.framer.phase == .header || s.framer.phase == .idat, .unexpectedChunkOrder),
       (!paletteMissing s, .missingChunk .plte),
       capCheck (s.framer.idatLen.toNat + len) s.opd.idatCap.toNat .idat,
       regionCheck s a len .idat,
       apartCheck a len .idat (srcAddr s) (srcLen s)]
    (firstError order = none →
      ∃ t, exec .chunkParse s = .next t ∧
        t = { s with
          ctl := okCtl s
          res := chunkResult s
          framer := { s.framer with phase := .idat, idatSeen := true, idatLen := t.framer.idatLen }
          buf := t.buf } ∧
        t.framer.idatLen.toNat = s.framer.idatLen.toNat + len ∧
        memRead t a len = memRead s (chunkData s) len ∧ SameOutside s t a len) ∧
    (∀ e, firstError order = some e → FailsParseWith .chunkParse s e)

/-- R131, R134, R125: another ancillary chunk's checks, and the directory record it appends: type code, data address and
length, big-endian; after IDAT it moves FRAMER to POST_IDAT. -/
def Obligations.AncillaryChunkIsRecorded : Prop :=
  ∀ s : State, s.params.wf → firstError (framingOrder s) = none → (chunkCode s).testBit 29 = true →
    chunkCode s ≠ 0x74524E53 →
    let a := s.opd.dirBase.toNat + 12 * s.framer.dirCount.toNat
    let order : List Check :=
      [(s.framer.phase != .sigOk, .unexpectedChunkOrder),
       (decide (s.framer.dirCount.toNat < s.opd.dirCap.toNat), .bufferTooSmall .dir),
       regionCheck s a 12 .dir,
       apartCheck a 12 .dir (srcAddr s) (srcLen s)]
    (firstError order = none →
      ∃ t, exec .chunkParse s = .next t ∧
        t = { s with
          ctl := okCtl s
          res := chunkResult s
          framer := { s.framer with
            phase := if s.framer.phase = .idat then .postIdat else s.framer.phase
            dirCount := s.framer.dirCount + 1 }
          buf := t.buf } ∧
        be32 t a = chunkCode s ∧ be32 t (a + 4) = chunkData s ∧ be32 t (a + 8) = chunkLen s ∧ SameOutside s t a 12) ∧
    (∀ e, firstError order = some e → FailsParseWith .chunkParse s e)

/-- R132, R125: a tRNS chunk's checks, and what it loads: the gray key, the RGB key, or the alpha list of the palette, by
colour type; TRNS_SEEN is set. (A colour type outside R26, which only a host write can leave, loads nothing: log 15.) -/
def Obligations.TrnsChunkLoadsTheTransparency : Prop :=
  ∀ s : State, firstError (framingOrder s) = none → chunkCode s = 0x74524E53 →
    let d := chunkData s
    let len := chunkLen s
    let ct := s.hdr.colorType
    let order : List Check :=
      [(s.framer.phase == .header && !s.framer.trnsSeen, .unexpectedChunkOrder),
       (!paletteMissing s, .unexpectedChunkOrder),
       (ct != 4 && ct != 6, .invalidChunkData),
       (decide ((ct = 0 → len = 2) ∧ (ct = 2 → len = 6) ∧ (ct = 3 → len ≤ s.pal.plteN.toNat)), .invalidChunkData)]
    (firstError order = none →
      ∃ t, exec .chunkParse s = .next t ∧
        t = { s with
          ctl := okCtl s
          res := chunkResult s
          framer := { s.framer with trnsSeen := true }
          pal :=
            if ct = 0 then { s.pal with trnsGray := BitVec.ofNat 16 (be16 s d), grayValid := true }
            else if ct = 2 then { s.pal with
              trnsR := BitVec.ofNat 16 (be16 s d)
              trnsG := BitVec.ofNat 16 (be16 s (d + 2))
              trnsB := BitVec.ofNat 16 (be16 s (d + 4))
              rgbValid := true }
            else if ct = 3 then { s.pal with trnsN := BitVec.ofNat 9 len, palValid := true }
            else s.pal
          alphaRam := t.alphaRam } ∧
        (ct = 3 → ∀ i, alphaEntry t i = if i < len then bufByte s (d + i) else alphaEntry s i) ∧
        (ct ≠ 3 → t.alphaRam = s.alphaRam)) ∧
    (∀ e, firstError order = some e → FailsParseWith .chunkParse s e)

/-- R133, R125: an IEND chunk's checks; it moves FRAMER to END and changes nothing else but the results, STATUS and ERROR. -/
def Obligations.IendChunkEndsTheStream : Prop :=
  ∀ s : State, firstError (framingOrder s) = none → chunkCode s = 0x49454E44 →
    let order : List Check :=
      [(s.framer.phase != .sigOk, .unexpectedChunkOrder),
       (s.framer.phase != .header, .missingChunk (if paletteMissing s then .plte else .idat)),
       (chunkLen s == 0, .invalidChunkData)]
    (firstError order = none →
      exec .chunkParse s = .next { s with
        ctl := okCtl s
        res := chunkResult s
        framer := { s.framer with phase := .ended } }) ∧
    (∀ e, firstError order = some e → FailsParseWith .chunkParse s e)

/-- R126: STREAM_PARSE is SIG_CHECK and then CHUNK_PARSE over the rest of the stream until END, each step committed. Where a
run of those commands reaches END it succeeds with the bytes consumed, IDAT_LEN, DIR_COUNT and the number of chunks; where
the next command fails it fails with the same error, the steps before it committed, FRAMER in FAILED and RES0 the offset; and
where a check before the first step fails, RES0 is 0. -/
def Obligations.StreamParseIsTheCommandLoop : Prop :=
  ∀ s : State, s.params.wf →
    let order : List Check :=
      [(s.framer.phase != .failed, .framerFailed s.framer.failCode),
       (s.framer.phase == .start, .unexpectedChunkOrder),
       regionCheck s (srcAddr s) (srcLen s) .src,
       apartCheck s.opd.idatBase.toNat s.opd.idatCap.toNat .idat (srcAddr s) (srcLen s),
       apartCheck s.opd.dirBase.toNat (12 * s.opd.dirCap.toNat) .dir (srcAddr s) (srcLen s)]
    (firstError order = none →
      (∀ off n u, ChunkRun s off n u → u.framer.phase = .ended →
        exec .streamParse s = .next { u with
          ctl := okCtl s
          opd := s.opd
          res := ⟨BitVec.ofNat 32 off, u.framer.idatLen, u.framer.dirCount, BitVec.ofNat 32 n⟩ }) ∧
      (∀ off n u v, ChunkRun s off n u → u.framer.phase ≠ .ended → exec .chunkParse (atOffset s off u) = .next v →
        v.ctl.errCode ≠ 0 →
        exec .streamParse s = .next { u with
          ctl := { okCtl s with errCode := v.ctl.errCode, errInfo := v.ctl.errInfo }
          opd := s.opd
          framer := v.framer
          res := { s.res with res0 := BitVec.ofNat 32 off } }) ∧
      (∀ v, exec .sigCheck s = .next v → v.ctl.errCode ≠ 0 →
        exec .streamParse s = .next { s with ctl := v.ctl, framer := v.framer, res := { s.res with res0 := 0 } })) ∧
    (∀ e, firstError order = some e →
      exec .streamParse s = .next { s with
        ctl := errCtl s e
        framer := if s.framer.phase = .failed then s.framer else { s.framer with phase := .failed, failCode := e.code }
        res := if s.framer.phase = .failed then s.res else { s.res with res0 := 0 } })

/-- R139, an inference the spec marks as its own ("[derived: from rules R123 to R138]"): a stream made of the signature, the IHDR chunk of a valid header whose colour type is not palette, the IDAT chunks
of a payload split at any size, and IEND, parsed from the state FRAMER_RESET leaves with room for the payload and disjoint
buffers, succeeds, loads the header and leaves the payload in the IDAT buffer. -/
def Obligations.StreamRoundTrip : Prop :=
  ∀ (s : State) (w h : Word) (d ct im : Byte) (payload : List Byte) (m : Nat),
    let ihdr := beBytes w.toNat 4 ++ beBytes h.toNat 4 ++ [d, ct, 0, 0, im]
    let pieces := (List.range (max 1 ((payload.length + m - 1) / m))).map fun j => (payload.drop (j * m)).take m
    let stream := [0x89, 0x50, 0x4E, 0x47, 0x0D, 0x0A, 0x1A, 0x0A] ++ chunkBytes typeIhdr ihdr ++
      (pieces.flatMap (chunkBytes typeIdat)) ++ chunkBytes typeIend []
    1 ≤ m → headerOf s.params w.toNat h.toNat d.toNat ct.toNat im.toNat ≠ none → ct ≠ 3 →
    s.framer = ⟨.start, false, false, false, 0, 0, 0⟩ →
    srcLen s = stream.length → memRead s (srcAddr s) (srcLen s) = stream →
    srcAddr s + srcLen s ≤ s.params.memBytes →
    payload.length ≤ s.opd.idatCap.toNat → s.opd.idatBase.toNat + payload.length ≤ s.params.memBytes →
    (apartCheck s.opd.idatBase.toNat s.opd.idatCap.toNat .idat (srcAddr s) (srcLen s)).1 = true →
    (apartCheck s.opd.dirBase.toNat (12 * s.opd.dirCap.toNat) .dir (srcAddr s) (srcLen s)).1 = true →
    ∃ t, exec .streamParse s = .next t ∧ t.ctl = okCtl s ∧ t.framer.phase = .ended ∧
      t.hdr = ⟨w, h, d, ct, im⟩ ∧ t.framer.idatLen.toNat = payload.length ∧
      memRead t s.opd.idatBase.toNat payload.length = payload ∧
      t.res = ⟨s.opd.srcLen, t.framer.idatLen, 0, BitVec.ofNat 32 (2 + pieces.length)⟩ ∧
      SameOutside s t s.opd.idatBase.toNat payload.length

/-- R135, R137, R94: the checks of SIG_WRITE and IHDR_WRITE, the eight bytes of the signature, and the IHDR chunk written from
the header registers, its two method bytes 0. -/
def Obligations.SigWriteAndIhdrWrite : Prop :=
  ∀ s : State,
    (firstError (destChecks s 8) = none →
      ∃ t, exec .sigWrite s = .next t ∧ Leaves s t { s.res with res0 := 8 } 8 ∧
        memRead t (dstAddr s) 8 = [0x89, 0x50, 0x4E, 0x47, 0x0D, 0x0A, 0x1A, 0x0A]) ∧
    (∀ e, firstError (destChecks s 8) = some e → FailsWith .sigWrite s e) ∧
    let order : List Check := ((header s).isSome, .invalidHeader) :: destChecks s 25
    let a := dstAddr s
    (firstError order = none →
      ∃ t, exec .ihdrWrite s = .next t ∧
        Leaves s t { s.res with res0 := 25, res1 := crc32 (memRead t (a + 4) 17) } 25 ∧
        be32 t a = 13 ∧ be32 t (a + 4) = 0x49484452 ∧ be32 t (a + 8) = s.hdr.width.toNat ∧
        be32 t (a + 12) = s.hdr.height.toNat ∧
        memRead t (a + 16) 5 = [s.hdr.bitDepth, s.hdr.colorType, 0, 0, s.hdr.interlace] ∧
        be32 t (a + 21) = (crc32 (memRead t (a + 4) 17)).toNat) ∧
    (∀ e, firstError order = some e → FailsWith .ihdrWrite s e)

/-- R136, R93: CHUNK_WRITE's checks, and the chunk it writes: length, type, the source bytes, and the CRC of type and data,
big-endian. -/
def Obligations.ChunkWriteWritesTheChunk : Prop :=
  ∀ s : State,
    let n := srcLen s
    let bs := memRead s (srcAddr s) n
    let crc := crc32 (beBytes s.opd.chunkType.toNat 4 ++ bs)
    (firstError (srcDestChecks s n (12 + n)) = none →
      ∃ t, exec .chunkWrite s = .next t ∧
        Leaves s t { s.res with res0 := BitVec.ofNat 32 (12 + n), res1 := crc } (12 + n) ∧
        be32 t (dstAddr s) = n ∧ be32 t (dstAddr s + 4) = s.opd.chunkType.toNat ∧
        memRead t (dstAddr s + 8) n = bs ∧ be32 t (dstAddr s + 8 + n) = crc.toNat) ∧
    (∀ e, firstError (srcDestChecks s n (12 + n)) = some e → FailsWith .chunkWrite s e)

/-- R138: IDAT_WRITE's checks, and the chunks it writes: every chunk but the last carries IDAT_MAX bytes, the last the rest,
and an empty source gives one empty chunk; the payloads one after another are the source. -/
def Obligations.IdatWriteSplitsTheSource : Prop :=
  ∀ s : State,
    let m := s.opd.idatMax.toNat
    let len := srcLen s
    let k := max 1 ((len + m - 1) / m)
    let n := len + 12 * k
    let order : List Check := (decide (m ≠ 0), .illegalCommand .parameter) :: srcDestChecks s len n
    (firstError order = none →
      ∃ t, exec .idatWrite s = .next t ∧
        Leaves s t { s.res with res0 := BitVec.ofNat 32 n, res1 := BitVec.ofNat 32 k } n ∧
        ∀ j, j < k →
          let a := dstAddr s + j * (12 + m)
          let part := min m (len - j * m)
          be32 t a = part ∧ be32 t (a + 4) = 0x49444154 ∧
          memRead t (a + 8) part = memRead s (srcAddr s + j * m) part ∧
          be32 t (a + 8 + part) = (crc32 (memRead t (a + 4) (4 + part))).toNat) ∧
    (∀ e, firstError order = some e → FailsWith .idatWrite s e)

/-! ### Scanline filters (42_filter.md) -/

/-- R160: the row commands FILT_APPLY, FILT_REVERSE and FILT_SELECT report their first failing check, in its order: bpp,
source, prior row, capacity, destination, disjointness. -/
def Obligations.RowCommandsCheckInOrder : Prop :=
  ∀ (s : State) (first : Bool) (f : FilterType) (e : Err),
    (firstError (rowOrder s first (srcLen s)) = some e →
      FailsWith (applyCommand f first) s e ∧ FailsWith (reverseCommand f first) s e) ∧
    (firstError (rowOrder s first (srcLen s + 1)) = some e → FailsWith (.filtSelect first) s e)

/-- R185, R170 to R174 (with R161, R162): FILT_APPLY writes raw[x] minus the predictor at each x, the neighbours taken from
the raw row and the prior row and 0 left of the row; RES0 is the length and RES1 the score of the row written. -/
def Obligations.FiltApplySubtractsThePredictor : Prop :=
  ∀ (s : State) (first : Bool) (f : FilterType),
    let n := srcLen s
    let bpp := paramBpp s
    let raw := fun x => bufByte s (srcAddr s + x)
    let up := fun x => if first then 0 else bufByte s (auxAddr s + x)
    let left := fun x => if x < bpp then 0 else raw (x - bpp)
    let upLeft := fun x => if x < bpp then 0 else up (x - bpp)
    firstError (rowOrder s first n) = none →
    ∃ t, exec (applyCommand f first) s = .next t ∧
      Leaves s t { s.res with
        res0 := s.opd.srcLen
        res1 := BitVec.ofNat 32 (score s.params.scoreReading (memRead t (dstAddr s) n)) } n ∧
      (∀ x, x < n → bufByte t (dstAddr s + x) = raw x -
        match f with
        | .none => 0
        | .sub => left x
        | .up => up x
        | .average => BitVec.ofNat 8 (((left x).toNat + (up x).toNat) / 2)
        | .paeth => BitVec.ofNat 8 (paeth (left x).toNat (up x).toNat (upLeft x).toNat)) ∧
      memRead t (dstAddr s) n = applyFilter f (inputRow s) (priorRow s first) bpp

/-- R186, R175 to R179 (with R161, R162): FILT_REVERSE writes filt[x] plus the predictor at each x, the left neighbours taken
from the bytes it has reconstructed; RES0 is the length. -/
def Obligations.FiltReverseAddsThePredictor : Prop :=
  ∀ (s : State) (first : Bool) (f : FilterType),
    let n := srcLen s
    let bpp := paramBpp s
    let up := fun x => if first then 0 else bufByte s (auxAddr s + x)
    let upLeft := fun x => if x < bpp then 0 else up (x - bpp)
    firstError (rowOrder s first n) = none →
    ∃ t, exec (reverseCommand f first) s = .next t ∧
      Leaves s t { s.res with res0 := s.opd.srcLen } n ∧
      (∀ x, x < n →
        let left := if x < bpp then 0 else bufByte t (dstAddr s + (x - bpp))
        bufByte t (dstAddr s + x) = bufByte s (srcAddr s + x) +
          match f with
          | .none => 0
          | .sub => left
          | .up => up x
          | .average => BitVec.ofNat 8 ((left.toNat + (up x).toNat) / 2)
          | .paeth => BitVec.ofNat 8 (paeth left.toNat (up x).toNat (upLeft x).toNat)) ∧
      memRead t (dstAddr s) n = reverseFilter f (inputRow s) (priorRow s first) bpp

/-- R166, an inference the spec marks as its own ("[derived: from rules R164 and R165]"): for every filter type, distance of at least one byte and pair of rows of the same length, reversing undoes
applying and applying undoes reversing. -/
def Obligations.FiltersAreInvertible : Prop :=
  ∀ (f : FilterType) (row prior : List Byte) (bpp : Nat), 1 ≤ bpp → bpp ≤ 8 → row.length = prior.length →
    reverseFilter f (applyFilter f row prior bpp) prior bpp = row ∧
    applyFilter f (reverseFilter f row prior bpp) prior bpp = row

/-- R163, R181: PAETH writes to RES0 the one of a, b, c (the low three bytes of PARAM) nearest to a + b - c in signed
distance, ties to a, then to b; it changes nothing else but STATUS and ERROR. -/
def Obligations.PaethChoosesTheNearest : Prop :=
  ∀ s : State,
    let a : Int := (s.opd.param.extractLsb' 0 8).toNat
    let b : Int := (s.opd.param.extractLsb' 8 8).toNat
    let c : Int := (s.opd.param.extractLsb' 16 8).toNat
    let dist := fun v : Int => |a + b - c - v|
    ∃ r : Word, exec .paeth s = .next { s with ctl := okCtl s, res := { s.res with res0 := r } } ∧
      (r.toNat : Int) = (if dist a ≤ dist b ∧ dist a ≤ dist c then a else if dist b ≤ dist c then b else c) ∧
      dist r.toNat ≤ dist a ∧ dist r.toNat ≤ dist b ∧ dist r.toNat ≤ dist c

/-- R180, R167, R168: the score is the sum of the bytes' distances from 0 as two's-complement values, or of their distances
from 128, by SCORE_READING; FILT_SELECT writes the number of the lowest filter type of minimal score and the row that filter gives; RES0
is that number and RES1 its score. -/
def Obligations.FiltSelectChoosesTheBestFilter : Prop :=
  (∀ bs : List Byte,
    (score .signed bs : Int) = (bs.map fun v => |v.toInt|).sum ∧
    (score .offset128 bs : Int) = (bs.map fun v => |(v.toNat : Int) - 128|).sum) ∧
  ∀ (s : State) (first : Bool),
    let row := inputRow s
    let prior := priorRow s first
    firstError (rowOrder s first (srcLen s + 1)) = none →
    ∃ t f, exec (.filtSelect first) s = .next t ∧ Best s.params.scoreReading row prior (paramBpp s) f ∧
      Leaves s t { s.res with
        res0 := BitVec.ofNat 32 f.code
        res1 := BitVec.ofNat 32 (score s.params.scoreReading (applyFilter f row prior (paramBpp s))) } (srcLen s + 1) ∧
      memRead t (dstAddr s) (srcLen s + 1) = BitVec.ofNat 8 f.code :: applyFilter f row prior (paramBpp s)

/-- R182, R204, R205, R230, R231, R238: the commands that use the header raise InvalidHeader where it is not valid; else
they report the first failing check of length, source, capacity, destination and disjointness, for the sizes R169, R206,
R230, R231 and R238 give (DECODE_NORMALIZE checks the palette after the length). -/
def Obligations.HeaderCommandsCheckInOrder : Prop :=
  ∀ (s : State) (i : Instr),
    (header s = none → i ∈ [Instr.ihdrWrite, .filterImageNone, .filterImageSub, .filterImageUp, .filterImageAvg,
        .filterImagePaeth, .filterImageAdaptive, .unfilterImage, .adam7GeomP0, .adam7GeomP1, .adam7GeomP2, .adam7GeomP3,
        .adam7GeomP4, .adam7GeomP5, .adam7GeomP6, .deinterlace, .interlace, .depthExpand false, .depthExpand true,
        .depthPack false, .depthPack true, .decodeNormalize false, .decodeNormalize true] →
      FailsWith i s .invalidHeader) ∧
    ∀ h e, header s = some h →
      let pixels := h.width * h.height
      let image := h.height * ((h.width * h.bitsPP + 7) / 8)
      (∀ m, firstError (imageOrder s (rasterBytes h) (streamBytes h)) = some e → FailsWith (imageCommand m) s e) ∧
      (firstError (imageOrder s (streamBytes h) (rasterBytes h)) = some e → FailsWith .unfilterImage s e) ∧
      (firstError (imageOrder s (passBytes h) image) = some e → FailsWith .deinterlace s e) ∧
      (firstError (imageOrder s image (passBytes h)) = some e → FailsWith .interlace s e) ∧
      (∀ narrow : Bool, let sw := if h.depth = 16 ∧ narrow = false then 16 else 8
        (firstError (imageOrder s image (pixels * h.color.channels * sw / 8)) = some e →
          FailsWith (.depthExpand narrow) s e) ∧
        (firstError ((decide (srcLen s = image), .insufficientPixelData) ::
            (decide (h.color = .palette → s.pal.plteN ≠ 0), .paletteRequired) ::
            srcDestChecks s image (pixels * 4 * sw / 8)) = some e → FailsWith (.decodeNormalize narrow) s e)) ∧
      ∀ s16 : Bool, let sw := if s16 then 16 else 8
        firstError (imageOrder s (pixels * h.color.channels * sw / 8) image) = some e → FailsWith (.depthPack s16) s e

/-- R169, R201, R206: the sub-images of an image (the whole image, or its non-empty passes in order) and the sizes of the two
layouts and of the pass raster. -/
def Obligations.ImageLayouts : Prop :=
  ∀ (s : State) (h : Header), header s = some h →
    let rb := fun w => (w * h.bitsPP + 7) / 8
    let size := fun (n off step : Nat) => if off < n then (n - off + step - 1) / step else 0
    let all := [(size h.width 0 8, size h.height 0 8), (size h.width 4 8, size h.height 0 8),
      (size h.width 0 4, size h.height 4 8), (size h.width 2 4, size h.height 0 4), (size h.width 0 2, size h.height 2 4),
      (size h.width 1 2, size h.height 0 2), (size h.width 0 1, size h.height 1 2)]
    (h.interlaced = false → subImages h = [(h.width, h.height)]) ∧
    (h.interlaced = true → subImages h = all.filter fun q => q.1 ≠ 0 ∧ q.2 ≠ 0) ∧
    rasterBytes h = ((subImages h).map fun q => q.2 * rb q.1).sum ∧
    streamBytes h = ((subImages h).map fun q => q.2 * (1 + rb q.1)).sum ∧
    streamBytes h = rasterBytes h + imageRows h ∧
    passBytes h = (all.map fun q => q.2 * rb q.1).sum ∧
    (h.interlaced = true → passBytes h = rasterBytes h) ∧ (h.interlaced = false → h.height * rb h.width = rasterBytes h)

/-- R183, R169: FILTER_IMAGE writes, for each row of each sub-image, its filter-type byte (the mode's, or the best one's in
mode ADAPTIVE) and the row that filter gives, its prior row the raw row before it or zeros; RES0 is the stream's length and
RES1 the number of rows. -/
def Obligations.FilterImageFiltersEveryRow : Prop :=
  ∀ (s : State) (h : Header) (m : FilterMode), header s = some h →
    firstError (imageOrder s (rasterBytes h) (streamBytes h)) = none →
    let raster := memRead s (srcAddr s) (rasterBytes h)
    ∃ t, exec (imageCommand m) s = .next t ∧
      Leaves s t { s.res with
        res0 := BitVec.ofNat 32 (streamBytes h)
        res1 := BitVec.ofNat 32 ((subImages h).map Prod.snd).sum } (streamBytes h) ∧
      ∀ before q rest y, subImages h = before ++ q :: rest → y < q.2 →
        ∃ f, (match m with
            | .fixed g => f = g
            | .adaptive => Best s.params.scoreReading (rasterRow h raster before q y) (rasterPrior h raster before q y)
                h.bpp f) ∧
          streamRow h (memRead t (dstAddr s) (streamBytes h)) before q y =
            BitVec.ofNat 8 f.code :: applyFilter f (rasterRow h raster before q y) (rasterPrior h raster before q y) h.bpp

/-- R184, R169: UNFILTER_IMAGE reverses each row by its own filter-type byte, its prior row the reconstructed row before it or
zeros; the first row in stream order whose byte is above 4 raises InvalidFilterType with that byte, and nothing is written. -/
def Obligations.UnfilterImageReversesEveryRow : Prop :=
  ∀ (s : State) (h : Header), header s = some h →
    firstError (imageOrder s (streamBytes h) (rasterBytes h)) = none →
    let stream := memRead s (srcAddr s) (streamBytes h)
    let typeAt := fun before q y => (byteAt (streamRow h stream before q y) 0)
    ((∀ before q rest y, subImages h = before ++ q :: rest → y < q.2 → (typeAt before q y).toNat ≤ 4) →
      ∃ t, exec .unfilterImage s = .next t ∧
        Leaves s t { s.res with
          res0 := BitVec.ofNat 32 (rasterBytes h)
          res1 := BitVec.ofNat 32 ((subImages h).map Prod.snd).sum } (rasterBytes h) ∧
        ∀ before q rest y, subImages h = before ++ q :: rest → y < q.2 →
          ∃ f : FilterType, (f.code : Nat) = (typeAt before q y).toNat ∧
            rasterRow h (memRead t (dstAddr s) (rasterBytes h)) before q y =
              reverseFilter f ((streamRow h stream before q y).drop 1)
                (rasterPrior h (memRead t (dstAddr s) (rasterBytes h)) before q y) h.bpp) ∧
    ∀ before q rest y, subImages h = before ++ q :: rest → y < q.2 → 4 < (typeAt before q y).toNat →
      (∀ before' q' rest' y', subImages h = before' ++ q' :: rest' → y' < q'.2 →
        (before'.length < before.length ∨ before'.length = before.length ∧ y' < y) → (typeAt before' q' y').toNat ≤ 4) →
      FailsWith .unfilterImage s (.invalidFilterType (typeAt before q y))

/-- R166 with R183 and R184: UNFILTER_IMAGE over what FILTER_IMAGE wrote, in any mode, gives back the raster. -/
def Obligations.UnfilterUndoesFilter : Prop :=
  ∀ (s t : State) (h : Header) (m : FilterMode) (dst cap : Word), header s = some h →
    exec (imageCommand m) s = .next t → t.ctl.errCode = 0 →
    let u := { t with opd := { t.opd with
      srcAddr := s.opd.dstAddr
      srcLen := BitVec.ofNat 32 (streamBytes h)
      dstAddr := dst
      dstLen := cap } }
    firstError (imageOrder u (streamBytes h) (rasterBytes h)) = none →
    ∃ v, exec .unfilterImage u = .next v ∧ v.ctl.errCode = 0 ∧
      memRead v dst.toNat (rasterBytes h) = memRead s (srcAddr s) (rasterBytes h)

/-! ### Adam7 (43_interlace.md) -/

/-- R200, R201, R203: ADAM7_GEOM writes the pass's width, height, offsets and steps, and its byte offset in the pass raster,
whatever INTERLACE holds; it changes nothing else but STATUS and ERROR. -/
def Obligations.Adam7GeomReportsThePass : Prop :=
  ∀ (s : State) (h : Header) (p : Fin 7), header s = some h →
    let table : List (Nat × Nat × Nat × Nat) :=
      [(0, 0, 8, 8), (4, 0, 8, 8), (0, 4, 4, 8), (2, 0, 4, 4), (0, 2, 2, 4), (1, 0, 2, 2), (0, 1, 1, 2)]
    let row := fun q => table.getD q (0, 0, 1, 1)
    let size := fun (n off step : Nat) => if off < n then (n - off + step - 1) / step else 0
    let pw := fun q => size h.width (row q).1 (row q).2.2.1
    let ph := fun q => size h.height (row q).2.1 (row q).2.2.2
    exec (geomCommand p) s = .next { s with
      ctl := okCtl s
      res := ⟨BitVec.ofNat 32 (pw p), BitVec.ofNat 32 (ph p),
        BitVec.ofNat 32 ((row p).1 + 256 * (row p).2.1 + 65536 * (row p).2.2.1 + 16777216 * (row p).2.2.2),
        BitVec.ofNat 32 ((List.range p).map fun q => ph q * ((pw q * h.bitsPP + 7) / 8)).sum⟩ }

/-- R202, an inference the spec marks as its own ("[derived: from rules R200 and R201]"): every pixel of the image is the pixel of exactly one pass, and the pass sizes sum to the image's. -/
def Obligations.Adam7CoversEveryPixelOnce : Prop :=
  ∀ h : Header,
    (∀ x y, x < h.width → y < h.height → ∃! q : Nat × Nat × Nat, q.1 < 7 ∧ q.2.1 < passWidth h (passOf q.1) ∧
      q.2.2 < passHeight h (passOf q.1) ∧ (passOf q.1).xOffset + q.2.1 * (passOf q.1).xStep = x ∧
      (passOf q.1).yOffset + q.2.2 * (passOf q.1).yStep = y) ∧
    (∀ p px py, p < 7 → px < passWidth h (passOf p) → py < passHeight h (passOf p) →
      (passOf p).xOffset + px * (passOf p).xStep < h.width ∧ (passOf p).yOffset + py * (passOf p).yStep < h.height) ∧
    (passes.map fun p => passWidth h p * passHeight h p).sum = h.width * h.height

/-- R204, R206, R13: DEINTERLACE moves each pixel of each pass to its image position and writes the padding bits 0; RES0 is
the full raster's length. -/
def Obligations.DeinterlaceScattersThePasses : Prop :=
  ∀ (s : State) (h : Header), header s = some h → firstError (imageOrder s (passBytes h) (fullBytes h)) = none →
    ∃ t, exec .deinterlace s = .next t ∧
      Leaves s t { s.res with res0 := BitVec.ofNat 32 (fullBytes h) } (fullBytes h) ∧
      let out := fun y => memRead t (dstAddr s + y * h.rowBytes) h.rowBytes
      (∀ p px py, p < 7 → px < passWidth h (passOf p) → py < passHeight h (passOf p) →
        let rb := rowBytes (passWidth h (passOf p)) h.bitsPP
        getPix (out ((passOf p).yOffset + py * (passOf p).yStep)) ((passOf p).xOffset + px * (passOf p).xStep) h.bitsPP =
          getPix (memRead s (srcAddr s + passStart h p + py * rb) rb) px h.bitsPP) ∧
      ∀ y k, y < h.height → h.width * h.bitsPP ≤ k → k < 8 * h.rowBytes → rowBit (out y) k = false

/-- R205, R206, R13: INTERLACE moves each pixel of the image to its place in its pass and writes the padding bits 0; RES0 is
the pass raster's length. -/
def Obligations.InterlaceGathersThePasses : Prop :=
  ∀ (s : State) (h : Header), header s = some h → firstError (imageOrder s (fullBytes h) (passBytes h)) = none →
    ∃ t, exec .interlace s = .next t ∧
      Leaves s t { s.res with res0 := BitVec.ofNat 32 (passBytes h) } (passBytes h) ∧
      ∀ p py, p < 7 → py < passHeight h (passOf p) →
        let rb := rowBytes (passWidth h (passOf p)) h.bitsPP
        let out := memRead t (dstAddr s + passStart h p + py * rb) rb
        (∀ px, px < passWidth h (passOf p) →
          getPix out px h.bitsPP =
            getPix (memRead s (srcAddr s + ((passOf p).yOffset + py * (passOf p).yStep) * h.rowBytes) h.rowBytes)
              ((passOf p).xOffset + px * (passOf p).xStep) h.bitsPP) ∧
        ∀ k, passWidth h (passOf p) * h.bitsPP ≤ k → k < 8 * rb → rowBit out k = false

/-- R205 with R204: DEINTERLACE after INTERLACE gives back every pixel of the raster, its padding bits cleared. -/
def Obligations.DeinterlaceUndoesInterlace : Prop :=
  ∀ (h : Header) (raster : List Byte), raster.length = fullBytes h →
    (deinterlaceBytes h (interlaceBytes h raster)).length = fullBytes h ∧
    ∀ y k, y < h.height → k < 8 * h.rowBytes →
      rowBit (rowOf (deinterlaceBytes h (interlaceBytes h raster)) h.rowBytes y) k =
        (decide (k < h.width * h.bitsPP) && rowBit (rowOf raster h.rowBytes y) k)

/-! ### Bitmap normaliser (44_normalizer.md) -/

/-- R230, R220 to R224: DEPTH_EXPAND writes, for every sample of the image in raster and channel order, the raw sample
rescaled to the output width, or the palette index as it stands; RES0 is the array's length. -/
def Obligations.DepthExpandRescalesEverySample : Prop :=
  ∀ (s : State) (h : Header) (narrow : Bool), header s = some h →
    let sw := if h.depth = 16 ∧ narrow = false then 16 else 8
    let c := h.color.channels
    let nOut := h.width * h.height * c * sw / 8
    firstError (imageOrder s (fullBytes h) nOut) = none →
    ∃ t, exec (.depthExpand narrow) s = .next t ∧
      Leaves s t { s.res with res0 := BitVec.ofNat 32 nOut } nOut ∧
      ∀ x y k, x < h.width → y < h.height → k < c →
        let raw := getPix (memRead s (srcAddr s + y * h.rowBytes) h.rowBytes) (x * c + k) h.depth
        sampOf (memRead t (dstAddr s) nOut) ((y * h.width + x) * c + k) sw =
          if h.color = .palette then raw else rescale raw h.depth sw

/-- R231, R224: DEPTH_PACK writes, at every sample's place of the raster, the array's sample rescaled to the header's depth,
or the palette index as it stands where all fit; the padding bits are 0; RES0 is the raster's length. -/
def Obligations.DepthPackPacksEverySample : Prop :=
  ∀ (s : State) (h : Header) (s16 : Bool), header s = some h →
    let sw := if s16 then 16 else 8
    let c := h.color.channels
    let nIn := h.width * h.height * c * sw / 8
    let sample := sampOf (memRead s (srcAddr s) nIn)
    firstError (imageOrder s nIn (fullBytes h)) = none →
    (h.color = .palette → ∀ i, i < h.width * h.height → sample i sw < 2 ^ h.depth) →
    ∃ t, exec (.depthPack s16) s = .next t ∧
      Leaves s t { s.res with res0 := BitVec.ofNat 32 (fullBytes h) } (fullBytes h) ∧
      let out := fun y => memRead t (dstAddr s + y * h.rowBytes) h.rowBytes
      (∀ x y k, x < h.width → y < h.height → k < c →
        getPix (out y) (x * c + k) h.depth =
          if h.color = .palette then sample ((y * h.width + x) * c + k) sw
          else rescale (sample ((y * h.width + x) * c + k) sw) sw h.depth) ∧
      ∀ y k, y < h.height → h.width * h.bitsPP ≤ k → k < 8 * h.rowBytes → rowBit (out y) k = false

/-- R235, R234, R233, R225 to R227: COLOR_CONVERT's checks in their order: the pair (and a palette source with 16-bit samples),
the length, the palette, the regions. On a supported pair it writes the converted samples of every pixel: gray, RGB and
alpha taken over, alpha from the key or the palette's alpha list, luma where colour becomes gray, the palette's entry or the
index kept; RES0 is the array's length. -/
def Obligations.ColorConvertConvertsEveryPixel : Prop :=
  ∀ (s : State) (src dst : ColorType) (s16 : Bool),
    let sw := if s16 then 16 else 8
    let n := s.opd.param.toNat
    let nIn := n * src.channels * sw / 8
    let nOut := n * dst.channels * sw / 8
    let input := memRead s (srcAddr s) nIn
    let supported := (src ≠ .palette ∧ dst ≠ .palette) ∨ (src = .palette ∧ dst ∈ [ColorType.rgb, .palette, .rgba])
    let order : List Check :=
      [(decide (supported ∧ ¬(src = .palette ∧ s16 = true)), .unsupportedColorConversion),
       (decide (srcLen s = nIn), .insufficientPixelData),
       (decide (src = .palette → s.pal.plteN ≠ 0), .paletteRequired)] ++ srcDestChecks s nIn nOut
    (∀ e, firstError order = some e → FailsWith (.colorConvert src dst s16) s e) ∧
    (firstError order = none → (src = .palette → ∀ j, j < n → (byteAt input j).toNat < s.pal.plteN.toNat) →
    ∃ t, exec (.colorConvert src dst s16) s = .next t ∧ Leaves s t { s.res with res0 := BitVec.ofNat 32 nOut } nOut ∧
      ∀ j k, j < n → k < dst.channels →
        let v := fun i => sampOf input (j * src.channels + i) sw
        let e := plteEntry s (v 0)
        let full := 2 ^ sw - 1
        let rgb := match src with
          | .gray => [v 0, v 0, v 0]
          | .rgb => [v 0, v 1, v 2]
          | .palette => [(e.extractLsb' 16 8).toNat, (e.extractLsb' 8 8).toNat, (e.extractLsb' 0 8).toNat]
          | .grayAlpha => [v 0, v 0, v 0]
          | .rgba => [v 0, v 1, v 2]
        let alpha := match src with
          | .gray => if s.pal.grayValid = true ∧ v 0 = s.pal.trnsGray.toNat then 0 else full
          | .rgb =>
            if s.pal.rgbValid = true ∧ v 0 = s.pal.trnsR.toNat ∧ v 1 = s.pal.trnsG.toNat ∧ v 2 = s.pal.trnsB.toNat then 0
            else full
          | .palette => if s.pal.palValid = true ∧ v 0 < s.pal.trnsN.toNat then (alphaEntry s (v 0)).toNat else 255
          | .grayAlpha => v 1
          | .rgba => v 3
        let y := match src with
          | .rgb => (299 * v 0 + 587 * v 1 + 114 * v 2 + 500) / 1000
          | .rgba => (299 * v 0 + 587 * v 1 + 114 * v 2 + 500) / 1000
          | _ => v 0
        let px := match dst with
          | .gray => [y]
          | .rgb => rgb
          | .palette => [v 0]
          | .grayAlpha => [y, alpha]
          | .rgba => rgb ++ [alpha]
        sampOf (memRead t (dstAddr s) nOut) (j * dst.channels + k) sw = px.getD k 0)

/-- R238, R236, R225, R226: DECODE_NORMALIZE writes the canonical RGBA pixel of every pixel of the image: samples rescaled to
the output width, alpha from the key (compared with the raw samples) or the palette's alpha list, palette entries looked up;
RES0 is the array's length. -/
def Obligations.DecodeNormalizeGivesCanonicalRgba : Prop :=
  ∀ (s : State) (h : Header) (narrow : Bool), header s = some h →
    let sw := if h.depth = 16 ∧ narrow = false then 16 else 8
    let c := h.color.channels
    let nOut := h.width * h.height * 4 * sw / 8
    let raw := fun x y k => getPix (memRead s (srcAddr s + y * h.rowBytes) h.rowBytes) (x * c + k) h.depth
    firstError (imageOrder s (fullBytes h) nOut) = none → (h.color = .palette → s.pal.plteN ≠ 0) →
    (h.color = .palette → ∀ x y, x < h.width → y < h.height → raw x y 0 < s.pal.plteN.toNat) →
    ∃ t, exec (.decodeNormalize narrow) s = .next t ∧ Leaves s t { s.res with res0 := BitVec.ofNat 32 nOut } nOut ∧
      ∀ x y k, x < h.width → y < h.height → k < 4 →
        let v := raw x y
        let up := fun i => rescale (v i) h.depth sw
        let e := plteEntry s (v 0)
        let full := 2 ^ sw - 1
        let px := match h.color with
          | .gray => [up 0, up 0, up 0, if s.pal.grayValid = true ∧ v 0 = s.pal.trnsGray.toNat then 0 else full]
          | .rgb => [up 0, up 1, up 2,
              if s.pal.rgbValid = true ∧ v 0 = s.pal.trnsR.toNat ∧ v 1 = s.pal.trnsG.toNat ∧ v 2 = s.pal.trnsB.toNat then 0
              else full]
          | .palette => [(e.extractLsb' 16 8).toNat, (e.extractLsb' 8 8).toNat, (e.extractLsb' 0 8).toNat,
              if s.pal.palValid = true ∧ v 0 < s.pal.trnsN.toNat then (alphaEntry s (v 0)).toNat else 255]
          | .grayAlpha => [up 0, up 0, up 0, up 1]
          | .rgba => [up 0, up 1, up 2, up 3]
        sampOf (memRead t (dstAddr s) nOut) ((y * h.width + x) * 4 + k) sw = px.getD k 0

/-- R225, R231, R237: the first palette index in array or raster order that is not below PLTE_N (COLOR_CONVERT,
DECODE_NORMALIZE) or does not fit the depth (DEPTH_PACK) raises PaletteIndexOutOfRange with the index modulo 256, and nothing
is written. -/
def Obligations.FirstBadPaletteIndexIsReported : Prop :=
  ∀ s : State,
    (∀ dst j, dst ∈ [ColorType.rgb, .palette, .rgba] → s.pal.plteN ≠ 0 → j < s.opd.param.toNat →
      let index := fun i => bufByte s (srcAddr s + i)
      firstError (imageOrder s s.opd.param.toNat (s.opd.param.toNat * dst.channels)) = none →
      (∀ i, i < j → (index i).toNat < s.pal.plteN.toNat) → s.pal.plteN.toNat ≤ (index j).toNat →
      FailsWith (.colorConvert .palette dst false) s (.paletteIndexOutOfRange (index j))) ∧
    ∀ h, header s = some h → h.color = .palette →
      (∀ narrow x y, s.pal.plteN ≠ 0 → x < h.width → y < h.height →
        let index := fun x y => getPix (memRead s (srcAddr s + y * h.rowBytes) h.rowBytes) x h.depth
        firstError (imageOrder s (fullBytes h) (h.width * h.height * 4)) = none →
        (∀ x' y', x' < h.width → (y' < y ∨ y' = y ∧ x' < x) → index x' y' < s.pal.plteN.toNat) →
        s.pal.plteN.toNat ≤ index x y →
        FailsWith (.decodeNormalize narrow) s (.paletteIndexOutOfRange (BitVec.ofNat 8 (index x y)))) ∧
      ∀ (s16 : Bool) (j : Nat), j < h.width * h.height →
        let sw := if s16 then 16 else 8
        let index := fun i => sampOf (memRead s (srcAddr s) (h.width * h.height * sw / 8)) i sw
        firstError (imageOrder s (h.width * h.height * sw / 8) (fullBytes h)) = none →
        (∀ i, i < j → index i < 2 ^ h.depth) → 2 ^ h.depth ≤ index j →
        FailsWith (.depthPack s16) s (.paletteIndexOutOfRange (BitVec.ofNat 8 (index j)))

/-! ### The bits of the registers (10_state.md) -/

/-- R20, R23, R25, R31 to R47, R49, R50: the bits of every register that CTRL's, STATUS's and the header's own statements do not
give, from the top bit down, are those of the fields the commands use: ERROR holds CODE in [7:0] and INFO in [15:8]; FRAMER
holds STATE in [3:0] with R40's numbers, the seen-bits 8 to 10 and FAIL_CODE in [23:16]; HDR_FORMAT holds BIT_DEPTH, COLOR_TYPE
and INTERLACE; TRNS_CTRL holds GRAY_VALID, RGB_VALID and PAL_VALID in bits 0 to 2; the bits that no field takes read 0. -/
def Obligations.RegisterBitsAreTheFields : Prop :=
  ∀ s : State,
    let state : BitVec 4 := match s.framer.phase with
      | .start => 0
      | .sigOk => 1
      | .header => 2
      | .idat => 3
      | .postIdat => 4
      | .ended => 5
      | .failed => 15
    readReg s .id = 0x504E4701 ∧
    readReg s .error = 0#16 ++ s.ctl.errInfo ++ s.ctl.errCode ∧
    readReg s .framer = 0#8 ++ s.framer.failCode ++ 0#5 ++ BitVec.ofBool s.framer.idatSeen ++
      BitVec.ofBool s.framer.trnsSeen ++ BitVec.ofBool s.framer.plteSeen ++ 0#4 ++ state ∧
    readReg s .hdrFormat = 0#8 ++ s.hdr.interlace ++ s.hdr.colorType ++ s.hdr.bitDepth ∧
    readReg s .hdrWidth = s.hdr.width ∧ readReg s .hdrHeight = s.hdr.height ∧
    readReg s .trnsCtrl = 0#29 ++ BitVec.ofBool s.pal.palValid ++ BitVec.ofBool s.pal.rgbValid ++
      BitVec.ofBool s.pal.grayValid ∧
    readReg s .plteN = 0#23 ++ s.pal.plteN ∧ readReg s .trnsN = 0#23 ++ s.pal.trnsN ∧
    readReg s .trnsGray = 0#16 ++ s.pal.trnsGray ∧ readReg s .trnsR = 0#16 ++ s.pal.trnsR ∧
    readReg s .trnsG = 0#16 ++ s.pal.trnsG ∧ readReg s .trnsB = 0#16 ++ s.pal.trnsB ∧
    (∀ i : Nat, readReg s (.plteRam i) = 0#8 ++ plteEntry s i ∧ readReg s (.alphaRam i) = 0#24 ++ alphaEntry s i) ∧
    readReg s .cmd = s.ctl.cmd ∧ readReg s .crcReg = s.crcReg ∧
    readReg s .srcAddr = s.opd.srcAddr ∧ readReg s .srcLen = s.opd.srcLen ∧ readReg s .dstAddr = s.opd.dstAddr ∧
    readReg s .dstLen = s.opd.dstLen ∧ readReg s .auxAddr = s.opd.auxAddr ∧ readReg s .param = s.opd.param ∧
    readReg s .chunkType = s.opd.chunkType ∧ readReg s .idatMax = s.opd.idatMax ∧ readReg s .idatBase = s.opd.idatBase ∧
    readReg s .idatCap = s.opd.idatCap ∧ readReg s .dirBase = s.opd.dirBase ∧ readReg s .dirCap = s.opd.dirCap ∧
    readReg s .idatLen = s.framer.idatLen ∧ readReg s .dirCount = s.framer.dirCount ∧ readReg s .res0 = s.res.res0 ∧
    readReg s .res1 = s.res.res1 ∧ readReg s .res2 = s.res.res2 ∧ readReg s .res3 = s.res.res3
end

