-- ==== Sys2Proof/Laws/Ram.lean ====
section
/-! SUPPORT. Laws of the sparse RAMs: reading back a write, the canonical form kept by every write, and equal contents
making equal RAMs. -/

namespace Sys2Proof.Machine

variable {α : Type}

/-! ### Reading back -/

/-- A write is read back at its address and nowhere else. -/
theorem ramGet_ramSet (m : Ram α) (a b : Nat) (v : α) :
    ramGet (ramSet m a v) b = if a = b then some v else ramGet m b := by
  induction m with
  | nil => rfl
  | cons p m ih =>
    obtain ⟨k, w⟩ := p
    unfold ramSet
    split
    · rfl
    · split
      · subst k
        simp only [ramGet]
        split <;> rfl
      · simp only [ramGet, ih]
        split <;> split <;> first | rfl | omega

@[simp] theorem ramGet_ramSet_same (m : Ram α) (a : Nat) (v : α) : ramGet (ramSet m a v) a = some v := by
  rw [ramGet_ramSet, if_pos rfl]

theorem ramGet_ramSet_ne (m : Ram α) {a b : Nat} (h : a ≠ b) (v : α) : ramGet (ramSet m a v) b = ramGet m b := by
  rw [ramGet_ramSet, if_neg h]

/-- A stored list is read back in its range; elsewhere nothing changes. -/
theorem ramGet_ramStore (vs : List α) (m : Ram α) (a b : Nat) :
    ramGet (ramStore m a vs) b = if a ≤ b ∧ b < a + vs.length then vs[b - a]? else ramGet m b := by
  induction vs generalizing m a with
  | nil => simp [ramStore]
  | cons v vs ih =>
    rw [ramStore, ih, ramGet_ramSet]
    by_cases hab : a = b
    · subst hab
      rw [if_neg (by omega), if_pos rfl, if_pos (by simp)]
      simp
    · rw [if_neg hab]
      by_cases h : a + 1 ≤ b ∧ b < a + 1 + vs.length
      · rw [if_pos h, if_pos (by simp only [List.length_cons]; omega)]
        rw [show b - a = (b - (a + 1)) + 1 by omega, List.getElem?_cons_succ]
      · rw [if_neg h, if_neg (by simp only [List.length_cons]; omega)]

theorem ramGet_ramStore_in (m : Ram α) (a : Nat) (vs : List α) (i : Nat) (h : i < vs.length) :
    ramGet (ramStore m a vs) (a + i) = some vs[i] := by
  rw [ramGet_ramStore, if_pos (by omega), show a + i - a = i by omega, List.getElem?_eq_getElem h]

theorem ramGet_ramStore_out (m : Ram α) (a : Nat) (vs : List α) (b : Nat) (h : b < a ∨ a + vs.length ≤ b) :
    ramGet (ramStore m a vs) b = ramGet m b := by
  rw [ramGet_ramStore, if_neg (by omega)]

/-! ### The canonical form -/

theorem mem_keys_ramSet (m : Ram α) (a : Nat) (v : α) (k : Nat) :
    k ∈ (ramSet m a v).map Prod.fst ↔ k = a ∨ k ∈ m.map Prod.fst := by
  induction m with
  | nil => simp [ramSet]
  | cons p m ih =>
    obtain ⟨b, w⟩ := p
    unfold ramSet
    split
    · simp
    · split
      · subst b; simp
      · simp only [List.map_cons, List.mem_cons, ih]; tauto

/-- A write of an address below the size keeps the canonical form. -/
theorem Ram.wf_ramSet {size : Nat} {m : Ram α} (h : Ram.wf size m) {a : Nat} (ha : a < size) (v : α) :
    Ram.wf size (ramSet m a v) := by
  obtain ⟨hs, hb⟩ := h
  refine ⟨?_, fun k hk => ?_⟩
  · induction m with
    | nil => simp [ramSet]
    | cons p m ih =>
      obtain ⟨b, w⟩ := p
      simp only [List.map_cons, List.pairwise_cons] at hs
      unfold ramSet
      split
      · rename_i hab
        simp only [List.map_cons, List.pairwise_cons, List.mem_cons]
        refine ⟨?_, hs.1, hs.2⟩
        rintro k (rfl | hk)
        · exact hab
        · exact hab.trans (hs.1 k hk)
      · split
        · rename_i _ hab
          subst hab
          simp only [List.map_cons, List.pairwise_cons]
          exact hs
        · simp only [List.map_cons, List.pairwise_cons, mem_keys_ramSet]
          refine ⟨?_, ih hs.2 fun k hk => hb k (List.mem_cons_of_mem _ hk)⟩
          rintro k (rfl | hk)
          · omega
          · exact hs.1 k hk
  · rcases (mem_keys_ramSet m a v k).1 hk with rfl | hk
    · exact ha
    · exact hb k hk

/-- A stored list that ends within the size keeps the canonical form. -/
theorem Ram.wf_ramStore {size : Nat} (vs : List α) {m : Ram α} (h : Ram.wf size m) {a : Nat} (ha : a + vs.length ≤ size) :
    Ram.wf size (ramStore m a vs) := by
  induction vs generalizing m a with
  | nil => exact h
  | cons v vs ih =>
    simp only [List.length_cons] at ha
    exact ih (Ram.wf_ramSet h (by omega) v) (by omega)

/-- Nothing written is canonical. -/
theorem Ram.wf_nil (size : Nat) : Ram.wf size ([] : Ram α) := ⟨List.Pairwise.nil, fun _ h => nomatch h⟩

theorem ramGet_eq_none {m : Ram α} {a : Nat} (h : a ∉ m.map Prod.fst) : ramGet m a = none := by
  induction m with
  | nil => rfl
  | cons p m ih =>
    obtain ⟨b, w⟩ := p
    simp only [List.map_cons, List.mem_cons, not_or] at h
    rw [ramGet, if_neg (Ne.symm h.1), ih h.2]

theorem ramGet_lt_head {size : Nat} {k : Nat} {v : α} {m : Ram α} (h : Ram.wf size ((k, v) :: m)) {a : Nat} (ha : a ≤ k) :
    ramGet m a = none := by
  apply ramGet_eq_none
  intro hm
  have := List.rel_of_pairwise_cons h.1 hm
  omega

theorem Ram.wf_tail {size : Nat} {p : Nat × α} {m : Ram α} (h : Ram.wf size (p :: m)) : Ram.wf size m :=
  ⟨(List.pairwise_cons.1 h.1).2, fun k hk => h.2 k (by simp only [List.map_cons, List.mem_cons]; exact .inr hk)⟩

/-- Two canonical RAMs with the same contents are the same list. -/
theorem Ram.ext_of_wf {size : Nat} {m n : Ram α} (hm : Ram.wf size m) (hn : Ram.wf size n)
    (h : ∀ a, ramGet m a = ramGet n a) : m = n := by
  induction m generalizing n with
  | nil =>
    cases n with
    | nil => rfl
    | cons q n => have := h q.1; simp [ramGet] at this
  | cons p m ih =>
    obtain ⟨a, v⟩ := p
    cases n with
    | nil => have := h a; simp [ramGet] at this
    | cons q n =>
      obtain ⟨b, w⟩ := q
      have hab : a = b := by
        rcases Nat.lt_trichotomy a b with hlt | heq | hgt
        · have := h a
          rw [ramGet, if_pos rfl, ramGet, if_neg (by omega), ramGet_lt_head hn (by omega)] at this
          cases this
        · exact heq
        · have := h b
          rw [ramGet, if_neg (by omega), ramGet_lt_head hm (by omega), ramGet, if_pos rfl] at this
          cases this
      subst hab
      have hv : v = w := by have := h a; simpa [ramGet] using this
      subst hv
      rw [ih (Ram.wf_tail hm) (Ram.wf_tail hn) fun c => ?_]
      have := h c
      by_cases hc : a = c
      · subst hc; rw [ramGet_lt_head hm le_rfl, ramGet_lt_head hn le_rfl]
      · simpa [ramGet, hc] using this

end Sys2Proof.Machine
end

