-- ==== Sys2Proof/Laws/State.lean ====
section
/-! SUPPORT. What each named update of the state does to each field: one lemma per field per update. -/

namespace Sys2Proof.Machine

variable (s : State)

/-! ### memWrite -/

@[simp] theorem memWrite_params (a : Nat) (bs : List Byte) : (memWrite s a bs).params = s.params := rfl
@[simp] theorem memWrite_ctl (a : Nat) (bs : List Byte) : (memWrite s a bs).ctl = s.ctl := rfl
@[simp] theorem memWrite_opd (a : Nat) (bs : List Byte) : (memWrite s a bs).opd = s.opd := rfl
@[simp] theorem memWrite_res (a : Nat) (bs : List Byte) : (memWrite s a bs).res = s.res := rfl
@[simp] theorem memWrite_crcReg (a : Nat) (bs : List Byte) : (memWrite s a bs).crcReg = s.crcReg := rfl
@[simp] theorem memWrite_hdr (a : Nat) (bs : List Byte) : (memWrite s a bs).hdr = s.hdr := rfl
@[simp] theorem memWrite_framer (a : Nat) (bs : List Byte) : (memWrite s a bs).framer = s.framer := rfl
@[simp] theorem memWrite_pal (a : Nat) (bs : List Byte) : (memWrite s a bs).pal = s.pal := rfl
@[simp] theorem memWrite_plteRam (a : Nat) (bs : List Byte) : (memWrite s a bs).plteRam = s.plteRam := rfl
@[simp] theorem memWrite_alphaRam (a : Nat) (bs : List Byte) : (memWrite s a bs).alphaRam = s.alphaRam := rfl
@[simp] theorem memWrite_buf (a : Nat) (bs : List Byte) : (memWrite s a bs).buf = ramStore s.buf a bs := rfl
@[simp] theorem memWrite_bus (a : Nat) (bs : List Byte) : (memWrite s a bs).bus = s.bus := rfl

/-! ### setRes0 -/

@[simp] theorem setRes0_params (n : Nat) : (setRes0 s n).params = s.params := rfl
@[simp] theorem setRes0_ctl (n : Nat) : (setRes0 s n).ctl = s.ctl := rfl
@[simp] theorem setRes0_opd (n : Nat) : (setRes0 s n).opd = s.opd := rfl
@[simp] theorem setRes0_res (n : Nat) : (setRes0 s n).res = { s.res with res0 := BitVec.ofNat 32 n } := rfl
@[simp] theorem setRes0_crcReg (n : Nat) : (setRes0 s n).crcReg = s.crcReg := rfl
@[simp] theorem setRes0_hdr (n : Nat) : (setRes0 s n).hdr = s.hdr := rfl
@[simp] theorem setRes0_framer (n : Nat) : (setRes0 s n).framer = s.framer := rfl
@[simp] theorem setRes0_pal (n : Nat) : (setRes0 s n).pal = s.pal := rfl
@[simp] theorem setRes0_plteRam (n : Nat) : (setRes0 s n).plteRam = s.plteRam := rfl
@[simp] theorem setRes0_alphaRam (n : Nat) : (setRes0 s n).alphaRam = s.alphaRam := rfl
@[simp] theorem setRes0_buf (n : Nat) : (setRes0 s n).buf = s.buf := rfl
@[simp] theorem setRes0_bus (n : Nat) : (setRes0 s n).bus = s.bus := rfl

/-! ### setRes1 -/

@[simp] theorem setRes1_params (n : Nat) : (setRes1 s n).params = s.params := rfl
@[simp] theorem setRes1_ctl (n : Nat) : (setRes1 s n).ctl = s.ctl := rfl
@[simp] theorem setRes1_opd (n : Nat) : (setRes1 s n).opd = s.opd := rfl
@[simp] theorem setRes1_res (n : Nat) : (setRes1 s n).res = { s.res with res1 := BitVec.ofNat 32 n } := rfl
@[simp] theorem setRes1_crcReg (n : Nat) : (setRes1 s n).crcReg = s.crcReg := rfl
@[simp] theorem setRes1_hdr (n : Nat) : (setRes1 s n).hdr = s.hdr := rfl
@[simp] theorem setRes1_framer (n : Nat) : (setRes1 s n).framer = s.framer := rfl
@[simp] theorem setRes1_pal (n : Nat) : (setRes1 s n).pal = s.pal := rfl
@[simp] theorem setRes1_plteRam (n : Nat) : (setRes1 s n).plteRam = s.plteRam := rfl
@[simp] theorem setRes1_alphaRam (n : Nat) : (setRes1 s n).alphaRam = s.alphaRam := rfl
@[simp] theorem setRes1_buf (n : Nat) : (setRes1 s n).buf = s.buf := rfl
@[simp] theorem setRes1_bus (n : Nat) : (setRes1 s n).bus = s.bus := rfl

/-! ### setRes2 -/

@[simp] theorem setRes2_params (n : Nat) : (setRes2 s n).params = s.params := rfl
@[simp] theorem setRes2_ctl (n : Nat) : (setRes2 s n).ctl = s.ctl := rfl
@[simp] theorem setRes2_opd (n : Nat) : (setRes2 s n).opd = s.opd := rfl
@[simp] theorem setRes2_res (n : Nat) : (setRes2 s n).res = { s.res with res2 := BitVec.ofNat 32 n } := rfl
@[simp] theorem setRes2_crcReg (n : Nat) : (setRes2 s n).crcReg = s.crcReg := rfl
@[simp] theorem setRes2_hdr (n : Nat) : (setRes2 s n).hdr = s.hdr := rfl
@[simp] theorem setRes2_framer (n : Nat) : (setRes2 s n).framer = s.framer := rfl
@[simp] theorem setRes2_pal (n : Nat) : (setRes2 s n).pal = s.pal := rfl
@[simp] theorem setRes2_plteRam (n : Nat) : (setRes2 s n).plteRam = s.plteRam := rfl
@[simp] theorem setRes2_alphaRam (n : Nat) : (setRes2 s n).alphaRam = s.alphaRam := rfl
@[simp] theorem setRes2_buf (n : Nat) : (setRes2 s n).buf = s.buf := rfl
@[simp] theorem setRes2_bus (n : Nat) : (setRes2 s n).bus = s.bus := rfl

/-! ### setRes3 -/

@[simp] theorem setRes3_params (n : Nat) : (setRes3 s n).params = s.params := rfl
@[simp] theorem setRes3_ctl (n : Nat) : (setRes3 s n).ctl = s.ctl := rfl
@[simp] theorem setRes3_opd (n : Nat) : (setRes3 s n).opd = s.opd := rfl
@[simp] theorem setRes3_res (n : Nat) : (setRes3 s n).res = { s.res with res3 := BitVec.ofNat 32 n } := rfl
@[simp] theorem setRes3_crcReg (n : Nat) : (setRes3 s n).crcReg = s.crcReg := rfl
@[simp] theorem setRes3_hdr (n : Nat) : (setRes3 s n).hdr = s.hdr := rfl
@[simp] theorem setRes3_framer (n : Nat) : (setRes3 s n).framer = s.framer := rfl
@[simp] theorem setRes3_pal (n : Nat) : (setRes3 s n).pal = s.pal := rfl
@[simp] theorem setRes3_plteRam (n : Nat) : (setRes3 s n).plteRam = s.plteRam := rfl
@[simp] theorem setRes3_alphaRam (n : Nat) : (setRes3 s n).alphaRam = s.alphaRam := rfl
@[simp] theorem setRes3_buf (n : Nat) : (setRes3 s n).buf = s.buf := rfl
@[simp] theorem setRes3_bus (n : Nat) : (setRes3 s n).bus = s.bus := rfl

/-! ### accept -/

@[simp] theorem accept_params (w : Word) : (accept s w).params = s.params := rfl
@[simp] theorem accept_ctl (w : Word) : (accept s w).ctl = { s.ctl with cmd := w, busy := true, done := false, errCode := 0, errInfo := 0 } := rfl
@[simp] theorem accept_opd (w : Word) : (accept s w).opd = s.opd := rfl
@[simp] theorem accept_res (w : Word) : (accept s w).res = s.res := rfl
@[simp] theorem accept_crcReg (w : Word) : (accept s w).crcReg = s.crcReg := rfl
@[simp] theorem accept_hdr (w : Word) : (accept s w).hdr = s.hdr := rfl
@[simp] theorem accept_framer (w : Word) : (accept s w).framer = s.framer := rfl
@[simp] theorem accept_pal (w : Word) : (accept s w).pal = s.pal := rfl
@[simp] theorem accept_plteRam (w : Word) : (accept s w).plteRam = s.plteRam := rfl
@[simp] theorem accept_alphaRam (w : Word) : (accept s w).alphaRam = s.alphaRam := rfl
@[simp] theorem accept_buf (w : Word) : (accept s w).buf = s.buf := rfl
@[simp] theorem accept_bus (w : Word) : (accept s w).bus = s.bus := rfl

/-! ### complete -/

@[simp] theorem complete_params (code info : Byte) : (complete s code info).params = s.params := rfl
@[simp] theorem complete_ctl (code info : Byte) : (complete s code info).ctl = { s.ctl with busy := false, done := true, errCode := code, errInfo := info } := rfl
@[simp] theorem complete_opd (code info : Byte) : (complete s code info).opd = s.opd := rfl
@[simp] theorem complete_res (code info : Byte) : (complete s code info).res = s.res := rfl
@[simp] theorem complete_crcReg (code info : Byte) : (complete s code info).crcReg = s.crcReg := rfl
@[simp] theorem complete_hdr (code info : Byte) : (complete s code info).hdr = s.hdr := rfl
@[simp] theorem complete_framer (code info : Byte) : (complete s code info).framer = s.framer := rfl
@[simp] theorem complete_pal (code info : Byte) : (complete s code info).pal = s.pal := rfl
@[simp] theorem complete_plteRam (code info : Byte) : (complete s code info).plteRam = s.plteRam := rfl
@[simp] theorem complete_alphaRam (code info : Byte) : (complete s code info).alphaRam = s.alphaRam := rfl
@[simp] theorem complete_buf (code info : Byte) : (complete s code info).buf = s.buf := rfl
@[simp] theorem complete_bus (code info : Byte) : (complete s code info).bus = s.bus := rfl

/-! ### succeed -/

@[simp] theorem succeed_params : (succeed s).params = s.params := rfl
@[simp] theorem succeed_ctl : (succeed s).ctl = { s.ctl with busy := false, done := true, errCode := 0, errInfo := 0 } := rfl
@[simp] theorem succeed_opd : (succeed s).opd = s.opd := rfl
@[simp] theorem succeed_res : (succeed s).res = s.res := rfl
@[simp] theorem succeed_crcReg : (succeed s).crcReg = s.crcReg := rfl
@[simp] theorem succeed_hdr : (succeed s).hdr = s.hdr := rfl
@[simp] theorem succeed_framer : (succeed s).framer = s.framer := rfl
@[simp] theorem succeed_pal : (succeed s).pal = s.pal := rfl
@[simp] theorem succeed_plteRam : (succeed s).plteRam = s.plteRam := rfl
@[simp] theorem succeed_alphaRam : (succeed s).alphaRam = s.alphaRam := rfl
@[simp] theorem succeed_buf : (succeed s).buf = s.buf := rfl
@[simp] theorem succeed_bus : (succeed s).bus = s.bus := rfl

/-! ### fail -/

@[simp] theorem fail_params (e : Err) : (fail s e).params = s.params := rfl
@[simp] theorem fail_ctl (e : Err) : (fail s e).ctl = { s.ctl with busy := false, done := true, errCode := e.code, errInfo := e.info } := rfl
@[simp] theorem fail_opd (e : Err) : (fail s e).opd = s.opd := rfl
@[simp] theorem fail_res (e : Err) : (fail s e).res = s.res := rfl
@[simp] theorem fail_crcReg (e : Err) : (fail s e).crcReg = s.crcReg := rfl
@[simp] theorem fail_hdr (e : Err) : (fail s e).hdr = s.hdr := rfl
@[simp] theorem fail_framer (e : Err) : (fail s e).framer = s.framer := rfl
@[simp] theorem fail_pal (e : Err) : (fail s e).pal = s.pal := rfl
@[simp] theorem fail_plteRam (e : Err) : (fail s e).plteRam = s.plteRam := rfl
@[simp] theorem fail_alphaRam (e : Err) : (fail s e).alphaRam = s.alphaRam := rfl
@[simp] theorem fail_buf (e : Err) : (fail s e).buf = s.buf := rfl
@[simp] theorem fail_bus (e : Err) : (fail s e).bus = s.bus := rfl

/-! ### framerReset -/

@[simp] theorem framerReset_params : (framerReset s).params = s.params := rfl
@[simp] theorem framerReset_ctl : (framerReset s).ctl = s.ctl := rfl
@[simp] theorem framerReset_opd : (framerReset s).opd = s.opd := rfl
@[simp] theorem framerReset_res : (framerReset s).res = s.res := rfl
@[simp] theorem framerReset_crcReg : (framerReset s).crcReg = s.crcReg := rfl
@[simp] theorem framerReset_hdr : (framerReset s).hdr = HeaderRegs.reset := rfl
@[simp] theorem framerReset_framer : (framerReset s).framer = Framer.reset := rfl
@[simp] theorem framerReset_pal : (framerReset s).pal = Pal.reset := rfl
@[simp] theorem framerReset_plteRam : (framerReset s).plteRam = s.plteRam := rfl
@[simp] theorem framerReset_alphaRam : (framerReset s).alphaRam = s.alphaRam := rfl
@[simp] theorem framerReset_buf : (framerReset s).buf = s.buf := rfl
@[simp] theorem framerReset_bus : (framerReset s).bus = s.bus := rfl

/-! ### setPhase -/

@[simp] theorem setPhase_params (p : Phase) : (setPhase s p).params = s.params := rfl
@[simp] theorem setPhase_ctl (p : Phase) : (setPhase s p).ctl = s.ctl := rfl
@[simp] theorem setPhase_opd (p : Phase) : (setPhase s p).opd = s.opd := rfl
@[simp] theorem setPhase_res (p : Phase) : (setPhase s p).res = s.res := rfl
@[simp] theorem setPhase_crcReg (p : Phase) : (setPhase s p).crcReg = s.crcReg := rfl
@[simp] theorem setPhase_hdr (p : Phase) : (setPhase s p).hdr = s.hdr := rfl
@[simp] theorem setPhase_framer (p : Phase) : (setPhase s p).framer = { s.framer with phase := p } := rfl
@[simp] theorem setPhase_pal (p : Phase) : (setPhase s p).pal = s.pal := rfl
@[simp] theorem setPhase_plteRam (p : Phase) : (setPhase s p).plteRam = s.plteRam := rfl
@[simp] theorem setPhase_alphaRam (p : Phase) : (setPhase s p).alphaRam = s.alphaRam := rfl
@[simp] theorem setPhase_buf (p : Phase) : (setPhase s p).buf = s.buf := rfl
@[simp] theorem setPhase_bus (p : Phase) : (setPhase s p).bus = s.bus := rfl

/-! ### writeIrqEn -/

@[simp] theorem writeIrqEn_params (v : Word) : (writeIrqEn s v).params = s.params := rfl
@[simp] theorem writeIrqEn_ctl (v : Word) : (writeIrqEn s v).ctl = { s.ctl with irqEn := v.getLsbD 0 } := rfl
@[simp] theorem writeIrqEn_opd (v : Word) : (writeIrqEn s v).opd = s.opd := rfl
@[simp] theorem writeIrqEn_res (v : Word) : (writeIrqEn s v).res = s.res := rfl
@[simp] theorem writeIrqEn_crcReg (v : Word) : (writeIrqEn s v).crcReg = s.crcReg := rfl
@[simp] theorem writeIrqEn_hdr (v : Word) : (writeIrqEn s v).hdr = s.hdr := rfl
@[simp] theorem writeIrqEn_framer (v : Word) : (writeIrqEn s v).framer = s.framer := rfl
@[simp] theorem writeIrqEn_pal (v : Word) : (writeIrqEn s v).pal = s.pal := rfl
@[simp] theorem writeIrqEn_plteRam (v : Word) : (writeIrqEn s v).plteRam = s.plteRam := rfl
@[simp] theorem writeIrqEn_alphaRam (v : Word) : (writeIrqEn s v).alphaRam = s.alphaRam := rfl
@[simp] theorem writeIrqEn_buf (v : Word) : (writeIrqEn s v).buf = s.buf := rfl
@[simp] theorem writeIrqEn_bus (v : Word) : (writeIrqEn s v).bus = s.bus := rfl

/-! ### writeStatus -/

@[simp] theorem writeStatus_params (v : Word) : (writeStatus s v).params = s.params := rfl
@[simp] theorem writeStatus_ctl (v : Word) : (writeStatus s v).ctl = { s.ctl with done := s.ctl.done && !v.getLsbD 1, overrun := s.ctl.overrun && !v.getLsbD 3 } := rfl
@[simp] theorem writeStatus_opd (v : Word) : (writeStatus s v).opd = s.opd := rfl
@[simp] theorem writeStatus_res (v : Word) : (writeStatus s v).res = s.res := rfl
@[simp] theorem writeStatus_crcReg (v : Word) : (writeStatus s v).crcReg = s.crcReg := rfl
@[simp] theorem writeStatus_hdr (v : Word) : (writeStatus s v).hdr = s.hdr := rfl
@[simp] theorem writeStatus_framer (v : Word) : (writeStatus s v).framer = s.framer := rfl
@[simp] theorem writeStatus_pal (v : Word) : (writeStatus s v).pal = s.pal := rfl
@[simp] theorem writeStatus_plteRam (v : Word) : (writeStatus s v).plteRam = s.plteRam := rfl
@[simp] theorem writeStatus_alphaRam (v : Word) : (writeStatus s v).alphaRam = s.alphaRam := rfl
@[simp] theorem writeStatus_buf (v : Word) : (writeStatus s v).buf = s.buf := rfl
@[simp] theorem writeStatus_bus (v : Word) : (writeStatus s v).bus = s.bus := rfl

/-! ### markHazard -/

@[simp] theorem markHazard_params (as : List Nat) : (markHazard s as).params = s.params := rfl
@[simp] theorem markHazard_ctl (as : List Nat) : (markHazard s as).ctl = s.ctl := rfl
@[simp] theorem markHazard_opd (as : List Nat) : (markHazard s as).opd = s.opd := rfl
@[simp] theorem markHazard_res (as : List Nat) : (markHazard s as).res = s.res := rfl
@[simp] theorem markHazard_crcReg (as : List Nat) : (markHazard s as).crcReg = s.crcReg := rfl
@[simp] theorem markHazard_hdr (as : List Nat) : (markHazard s as).hdr = s.hdr := rfl
@[simp] theorem markHazard_framer (as : List Nat) : (markHazard s as).framer = s.framer := rfl
@[simp] theorem markHazard_pal (as : List Nat) : (markHazard s as).pal = s.pal := rfl
@[simp] theorem markHazard_plteRam (as : List Nat) : (markHazard s as).plteRam = s.plteRam := rfl
@[simp] theorem markHazard_alphaRam (as : List Nat) : (markHazard s as).alphaRam = s.alphaRam := rfl
@[simp] theorem markHazard_buf (as : List Nat) : (markHazard s as).buf = s.buf := rfl
@[simp] theorem markHazard_bus (as : List Nat) : (markHazard s as).bus = { s.bus with hazard := true, busyWrites := s.bus.busyWrites ++ as } := rfl

/-! ### freeByteAt -/

@[simp] theorem freeByteAt_params (a : Nat) : (freeByteAt s a).params = s.params := rfl
@[simp] theorem freeByteAt_ctl (a : Nat) : (freeByteAt s a).ctl = s.ctl := rfl
@[simp] theorem freeByteAt_opd (a : Nat) : (freeByteAt s a).opd = s.opd := rfl
@[simp] theorem freeByteAt_res (a : Nat) : (freeByteAt s a).res = s.res := rfl
@[simp] theorem freeByteAt_crcReg (a : Nat) : (freeByteAt s a).crcReg = s.crcReg := rfl
@[simp] theorem freeByteAt_hdr (a : Nat) : (freeByteAt s a).hdr = s.hdr := rfl
@[simp] theorem freeByteAt_framer (a : Nat) : (freeByteAt s a).framer = s.framer := rfl
@[simp] theorem freeByteAt_pal (a : Nat) : (freeByteAt s a).pal = s.pal := rfl
@[simp] theorem freeByteAt_plteRam (a : Nat) : (freeByteAt s a).plteRam = s.plteRam := rfl
@[simp] theorem freeByteAt_alphaRam (a : Nat) : (freeByteAt s a).alphaRam = s.alphaRam := rfl
@[simp] theorem freeByteAt_buf (a : Nat) : (freeByteAt s a).buf = ramSet s.buf a (Config.freeByte s.bus.draws) := rfl
@[simp] theorem freeByteAt_bus (a : Nat) : (freeByteAt s a).bus = { s.bus with draws := s.bus.draws + 1 } := rfl

/-! ### latch -/

@[simp] theorem latch_params (v : Word) : (latch s v).params = s.params := rfl
@[simp] theorem latch_ctl (v : Word) : (latch s v).ctl = s.ctl := rfl
@[simp] theorem latch_opd (v : Word) : (latch s v).opd = s.opd := rfl
@[simp] theorem latch_res (v : Word) : (latch s v).res = s.res := rfl
@[simp] theorem latch_crcReg (v : Word) : (latch s v).crcReg = s.crcReg := rfl
@[simp] theorem latch_hdr (v : Word) : (latch s v).hdr = s.hdr := rfl
@[simp] theorem latch_framer (v : Word) : (latch s v).framer = s.framer := rfl
@[simp] theorem latch_pal (v : Word) : (latch s v).pal = s.pal := rfl
@[simp] theorem latch_plteRam (v : Word) : (latch s v).plteRam = s.plteRam := rfl
@[simp] theorem latch_alphaRam (v : Word) : (latch s v).alphaRam = s.alphaRam := rfl
@[simp] theorem latch_buf (v : Word) : (latch s v).buf = s.buf := rfl
@[simp] theorem latch_bus (v : Word) : (latch s v).bus = { s.bus with lastRead := v } := rfl

/-! ### withInbox -/

@[simp] theorem withInbox_params (es : List Event) : (withInbox s es).params = s.params := rfl
@[simp] theorem withInbox_ctl (es : List Event) : (withInbox s es).ctl = s.ctl := rfl
@[simp] theorem withInbox_opd (es : List Event) : (withInbox s es).opd = s.opd := rfl
@[simp] theorem withInbox_res (es : List Event) : (withInbox s es).res = s.res := rfl
@[simp] theorem withInbox_crcReg (es : List Event) : (withInbox s es).crcReg = s.crcReg := rfl
@[simp] theorem withInbox_hdr (es : List Event) : (withInbox s es).hdr = s.hdr := rfl
@[simp] theorem withInbox_framer (es : List Event) : (withInbox s es).framer = s.framer := rfl
@[simp] theorem withInbox_pal (es : List Event) : (withInbox s es).pal = s.pal := rfl
@[simp] theorem withInbox_plteRam (es : List Event) : (withInbox s es).plteRam = s.plteRam := rfl
@[simp] theorem withInbox_alphaRam (es : List Event) : (withInbox s es).alphaRam = s.alphaRam := rfl
@[simp] theorem withInbox_buf (es : List Event) : (withInbox s es).buf = s.buf := rfl
@[simp] theorem withInbox_bus (es : List Event) : (withInbox s es).bus = { s.bus with inbox := es } := rfl

/-! ### failFramer -/

@[simp] theorem failFramer_params (e : Err) : (failFramer s e).params = s.params := by cases e <;> rfl
@[simp] theorem failFramer_ctl (e : Err) : (failFramer s e).ctl = s.ctl := by cases e <;> rfl
@[simp] theorem failFramer_opd (e : Err) : (failFramer s e).opd = s.opd := by cases e <;> rfl
@[simp] theorem failFramer_res (e : Err) : (failFramer s e).res = s.res := by cases e <;> rfl
@[simp] theorem failFramer_crcReg (e : Err) : (failFramer s e).crcReg = s.crcReg := by cases e <;> rfl
@[simp] theorem failFramer_hdr (e : Err) : (failFramer s e).hdr = s.hdr := by cases e <;> rfl
@[simp] theorem failFramer_pal (e : Err) : (failFramer s e).pal = s.pal := by cases e <;> rfl
@[simp] theorem failFramer_plteRam (e : Err) : (failFramer s e).plteRam = s.plteRam := by cases e <;> rfl
@[simp] theorem failFramer_alphaRam (e : Err) : (failFramer s e).alphaRam = s.alphaRam := by cases e <;> rfl
@[simp] theorem failFramer_buf (e : Err) : (failFramer s e).buf = s.buf := by cases e <;> rfl
@[simp] theorem failFramer_bus (e : Err) : (failFramer s e).bus = s.bus := by cases e <;> rfl

/-- Any error but FramerFailed enters FAILED with its code (R121). -/
theorem failFramer_framer (e : Err) (h : ∀ c, e ≠ .framerFailed c) :
    (failFramer s e).framer = { s.framer with phase := .failed, failCode := e.code } := by
  cases e <;> first | rfl | exact absurd rfl (h _)

/-- FramerFailed changes nothing (R121). -/
@[simp] theorem failFramer_framerFailed (c : Byte) : failFramer s (.framerFailed c) = s := rfl

/-! ### The buffer through updates that do not touch it -/

@[simp] theorem bufByte_setRes0 (n : Nat) (x : Nat) : bufByte (setRes0 s n) x = bufByte s x := rfl
@[simp] theorem bufByte_setRes1 (n : Nat) (x : Nat) : bufByte (setRes1 s n) x = bufByte s x := rfl
@[simp] theorem bufByte_setRes2 (n : Nat) (x : Nat) : bufByte (setRes2 s n) x = bufByte s x := rfl
@[simp] theorem bufByte_setRes3 (n : Nat) (x : Nat) : bufByte (setRes3 s n) x = bufByte s x := rfl
@[simp] theorem bufByte_succeed (x : Nat) : bufByte (succeed s) x = bufByte s x := rfl
@[simp] theorem bufByte_fail (e : Err) (x : Nat) : bufByte (fail s e) x = bufByte s x := rfl
@[simp] theorem bufByte_setPhase (p : Phase) (x : Nat) : bufByte (setPhase s p) x = bufByte s x := rfl
@[simp] theorem bufByte_accept (w : Word) (x : Nat) : bufByte (accept s w) x = bufByte s x := rfl
@[simp] theorem bufByte_withInbox (es : List Event) (x : Nat) : bufByte (withInbox s es) x = bufByte s x := rfl
@[simp] theorem bufByte_latch (v : Word) (x : Nat) : bufByte (latch s v) x = bufByte s x := rfl

@[simp] theorem bufByte_failFramer (e : Err) (x : Nat) : bufByte (failFramer s e) x = bufByte s x := by cases e <;> rfl

/-! ### Host access widths -/

/-- The buffer window defines 8, 16 and 32 bits, and no other width (R65). -/
theorem inBuffer_iff (w : Width) : w.inBuffer = true ↔ w ∈ [Width.w8, .w16, .w32] := by
  cases w <;> simp [Width.inBuffer]

/-- The buffer accesses that are honoured, and the buffer address of each (R65). -/
theorem bufAccess_eq_some (p : Params) (addr a : Nat) (w : Width) :
    bufAccess p addr w = some a ↔ w ∈ [Width.w8, .w16, .w32] ∧ addr % w.bytes = 0 ∧ a = addr - p.bufBase := by
  rw [← inBuffer_iff]
  unfold bufAccess
  split
  · rename_i h
    exact ⟨fun e => ⟨h.1, h.2, (Option.some.inj e).symm⟩, fun e => congrArg some e.2.2.symm⟩
  · rename_i h
    exact ⟨(fun e => nomatch e), fun e => absurd ⟨e.1, e.2.1⟩ h⟩

end Sys2Proof.Machine
end

