-- ==== Sys2Proof/Laws/Memory.lean ====
section
/-! SUPPORT. Laws of the buffer: reading bytes and lists back, what a command that writes at DST_ADDR leaves, and the canonical
form kept by every memory operation. -/

namespace Sys2Proof.Machine

/-! ### Bytes -/

/-- What the buffer reads depends on the written bytes and the power-on count only. -/
theorem bufByte_congr {s t : State} (hb : t.buf = s.buf) (he : t.bus.epoch = s.bus.epoch) (x : Nat) :
    bufByte t x = bufByte s x := by rw [bufByte, bufByte, hb, he]

theorem bufByte_memWrite (s : State) (a : Nat) (bs : List Byte) (x : Nat) :
    bufByte (memWrite s a bs) x = if h : a ≤ x ∧ x < a + bs.length then bs[x - a]'(by omega) else bufByte s x := by
  simp only [bufByte, memWrite, ramGet_ramStore]
  split
  · rename_i h
    rw [List.getElem?_eq_getElem (by omega)]
    rfl
  · rfl

theorem bufByte_memWrite_in (s : State) (a : Nat) (bs : List Byte) (i : Nat) (h : i < bs.length) :
    bufByte (memWrite s a bs) (a + i) = bs[i] := by
  rw [bufByte_memWrite, dif_pos ⟨by omega, by omega⟩]
  congr 1; omega

theorem bufByte_memWrite_out (s : State) (a : Nat) (bs : List Byte) (x : Nat) (h : x < a ∨ a + bs.length ≤ x) :
    bufByte (memWrite s a bs) x = bufByte s x := by
  rw [bufByte_memWrite, dif_neg (by omega)]

/-! ### Lists of bytes -/

@[simp] theorem memRead_length (s : State) (a n : Nat) : (memRead s a n).length = n := by simp [memRead]

@[simp] theorem memRead_getElem (s : State) (a n i : Nat) (h : i < (memRead s a n).length) :
    (memRead s a n)[i] = bufByte s (a + i) := by simp [memRead]

theorem memRead_getElem? (s : State) (a n i : Nat) (h : i < n) : (memRead s a n)[i]? = some (bufByte s (a + i)) := by
  rw [List.getElem?_eq_getElem (by simpa using h), memRead_getElem]

theorem byteAt_memRead (s : State) (a n i : Nat) (h : i < n) : byteAt (memRead s a n) i = bufByte s (a + i) := by
  rw [byteAt, List.getD_eq_getElem?_getD, memRead_getElem? s a n i h]; rfl

@[simp] theorem memRead_zero (s : State) (a : Nat) : memRead s a 0 = [] := rfl

theorem memRead_add (s : State) (a n m : Nat) : memRead s a (n + m) = memRead s a n ++ memRead s (a + n) m := by
  simp only [memRead, List.range_add, List.map_append, List.map_map]
  congr 1
  apply List.map_congr_left
  intro i _
  simp [Nat.add_assoc]

theorem memRead_succ (s : State) (a n : Nat) : memRead s a (n + 1) = bufByte s a :: memRead s (a + 1) n := by
  rw [Nat.add_comm, memRead_add]; rfl

theorem memRead_congr {s t : State} {a n : Nat} (h : ∀ i, i < n → bufByte t (a + i) = bufByte s (a + i)) :
    memRead t a n = memRead s a n := by
  simp only [memRead]
  exact List.map_congr_left fun i hi => h i (List.mem_range.1 hi)

theorem memRead_eq_iff {s : State} {a n : Nat} {bs : List Byte} :
    memRead s a n = bs ↔ bs.length = n ∧ ∀ i, (h : i < bs.length) → bufByte s (a + i) = bs[i] := by
  constructor
  · rintro rfl; exact ⟨memRead_length s a n, fun i h => (memRead_getElem s a n i h).symm⟩
  · rintro ⟨hl, h⟩
    exact List.ext_getElem (by simp [hl]) fun i h1 h2 => by rw [memRead_getElem, h i h2]

/-- Part of a list read from the buffer. -/
theorem memRead_drop_take (s : State) (a n off k : Nat) (h : off + k ≤ n) :
    ((memRead s a n).drop off).take k = memRead s (a + off) k := by
  obtain ⟨m, rfl⟩ := Nat.exists_eq_add_of_le h
  rw [Nat.add_assoc, memRead_add, List.drop_left' (by simp), memRead_add, List.take_left' (by simp)]

theorem memRead_take (s : State) (a n k : Nat) (h : k ≤ n) : (memRead s a n).take k = memRead s a k := by
  have := memRead_drop_take s a n 0 k (by omega)
  simpa using this

theorem memRead_drop (s : State) (a n k : Nat) (h : k ≤ n) : (memRead s a n).drop k = memRead s (a + k) (n - k) := by
  have := memRead_drop_take s a n k (n - k) (by omega)
  rwa [List.take_of_length_le (by simp)] at this

/-- Row `y` of a raster in the buffer. -/
theorem rowOf_memRead (s : State) (a n rb y : Nat) (h : (y + 1) * rb ≤ n) :
    rowOf (memRead s a n) rb y = memRead s (a + y * rb) rb := by
  rw [rowOf, memRead_drop_take _ _ _ _ _ (by rw [Nat.add_mul] at h; omega)]

theorem memRead_memWrite (s : State) (a : Nat) (bs : List Byte) : memRead (memWrite s a bs) a bs.length = bs :=
  memRead_eq_iff.2 ⟨rfl, fun i h => bufByte_memWrite_in s a bs i h⟩

theorem sameOutside_memWrite (s : State) (a : Nat) (bs : List Byte) : SameOutside s (memWrite s a bs) a bs.length :=
  fun x h => bufByte_memWrite_out s a bs x h

/-! ### What a command that writes at DST_ADDR leaves -/

/-- A success whose only writes are the results `r` and the bytes `bs` at DST_ADDR. -/
theorem leaves_store {s t : State} {r : Results} {bs : List Byte} {n : Nat}
    (ht : t = { s with ctl := okCtl s, res := r, buf := ramStore s.buf (dstAddr s) bs }) (hn : bs.length = n) :
    Leaves s t r n ∧ memRead t (dstAddr s) n = bs := by
  subst ht hn
  refine ⟨⟨rfl, rfl, ⟨rfl, rfl, rfl, rfl, rfl, rfl, rfl, rfl, rfl⟩, ?_⟩, ?_⟩
  · exact fun x h => (bufByte_congr rfl rfl x).trans (bufByte_memWrite_out s (dstAddr s) bs x h)
  · exact (memRead_congr fun i _ => bufByte_congr rfl rfl _).trans (memRead_memWrite s (dstAddr s) bs)

/-- The same, of the state `u` a command's writes leave, from its fields. -/
theorem leaves_succeed {s u : State} {r : Results} {bs : List Byte} {n : Nat}
    (hb : u.buf = ramStore s.buf (dstAddr s) bs) (hn : bs.length = n) (hr : u.res = r) (hc : u.ctl = s.ctl)
    (hk : KeepsRegisters s u) : Leaves s (succeed u) r n ∧ memRead (succeed u) (dstAddr s) n = bs := by
  obtain ⟨h1, h2, h3, h4, h5, h6, h7, h8, h9⟩ := hk
  apply leaves_store _ hn
  cases u; cases s; simp_all [succeed, complete, okCtl]

/-! ### The canonical form -/

theorem memWrite_wf {s : State} {size a : Nat} {bs : List Byte} (h : Memory.wf size s.buf) (ha : a + bs.length ≤ size) :
    Memory.wf size (memWrite s a bs).buf := Ram.wf_ramStore bs h ha

theorem freeByteAt_wf {s : State} {size a : Nat} (h : Memory.wf size s.buf) (ha : a < size) :
    Memory.wf size (freeByteAt s a).buf := Ram.wf_ramSet h ha _

/-- What `settle` keeps: everything but the buffer and the model's own fields. -/
theorem settle_keeps (dests : List (Nat × Nat)) (s : State) :
    (settle dests s).params = s.params ∧ (settle dests s).ctl = s.ctl ∧ (settle dests s).opd = s.opd ∧
    (settle dests s).res = s.res ∧ (settle dests s).crcReg = s.crcReg ∧ (settle dests s).hdr = s.hdr ∧
    (settle dests s).framer = s.framer ∧ (settle dests s).pal = s.pal ∧ (settle dests s).plteRam = s.plteRam ∧
    (settle dests s).alphaRam = s.alphaRam ∧ (settle dests s).bus.inbox = s.bus.inbox ∧
    (settle dests s).bus.lastRead = s.bus.lastRead ∧ (settle dests s).bus.epoch = s.bus.epoch := by
  have fold (as : List Nat) (s : State) :
      (as.foldl freeByteAt s).params = s.params ∧ (as.foldl freeByteAt s).ctl = s.ctl ∧
      (as.foldl freeByteAt s).opd = s.opd ∧ (as.foldl freeByteAt s).res = s.res ∧
      (as.foldl freeByteAt s).crcReg = s.crcReg ∧ (as.foldl freeByteAt s).hdr = s.hdr ∧
      (as.foldl freeByteAt s).framer = s.framer ∧ (as.foldl freeByteAt s).pal = s.pal ∧
      (as.foldl freeByteAt s).plteRam = s.plteRam ∧ (as.foldl freeByteAt s).alphaRam = s.alphaRam ∧
      (as.foldl freeByteAt s).bus.inbox = s.bus.inbox ∧ (as.foldl freeByteAt s).bus.lastRead = s.bus.lastRead ∧
      (as.foldl freeByteAt s).bus.epoch = s.bus.epoch := by
    induction as generalizing s with
    | nil => simp
    | cons a as ih => simpa using ih (freeByteAt s a)
  unfold settle
  split
  · exact fold _ s
  · simp

/-- Nothing was written while BUSY: nothing becomes unspecified. -/
theorem settle_of_no_hazard (dests : List (Nat × Nat)) {s : State} (h : s.bus.hazard = false) : settle dests s = s := by
  rw [settle, if_neg (by simp [h])]

theorem foldl_freeByteAt_wf {size : Nat} (as : List Nat) {s : State} (h : Memory.wf size s.buf) (ha : ∀ a ∈ as, a < size) :
    Memory.wf size (as.foldl freeByteAt s).buf := by
  induction as generalizing s with
  | nil => exact h
  | cons a as ih =>
    exact ih (freeByteAt_wf h (ha a (by simp))) fun b hb => ha b (by simp [hb])

theorem regionAddrs_lt {size : Nat} {q : Nat × Nat} {a : Nat} (h : a ∈ regionAddrs size q) : a < size := by
  simp only [regionAddrs, List.mem_map, List.mem_range] at h
  obtain ⟨i, hi, rfl⟩ := h
  omega

/-- `settle` keeps the canonical form and clears the marks. -/
theorem settle_wf (dests : List (Nat × Nat)) {s : State} (h : Memory.wf s.params.memBytes s.buf)
    (hb : ∀ a ∈ s.bus.busyWrites, a < s.params.memBytes) : Memory.wf s.params.memBytes (settle dests s).buf := by
  unfold settle
  split
  · refine foldl_freeByteAt_wf _ h fun a ha => ?_
    rcases List.mem_append.1 ha with ha | ha
    · obtain ⟨q, _, hq⟩ := List.mem_flatMap.1 ha
      exact regionAddrs_lt hq
    · exact hb a ha
  · exact h

end Sys2Proof.Machine
end

