-- ==== Sys2Proof/Laws/Bytes.lean ====
section
/-! SUPPORT. Laws of byte sequences: big-endian fields (R8), packed pixels (R13), sample arrays (R14). -/

namespace Sys2Proof.Machine

/-! ### Big-endian fields (R8) -/

@[simp] theorem beNat_nil : beNat [] = 0 := rfl

theorem beNat_foldl (bs : List Byte) (v : Nat) :
    bs.foldl (fun v b => v * 256 + b.toNat) v = v * 256 ^ bs.length + beNat bs := by
  induction bs generalizing v with
  | nil => simp
  | cons b bs ih => simp only [beNat] at ih ⊢; rw [List.foldl_cons, ih, List.foldl_cons, ih (0 * 256 + _), List.length_cons, pow_succ]; ring

theorem beNat_cons (b : Byte) (bs : List Byte) : beNat (b :: bs) = b.toNat * 256 ^ bs.length + beNat bs := by
  rw [beNat, List.foldl_cons, beNat_foldl]; ring

theorem beNat_append (bs cs : List Byte) : beNat (bs ++ cs) = beNat bs * 256 ^ cs.length + beNat cs := by
  rw [beNat, List.foldl_append, ← beNat, beNat_foldl]

theorem beNat_lt (bs : List Byte) : beNat bs < 256 ^ bs.length := by
  induction bs with
  | nil => simp
  | cons b bs ih =>
    rw [beNat_cons, List.length_cons, pow_succ]
    have := b.isLt
    nlinarith [Nat.pow_pos (n := bs.length) (show 0 < 256 by omega)]

@[simp] theorem beBytes_length (v k : Nat) : (beBytes v k).length = k := by simp [beBytes]

theorem beBytes_succ (v k : Nat) : beBytes v (k + 1) = BitVec.ofNat 8 (v / 256 ^ k) :: beBytes v k := by
  simp only [beBytes, List.range_succ_eq_map, List.map_cons, List.map_map]
  congr 1
  apply List.map_congr_left
  intro i hi
  have := List.mem_range.1 hi
  simp only [Function.comp_apply]
  congr 3
  omega

/-- Reading a field back gives the value, modulo the field's width. -/
theorem beNat_beBytes (v k : Nat) : beNat (beBytes v k) = v % 256 ^ k := by
  induction k with
  | zero => simp [beBytes, Nat.mod_one]
  | succ k ih =>
    rw [beBytes_succ, beNat_cons, ih, beBytes_length, BitVec.toNat_ofNat, pow_succ 256 k,
      Nat.mod_mul (a := 256 ^ k), Nat.add_comm, Nat.mul_comm]

theorem beNat_beBytes_of_lt {v k : Nat} (h : v < 256 ^ k) : beNat (beBytes v k) = v := by
  rw [beNat_beBytes, Nat.mod_eq_of_lt h]

theorem beBytes_mod (v k : Nat) : beBytes (v % 256 ^ k) k = beBytes v k := by
  simp only [beBytes]
  apply List.map_congr_left
  intro i hi
  have hi := List.mem_range.1 hi
  apply BitVec.eq_of_toNat_eq
  simp only [BitVec.toNat_ofNat]
  have : 256 ^ k = 256 ^ (k - 1 - i) * 256 ^ (i + 1) := by rw [← pow_add]; congr 1; omega
  rw [this, Nat.mod_mul_right_div_self, pow_succ, Nat.mod_mod_of_dvd _ (Dvd.intro_left _ rfl)]

/-- A byte sequence is the field of its value. -/
theorem beBytes_beNat (bs : List Byte) : beBytes (beNat bs) bs.length = bs := by
  induction bs with
  | nil => rfl
  | cons b bs ih =>
    have hlt := beNat_lt bs
    rw [List.length_cons, beBytes_succ, beNat_cons]
    congr 1
    · rw [Nat.add_comm, Nat.add_mul_div_right _ _ (by positivity), Nat.div_eq_of_lt hlt]
      simp
    · rw [← beBytes_mod, Nat.add_comm, Nat.add_mul_mod_self_right, beBytes_mod, ih]

theorem be32_eq {s : State} {a v : Nat} (h : memRead s a 4 = beBytes v 4) (hv : v < 2 ^ 32) : be32 s a = v := by
  rw [be32, h, beNat_beBytes_of_lt (by simpa using hv)]

theorem be32_lt (s : State) (a : Nat) : be32 s a < 2 ^ 32 := by
  have := beNat_lt (memRead s a 4)
  simpa [be32] using this

theorem be16_lt (s : State) (a : Nat) : be16 s a < 2 ^ 16 := by
  have := beNat_lt (memRead s a 2)
  simpa [be16] using this

/-! ### Row bits (R13) -/

@[simp] theorem zeros_length (n : Nat) : (zeros n).length = n := by simp [zeros]

theorem byteAt_zeros (n i : Nat) : byteAt (zeros n) i = 0 := by
  simp only [byteAt, zeros, List.getD_eq_getElem?_getD, List.getElem?_replicate]
  split <;> rfl

@[simp] theorem rowBit_zeros (n k : Nat) : rowBit (zeros n) k = false := by
  simp [rowBit, byteAt_zeros]

theorem setByteBit_getLsbD (c : Byte) (i : Nat) (v : Bool) (j : Nat) (hj : j < 8) :
    (setByteBit c i v).getLsbD j = if j = i then v else c.getLsbD j := by
  have hp : (BitVec.ofNat 8 (2 ^ i)).getLsbD j = decide (j = i) := by
    rw [BitVec.getLsbD_ofNat, Nat.testBit_two_pow]; simp [hj, eq_comm]
  cases v
  · simp only [setByteBit, Bool.false_eq_true, if_false, BitVec.getLsbD_and, BitVec.getLsbD_not, hp, hj]
    by_cases h : j = i <;> simp [h]
  · simp only [setByteBit, if_true, BitVec.getLsbD_or, hp]
    by_cases h : j = i <;> simp [h]

@[simp] theorem setRowBit_length (r : List Byte) (k : Nat) (v : Bool) : (setRowBit r k v).length = r.length := by
  simp [setRowBit]

/-- Setting a bit of a row sets that bit and keeps the others. -/
theorem rowBit_setRowBit (r : List Byte) (k : Nat) (v : Bool) (j : Nat) (hk : k < 8 * r.length) :
    rowBit (setRowBit r k v) j = if j = k then v else rowBit r j := by
  have hlen : k / 8 < r.length := by omega
  by_cases hb : j / 8 = k / 8
  · have hby : byteAt (setRowBit r k v) (j / 8) = setByteBit (byteAt r (k / 8)) (7 - k % 8) v := by
      simp [byteAt, setRowBit, List.getD_eq_getElem?_getD, hb, hlen]
    rw [rowBit, hby, setByteBit_getLsbD _ _ _ _ (by omega)]
    by_cases hjk : j = k
    · subst hjk; simp
    · rw [if_neg (by omega), if_neg hjk, rowBit, hb]
  · have hby : byteAt (setRowBit r k v) (j / 8) = byteAt r (j / 8) := by
      simp [byteAt, setRowBit, List.getD_eq_getElem?_getD, Ne.symm hb]
    rw [rowBit, hby, if_neg (by rintro rfl; exact hb rfl), rowBit]

/-! ### Packed pixels (R13) -/

theorem getPix_succ (r : List Byte) (x b : Nat) :
    (List.range (b + 1)).foldl (fun v j => 2 * v + (rowBit r (x + j)).toNat) 0 =
      2 * (List.range b).foldl (fun v j => 2 * v + (rowBit r (x + j)).toNat) 0 + (rowBit r (x + b)).toNat := by
  rw [List.range_succ, List.foldl_append]; rfl

theorem bits_lt (r : List Byte) (x b : Nat) :
    (List.range b).foldl (fun v j => 2 * v + (rowBit r (x + j)).toNat) 0 < 2 ^ b := by
  induction b with
  | zero => simp
  | succ b ih =>
    rw [getPix_succ, pow_succ]
    have := Bool.toNat_le (rowBit r (x + b))
    omega

theorem getPix_lt (r : List Byte) (x b : Nat) : getPix r x b < 2 ^ b := bits_lt r (x * b) b

theorem bits_testBit (r : List Byte) (x b j : Nat) (hj : j < b) :
    ((List.range b).foldl (fun v j => 2 * v + (rowBit r (x + j)).toNat) 0).testBit (b - 1 - j) = rowBit r (x + j) := by
  induction b with
  | zero => omega
  | succ b ih =>
    rw [getPix_succ]
    by_cases h : j = b
    · subst h
      rw [show j + 1 - 1 - j = 0 by omega, Nat.testBit_zero]
      cases rowBit r (x + j) <;> simp
    · rw [show b + 1 - 1 - j = (b - 1 - j) + 1 by omega, Nat.testBit_succ, ← ih (by omega)]
      congr 1
      have := Bool.toNat_lt (rowBit r (x + b))
      omega

/-- The bits of a pixel, most significant first. -/
theorem getPix_testBit (r : List Byte) (x b j : Nat) (hj : j < b) :
    (getPix r x b).testBit (b - 1 - j) = rowBit r (x * b + j) := bits_testBit r (x * b) b j hj

/-- A value below `2 ^ b` with the pixel's bits is the pixel. -/
theorem getPix_eq_of_bits {r : List Byte} {x b v : Nat} (hv : v < 2 ^ b)
    (h : ∀ j, j < b → rowBit r (x * b + j) = v.testBit (b - 1 - j)) : getPix r x b = v := by
  apply Nat.eq_of_testBit_eq
  intro i
  by_cases hi : i < b
  · have := getPix_testBit r x b (b - 1 - i) (by omega)
    rw [show b - 1 - (b - 1 - i) = i by omega] at this
    rw [this, h _ (by omega), show b - 1 - (b - 1 - i) = i by omega]
  · rw [Nat.testBit_lt_two_pow (lt_of_lt_of_le (getPix_lt r x b) (Nat.pow_le_pow_right (by omega) (by omega))),
      Nat.testBit_lt_two_pow (lt_of_lt_of_le hv (Nat.pow_le_pow_right (by omega) (by omega)))]

/-- Two pixels with the same bits are equal. -/
theorem getPix_congr {r r' : List Byte} {x x' b : Nat} (h : ∀ j, j < b → rowBit r (x * b + j) = rowBit r' (x' * b + j)) :
    getPix r x b = getPix r' x' b :=
  getPix_eq_of_bits (getPix_lt r' x' b) fun j hj => by rw [h j hj, getPix_testBit r' x' b j hj]

@[simp] theorem setPix_length (r : List Byte) (x b v : Nat) : (setPix r x b v).length = r.length := by
  have (js : List Nat) (r : List Byte) :
      (js.foldl (fun r j => setRowBit r (x * b + j) (v.testBit (b - 1 - j))) r).length = r.length := by
    induction js generalizing r with
    | nil => rfl
    | cons j js ih => rw [List.foldl_cons, ih, setRowBit_length]
  exact this _ r

/-- Setting a pixel sets its bits and keeps the others. -/
theorem rowBit_setPix (r : List Byte) (x b v k : Nat) (h : x * b + b ≤ 8 * r.length) :
    rowBit (setPix r x b v) k =
      if x * b ≤ k ∧ k < x * b + b then v.testBit (b - 1 - (k - x * b)) else rowBit r k := by
  have key (n : Nat) (hn : n ≤ b) :
      let r' := (List.range n).foldl (fun r j => setRowBit r (x * b + j) (v.testBit (b - 1 - j))) r
      r'.length = r.length ∧
      rowBit r' k = if x * b ≤ k ∧ k < x * b + n then v.testBit (b - 1 - (k - x * b)) else rowBit r k := by
    induction n with
    | zero => simp
    | succ n ih =>
      obtain ⟨hl, hbit⟩ := ih (by omega)
      rw [List.range_succ, List.foldl_append, List.foldl_cons, List.foldl_nil]
      refine ⟨by simp [hl], ?_⟩
      rw [rowBit_setRowBit _ _ _ _ (by rw [hl]; omega), hbit]
      by_cases hk : k = x * b + n
      · rw [if_pos hk, if_pos (by omega), hk, Nat.add_sub_cancel_left]
      · rw [if_neg hk]
        split <;> split <;> first | rfl | omega
  exact (key b le_rfl).2

/-- The pixel just set reads back. -/
theorem getPix_setPix (r : List Byte) (x b v : Nat) (h : x * b + b ≤ 8 * r.length) (hv : v < 2 ^ b) :
    getPix (setPix r x b v) x b = v :=
  getPix_eq_of_bits hv fun j hj => by
    rw [rowBit_setPix r x b v _ h, if_pos (by omega), Nat.add_sub_cancel_left]

/-! ### Sample arrays (R14) -/

theorem sampleBytes_length (sw : Nat) (vs : List Nat) : (sampleBytes sw vs).length = vs.length * (sw / 8) := by
  induction vs with
  | nil => simp [sampleBytes]
  | cons v vs ih =>
    simp only [sampleBytes, List.flatMap_cons, List.length_append, beBytes_length] at ih ⊢
    rw [ih, List.length_cons]; ring

theorem byteAt_append_left {bs cs : List Byte} {i : Nat} (h : i < bs.length) : byteAt (bs ++ cs) i = byteAt bs i := by
  simp [byteAt, List.getD_eq_getElem?_getD, List.getElem?_append_left h]

theorem byteAt_append_right (bs cs : List Byte) (i : Nat) : byteAt (bs ++ cs) (bs.length + i) = byteAt cs i := by
  simp [byteAt, List.getD_eq_getElem?_getD, List.getElem?_append_right (Nat.le_add_right _ _)]

/-- The samples after a prefix of whole samples. -/
theorem sampOf_append_right (bs cs : List Byte) (n i sw : Nat) (hsw : sw = 8 ∨ sw = 16) (h : bs.length = n * (sw / 8)) :
    sampOf (bs ++ cs) (n + i) sw = sampOf cs i sw := by
  rcases hsw with rfl | rfl
  · simp only [sampOf, if_true]
    rw [show n + i = bs.length + i by omega, byteAt_append_right]
  · simp only [sampOf, show ¬((16 : Nat) = 8) by omega, if_false]
    rw [show 2 * (n + i) = bs.length + 2 * i by omega, show bs.length + 2 * i + 1 = bs.length + (2 * i + 1) by omega,
      byteAt_append_right, byteAt_append_right]

theorem sampOf_append_left (bs cs : List Byte) (i sw : Nat) (hsw : sw = 8 ∨ sw = 16) (h : (i + 1) * (sw / 8) ≤ bs.length) :
    sampOf (bs ++ cs) i sw = sampOf bs i sw := by
  rcases hsw with rfl | rfl
  · simp only [sampOf, if_true]
    rw [byteAt_append_left (by omega)]
  · simp only [sampOf, show ¬((16 : Nat) = 8) by omega, if_false]
    rw [byteAt_append_left (by omega), byteAt_append_left (by omega)]

theorem sampOf_beBytes (v sw : Nat) (hsw : sw = 8 ∨ sw = 16) (hv : v < 2 ^ sw) : sampOf (beBytes v (sw / 8)) 0 sw = v := by
  rcases hsw with rfl | rfl
  · simp only [sampOf, if_true, byteAt, beBytes]
    simpa using hv
  · have := beNat_beBytes_of_lt (v := v) (k := 2) (by simpa using hv)
    simpa [sampOf, byteAt, beBytes, List.range_succ] using this

/-- The samples of a list of values read back. -/
theorem sampOf_sampleBytes (sw : Nat) (hsw : sw = 8 ∨ sw = 16) (vs : List Nat) (hv : ∀ v ∈ vs, v < 2 ^ sw) (i : Nat)
    (hi : i < vs.length) : sampOf (sampleBytes sw vs) i sw = vs[i] := by
  induction vs generalizing i with
  | nil => simp at hi
  | cons v vs ih =>
    simp only [sampleBytes, List.flatMap_cons]
    cases i with
    | zero =>
      rw [sampOf_append_left _ _ _ _ hsw (by simp), sampOf_beBytes v sw hsw (hv v (by simp))]; rfl
    | succ i =>
      have := sampOf_append_right (beBytes v (sw / 8)) (sampleBytes sw vs) 1 i sw hsw (by simp)
      rw [Nat.add_comm] at this
      rw [List.getElem_cons_succ]
      refine this.trans ?_
      exact ih (fun w hw => hv w (by simp [hw])) i (by simpa using hi)

theorem sampOf_lt (bs : List Byte) (i sw : Nat) (hsw : sw = 8 ∨ sw = 16) : sampOf bs i sw < 2 ^ sw := by
  rcases hsw with rfl | rfl
  · simp only [sampOf, if_true]; exact (byteAt bs i).isLt
  · simp only [sampOf, show ¬((16 : Nat) = 8) by omega, if_false]
    simpa using beNat_lt [byteAt bs (2 * i), byteAt bs (2 * i + 1)]

end Sys2Proof.Machine
end

