-- ==== Sys2Proof/Laws/Checks.lean ====
section
/-! SUPPORT. The checks of a rule as one list: each chain of checks of a meaning equals the list of Safety.lean that states
it, and a completion succeeds or fails by the first check of the list that does not hold. -/

namespace Sys2Proof.Machine

/-! ### Except -/

@[simp] theorem ok_bind {α β : Type} (a : α) (f : α → Except Err β) : (Except.ok a >>= f) = f a := rfl

@[simp] theorem error_bind {α β : Type} (e : Err) (f : α → Except Err β) : (Except.error e >>= f) = .error e := rfl

/-- A computation that answers `b` answered some `a` first. -/
theorem bind_eq_ok {α β : Type} {x : Except Err α} {f : α → Except Err β} {b : β} :
    (x >>= f) = .ok b ↔ ∃ a, x = .ok a ∧ f a = .ok b := by
  cases x <;> simp

/-- A computation that raises `e` raised it first or after some `a`. -/
theorem bind_eq_error {α β : Type} {x : Except Err α} {f : α → Except Err β} {e : Err} :
    (x >>= f) = .error e ↔ x = .error e ∨ ∃ a, x = .ok a ∧ f a = .error e := by
  cases x <;> simp

/-! ### Lists of checks -/

/-- Run the checks of a list in order. -/
def runChecks (cs : List Check) : Except Err Unit :=
  match firstError cs with
  | none => .ok ()
  | some e => .error e

theorem firstError_cons (c : Check) (cs : List Check) :
    firstError (c :: cs) = if c.1 then firstError cs else some c.2 := by
  obtain ⟨b, e⟩ := c
  cases b <;> simp [firstError, List.find?]

@[simp] theorem firstError_nil : firstError [] = none := rfl

theorem firstError_append (cs ds : List Check) :
    firstError (cs ++ ds) = (firstError cs).or (firstError ds) := by
  induction cs with
  | nil => rfl
  | cons c cs ih =>
    rw [List.cons_append, firstError_cons, firstError_cons, ih]
    split <;> rfl

/-- All checks hold where none fails first. -/
theorem firstError_eq_none {cs : List Check} : firstError cs = none ↔ ∀ c ∈ cs, c.1 = true := by
  induction cs with
  | nil => simp
  | cons c cs ih =>
    rw [firstError_cons]
    split <;> simp_all

theorem runChecks_ok {cs : List Check} (h : firstError cs = none) : runChecks cs = .ok () := by rw [runChecks, h]

theorem runChecks_error {cs : List Check} {e : Err} (h : firstError cs = some e) : runChecks cs = .error e := by
  rw [runChecks, h]

@[simp] theorem runChecks_nil : runChecks [] = .ok () := rfl

theorem runChecks_cons (c : Bool) (e : Err) (cs : List Check) :
    runChecks ((c, e) :: cs) = require c e >>= fun _ => runChecks cs := by
  cases c <;> rfl

theorem runChecks_append (cs ds : List Check) :
    runChecks (cs ++ ds) = runChecks cs >>= fun _ => runChecks ds := by
  simp only [runChecks, firstError_append]
  cases firstError cs <;> rfl

/-! ### The checks of the meanings as lists -/

theorem checkRegion_eq (s : State) (a n : Nat) (r : Region) : checkRegion s a n r = runChecks [regionCheck s a n r] := by
  simp only [checkRegion, regionCheck, runChecks_cons, require, decide_eq_true_eq]
  split <;> rfl

theorem checkCap_eq (need cap : Nat) (r : Region) : checkCap need cap r = runChecks [capCheck need cap r] := by
  simp only [checkCap, capCheck, runChecks_cons, require, decide_eq_true_eq]
  split <;> rfl

theorem checkDisjoint_one (a n : Nat) (r : Region) (b m : Nat) :
    checkDisjoint a n r [(b, m)] = runChecks [apartCheck a n r b m] := by
  simp only [checkDisjoint, apartCheck, runChecks_cons, require, overlap, List.any_cons, List.any_nil, Bool.or_false,
    decide_not, Bool.not_eq_true']
  cases decide (0 < n ∧ 0 < m ∧ a < b + m ∧ b < a + n) <;> rfl

theorem checkDisjoint_cons (a n : Nat) (r : Region) (q : Nat × Nat) (qs : List (Nat × Nat)) :
    checkDisjoint a n r (q :: qs) = checkDisjoint a n r [q] >>= fun _ => checkDisjoint a n r qs := by
  have either (b c : Bool) : (if (b || c) = true then Except.error (Err.regionOverlap r) else .ok () : Except Err Unit) =
      (if b = true then .error (.regionOverlap r) else .ok ()) >>= fun _ =>
        if c = true then .error (.regionOverlap r) else .ok () := by
    cases b <;> rfl
  simp only [checkDisjoint, List.any_cons, List.any_nil, Bool.or_false]
  exact either _ _

theorem checkDest_one (s : State) (n b m : Nat) :
    checkDest s n [(b, m)] =
      runChecks [capCheck n (dstLen s) .dst, regionCheck s (dstAddr s) n .dst, apartCheck (dstAddr s) n .dst b m] := by
  rw [checkDest, checkCap_eq, checkRegion_eq, checkDisjoint_one,
    show [capCheck n (dstLen s) .dst, regionCheck s (dstAddr s) n .dst, apartCheck (dstAddr s) n .dst b m] =
      [capCheck n (dstLen s) .dst] ++ ([regionCheck s (dstAddr s) n .dst] ++ [apartCheck (dstAddr s) n .dst b m]) from rfl,
    runChecks_append, runChecks_append]

theorem checkSrcDest_eq (s : State) (nIn nOut : Nat) :
    checkSrcDest s nIn nOut = runChecks (srcDestChecks s nIn nOut) := by
  rw [checkSrcDest, checkRegion_eq, checkDest_one, ← runChecks_append]; rfl

theorem imageChecks_eq (s : State) (nIn nOut : Nat) : imageChecks s nIn nOut = runChecks (imageOrder s nIn nOut) := by
  rw [imageChecks, imageOrder, runChecks_cons, checkSrcDest_eq]
  rfl

theorem require_eq (c : Bool) (e : Err) : require c e = runChecks [(c, e)] := by cases c <;> rfl

theorem rowChecks_eq (s : State) (first : Bool) (m : Nat) : rowChecks s first m = runChecks (rowOrder s first m) := by
  cases first <;>
    simp only [rowChecks, rowOrder, rowSources, checkDest, Bool.false_eq_true, if_false, if_true,
      checkDisjoint_cons _ _ _ _ [(auxAddr s, srcLen s)], checkDisjoint_one, checkRegion_eq, checkCap_eq, require_eq,
      ← runChecks_append, ok_bind, List.cons_append, List.nil_append, List.append_nil]

/-! ### Completions -/

/-- A command that checks and then writes succeeds with its writes where no check fails. -/
theorem finish_ok {s t : State} {cs : List Check} {k : Unit → Except Err State} (h : firstError cs = none)
    (hk : k () = .ok t) : finish s (runChecks cs >>= k) = .next (succeed t) := by
  rw [runChecks_ok h, ok_bind, hk]; rfl

/-- A command whose first failing check is `e` completes with `e` and discards everything (R262, R263). -/
theorem finish_error {s : State} {cs : List Check} {k : Unit → Except Err State} {e : Err} (h : firstError cs = some e) :
    finish s (runChecks cs >>= k) = .next { s with ctl := errCtl s e } := by
  rw [runChecks_error h]; rfl

/-- What the completion of a command is: its writes, or nothing but the error (R262). -/
theorem finish_cases {s t : State} {r : Except Err State} (h : finish s r = .next t) :
    (∃ u, r = .ok u ∧ t = succeed u) ∨ ∃ e, r = .error e ∧ t = { s with ctl := errCtl s e } := by
  cases r with
  | ok u => exact .inl ⟨u, rfl, by cases h; rfl⟩
  | error e => exact .inr ⟨e, rfl, by cases h; rfl⟩

theorem finish_next (s : State) (r : Except Err State) : ∃ t, finish s r = .next t := by
  cases r <;> exact ⟨_, rfl⟩

/-- What the completion of SIG_CHECK or CHUNK_PARSE is: its writes, or the error with FRAMER in FAILED (R121, R262). -/
theorem finishParse_cases {s t : State} {r : Except Err State} (h : finishParse s r = .next t) :
    (∃ u, r = .ok u ∧ t = succeed u) ∨ ∃ e, r = .error e ∧ t = fail (failFramer s e) e := by
  cases r with
  | ok u => exact .inl ⟨u, rfl, by cases h; rfl⟩
  | error e => exact .inr ⟨e, rfl, by cases h; rfl⟩

/-- SIG_CHECK and CHUNK_PARSE with the error `e`: FramerFailed in state FAILED, any other error outside it (R121). -/
theorem finishParse_error {s : State} {r : Except Err State} {e : Err} (h : r = .error e)
    (hf : ∀ c, e = .framerFailed c ↔ s.framer.phase = .failed ∧ c = s.framer.failCode) :
    finishParse s r = .next { s with
      ctl := errCtl s e
      framer := if s.framer.phase = .failed then s.framer else { s.framer with phase := .failed, failCode := e.code } } := by
  subst h
  by_cases hp : s.framer.phase = .failed
  · obtain rfl := (hf _).2 ⟨hp, rfl⟩
    simp [finishParse, failFramer, fail, complete, errCtl, hp]
  · have hn : ∀ c, e ≠ .framerFailed c := fun c hc => hp ((hf c).1 hc).1
    rw [if_neg hp]
    cases e <;> first | rfl | exact absurd rfl (hn _)

/-- What the completion of STREAM_PARSE is (R126, R262). -/
theorem finishStream_cases {s t : State} {r : StreamEnd} (h : finishStream s r = .next t) :
    (∃ u off n, r = .finished u off n ∧
      t = succeed (setRes3 (setRes2 (setRes1 (setRes0 u off) u.framer.idatLen.toNat) u.framer.dirCount.toNat) n)) ∨
    (∃ c u off, r = .raised (.framerFailed c) u off ∧ t = fail s (.framerFailed c)) ∨
    ∃ e u off, (∀ c, e ≠ .framerFailed c) ∧ r = .raised e u off ∧ t = fail (failFramer (setRes0 u off) e) e := by
  cases r with
  | finished u off n => exact .inl ⟨u, off, n, rfl, by cases h; rfl⟩
  | raised e u off =>
    cases e <;>
      first
      | exact .inr (.inl ⟨_, u, off, rfl, by cases h; rfl⟩)
      | (refine .inr (.inr ⟨_, u, off, ?_, rfl, by cases h; rfl⟩); intro c hc; cases hc)

end Sys2Proof.Machine
end

