-- ==== Sys2Proof/Laws/Framer.lean ====
section
/-! SUPPORT. Laws of the chunk framer: each parse rule as its list of checks and its commit, what a commit keeps, the errors a
parse can raise, and the bytes of a serialised chunk. -/

namespace Sys2Proof.Machine

/-! ### The parse rules as checks and a commit -/

theorem parseSignature_eq (s : State) :
    parseSignature s = runChecks
      [(s.framer.phase != .failed, .framerFailed s.framer.failCode), (s.framer.phase == .start, .unexpectedChunkOrder),
       (decide (8 ≤ srcLen s), .signatureMismatch), regionCheck s (srcAddr s) 8 .src,
       (memRead s (srcAddr s) 8 == signature, .signatureMismatch)] >>= fun _ => .ok (setPhase s .sigOk) := by
  simp only [parseSignature, checkRegion_eq, regionCheck, runChecks_cons, runChecks_nil, bind_assoc, ok_bind]

/-- The framing checks on the chunk at `a` with `rem` bytes left (R124). -/
def framingAt (s : State) (a rem : Nat) : List Check :=
  [(s.framer.phase != .failed, .framerFailed s.framer.failCode),
   (s.framer.phase != .start && s.framer.phase != .ended, .unexpectedChunkOrder),
   (decide (rem ≠ 0), .missingChunk (missingKind s)), (decide (8 ≤ rem), .truncatedChunk), regionCheck s a 8 .src,
   (decide (be32 s a ≤ rem - 8), .truncatedChunk), (decide (4 ≤ rem - 8 - be32 s a), .truncatedChunk),
   regionCheck s a (12 + be32 s a) .src,
   ((crc32 (memRead s (a + 4) (4 + be32 s a))).toNat == be32 s (a + 8 + be32 s a), .chunkCrcMismatch)]

theorem frameChunk_eq (s : State) (a rem : Nat) :
    frameChunk s a rem = runChecks (framingAt s a rem) >>= fun _ => .ok ⟨be32 s a, be32 s (a + 4), a + 8⟩ := by
  simp only [frameChunk, framingAt, checkRegion_eq, regionCheck, runChecks_cons, runChecks_nil, bind_assoc,
    ok_bind]

/-- The chunk step of CHUNK_PARSE checks exactly the list of Safety.lean. -/
theorem frameChunk_source (s : State) :
    frameChunk s (srcAddr s) (srcLen s) =
      runChecks (framingOrder s) >>= fun _ => .ok ⟨chunkLen s, chunkCode s, chunkData s⟩ := by
  have hk : s.framer.phase = .failed ∨ s.framer.phase = .start ∨ s.framer.phase = .ended ∨
      missingKind s = (if s.framer.phase = .sigOk then .ihdr
        else if s.framer.phase = .header then (if paletteMissing s then .plte else .idat) else .iend) := by
    cases h : s.framer.phase <;> simp [missingKind, h, paletteMissing]
  rw [frameChunk_eq]
  have : runChecks (framingAt s (srcAddr s) (srcLen s)) = runChecks (framingOrder s) := by
    simp only [runChecks, framingAt, framingOrder, firstError_cons, chunkLen, beq_eq_decide]
    rcases hk with h | h | h | h
    · simp [h]
    · simp [h]
    · simp [h]
    · rw [h]; rfl
  rw [this]
  rfl

theorem parseIhdr_eq (s : State) (c : Chunk) :
    parseIhdr s c = runChecks
      [(s.framer.phase == .sigOk, .unexpectedChunkOrder), (c.len == 13, .invalidHeader),
       (decide (be32 s c.data ≠ 0 ∧ be32 s (c.data + 4) ≠ 0) &&
          legalPair s.params (bufByte s (c.data + 8)).toNat (bufByte s (c.data + 9)).toNat &&
          decide (bufByte s (c.data + 10) = 0 ∧ bufByte s (c.data + 11) = 0 ∧ (bufByte s (c.data + 12)).toNat ≤ 1),
        .invalidHeader)] >>= fun _ =>
      .ok (setPhase { s with hdr := ⟨BitVec.ofNat 32 (be32 s c.data), BitVec.ofNat 32 (be32 s (c.data + 4)),
        bufByte s (c.data + 8), bufByte s (c.data + 9), bufByte s (c.data + 12)⟩ } .header) := by
  simp only [parseIhdr, runChecks_cons, runChecks_nil, bind_assoc, ok_bind]

/-- The palette entries of a PLTE chunk (R95). -/
def plteEntries (s : State) (c : Chunk) : List (BitVec 24) :=
  (List.range (c.len / 3)).map fun i =>
    rgbEntry (bufByte s (c.data + 3 * i)) (bufByte s (c.data + 3 * i + 1)) (bufByte s (c.data + 3 * i + 2))

theorem parsePlte_eq (s : State) (c : Chunk) :
    parsePlte s c = runChecks
      [(s.framer.phase == .header && !s.framer.plteSeen && !s.framer.trnsSeen, .unexpectedChunkOrder),
       (s.hdr.colorType != 0 && s.hdr.colorType != 4, .invalidChunkData),
       (decide (c.len ≠ 0 ∧ c.len % 3 = 0 ∧ c.len ≤ 768 ∧
          ¬(s.hdr.colorType = 3 ∧ 2 ^ s.hdr.bitDepth.toNat < c.len / 3)), .invalidChunkData)] >>= fun _ =>
      .ok { s with
        plteRam := ramStore s.plteRam 0 (plteEntries s c)
        pal := { s.pal with plteN := BitVec.ofNat 9 (c.len / 3) }
        framer := { s.framer with plteSeen := true } } := by
  simp only [parsePlte, plteEntries, runChecks_cons, runChecks_nil, bind_assoc, ok_bind]

theorem parseIdat_eq (s : State) (c : Chunk) (q : Nat × Nat) :
    parseIdat s c q = runChecks
      [(s.framer.phase == .header || s.framer.phase == .idat, .unexpectedChunkOrder),
       (decide (¬(s.hdr.colorType = 3 ∧ s.framer.plteSeen = false)), .missingChunk .plte),
       capCheck (s.framer.idatLen.toNat + c.len) s.opd.idatCap.toNat .idat,
       regionCheck s (s.opd.idatBase.toNat + s.framer.idatLen.toNat) c.len .idat,
       apartCheck (s.opd.idatBase.toNat + s.framer.idatLen.toNat) c.len .idat q.1 q.2] >>= fun _ =>
      .ok { memWrite s (s.opd.idatBase.toNat + s.framer.idatLen.toNat) (memRead s c.data c.len) with
        framer := { s.framer with
          phase := .idat
          idatSeen := true
          idatLen := BitVec.ofNat 32 (s.framer.idatLen.toNat + c.len) } } := by
  obtain ⟨b, m⟩ := q
  simp only [parseIdat, checkCap_eq, checkRegion_eq, checkDisjoint_one, capCheck, regionCheck, apartCheck, runChecks_cons,
    runChecks_nil, bind_assoc, ok_bind]

theorem parseAncillary_eq (s : State) (c : Chunk) (q : Nat × Nat) :
    parseAncillary s c q = runChecks
      [(decide (s.framer.dirCount.toNat < s.opd.dirCap.toNat), .bufferTooSmall .dir), regionCheck s (dirNext s) 12 .dir,
       apartCheck (dirNext s) 12 .dir q.1 q.2] >>= fun _ =>
      .ok { memWrite s (dirNext s) (dirRecord c) with
        framer := { s.framer with
          phase := if s.framer.phase = .idat then .postIdat else s.framer.phase
          dirCount := BitVec.ofNat 32 (s.framer.dirCount.toNat + 1) } } := by
  obtain ⟨b, m⟩ := q
  simp only [parseAncillary, checkRegion_eq, checkDisjoint_one, regionCheck, apartCheck, runChecks_cons, runChecks_nil,
    bind_assoc, ok_bind]

theorem parseTrns_eq (s : State) (c : Chunk) :
    parseTrns s c = runChecks
      [(s.framer.phase == .header && !s.framer.trnsSeen, .unexpectedChunkOrder),
       (decide (¬(s.hdr.colorType = 3 ∧ s.framer.plteSeen = false)), .unexpectedChunkOrder),
       (s.hdr.colorType != 4 && s.hdr.colorType != 6, .invalidChunkData)] >>= fun _ =>
      trnsBody s c >>= fun t => .ok { t with framer := { s.framer with trnsSeen := true } } := by
  simp only [parseTrns, runChecks_cons, runChecks_nil, bind_assoc, ok_bind]

theorem parseIend_eq (s : State) (c : Chunk) :
    parseIend s c = runChecks
      [(s.framer.phase != .header, .missingChunk (missingKind s)), (c.len == 0, .invalidChunkData)] >>= fun _ =>
      .ok (setPhase s .ended) := by
  simp only [parseIend, runChecks_cons, runChecks_nil, bind_assoc, ok_bind]

/-! ### What a parse keeps and which errors it raises -/

/-- STATUS, ERROR, CMD, the operands, the results, CRC_REG, the parameters and the model's own fields are as before. -/
def ParseKeeps (s t : State) : Prop :=
  t.params = s.params ∧ t.ctl = s.ctl ∧ t.opd = s.opd ∧ t.res = s.res ∧ t.crcReg = s.crcReg ∧ t.bus = s.bus

theorem ParseKeeps.trans {s t u : State} (h : ParseKeeps s t) (h' : ParseKeeps t u) : ParseKeeps s u := by
  obtain ⟨a, b, c, d, e, f⟩ := h
  obtain ⟨a', b', c', d', e', f'⟩ := h'
  exact ⟨a'.trans a, b'.trans b, c'.trans c, d'.trans d, e'.trans e, f'.trans f⟩

theorem trnsBody_keeps {s t : State} {c : Chunk} (h : trnsBody s c = .ok t) :
    ParseKeeps s t ∧ t.hdr = s.hdr ∧ t.framer = s.framer ∧ t.plteRam = s.plteRam ∧ t.buf = s.buf := by
  unfold trnsBody at h
  split at h
  · obtain ⟨_, _, h⟩ := bind_eq_ok.1 h; cases h; exact ⟨⟨rfl, rfl, rfl, rfl, rfl, rfl⟩, rfl, rfl, rfl, rfl⟩
  · obtain ⟨_, _, h⟩ := bind_eq_ok.1 h; cases h; exact ⟨⟨rfl, rfl, rfl, rfl, rfl, rfl⟩, rfl, rfl, rfl, rfl⟩
  · obtain ⟨_, _, h⟩ := bind_eq_ok.1 h; cases h; exact ⟨⟨rfl, rfl, rfl, rfl, rfl, rfl⟩, rfl, rfl, rfl, rfl⟩
  · cases h; exact ⟨⟨rfl, rfl, rfl, rfl, rfl, rfl⟩, rfl, rfl, rfl, rfl⟩

/-- A committed chunk keeps everything but the header, FRAMER, the palette and transparency, the RAMs and the buffer. -/
theorem commitChunk_keeps {s t : State} {c : Chunk} {q : Nat × Nat} (h : commitChunk s c q = .ok t) : ParseKeeps s t := by
  unfold commitChunk at h
  obtain ⟨_, _, h⟩ := bind_eq_ok.1 h
  split at h
  · rw [parseIhdr_eq] at h
    obtain ⟨_, _, h⟩ := bind_eq_ok.1 h; cases h; exact ⟨rfl, rfl, rfl, rfl, rfl, rfl⟩
  · rw [parsePlte_eq] at h
    obtain ⟨_, _, h⟩ := bind_eq_ok.1 h; cases h; exact ⟨rfl, rfl, rfl, rfl, rfl, rfl⟩
  · rw [parseTrns_eq] at h
    obtain ⟨_, _, h⟩ := bind_eq_ok.1 h
    obtain ⟨_, hb, h⟩ := bind_eq_ok.1 h
    cases h; exact (trnsBody_keeps hb).1
  · rw [parseIdat_eq] at h
    obtain ⟨_, _, h⟩ := bind_eq_ok.1 h; cases h; exact ⟨rfl, rfl, rfl, rfl, rfl, rfl⟩
  · rw [parseIend_eq] at h
    obtain ⟨_, _, h⟩ := bind_eq_ok.1 h; cases h; exact ⟨rfl, rfl, rfl, rfl, rfl, rfl⟩
  · rw [parseAncillary_eq] at h
    obtain ⟨_, _, h⟩ := bind_eq_ok.1 h; cases h; exact ⟨rfl, rfl, rfl, rfl, rfl, rfl⟩
  · cases h

theorem parseSignature_keeps {s t : State} (h : parseSignature s = .ok t) : t = setPhase s .sigOk := by
  rw [parseSignature_eq] at h
  obtain ⟨_, _, h⟩ := bind_eq_ok.1 h
  cases h; rfl

theorem parseChunk_keeps {s t : State} {a rem : Nat} {q : Nat × Nat} {c : Chunk} (h : parseChunk s a rem q = .ok (t, c)) :
    ParseKeeps s t := by
  unfold parseChunk at h
  obtain ⟨_, _, h⟩ := bind_eq_ok.1 h
  obtain ⟨_, h', h⟩ := bind_eq_ok.1 h
  cases h; exact commitChunk_keeps h'

/-- A parsed chunk lies in the remaining stream and takes its length and twelve bytes. -/
theorem frameChunk_ok {s : State} {a rem : Nat} {c : Chunk} (h : frameChunk s a rem = .ok c) :
    c = ⟨be32 s a, be32 s (a + 4), a + 8⟩ ∧ 12 + c.len ≤ rem ∧ a + 12 + c.len ≤ s.params.memBytes ∧
    s.framer.phase ≠ .failed ∧ s.framer.phase ≠ .start ∧ s.framer.phase ≠ .ended := by
  rw [frameChunk_eq] at h
  obtain ⟨_, h1, h⟩ := bind_eq_ok.1 h
  cases h
  simp only [runChecks] at h1
  split at h1
  · rename_i h2
    rw [firstError_eq_none] at h2
    simp only [framingAt, regionCheck, List.mem_cons, List.not_mem_nil, or_false, forall_eq_or_imp, forall_eq,
      decide_eq_true_eq, bne_iff_ne, Bool.and_eq_true] at h2
    obtain ⟨p1, ⟨p2, p3⟩, -, p5, -, p7, p8, p9, -⟩ := h2
    exact ⟨rfl, by simp only; omega, by simp only; omega, p1, p2, p3⟩
  · cases h1

/-! ### CHUNK_PARSE on a framed chunk -/

/-- The chunk at SRC_ADDR. -/
abbrev sourceChunk (s : State) : Chunk := ⟨chunkLen s, chunkCode s, chunkData s⟩

theorem frameChunk_of_framed {s : State} (h : firstError (framingOrder s) = none) :
    frameChunk s (srcAddr s) (srcLen s) = .ok (sourceChunk s) := by rw [frameChunk_source, runChecks_ok h]; rfl

/-- A chunk that passes the framing checks goes to its rule (R125). -/
theorem exec_chunkParse_of_framed {s : State} (h : firstError (framingOrder s) = none) :
    exec .chunkParse s = finishParse s
      (commitChunk s (sourceChunk s) (srcAddr s, srcLen s) >>= fun t => .ok (chunkResults t (sourceChunk s))) := by
  rw [exec, execChunkParse, chunkParse, parseChunk, frameChunk_of_framed h]
  simp only [ok_bind, bind_assoc]

/-- Every kind but IHDR is out of order before IHDR, and goes to its own rule after (R122, R125). -/
theorem commitChunk_of_kind {s : State} {c : Chunk} {q : Nat × Nat} {k : Kind} (hk : kindOf c.type = k) (hn : k ≠ .ihdr) :
    commitChunk s c q = runChecks [(s.framer.phase != .sigOk, .unexpectedChunkOrder)] >>= fun _ =>
      match k with
      | .ihdr => parseIhdr s c
      | .plte => parsePlte s c
      | .trns => parseTrns s c
      | .idat => parseIdat s c q
      | .iend => parseIend s c
      | .ancillary => parseAncillary s c q
      | .unknownCritical => .error .unknownCriticalChunk := by
  subst hk
  rw [commitChunk, require_eq, show (kindOf c.type == Kind.ihdr) = false by simp [hn], Bool.or_false]
  all_goals rfl

theorem commitChunk_ihdr {s : State} {c : Chunk} {q : Nat × Nat} (hk : kindOf c.type = .ihdr) :
    commitChunk s c q = parseIhdr s c := by
  rw [commitChunk, hk]; simp [require]

/-- A framed chunk whose rule is the checks `cs` and then a commit fails with the first failing one. -/
theorem failsParse_of_framed {s : State} {cs : List Check} {k : Unit → Except Err State} {e : Err}
    (h : firstError (framingOrder s) = none)
    (hc : commitChunk s (sourceChunk s) (srcAddr s, srcLen s) = runChecks cs >>= k) (he : firstError cs = some e)
    (hn : ∀ c, e ≠ .framerFailed c) : FailsParseWith .chunkParse s e := by
  rw [FailsParseWith, exec_chunkParse_of_framed h]
  apply finishParse_error (by rw [hc, runChecks_error he]; rfl)
  intro c
  simp [hn c, (frameChunk_ok (frameChunk_of_framed h)).2.2.2.1]

/-- The error of a list of checks is one of theirs. -/
theorem firstError_mem {cs : List Check} {e : Err} (h : firstError cs = some e) : e ∈ cs.map Prod.snd := by
  simp only [firstError, Option.map_eq_some_iff] at h
  obtain ⟨c, hc, rfl⟩ := h
  exact List.mem_map_of_mem (List.mem_of_find?_eq_some hc)

/-- The rules of the chunk kinds never raise FramerFailed. -/
theorem commitChunk_error {s : State} {c : Chunk} {q : Nat × Nat} {e : Err} (h : commitChunk s c q = .error e) :
    ∀ b, e ≠ .framerFailed b := by
  have checks {cs : List Check} {e : Err} (h : runChecks cs = .error e) (hm : ∀ b, .framerFailed b ∉ cs.map Prod.snd) :
      ∀ b, e ≠ .framerFailed b := by
    rintro b rfl
    unfold runChecks at h
    split at h
    · cases h
    · cases h; exact hm _ (firstError_mem ‹_›)
  have ok {t : State} {e : Err} (h : (Except.ok t : Except Err State) = .error e) (b : Byte) : e ≠ .framerFailed b := by
    cases h
  unfold commitChunk at h
  rcases bind_eq_error.1 h with h | ⟨_, _, h⟩
  · rw [require_eq] at h; exact checks h (by simp)
  split at h
  · rw [parseIhdr_eq] at h
    rcases bind_eq_error.1 h with h | ⟨_, _, h⟩
    · exact checks h (by simp)
    · exact ok h
  · rw [parsePlte_eq] at h
    rcases bind_eq_error.1 h with h | ⟨_, _, h⟩
    · exact checks h (by simp)
    · exact ok h
  · rw [parseTrns_eq] at h
    rcases bind_eq_error.1 h with h | ⟨_, _, h⟩
    · exact checks h (by simp)
    rcases bind_eq_error.1 h with h | ⟨_, _, h⟩
    · unfold trnsBody at h
      split at h <;> try (exact ok h)
      all_goals
        rcases bind_eq_error.1 h with h | ⟨_, _, h⟩
        · rw [require_eq] at h; exact checks h (by simp)
        · exact ok h
    · exact ok h
  · rw [parseIdat_eq] at h
    rcases bind_eq_error.1 h with h | ⟨_, _, h⟩
    · exact checks h (by simp [capCheck, regionCheck, apartCheck])
    · exact ok h
  · rw [parseIend_eq] at h
    rcases bind_eq_error.1 h with h | ⟨_, _, h⟩
    · exact checks h (by simp)
    · exact ok h
  · rw [parseAncillary_eq] at h
    rcases bind_eq_error.1 h with h | ⟨_, _, h⟩
    · exact checks h (by simp [regionCheck, apartCheck])
    · exact ok h
  · cases h; simp

/-! ### The loop of STREAM_PARSE -/

/-- The fuel of `streamParse` is never used up: more fuel than the chunks that fit changes nothing (log 16). -/
theorem streamLoop_fuel (q : Nat × Nat) (fuel fuel' off n : Nat) (s : State) (h : q.2 - off < 12 * fuel)
    (h' : q.2 - off < 12 * fuel') : streamLoop q fuel off n s = streamLoop q fuel' off n s := by
  induction fuel generalizing fuel' off n s with
  | zero => omega
  | succ k ih =>
    cases fuel' with
    | zero => omega
    | succ k' =>
      simp only [streamLoop]
      split
      · rfl
      · rename_i t c hp
        split
        · rfl
        · have : 12 + c.len ≤ q.2 - off := by
            unfold parseChunk at hp
            obtain ⟨c', hc, hp⟩ := bind_eq_ok.1 hp
            obtain ⟨_, _, hp⟩ := bind_eq_ok.1 hp
            cases hp
            exact (frameChunk_ok hc).2.1
          exact ih k' _ _ _ (by omega) (by omega)

theorem streamParse_fuel (s : State) (fuel : Nat) (h : srcLen s ≤ 12 * fuel) :
    ∀ t, streamLoop (srcAddr s, srcLen s) (srcLen s / 12 + 1) 8 0 t =
      streamLoop (srcAddr s, srcLen s) (fuel + 1) 8 0 t :=
  fun t => streamLoop_fuel _ _ _ _ _ t (by simp only; omega) (by simp only; omega)

/-! ### Serialised chunks -/

@[simp] theorem chunkBytes_length (t : Nat) (bs : List Byte) : (chunkBytes t bs).length = 12 + bs.length := by
  simp only [chunkBytes, List.length_append, beBytes_length]; omega

@[simp] theorem signature_length : signature.length = 8 := rfl

@[simp] theorem dirRecord_length (c : Chunk) : (dirRecord c).length = 12 := by simp [dirRecord]

@[simp] theorem ihdrData_length (s : State) : (ihdrData s).length = 13 := by simp [ihdrData]

/-- The bytes IDAT_WRITE emits are as many as it announces (R138). -/
theorem idatBytes_length (s : State) (hm : s.opd.idatMax ≠ 0) : (idatBytes s).length = srcLen s + 12 * idatCount s := by
  have hpos : 0 < s.opd.idatMax.toNat := by
    rcases Nat.eq_zero_or_pos s.opd.idatMax.toNat with h | h
    · exact absurd (BitVec.eq_of_toNat_eq (by simpa using h)) hm
    · exact h
  have part (k : Nat) : ((List.range k).flatMap fun j =>
      chunkBytes typeIdat (memRead s (srcAddr s + j * s.opd.idatMax.toNat)
        (min s.opd.idatMax.toNat (srcLen s - j * s.opd.idatMax.toNat)))).length =
      12 * k + min (k * s.opd.idatMax.toNat) (srcLen s) := by
    induction k with
    | zero => simp
    | succ k ih =>
      simp only [List.range_succ, List.flatMap_append, List.flatMap_cons, List.flatMap_nil, List.append_nil,
        List.length_append, chunkBytes_length, memRead_length] at ih ⊢
      rw [ih, Nat.add_mul]
      omega
  have hk : srcLen s ≤ idatCount s * s.opd.idatMax.toNat := by
    have h1 : ceilDiv (srcLen s) s.opd.idatMax.toNat ≤ idatCount s := Nat.le_max_right _ _
    have h2 : srcLen s ≤ ceilDiv (srcLen s) s.opd.idatMax.toNat * s.opd.idatMax.toNat := by
      have := Nat.div_add_mod (srcLen s + s.opd.idatMax.toNat - 1) s.opd.idatMax.toNat
      have := Nat.mod_lt (srcLen s + s.opd.idatMax.toNat - 1) hpos
      rw [ceilDiv, Nat.mul_comm]
      omega
    exact h2.trans (Nat.mul_le_mul_right _ h1)
  rw [idatBytes, part, Nat.min_eq_right hk, Nat.add_comm]

end Sys2Proof.Machine
end

