-- ==== Sys2Proof/Laws/Filter.lean ====
section
/-! SUPPORT. Laws of the scanline filters: lengths, the byte each of Apply and Reverse gives at a position, the choice of
Select, and the lengths of the image layouts. -/

namespace Sys2Proof.Machine

/-! ### Apply and Reverse -/

@[simp] theorem applyFilter_length (f : FilterType) (raw prior : List Byte) (bpp : Nat) :
    (applyFilter f raw prior bpp).length = raw.length := by simp [applyFilter]

/-- Apply, byte by byte (R164). -/
theorem byteAt_applyFilter (f : FilterType) (raw prior : List Byte) (bpp x : Nat) (h : x < raw.length) :
    byteAt (applyFilter f raw prior bpp) x = byteAt raw x - predictAt f raw prior bpp x := by
  simp [byteAt, applyFilter, List.getD_eq_getElem?_getD, h]

/-- The predictor reads the reconstructed row to the left only. -/
theorem predictAt_congr {r r' : List Byte} (f : FilterType) (prior : List Byte) {bpp x : Nat}
    (h : bpp ≤ x → byteAt r (x - bpp) = byteAt r' (x - bpp)) :
    predictAt f r prior bpp x = predictAt f r' prior bpp x := by
  have : leftOf r bpp x = leftOf r' bpp x := by
    simp only [leftOf]; split
    · exact h ‹_›
    · rfl
  simp only [predictAt, this]

/-- The bytes Reverse has reconstructed after `n` positions. -/
def reversed (f : FilterType) (filt prior : List Byte) (bpp n : Nat) : List Byte :=
  (List.range n).foldl (fun recon x => recon ++ [byteAt filt x + predictAt f recon prior bpp x]) []

theorem reverseFilter_eq (f : FilterType) (filt prior : List Byte) (bpp : Nat) :
    reverseFilter f filt prior bpp = reversed f filt prior bpp filt.length := rfl

theorem reversed_succ (f : FilterType) (filt prior : List Byte) (bpp n : Nat) :
    reversed f filt prior bpp (n + 1) = reversed f filt prior bpp n ++
      [byteAt filt n + predictAt f (reversed f filt prior bpp n) prior bpp n] := by
  simp [reversed, List.range_succ]

@[simp] theorem reversed_length (f : FilterType) (filt prior : List Byte) (bpp n : Nat) :
    (reversed f filt prior bpp n).length = n := by
  induction n with
  | zero => rfl
  | succ n ih => rw [reversed_succ, List.length_append, ih]; rfl

@[simp] theorem reverseFilter_length (f : FilterType) (filt prior : List Byte) (bpp : Nat) :
    (reverseFilter f filt prior bpp).length = filt.length := by rw [reverseFilter_eq, reversed_length]

/-- Later positions keep the bytes before them. -/
theorem byteAt_reversed_mono (f : FilterType) (filt prior : List Byte) (bpp : Nat) {x n m : Nat} (hx : x < n) (h : n ≤ m) :
    byteAt (reversed f filt prior bpp m) x = byteAt (reversed f filt prior bpp n) x := by
  induction m, h using Nat.le_induction with
  | base => rfl
  | succ m h ih => rw [reversed_succ, byteAt_append_left (by rw [reversed_length]; omega), ih]

/-- Reverse, byte by byte, from the bytes it has reconstructed itself (R165). -/
theorem byteAt_reverseFilter (f : FilterType) (filt prior : List Byte) (bpp x : Nat) (hb : 1 ≤ bpp) (h : x < filt.length) :
    byteAt (reverseFilter f filt prior bpp) x =
      byteAt filt x + predictAt f (reverseFilter f filt prior bpp) prior bpp x := by
  rw [reverseFilter_eq, byteAt_reversed_mono f filt prior bpp (Nat.lt_succ_self x) h, reversed_succ]
  have hlast := byteAt_append_right (reversed f filt prior bpp x)
    [byteAt filt x + predictAt f (reversed f filt prior bpp x) prior bpp x] 0
  rw [reversed_length, Nat.add_zero] at hlast
  rw [hlast, predictAt_congr f prior (r' := reversed f filt prior bpp filt.length) fun hx =>
    (byteAt_reversed_mono f filt prior bpp (by omega) (by omega)).symm]
  rfl

/-- A list of bytes is the list of its bytes by position. -/
theorem list_ext_byteAt {bs cs : List Byte} (hl : bs.length = cs.length) (h : ∀ x, x < bs.length → byteAt bs x = byteAt cs x) :
    bs = cs :=
  List.ext_getElem hl fun i h1 h2 => by
    have := h i h1
    simpa [byteAt, List.getD_eq_getElem?_getD, List.getElem?_eq_getElem h1, List.getElem?_eq_getElem h2] using this

/-! ### Select (R168) -/

/-- Select's type is the lowest of minimal score, and its score is that type's. -/
theorem selectFilter_best (r : ScoreReading) (raw prior : List Byte) (bpp : Nat) :
    Best r raw prior bpp (selectFilter r raw prior bpp).1 ∧
    (selectFilter r raw prior bpp).2 = score r (applyFilter (selectFilter r raw prior bpp).1 raw prior bpp) := by
  simp only [selectFilter, List.foldl_cons, List.foldl_nil, Best]
  generalize h0 : score r (applyFilter .none raw prior bpp) = v0
  generalize h1 : score r (applyFilter .sub raw prior bpp) = v1
  generalize h2 : score r (applyFilter .up raw prior bpp) = v2
  generalize h3 : score r (applyFilter .average raw prior bpp) = v3
  generalize h4 : score r (applyFilter .paeth raw prior bpp) = v4
  split_ifs <;> refine ⟨fun g => ?_, ?_⟩ <;> (try cases g) <;>
    simp only [h0, h1, h2, h3, h4, FilterType.code] <;> omega

/-! ### Rows of a FILTER_IMAGE and of an UNFILTER_IMAGE -/

theorem filterRows_length (r : ScoreReading) (m : FilterMode) (bpp rb rows : Nat) (prior bs : List Byte)
    (h : bs.length ≥ rows * rb) : (filterRows r m bpp rb rows prior bs).length = rows * (1 + rb) := by
  induction rows generalizing prior bs with
  | zero => simp [filterRows]
  | succ n ih =>
    have hn : (n + 1) * rb = n * rb + rb := by ring
    simp only [filterRows, List.length_cons, List.length_append, applyFilter_length, List.length_take]
    rw [ih _ _ (by simp only [List.length_drop]; omega), Nat.min_eq_left (by omega)]
    ring

/-- FILTER_IMAGE's stream has StreamBytes bytes where the raster has RasterBytes (R169). -/
theorem filterImages_length (r : ScoreReading) (m : FilterMode) (bpp bits : Nat) (subs : List (Nat × Nat)) (bs : List Byte)
    (h : bs.length ≥ (subs.map fun q => q.2 * rowBytes q.1 bits).sum) :
    (filterImages r m bpp bits subs bs).length = (subs.map fun q => q.2 * (1 + rowBytes q.1 bits)).sum := by
  induction subs generalizing bs with
  | nil => rfl
  | cons q subs ih =>
    simp only [List.map_cons, List.sum_cons] at h ⊢
    simp only [filterImages, List.length_append]
    rw [filterRows_length _ _ _ _ _ _ _ (by omega), ih _ (by simp only [List.length_drop]; omega)]

theorem unfilterRows_length (bpp rb rows : Nat) (prior bs out : List Byte) (h : bs.length ≥ rows * (1 + rb))
    (hr : unfilterRows bpp rb rows prior bs = .ok out) : out.length = rows * rb := by
  induction rows generalizing prior bs out with
  | zero => cases hr; simp
  | succ n ih =>
    have hn : (n + 1) * (1 + rb) = n * (1 + rb) + (1 + rb) := by ring
    rw [unfilterRows] at hr
    split at hr
    · cases hr
    · simp only [Except.bind, bind] at hr
      split at hr
      · cases hr
      · rename_i rest hrest
        cases hr
        have := ih _ _ _ (by simp only [List.length_drop]; omega) hrest
        simp only [List.length_append, reverseFilter_length, List.length_take, List.length_drop, this]
        rw [Nat.min_eq_left (by omega)]
        ring

/-- UNFILTER_IMAGE's raster has RasterBytes bytes where the stream has StreamBytes (R169). -/
theorem unfilterImages_length (bpp bits : Nat) (subs : List (Nat × Nat)) (bs out : List Byte)
    (h : bs.length ≥ (subs.map fun q => q.2 * (1 + rowBytes q.1 bits)).sum)
    (hr : unfilterImages bpp bits subs bs = .ok out) : out.length = (subs.map fun q => q.2 * rowBytes q.1 bits).sum := by
  induction subs generalizing bs out with
  | nil => cases hr; rfl
  | cons q subs ih =>
    simp only [List.map_cons, List.sum_cons] at h ⊢
    simp only [unfilterImages, bind, Except.bind] at hr
    split at hr
    · cases hr
    · rename_i rows hrows
      split at hr
      · cases hr
      · rename_i others hothers
        cases hr
        rw [List.length_append, unfilterRows_length _ _ _ _ _ _ (by omega) hrows,
          ih _ _ (by simp only [List.length_drop]; omega) hothers]

end Sys2Proof.Machine
end

