-- ==== Sys2Proof/Laws/Interlace.lean ====
section
/-! SUPPORT. Laws of Adam7: the pass sizes, the rows of a raster, and the lengths of what scatter and gather build. -/

namespace Sys2Proof.Machine

/-! ### Pass sizes (R201) -/

/-- A pixel index is below the pass size exactly when its image position is below the image size. -/
theorem lt_passSize_iff (size offset step i : Nat) (hs : 0 < step) :
    i < passSize size offset step ↔ offset + i * step < size := by
  simp only [passSize, ceilDiv]
  split
  · rw [show i < (size - offset + step - 1) / step ↔ i + 1 ≤ (size - offset + step - 1) / step from Iff.rfl,
      Nat.le_div_iff_mul_le hs, Nat.add_mul]
    omega
  · have : 0 ≤ i * step := Nat.zero_le _
    omega

theorem passes_step_pos : ∀ p ∈ passes, 0 < p.xStep ∧ 0 < p.yStep := by decide

theorem lt_passWidth_iff (h : Header) {p : Pass} (hp : p ∈ passes) (px : Nat) :
    px < passWidth h p ↔ p.xOffset + px * p.xStep < h.width := lt_passSize_iff _ _ _ _ (passes_step_pos p hp).1

theorem lt_passHeight_iff (h : Header) {p : Pass} (hp : p ∈ passes) (py : Nat) :
    py < passHeight h p ↔ p.yOffset + py * p.yStep < h.height := lt_passSize_iff _ _ _ _ (passes_step_pos p hp).2

/-- A pass without pixels has no bytes. -/
theorem passBytesOf_eq_zero {h : Header} {p : Pass} (hp : passNonempty h p = false) : passBytesOf h p = 0 := by
  simp only [passNonempty, Bool.and_eq_false_iff, bne_eq_false_iff_eq] at hp
  rcases hp with hp | hp <;> simp [passBytesOf, hp, rowBytes, ceilDiv]

/-- The passes without pixels add nothing to a pass raster. -/
theorem sum_livePasses (h : Header) : ((livePasses h).map (passBytesOf h)).sum = passBytes h := by
  simp only [livePasses, passBytes]
  generalize passes = ps
  induction ps with
  | nil => rfl
  | cons p ps ih =>
    by_cases hp : passNonempty h p = true
    · rw [List.filter_cons_of_pos hp, List.map_cons, List.map_cons, List.sum_cons, List.sum_cons, ih]
    · rw [List.filter_cons_of_neg hp, ih, List.map_cons, List.sum_cons, passBytesOf_eq_zero (by simpa using hp), Nat.zero_add]

/-! ### Rows -/

theorem rowBytes_bits (w b : Nat) : w * b ≤ 8 * rowBytes w b := by simp only [rowBytes, ceilDiv]; omega

theorem length_flatten_rows {rows : List (List Byte)} {rb : Nat} (h : ∀ r ∈ rows, r.length = rb) :
    rows.flatten.length = rows.length * rb := by
  induction rows with
  | nil => simp
  | cons r rows ih =>
    rw [List.flatten_cons, List.length_append, h r (by simp), ih fun r' hr => h r' (by simp [hr]), List.length_cons]
    ring

/-- Row `y` of rows of the same length written one after another. -/
theorem rowOf_flatten {rows : List (List Byte)} {rb : Nat} (h : ∀ r ∈ rows, r.length = rb) (y : Nat) (hy : y < rows.length) :
    rowOf rows.flatten rb y = rows[y] := by
  induction rows generalizing y with
  | nil => simp at hy
  | cons r rows ih =>
    have hr := h r (by simp)
    cases y with
    | zero => simp only [rowOf, Nat.zero_mul, List.drop_zero, List.flatten_cons]; rw [List.take_left' hr]; rfl
    | succ y =>
      have := ih (fun r' hr' => h r' (by simp [hr'])) y (by simpa using hy)
      rw [List.getElem_cons_succ, ← this]
      simp only [rowOf, List.flatten_cons]
      rw [show (y + 1) * rb = r.length + y * rb by rw [hr]; ring, List.drop_append,
        List.drop_of_length_le (show r.length ≤ r.length + y * rb by omega)]
      simp

/-! ### Scatter -/

@[simp] theorem scatterRow_length (h : Header) (p : Pass) (row out : List Byte) :
    (scatterRow h p row out).length = out.length := by
  unfold scatterRow
  generalize List.range (passWidth h p) = xs
  induction xs generalizing out with
  | nil => rfl
  | cons x xs ih => rw [List.foldl_cons, ih, setPix_length]

/-- Scattering keeps the number of rows and their lengths. -/
theorem scatterPass_shape (h : Header) (p : Pass) (bs : List Byte) (rows : List (List Byte)) {rb : Nat}
    (hr : ∀ r ∈ rows, r.length = rb) :
    (scatterPass h p bs rows).length = rows.length ∧ ∀ r ∈ scatterPass h p bs rows, r.length = rb := by
  unfold scatterPass
  generalize List.range (passHeight h p) = ys
  induction ys generalizing rows with
  | nil => exact ⟨rfl, hr⟩
  | cons y ys ih =>
    rw [List.foldl_cons]
    have := ih (rows.modify (p.yOffset + y * p.yStep)
      (scatterRow h p (rowOf bs (rowBytes (passWidth h p) h.bitsPP) y))) (by
        intro r hmem
        obtain ⟨i, hi, rfl⟩ := List.getElem_of_mem hmem
        rw [List.getElem_modify]
        split
        · rw [scatterRow_length]; exact hr _ (List.getElem_mem _)
        · exact hr _ (List.getElem_mem _))
    rwa [List.length_modify] at this

theorem scatterPasses_shape (h : Header) (ps : List Pass) (bs : List Byte) (rows : List (List Byte)) {rb : Nat}
    (hr : ∀ r ∈ rows, r.length = rb) :
    (scatterPasses h ps bs rows).length = rows.length ∧ ∀ r ∈ scatterPasses h ps bs rows, r.length = rb := by
  induction ps generalizing bs rows with
  | nil => exact ⟨rfl, hr⟩
  | cons p ps ih =>
    obtain ⟨hl, hr'⟩ := scatterPass_shape h p bs rows hr
    have := ih (bs.drop (passBytesOf h p)) (scatterPass h p bs rows) hr'
    rwa [hl] at this

/-- DEINTERLACE builds FullBytes bytes (R206). -/
theorem deinterlaceBytes_length (h : Header) (bs : List Byte) : (deinterlaceBytes h bs).length = fullBytes h := by
  obtain ⟨hl, hr⟩ := scatterPasses_shape h (livePasses h) bs (List.replicate h.height (zeros h.rowBytes)) (rb := h.rowBytes)
    (by simp only [List.mem_replicate]; rintro r ⟨_, rfl⟩; simp)
  rw [deinterlaceBytes, length_flatten_rows hr, hl, List.length_replicate, fullBytes]

/-! ### Gather -/

@[simp] theorem gatherRow_length (h : Header) (p : Pass) (row : List Byte) :
    (gatherRow h p row).length = rowBytes (passWidth h p) h.bitsPP := by
  have (xs : List Nat) (out : List Byte) : (xs.foldl
      (fun r px => setPix r px h.bitsPP (getPix row (p.xOffset + px * p.xStep) h.bitsPP)) out).length = out.length := by
    induction xs generalizing out with
    | nil => rfl
    | cons x xs ih => rw [List.foldl_cons, ih, setPix_length]
  rw [gatherRow, this, zeros_length]

theorem gatherPass_length (h : Header) (bs : List Byte) (p : Pass) : (gatherPass h bs p).length = passBytesOf h p := by
  rw [gatherPass, List.flatMap_def, length_flatten_rows (rb := rowBytes (passWidth h p) h.bitsPP)]
  · simp [passBytesOf]
  · intro r hr
    obtain ⟨y, _, rfl⟩ := List.mem_map.1 hr
    exact gatherRow_length _ _ _

/-- INTERLACE builds PassBytes bytes (R206). -/
theorem interlaceBytes_length (h : Header) (bs : List Byte) : (interlaceBytes h bs).length = passBytes h := by
  rw [interlaceBytes, List.length_flatMap, ← sum_livePasses]
  congr 1
  exact List.map_congr_left fun p _ => gatherPass_length h bs p

end Sys2Proof.Machine
end

