-- ==== Sys2Proof/Laws/Normalizer.lean ====
section
/-! SUPPORT. Laws of the normaliser: what `collect` builds and raises, the samples of an array built pixel by pixel, and the
lengths of what the commands build. -/

namespace Sys2Proof.Machine

/-! ### collect (R237) -/

/-- Where every item gives bytes, `collect` gives them one after another. -/
theorem collect_ok {α : Type} {f : α → Except Err (List Byte)} {g : α → List Byte} {xs : List α}
    (h : ∀ x ∈ xs, f x = .ok (g x)) : collect f xs = .ok (xs.flatMap g) := by
  induction xs with
  | nil => rfl
  | cons x xs ih =>
    rw [collect, h x (by simp), ih fun y hy => h y (by simp [hy])]
    rfl

/-- The first item that raises decides (R237). -/
theorem collect_error {α : Type} {f : α → Except Err (List Byte)} {xs ys : List α} {x : α} {e : Err}
    (h : ∀ y ∈ xs, ∃ bs, f y = .ok bs) (hx : f x = .error e) : collect f (xs ++ x :: ys) = .error e := by
  induction xs with
  | nil => rw [List.nil_append, collect, hx]; rfl
  | cons y xs ih =>
    obtain ⟨bs, hb⟩ := h y (by simp)
    rw [List.cons_append, collect, hb, ih fun z hz => h z (by simp [hz])]
    rfl

/-- What `collect` gives is what its items give, one after another. -/
theorem collect_eq_ok {α : Type} {f : α → Except Err (List Byte)} {xs : List α} {out : List Byte}
    (h : collect f xs = .ok out) : ∃ bss : List (List Byte), bss.length = xs.length ∧ out = bss.flatten ∧
      ∀ i, (h1 : i < xs.length) → (h2 : i < bss.length) → f xs[i] = .ok bss[i] := by
  induction xs generalizing out with
  | nil => cases h; exact ⟨[], rfl, rfl, fun i h => absurd h (by simp)⟩
  | cons x xs ih =>
    rw [collect] at h
    obtain ⟨bs, hb, h⟩ := bind_eq_ok.1 h
    obtain ⟨rest, hr, h⟩ := bind_eq_ok.1 h
    cases h
    obtain ⟨bss, hl, rfl, hf⟩ := ih hr
    refine ⟨bs :: bss, by simp [hl], rfl, fun i h1 h2 => ?_⟩
    cases i with
    | zero => exact hb
    | succ i => exact hf i (by simpa using h1) (by simpa using h2)

theorem collect_length {α : Type} {f : α → Except Err (List Byte)} {xs : List α} {out : List Byte} {n : Nat}
    (h : collect f xs = .ok out) (hn : ∀ x ∈ xs, ∀ bs, f x = .ok bs → bs.length = n) : out.length = xs.length * n := by
  obtain ⟨bss, hl, rfl, hf⟩ := collect_eq_ok h
  rw [length_flatten_rows (rb := n), hl]
  intro bs hbs
  obtain ⟨i, hi, rfl⟩ := List.getElem_of_mem hbs
  exact hn xs[i] (List.getElem_mem _) _ (hf i (by omega) hi)

/-! ### Arrays built pixel by pixel (R221) -/

theorem flatMap_length {α : Type} {g : α → List Byte} {xs : List α} {n : Nat} (h : ∀ x ∈ xs, (g x).length = n) :
    (xs.flatMap g).length = xs.length * n := by
  rw [List.flatMap_def, length_flatten_rows (rb := n)]
  · simp
  · intro r hr
    obtain ⟨x, hx, rfl⟩ := List.mem_map.1 hr
    exact h x hx

/-- Sample `k` of pixel `i` of an array whose pixels have `c` samples each. -/
theorem sampOf_flatMap {α : Type} (sw c : Nat) (hsw : sw = 8 ∨ sw = 16) (g : α → List Nat) (xs : List α)
    (hc : ∀ x ∈ xs, (g x).length = c) (hv : ∀ x ∈ xs, ∀ v ∈ g x, v < 2 ^ sw) (i k : Nat) (hi : i < xs.length) (hk : k < c) :
    sampOf (xs.flatMap fun x => sampleBytes sw (g x)) (i * c + k) sw = (g xs[i]).getD k 0 := by
  induction xs generalizing i with
  | nil => simp at hi
  | cons x xs ih =>
    have hx := hc x (by simp)
    simp only [List.flatMap_cons]
    cases i with
    | zero =>
      rw [Nat.zero_mul, Nat.zero_add, sampOf_append_left _ _ _ _ hsw, sampOf_sampleBytes sw hsw _ (hv x (by simp)) k (by omega)]
      · simp [List.getD_eq_getElem?_getD, List.getElem?_eq_getElem (show k < (g x).length by omega)]
      · rw [sampleBytes_length, hx]; exact Nat.mul_le_mul_right _ hk
    | succ i =>
      rw [show (i + 1) * c + k = c + (i * c + k) by ring,
        sampOf_append_right _ _ c _ sw hsw (by rw [sampleBytes_length, hx])]
      exact ih (fun y hy => hc y (by simp [hy])) (fun y hy => hv y (by simp [hy])) i (by simpa using hi)

@[simp] theorem pixelsOf_length (h : Header) : (pixelsOf h).length = h.height * h.width := by
  simp [pixelsOf, List.length_flatMap]

/-- Pixel (x, y) is number y·W + x of the raster order (R237). -/
theorem pixelsOf_getElem (h : Header) (x y : Nat) (hx : x < h.width) (hy : y < h.height)
    (hi : y * h.width + x < (pixelsOf h).length) : (pixelsOf h)[y * h.width + x] = (y, x) := by
  have key (n : Nat) (hn : y < n) :
      ((List.range n).flatMap fun y => (List.range h.width).map fun x => (y, x))[y * h.width + x]? = some (y, x) := by
    induction n with
    | zero => omega
    | succ n ih =>
      rw [List.range_succ, List.flatMap_append, List.flatMap_cons, List.flatMap_nil, List.append_nil]
      have hl : ((List.range n).flatMap fun y => (List.range h.width).map fun x => (y, x)).length = n * h.width := by
        simp [List.length_flatMap]
      by_cases h' : y < n
      · rw [List.getElem?_append_left]
        · exact ih h'
        · rw [hl]
          have : (y + 1) * h.width ≤ n * h.width := Nat.mul_le_mul_right _ h'
          rw [Nat.add_mul] at this
          omega
      · obtain rfl : y = n := by omega
        rw [List.getElem?_append_right (by rw [hl]; omega), hl, Nat.add_sub_cancel_left]
        simp [hx]
  have := key h.height hy
  rw [pixelsOf, List.getElem?_eq_some_iff] at *
  exact this.2

/-! ### Lengths of what the commands build -/

theorem sampleWidth_cases (b : Bool) : sampleWidth b = 8 ∨ sampleWidth b = 16 := by cases b <;> simp [sampleWidth]

theorem outWidth_cases (h : Header) (narrow : Bool) : outWidth h narrow = 8 ∨ outWidth h narrow = 16 := by
  unfold outWidth; split <;> simp

@[simp] theorem rawPixel_length (h : Header) (bs : List Byte) (y x : Nat) : (rawPixel h bs y x).length = h.color.channels := by
  simp [rawPixel]

theorem arrayBytes_eq (n c sw : Nat) (hsw : sw = 8 ∨ sw = 16) : arrayBytes n c sw = n * (c * (sw / 8)) := by
  rcases hsw with rfl | rfl
  · simp [arrayBytes]
  · simp only [arrayBytes]
    rw [show n * c * 16 = n * (c * 2) * 8 by ring, Nat.mul_div_cancel _ (by omega)]

/-- DEPTH_EXPAND builds a sample for every sample of the image (R230). -/
theorem expandBytes_length (h : Header) (narrow : Bool) (bs : List Byte) :
    (expandBytes h narrow bs).length = arrayBytes (h.width * h.height) h.color.channels (outWidth h narrow) := by
  rw [expandBytes, flatMap_length (n := h.color.channels * (outWidth h narrow / 8)),
    arrayBytes_eq _ _ _ (outWidth_cases h narrow), pixelsOf_length]
  · ring
  · intro q _
    rw [sampleBytes_length, List.length_map, rawPixel_length]

theorem packRow_length {h : Header} {sw : Nat} {bs : List Byte} (n i x : Nat) {row out : List Byte}
    (hr : packRow h sw bs n i x row = .ok out) : out.length = row.length := by
  induction n generalizing i x row with
  | zero => cases hr; rfl
  | succ n ih =>
    rw [packRow] at hr
    obtain ⟨v, _, hr⟩ := bind_eq_ok.1 hr
    rw [ih _ _ hr, setPix_length]

/-- DEPTH_PACK builds the raster (R231). -/
theorem packBytes_length {h : Header} {sw : Nat} {bs out : List Byte} (hr : packBytes h sw bs = .ok out) :
    out.length = fullBytes h := by
  rw [packBytes] at hr
  rw [collect_length hr (n := h.rowBytes), List.length_range, fullBytes]
  intro y _ row hrow
  rw [packRow_length _ _ _ hrow, zeros_length]

theorem intermediate_length {s : State} {src : ColorType} {sw : Nat} {px rgba : List Nat} {y : Nat}
    (h : intermediate s src sw px = .ok (rgba, y)) : rgba.length = 4 := by
  cases src
  case palette =>
    obtain ⟨rgb, hl, h⟩ := bind_eq_ok.1 h
    unfold lookup at hl
    split at hl
    · cases hl; cases h; rfl
    · cases hl
  all_goals (cases h; rfl)

theorem convertPixel_length {s : State} {src dst : ColorType} {sw : Nat} {px vs : List Nat}
    (h : convertPixel s src dst sw px = .ok vs) : vs.length = dst.channels := by
  unfold convertPixel at h
  obtain ⟨⟨rgba, y⟩, hi, h⟩ := bind_eq_ok.1 h
  have := intermediate_length hi
  cases dst <;> cases h <;> simp [ColorType.channels, this]

/-- COLOR_CONVERT builds a sample for every channel of every pixel (R235). -/
theorem convertBytes_length {s : State} {src dst : ColorType} {sw n : Nat} {bs out : List Byte} (hsw : sw = 8 ∨ sw = 16)
    (h : convertBytes s src dst sw n bs = .ok out) : out.length = arrayBytes n dst.channels sw := by
  rw [convertBytes] at h
  rw [collect_length h (n := dst.channels * (sw / 8)), List.length_range, arrayBytes_eq _ _ _ hsw]
  intro j _ cs hc
  obtain ⟨vs, hv, hc⟩ := bind_eq_ok.1 hc
  cases hc
  rw [sampleBytes_length, convertPixel_length hv]

theorem canonicalPixel_length {s : State} {h : Header} {sw : Nat} {px vs : List Nat}
    (hc : canonicalPixel s h sw px = .ok vs) : vs.length = 4 := by
  unfold canonicalPixel at hc
  split at hc
  case h_3 =>
    obtain ⟨rgb, hl, hc⟩ := bind_eq_ok.1 hc
    unfold lookup at hl
    split at hl
    · cases hl; cases hc; rfl
    · cases hl
  all_goals (cases hc; rfl)

/-- DECODE_NORMALIZE builds four samples for every pixel (R238). -/
theorem normalizeBytes_length {s : State} {h : Header} {narrow : Bool} {bs out : List Byte}
    (hr : normalizeBytes s h narrow bs = .ok out) :
    out.length = arrayBytes (h.width * h.height) 4 (outWidth h narrow) := by
  rw [normalizeBytes] at hr
  rw [collect_length hr (n := 4 * (outWidth h narrow / 8)), pixelsOf_length, arrayBytes_eq _ _ _ (outWidth_cases h narrow)]
  · ring
  · intro q _ cs hc
    obtain ⟨vs, hv, hc⟩ := bind_eq_ok.1 hc
    cases hc
    rw [sampleBytes_length, canonicalPixel_length hv]

end Sys2Proof.Machine
end

