-- ==== Sys2Proof/Laws/Commands.lean ====
section
/-! SUPPORT. One law per command rule: the rule as its list of checks and then its writes; then what any command outside the
parser can leave, said once. -/

namespace Sys2Proof.Machine

/-! ### Rules without a header -/

theorem crcUpdate_eq (s : State) :
    crcUpdate s = runChecks [regionCheck s (srcAddr s) (srcLen s) .src] >>= fun _ =>
      .ok { s with crcReg := crcFold s.crcReg (memRead s (srcAddr s) (srcLen s)) } := by rw [crcUpdate, checkRegion_eq]

theorem crcOneShot_eq (s : State) :
    crcOneShot s = runChecks [regionCheck s (srcAddr s) (srcLen s) .src] >>= fun _ =>
      .ok (setRes0 s (crc32 (memRead s (srcAddr s) (srcLen s))).toNat) := by rw [crcOneShot, checkRegion_eq]

theorem sigWrite_eq (s : State) :
    sigWrite s = runChecks (destChecks s 8) >>= fun _ => .ok (setRes0 (memWrite s (dstAddr s) signature) 8) := by
  simp only [sigWrite, destChecks, checkCap_eq, checkRegion_eq, capCheck, regionCheck, runChecks_cons, runChecks_nil,
    bind_assoc, ok_bind]

theorem chunkWrite_eq (s : State) :
    chunkWrite s = runChecks (srcDestChecks s (srcLen s) (12 + srcLen s)) >>= fun _ =>
      .ok (setRes1
        (setRes0 (memWrite s (dstAddr s) (chunkBytes s.opd.chunkType.toNat (memRead s (srcAddr s) (srcLen s))))
          (12 + srcLen s))
        (crc32 (beBytes s.opd.chunkType.toNat 4 ++ memRead s (srcAddr s) (srcLen s))).toNat) := by
  rw [chunkWrite, checkSrcDest_eq]

theorem idatWrite_eq (s : State) :
    idatWrite s = runChecks ((s.opd.idatMax != 0, .illegalCommand .parameter) ::
        srcDestChecks s (srcLen s) (srcLen s + 12 * idatCount s)) >>= fun _ =>
      .ok (setRes1 (setRes0 (memWrite s (dstAddr s) (idatBytes s)) (srcLen s + 12 * idatCount s)) (idatCount s)) := by
  rw [idatWrite, checkSrcDest_eq, runChecks_cons, bind_assoc]

theorem filtApply_eq (f : FilterType) (first : Bool) (s : State) :
    filtApply f first s = runChecks (rowOrder s first (srcLen s)) >>= fun _ =>
      .ok (setRes1
        (setRes0 (memWrite s (dstAddr s) (applyFilter f (inputRow s) (priorRow s first) (paramBpp s))) (srcLen s))
        (score s.params.scoreReading (applyFilter f (inputRow s) (priorRow s first) (paramBpp s)))) := by
  rw [filtApply, rowChecks_eq]

theorem filtReverse_eq (f : FilterType) (first : Bool) (s : State) :
    filtReverse f first s = runChecks (rowOrder s first (srcLen s)) >>= fun _ =>
      .ok (setRes0 (memWrite s (dstAddr s) (reverseFilter f (inputRow s) (priorRow s first) (paramBpp s))) (srcLen s)) := by
  rw [filtReverse, rowChecks_eq]

theorem filtSelect_eq (first : Bool) (s : State) :
    filtSelect first s = runChecks (rowOrder s first (srcLen s + 1)) >>= fun _ =>
      let best := selectFilter s.params.scoreReading (inputRow s) (priorRow s first) (paramBpp s)
      .ok (setRes1
        (setRes0 (memWrite s (dstAddr s)
          (BitVec.ofNat 8 best.1.code :: applyFilter best.1 (inputRow s) (priorRow s first) (paramBpp s))) best.1.code)
        best.2) := by
  rw [filtSelect, rowChecks_eq]

theorem colorConvert_eq (src dst : ColorType) (s16 : Bool) (s : State) :
    colorConvert src dst s16 s = runChecks
        ([(supportedPair src dst && !(src == .palette && s16), .unsupportedColorConversion),
          (srcLen s == arrayBytes (paramCount s) src.channels (sampleWidth s16), .insufficientPixelData),
          (!(src == .palette && s.pal.plteN == 0), .paletteRequired)] ++
          srcDestChecks s (arrayBytes (paramCount s) src.channels (sampleWidth s16))
            (arrayBytes (paramCount s) dst.channels (sampleWidth s16))) >>= fun _ =>
      convertBytes s src dst (sampleWidth s16) (paramCount s)
          (memRead s (srcAddr s) (arrayBytes (paramCount s) src.channels (sampleWidth s16))) >>= fun out =>
      .ok (setRes0 (memWrite s (dstAddr s) out) (arrayBytes (paramCount s) dst.channels (sampleWidth s16))) := by
  simp only [colorConvert, checkSrcDest_eq, List.cons_append, List.nil_append, runChecks_cons, bind_assoc]

/-! ### Rules with a header -/

theorem requireHeader_some {s : State} {h : Header} (hh : header s = some h) : requireHeader s = .ok h := by
  rw [requireHeader, hh]

theorem requireHeader_none {s : State} (hh : header s = none) : requireHeader s = .error .invalidHeader := by
  rw [requireHeader, hh]

theorem ihdrWrite_eq (s : State) :
    ihdrWrite s = runChecks (((header s).isSome, .invalidHeader) :: destChecks s 25) >>= fun _ =>
      .ok (setRes1 (setRes0 (memWrite s (dstAddr s) (chunkBytes typeIhdr (ihdrData s))) 25)
        (crc32 (beBytes typeIhdr 4 ++ ihdrData s)).toNat) := by
  simp only [ihdrWrite, requireHeader, destChecks, checkCap_eq, checkRegion_eq, capCheck, regionCheck, runChecks_cons,
    runChecks_nil, bind_assoc, ok_bind]
  cases header s <;> rfl

section
variable {s : State} {h : Header} (hh : header s = some h)
include hh

theorem filterImage_eq (m : FilterMode) :
    filterImage m s = runChecks (imageOrder s (rasterBytes h) (streamBytes h)) >>= fun _ =>
      .ok (setRes1
        (setRes0 (memWrite s (dstAddr s) (filterImages s.params.scoreReading m h.bpp h.bitsPP (subImages h)
          (memRead s (srcAddr s) (rasterBytes h)))) (streamBytes h))
        (imageRows h)) := by
  rw [filterImage, requireHeader_some hh, ok_bind, imageChecks_eq]

theorem unfilterImage_eq :
    unfilterImage s = runChecks (imageOrder s (streamBytes h) (rasterBytes h)) >>= fun _ =>
      unfilterImages h.bpp h.bitsPP (subImages h) (memRead s (srcAddr s) (streamBytes h)) >>= fun out =>
      .ok (setRes1 (setRes0 (memWrite s (dstAddr s) out) (rasterBytes h)) (imageRows h)) := by
  rw [unfilterImage, requireHeader_some hh, ok_bind, imageChecks_eq]

theorem adam7Geom_eq (p : Nat) :
    adam7Geom p s = .ok (setRes3
      (setRes2 (setRes1 (setRes0 s (passWidth h (passOf p))) (passHeight h (passOf p)))
        ((passOf p).xOffset + 256 * (passOf p).yOffset + 65536 * (passOf p).xStep + 16777216 * (passOf p).yStep))
      (passStart h p)) := by
  rw [adam7Geom, requireHeader_some hh, ok_bind]

theorem deinterlace_eq :
    deinterlace s = runChecks (imageOrder s (passBytes h) (fullBytes h)) >>= fun _ =>
      .ok (setRes0 (memWrite s (dstAddr s) (deinterlaceBytes h (memRead s (srcAddr s) (passBytes h)))) (fullBytes h)) := by
  rw [deinterlace, requireHeader_some hh, ok_bind, imageChecks_eq]

theorem interlace_eq :
    interlace s = runChecks (imageOrder s (fullBytes h) (passBytes h)) >>= fun _ =>
      .ok (setRes0 (memWrite s (dstAddr s) (interlaceBytes h (memRead s (srcAddr s) (fullBytes h)))) (passBytes h)) := by
  rw [interlace, requireHeader_some hh, ok_bind, imageChecks_eq]

theorem depthExpand_eq (narrow : Bool) :
    depthExpand narrow s = runChecks
        (imageOrder s (fullBytes h) (arrayBytes (h.width * h.height) h.color.channels (outWidth h narrow))) >>= fun _ =>
      .ok (setRes0 (memWrite s (dstAddr s) (expandBytes h narrow (memRead s (srcAddr s) (fullBytes h))))
        (arrayBytes (h.width * h.height) h.color.channels (outWidth h narrow))) := by
  simp only [depthExpand, requireHeader_some hh, ok_bind, imageChecks_eq]

theorem depthPack_eq (s16 : Bool) :
    depthPack s16 s = runChecks
        (imageOrder s (arrayBytes (h.width * h.height) h.color.channels (sampleWidth s16)) (fullBytes h)) >>= fun _ =>
      packBytes h (sampleWidth s16)
          (memRead s (srcAddr s) (arrayBytes (h.width * h.height) h.color.channels (sampleWidth s16))) >>= fun out =>
      .ok (setRes0 (memWrite s (dstAddr s) out) (fullBytes h)) := by
  simp only [depthPack, requireHeader_some hh, ok_bind, imageChecks_eq]

theorem decodeNormalize_eq (narrow : Bool) :
    decodeNormalize narrow s = runChecks
        ([(srcLen s == fullBytes h, .insufficientPixelData), (!(h.color == .palette && s.pal.plteN == 0), .paletteRequired)] ++
          srcDestChecks s (fullBytes h) (arrayBytes (h.width * h.height) 4 (outWidth h narrow))) >>= fun _ =>
      normalizeBytes s h narrow (memRead s (srcAddr s) (fullBytes h)) >>= fun out =>
      .ok (setRes0 (memWrite s (dstAddr s) out) (arrayBytes (h.width * h.height) 4 (outWidth h narrow))) := by
  simp only [decodeNormalize, requireHeader_some hh, ok_bind, checkSrcDest_eq, List.cons_append, List.nil_append, runChecks_cons, bind_assoc]

end

/-! ### What a command outside the parser can leave -/

/-- The writes of a successful command outside the parser: CRC_REG, results and one run of bytes at DST_ADDR, each only where
its rule names it. -/
def OwnWrites (i : Instr) (s u : State) : Prop :=
  ∃ (r : Results) (crc : Word) (bs : List Byte),
    u = { s with res := r, crcReg := crc, buf := ramStore s.buf (dstAddr s) bs } ∧
    (.crcReg ∉ writesOf i → crc = s.crcReg) ∧ (.res0 ∉ writesOf i → r.res0 = s.res.res0) ∧
    (.res1 ∉ writesOf i → r.res1 = s.res.res1) ∧ (.res2 ∉ writesOf i → r.res2 = s.res.res2) ∧
    (.res3 ∉ writesOf i → r.res3 = s.res.res3) ∧
    (bs = [] ∨ destRegions i s = destAt s bs.length ∧ dstAddr s + bs.length ≤ s.params.memBytes)

/-- A destination check among the checks that passed. -/
theorem dest_in_range {cs : List Check} (h : runChecks cs = .ok ()) (s : State) (n : Nat)
    (hm : regionCheck s (dstAddr s) n .dst ∈ cs) : dstAddr s + n ≤ s.params.memBytes := by
  unfold runChecks at h
  split at h
  · simpa [regionCheck] using (firstError_eq_none.1 ‹_›) _ hm
  · cases h

theorem mem_rowOrder (s : State) (first : Bool) (m : Nat) : regionCheck s (dstAddr s) m .dst ∈ rowOrder s first m := by
  simp [rowOrder]

theorem mem_imageOrder (s : State) (n m : Nat) : regionCheck s (dstAddr s) m .dst ∈ imageOrder s n m := by
  simp [imageOrder, srcDestChecks]

theorem filtApply_own {f : FilterType} {first : Bool} {i : Instr} {s u : State} (h : filtApply f first s = .ok u)
    (hw : writesOf i = [.res0, .res1]) (hd : destRegions i s = destAt s (srcLen s)) : OwnWrites i s u := by
  rw [filtApply_eq] at h
  obtain ⟨_, hc, h⟩ := bind_eq_ok.1 h
  cases h
  refine ⟨_, s.crcReg, applyFilter f (inputRow s) (priorRow s first) (paramBpp s), rfl, ?_⟩
  have := dest_in_range hc s _ (mem_rowOrder s first _)
  simp [hw, hd, inputRow, this]

theorem filtReverse_own {f : FilterType} {first : Bool} {i : Instr} {s u : State} (h : filtReverse f first s = .ok u)
    (hw : writesOf i = [.res0]) (hd : destRegions i s = destAt s (srcLen s)) : OwnWrites i s u := by
  rw [filtReverse_eq] at h
  obtain ⟨_, hc, h⟩ := bind_eq_ok.1 h
  cases h
  refine ⟨_, s.crcReg, reverseFilter f (inputRow s) (priorRow s first) (paramBpp s), rfl, ?_⟩
  have := dest_in_range hc s _ (mem_rowOrder s first _)
  simp [hw, hd, inputRow, this]

/-- A rule with a header answers only where the header is valid. -/
theorem header_of_ok {α : Type} {s : State} {k : Header → Except Err α} {a : α} (h : requireHeader s >>= k = .ok a) :
    ∃ x, header s = some x := by
  cases hh : header s with
  | none => rw [requireHeader_none hh] at h; cases h
  | some x => exact ⟨x, rfl⟩

theorem filterImage_own {m : FilterMode} {i : Instr} {s u : State} (h : filterImage m s = .ok u)
    (hw : writesOf i = [.res0, .res1]) (hd : destRegions i s = destByHeader s streamBytes) : OwnWrites i s u := by
  obtain ⟨x, hx⟩ := header_of_ok h
  rw [filterImage_eq hx] at h
  obtain ⟨_, hc, h⟩ := bind_eq_ok.1 h
  cases h
  refine ⟨_, s.crcReg, filterImages s.params.scoreReading m x.bpp x.bitsPP (subImages x)
    (memRead s (srcAddr s) (rasterBytes x)), rfl, ?_⟩
  have hl : (filterImages s.params.scoreReading m x.bpp x.bitsPP (subImages x)
      (memRead s (srcAddr s) (rasterBytes x))).length = streamBytes x :=
    filterImages_length _ _ _ _ _ _ (by rw [memRead_length]; exact le_rfl)
  have := dest_in_range hc s _ (mem_imageOrder s _ _)
  simp [hw, hd, destByHeader, hx, hl, this]

theorem adam7Geom_own {p : Nat} {i : Instr} {s u : State} (h : adam7Geom p s = .ok u)
    (hw : writesOf i = [.res0, .res1, .res2, .res3]) : OwnWrites i s u := by
  obtain ⟨x, hx⟩ := header_of_ok h
  rw [adam7Geom_eq hx] at h
  cases h
  exact ⟨_, s.crcReg, [], rfl, by simp [hw]⟩

theorem crcUpdate_own {s u : State} (hu : crcUpdate s = .ok u) : OwnWrites .crcUpdate s u := by
  rw [crcUpdate_eq] at hu
  obtain ⟨_, _, hu⟩ := bind_eq_ok.1 hu
  cases hu; exact ⟨_, _, [], rfl, by simp [writesOf]⟩

theorem crc32_own {s u : State} (hu : crcOneShot s = .ok u) : OwnWrites .crc32 s u := by
  rw [crcOneShot_eq] at hu
  obtain ⟨_, _, hu⟩ := bind_eq_ok.1 hu
  cases hu; exact ⟨_, s.crcReg, [], rfl, by simp [writesOf]⟩

theorem sigWrite_own {s u : State} (hu : sigWrite s = .ok u) : OwnWrites .sigWrite s u := by
  rw [sigWrite_eq] at hu
  obtain ⟨_, hc, hu⟩ := bind_eq_ok.1 hu
  cases hu
  have := dest_in_range hc s 8 (by simp [destChecks])
  exact ⟨_, s.crcReg, signature, rfl, by simp [writesOf, destRegions, this]⟩

theorem chunkWrite_own {s u : State} (hu : chunkWrite s = .ok u) : OwnWrites .chunkWrite s u := by
  rw [chunkWrite_eq] at hu
  obtain ⟨_, hc, hu⟩ := bind_eq_ok.1 hu
  cases hu
  have := dest_in_range hc s (12 + srcLen s) (by simp [srcDestChecks])
  exact ⟨_, s.crcReg, chunkBytes s.opd.chunkType.toNat (memRead s (srcAddr s) (srcLen s)), rfl,
    by simp [writesOf, destRegions, this]⟩

theorem ihdrWrite_own {s u : State} (hu : ihdrWrite s = .ok u) : OwnWrites .ihdrWrite s u := by
  have hl : (chunkBytes typeIhdr (ihdrData s)).length = 25 := by simp [ihdrData]
  rw [ihdrWrite_eq] at hu
  generalize chunkBytes typeIhdr (ihdrData s) = bs at hu hl
  obtain ⟨_, hc, hu⟩ := bind_eq_ok.1 hu
  cases hu
  have := dest_in_range hc s 25 (by simp [destChecks])
  exact ⟨_, s.crcReg, bs, rfl, by simp [writesOf, destRegions, hl, this]⟩

theorem idatWrite_own {s u : State} (hu : idatWrite s = .ok u) : OwnWrites .idatWrite s u := by
  rw [idatWrite_eq] at hu
  obtain ⟨_, hc, hu⟩ := bind_eq_ok.1 hu
  cases hu
  have := dest_in_range hc s (srcLen s + 12 * idatCount s) (by simp [srcDestChecks])
  have hm : s.opd.idatMax ≠ 0 := by
    rw [runChecks_cons] at hc
    obtain ⟨_, hc, _⟩ := bind_eq_ok.1 hc
    intro h0
    simp [require, h0] at hc
  exact ⟨_, s.crcReg, idatBytes s, rfl, by simp [writesOf, destRegions, idatBytes_length s hm, this]⟩

theorem filtSelect_own {first : Bool} {s u : State} (hu : filtSelect first s = .ok u) : OwnWrites (.filtSelect first) s u := by
  rw [filtSelect_eq] at hu
  dsimp only at hu
  generalize selectFilter s.params.scoreReading (inputRow s) (priorRow s first) (paramBpp s) = best at hu
  have hl : (BitVec.ofNat 8 best.1.code ::
      applyFilter best.1 (inputRow s) (priorRow s first) (paramBpp s)).length = srcLen s + 1 := by simp [inputRow]
  generalize (BitVec.ofNat 8 best.1.code :: applyFilter best.1 (inputRow s) (priorRow s first) (paramBpp s)) = bs at hu hl
  obtain ⟨_, hc, hu⟩ := bind_eq_ok.1 hu
  cases hu
  have := dest_in_range hc s _ (mem_rowOrder s first _)
  exact ⟨_, s.crcReg, bs, rfl, by simp [writesOf, destRegions, hl, this]⟩

theorem unfilterImage_own {s u : State} (hu : unfilterImage s = .ok u) : OwnWrites .unfilterImage s u := by
  obtain ⟨x, hx⟩ := header_of_ok hu
  rw [unfilterImage_eq hx] at hu
  obtain ⟨_, hc, hu⟩ := bind_eq_ok.1 hu
  obtain ⟨out, ho, hu⟩ := bind_eq_ok.1 hu
  cases hu
  have hl : out.length = rasterBytes x := unfilterImages_length _ _ _ _ _ (by rw [memRead_length]; exact le_rfl) ho
  have := dest_in_range hc s _ (mem_imageOrder s _ _)
  exact ⟨_, s.crcReg, out, rfl, by simp [writesOf, destRegions, destByHeader, hx, hl, this]⟩

theorem deinterlace_own {s u : State} (hu : deinterlace s = .ok u) : OwnWrites .deinterlace s u := by
  obtain ⟨x, hx⟩ := header_of_ok hu
  rw [deinterlace_eq hx] at hu
  obtain ⟨_, hc, hu⟩ := bind_eq_ok.1 hu
  cases hu
  have := dest_in_range hc s _ (mem_imageOrder s _ _)
  refine ⟨_, s.crcReg, _, rfl, ?_⟩
  simp [writesOf, destRegions, destByHeader, hx, deinterlaceBytes_length, this]

theorem interlace_own {s u : State} (hu : interlace s = .ok u) : OwnWrites .interlace s u := by
  obtain ⟨x, hx⟩ := header_of_ok hu
  rw [interlace_eq hx] at hu
  obtain ⟨_, hc, hu⟩ := bind_eq_ok.1 hu
  cases hu
  have := dest_in_range hc s _ (mem_imageOrder s _ _)
  refine ⟨_, s.crcReg, _, rfl, ?_⟩
  simp [writesOf, destRegions, destByHeader, hx, interlaceBytes_length, this]

theorem depthExpand_own {narrow : Bool} {s u : State} (hu : depthExpand narrow s = .ok u) : OwnWrites (.depthExpand narrow) s u := by
  obtain ⟨x, hx⟩ := header_of_ok hu
  rw [depthExpand_eq hx] at hu
  obtain ⟨_, hc, hu⟩ := bind_eq_ok.1 hu
  cases hu
  have := dest_in_range hc s _ (mem_imageOrder s _ _)
  refine ⟨_, s.crcReg, _, rfl, ?_⟩
  simp [writesOf, destRegions, destByHeader, hx, expandBytes_length, this]

theorem depthPack_own {s16 : Bool} {s u : State} (hu : depthPack s16 s = .ok u) : OwnWrites (.depthPack s16) s u := by
  obtain ⟨x, hx⟩ := header_of_ok hu
  rw [depthPack_eq hx] at hu
  obtain ⟨_, hc, hu⟩ := bind_eq_ok.1 hu
  obtain ⟨out, ho, hu⟩ := bind_eq_ok.1 hu
  cases hu
  have := dest_in_range hc s _ (mem_imageOrder s _ _)
  exact ⟨_, s.crcReg, out, rfl, by simp [writesOf, destRegions, destByHeader, hx, packBytes_length ho, this]⟩

theorem colorConvert_own {src dst : ColorType} {s16 : Bool} {s u : State} (hu : colorConvert src dst s16 s = .ok u) : OwnWrites (.colorConvert src dst s16) s u := by
  rw [colorConvert_eq] at hu
  obtain ⟨_, hc, hu⟩ := bind_eq_ok.1 hu
  obtain ⟨out, ho, hu⟩ := bind_eq_ok.1 hu
  cases hu
  have := dest_in_range hc s (arrayBytes (paramCount s) dst.channels (sampleWidth s16)) (by simp [srcDestChecks])
  exact ⟨_, s.crcReg, out, rfl,
    by simp [writesOf, destRegions, convertBytes_length (sampleWidth_cases s16) ho, this]⟩

theorem decodeNormalize_own {narrow : Bool} {s u : State} (hu : decodeNormalize narrow s = .ok u) : OwnWrites (.decodeNormalize narrow) s u := by
  obtain ⟨x, hx⟩ := header_of_ok hu
  rw [decodeNormalize_eq hx] at hu
  obtain ⟨_, hc, hu⟩ := bind_eq_ok.1 hu
  obtain ⟨out, ho, hu⟩ := bind_eq_ok.1 hu
  cases hu
  have := dest_in_range hc s (arrayBytes (x.width * x.height) 4 (outWidth x narrow)) (by simp [srcDestChecks])
  exact ⟨_, s.crcReg, out, rfl,
    by simp [writesOf, destRegions, destByHeader, hx, normalizeBytes_length ho, this]⟩

/-- A successful command outside the parser writes only what its rule names (R85). -/
theorem exec_own {i : Instr} {s t : State} (hi : i ∉ [Instr.framerReset, .sigCheck, .chunkParse, .streamParse])
    (h : exec i s = .next t) :
    (∃ e, t = { s with ctl := errCtl s e }) ∨ ∃ u, OwnWrites i s u ∧ t = succeed u := by
  cases i
  case framerReset => simp at hi
  case sigCheck => simp at hi
  case chunkParse => simp at hi
  case streamParse => simp at hi
  case nop => cases h; exact .inr ⟨s, ⟨_, _, [], rfl, by simp⟩, rfl⟩
  case crcInit => cases h; exact .inr ⟨_, ⟨_, _, [], rfl, by simp [writesOf]⟩, rfl⟩
  case crcFinal => cases h; exact .inr ⟨_, ⟨_, s.crcReg, [], rfl, by simp [writesOf]⟩, rfl⟩
  case paeth => cases h; exact .inr ⟨_, ⟨_, s.crcReg, [], rfl, by simp [writesOf]⟩, rfl⟩
  all_goals
    rcases finish_cases h with ⟨u, hu, rfl⟩ | ⟨e, _, rfl⟩
    swap
    · exact .inl ⟨e, rfl⟩
    refine .inr ⟨u, ?_, rfl⟩
  case crcUpdate => exact crcUpdate_own hu
  case crc32 => exact crc32_own hu
  case sigWrite => exact sigWrite_own hu
  case chunkWrite => exact chunkWrite_own hu
  case ihdrWrite => exact ihdrWrite_own hu
  case idatWrite => exact idatWrite_own hu
  case filtApplyNone => exact filtApply_own hu rfl rfl
  case filtApplySub => exact filtApply_own hu rfl rfl
  case filtApplyUp => exact filtApply_own hu rfl rfl
  case filtApplyAvg => exact filtApply_own hu rfl rfl
  case filtApplyPaeth => exact filtApply_own hu rfl rfl
  case filtReverseNone => exact filtReverse_own hu rfl rfl
  case filtReverseSub => exact filtReverse_own hu rfl rfl
  case filtReverseUp => exact filtReverse_own hu rfl rfl
  case filtReverseAvg => exact filtReverse_own hu rfl rfl
  case filtReversePaeth => exact filtReverse_own hu rfl rfl
  case filtSelect => exact filtSelect_own hu
  case filterImageNone => exact filterImage_own hu rfl rfl
  case filterImageSub => exact filterImage_own hu rfl rfl
  case filterImageUp => exact filterImage_own hu rfl rfl
  case filterImageAvg => exact filterImage_own hu rfl rfl
  case filterImagePaeth => exact filterImage_own hu rfl rfl
  case filterImageAdaptive => exact filterImage_own hu rfl rfl
  case unfilterImage => exact unfilterImage_own hu
  case adam7GeomP0 => exact adam7Geom_own hu rfl
  case adam7GeomP1 => exact adam7Geom_own hu rfl
  case adam7GeomP2 => exact adam7Geom_own hu rfl
  case adam7GeomP3 => exact adam7Geom_own hu rfl
  case adam7GeomP4 => exact adam7Geom_own hu rfl
  case adam7GeomP5 => exact adam7Geom_own hu rfl
  case adam7GeomP6 => exact adam7Geom_own hu rfl
  case deinterlace => exact deinterlace_own hu
  case interlace => exact interlace_own hu
  case depthExpand => exact depthExpand_own hu
  case depthPack => exact depthPack_own hu
  case colorConvert => exact colorConvert_own hu
  case decodeNormalize => exact decodeNormalize_own hu

end Sys2Proof.Machine
end

