-- ==== Sys2Proof/Laws/PerInstr.lean ====
section
/-! SUPPORT. The per-instruction family EncodesWellFormed: the word the encoder gives an instruction has well-formed fields. -/

namespace Sys2Proof.Laws.EncodesWellFormed

/-- The fields of the instruction's encoded word pass the four checks of R82. -/
def Statement (i : Instr) : Prop := (CmdFields.ofWord (encode i)).wellFormed = true

theorem nop : Statement .nop := by unfold Statement; rfl
theorem crcInit : Statement .crcInit := by unfold Statement; rfl
theorem crcUpdate : Statement .crcUpdate := by unfold Statement; rfl
theorem crcFinal : Statement .crcFinal := by unfold Statement; rfl
theorem crc32 : Statement .crc32 := by unfold Statement; rfl
theorem framerReset : Statement .framerReset := by unfold Statement; rfl
theorem sigCheck : Statement .sigCheck := by unfold Statement; rfl
theorem chunkParse : Statement .chunkParse := by unfold Statement; rfl
theorem streamParse : Statement .streamParse := by unfold Statement; rfl
theorem sigWrite : Statement .sigWrite := by unfold Statement; rfl
theorem chunkWrite : Statement .chunkWrite := by unfold Statement; rfl
theorem ihdrWrite : Statement .ihdrWrite := by unfold Statement; rfl
theorem idatWrite : Statement .idatWrite := by unfold Statement; rfl
theorem filtApplyNone (first : Bool) : Statement (.filtApplyNone first) := by
  unfold Statement; cases first <;> rfl
theorem filtApplySub (first : Bool) : Statement (.filtApplySub first) := by
  unfold Statement; cases first <;> rfl
theorem filtApplyUp (first : Bool) : Statement (.filtApplyUp first) := by
  unfold Statement; cases first <;> rfl
theorem filtApplyAvg (first : Bool) : Statement (.filtApplyAvg first) := by
  unfold Statement; cases first <;> rfl
theorem filtApplyPaeth (first : Bool) : Statement (.filtApplyPaeth first) := by
  unfold Statement; cases first <;> rfl
theorem filtReverseNone (first : Bool) : Statement (.filtReverseNone first) := by
  unfold Statement; cases first <;> rfl
theorem filtReverseSub (first : Bool) : Statement (.filtReverseSub first) := by
  unfold Statement; cases first <;> rfl
theorem filtReverseUp (first : Bool) : Statement (.filtReverseUp first) := by
  unfold Statement; cases first <;> rfl
theorem filtReverseAvg (first : Bool) : Statement (.filtReverseAvg first) := by
  unfold Statement; cases first <;> rfl
theorem filtReversePaeth (first : Bool) : Statement (.filtReversePaeth first) := by
  unfold Statement; cases first <;> rfl
theorem filtSelect (first : Bool) : Statement (.filtSelect first) := by
  unfold Statement; cases first <;> rfl
theorem paeth : Statement .paeth := by unfold Statement; rfl
theorem filterImageNone : Statement .filterImageNone := by unfold Statement; rfl
theorem filterImageSub : Statement .filterImageSub := by unfold Statement; rfl
theorem filterImageUp : Statement .filterImageUp := by unfold Statement; rfl
theorem filterImageAvg : Statement .filterImageAvg := by unfold Statement; rfl
theorem filterImagePaeth : Statement .filterImagePaeth := by unfold Statement; rfl
theorem filterImageAdaptive : Statement .filterImageAdaptive := by unfold Statement; rfl
theorem unfilterImage : Statement .unfilterImage := by unfold Statement; rfl
theorem adam7GeomP0 : Statement .adam7GeomP0 := by unfold Statement; rfl
theorem adam7GeomP1 : Statement .adam7GeomP1 := by unfold Statement; rfl
theorem adam7GeomP2 : Statement .adam7GeomP2 := by unfold Statement; rfl
theorem adam7GeomP3 : Statement .adam7GeomP3 := by unfold Statement; rfl
theorem adam7GeomP4 : Statement .adam7GeomP4 := by unfold Statement; rfl
theorem adam7GeomP5 : Statement .adam7GeomP5 := by unfold Statement; rfl
theorem adam7GeomP6 : Statement .adam7GeomP6 := by unfold Statement; rfl
theorem deinterlace : Statement .deinterlace := by unfold Statement; rfl
theorem interlace : Statement .interlace := by unfold Statement; rfl
theorem depthExpand (narrow : Bool) : Statement (.depthExpand narrow) := by
  unfold Statement; cases narrow <;> rfl
theorem depthPack (s16 : Bool) : Statement (.depthPack s16) := by
  unfold Statement; cases s16 <;> rfl
theorem colorConvert (src dst : ColorType) (s16 : Bool) : Statement (.colorConvert src dst s16) := by
  unfold Statement; cases src <;> cases dst <;> cases s16 <;> rfl
theorem decodeNormalize (narrow : Bool) : Statement (.decodeNormalize narrow) := by
  unfold Statement; cases narrow <;> rfl

end Sys2Proof.Laws.EncodesWellFormed
end

