-- ==== Sys2Proof/Tests/Slice0.lean ====
section
/-! SUPPORT. Tests: the decoding of hand-written words, one step of each command on a small state (expected values from
95_test_vectors.md unless a comment says otherwise), the host's accesses, and for every statement with hypotheses a witness
that meets them. -/

namespace Sys2Proof.Tests
section
set_option Elab.async false

open Sys2Proof Sys2Proof.Machine

/-! ### Helpers -/

/-- The next state of a command, none where there is none. -/
def result (i : Instr) (s : State) : Option State :=
  match exec i s with
  | .next t => some t
  | .fault _ => none
  | .refused _ => none

/-- The next state of a step, none where there is none. -/
def stepped (s : State) : Option State :=
  match step s with
  | .next t => some t
  | .fault _ => none
  | .refused _ => none

/-- The next state of a command, or `s`. -/
def run (i : Instr) (s : State) : State := (result i s).getD s

theorem exec_run {i : Instr} {s : State} (h : (result i s).isSome = true) : exec i s = .next (run i s) := by
  cases hx : exec i s <;> simp_all [run, result]

theorem step_run {s : State} (h : (stepped s).isSome = true) : ∃ t, step s = .next t := by
  cases hx : step s <;> simp_all [stepped]

/-- A reset state with MEM_BYTES of 95_test_vectors.md and the four region registers. -/
def ops (src n dst cap : Nat) : State :=
  { State.reset with opd := { State.reset.opd with
      srcAddr := BitVec.ofNat 32 src
      srcLen := BitVec.ofNat 32 n
      dstAddr := BitVec.ofNat 32 dst
      dstLen := BitVec.ofNat 32 cap } }

/-- `ops` with the bytes `bs` as the source. -/
def src (bs : List Byte) (dst cap : Nat) : State := memWrite (ops 0 bs.length dst cap) 0 bs

/-- A row setup (vectors 2.4). -/
def rows (row prior : List Byte) (bpp : Nat) : State :=
  let s := memWrite (src row 0x200 0x100) 0x100 prior
  { s with opd := { s.opd with auxAddr := 0x100, param := BitVec.ofNat 32 bpp } }

/-- The header registers. -/
def img (w h : Nat) (d ct im : Byte) (s : State) : State :=
  { s with hdr := ⟨BitVec.ofNat 32 w, BitVec.ofNat 32 h, d, ct, im⟩ }

/-- A palette of two entries, red and green (vectors 2.6.3). -/
def redGreen (s : State) : State :=
  { s with pal := { s.pal with plteN := 2 }, plteRam := [(0, 0xFF0000), (1, 0x00FF00)] }

/-- PARAM. -/
def param (n : Nat) (s : State) : State := { s with opd := { s.opd with param := BitVec.ofNat 32 n } }

/-- The IDAT buffer and directory of vectors 2.3, and the FRAMER phase. -/
def framed (p : Phase) (s : State) : State :=
  { s with
    framer := { s.framer with phase := p }
    opd := { s.opd with idatBase := 0x8000, idatCap := 64, dirBase := 0x9000, dirCap := 4 } }

/-- A chunk under test at 0x800 (vectors 2.3.1). -/
def chunkAt (p : Phase) (bs : List Byte) : State := framed p (memWrite (ops 0x800 bs.length 0 0) 0x800 bs)

/-- What a test of a command looks at: `n` bytes at DST_ADDR, RES0, RES1 and ERROR. -/
def seen (n : Nat) (i : Instr) (s : State) : Option (List Byte × Nat × Nat × Nat) :=
  (result i s).map fun t => (memRead t (dstAddr s) n, t.res.res0.toNat, t.res.res1.toNat, (readReg t .error).toNat)

/-- What a test of a parse looks at: RES0 to RES3, FRAMER and ERROR. -/
def parsed (i : Instr) (s : State) : Option (List Nat) :=
  (result i s).map fun t => [t.res.res0.toNat, t.res.res1.toNat, t.res.res2.toNat, t.res.res3.toNat,
    (readReg t .framer).toNat, (readReg t .error).toNat]

/-- STATUS and ERROR after the command of a word. -/
def statusOf (w : Nat) : Option (Nat × Nat) :=
  (stepped (State.withFetchWord State.reset 32 w)).map fun t => ((readReg t .status).toNat, (readReg t .error).toNat)

/-- The signature (R92). -/
def sigBytes : List Byte := [0x89, 0x50, 0x4E, 0x47, 0x0D, 0x0A, 0x1A, 0x0A]

/-- The chunks of vectors 2.3. -/
def chunkH6 : List Byte :=
  [0, 0, 0, 0x0D, 0x49, 0x48, 0x44, 0x52, 0, 0, 0, 1, 0, 0, 0, 1, 8, 6, 0, 0, 0, 0x1F, 0x15, 0xC4, 0x89]

def chunkPL : List Byte := [0, 0, 0, 6, 0x50, 0x4C, 0x54, 0x45, 0xFF, 0, 0, 0, 0xFF, 0, 0xD2, 0x87, 0xEF, 0x71]

def chunkI1 : List Byte := [0, 0, 0, 2, 0x49, 0x44, 0x41, 0x54, 0x78, 1, 0xEC, 0x1A, 0x7E, 0xD2]

def chunkGA : List Byte := [0, 0, 0, 4, 0x67, 0x41, 0x4D, 0x41, 0, 0, 0xB1, 0x8F, 0x0B, 0xFC, 0x61, 5]

def chunkXY : List Byte := [0, 0, 0, 0, 0x58, 0x59, 0x5A, 0x57, 0xF9, 0xCB, 0x9C, 0xE7]

def chunkTG : List Byte := [0, 0, 0, 2, 0x74, 0x52, 0x4E, 0x53, 0, 5, 6, 0xF9, 0x39, 0xB7]

def chunkTR : List Byte := [0, 0, 0, 6, 0x74, 0x52, 0x4E, 0x53, 0, 1, 0, 2, 0, 3, 0xC9, 0x4B, 0xAB, 0xF5]

def chunkTP : List Byte := [0, 0, 0, 1, 0x74, 0x52, 0x4E, 0x53, 0x80, 0xAD, 0x5E, 0x5B, 0x46]

def chunkIE : List Byte := [0, 0, 0, 0, 0x49, 0x45, 0x4E, 0x44, 0xAE, 0x42, 0x60, 0x82]

def chunkIE1 : List Byte := [0, 0, 0, 1, 0x49, 0x45, 0x4E, 0x44, 0, 0xD1, 0x1A, 0x4F, 0xE1]

/-- The stream *good* of vectors 2.3.5, and the state that parses it. -/
def good : List Byte := sigBytes ++ chunkH6 ++ chunkI1 ++ chunkIE

def streamAt (bs : List Byte) : State := framed .start (memWrite (ops 0 bs.length 0 0) 0 bs)

/-! ### Well-formedness: a word that each check refuses -/

theorem test_unassigned_opcode_ill_formed :
    (⟨0x05, 0, 0, 0⟩ : CmdFields).opcodeOk = false ∧ (⟨0x05, 0, 0, 0⟩ : CmdFields).wellFormed = false := by decide

theorem test_reserved_byte_ill_formed :
    (⟨0x00, 0, 0, 1⟩ : CmdFields).rsvOk = false ∧ (⟨0x00, 0, 0, 1⟩ : CmdFields).wellFormed = false := by decide

theorem test_sub_ill_formed :
    (⟨0x30, 7, 0, 0⟩ : CmdFields).subOk = false ∧ (⟨0x30, 7, 0, 0⟩ : CmdFields).wellFormed = false := by decide

theorem test_flags_ill_formed :
    (⟨0x24, 0, 1, 0⟩ : CmdFields).flagsOk = false ∧ (⟨0x24, 0, 1, 0⟩ : CmdFields).wellFormed = false := by decide

theorem test_well_formed : (⟨0x42, 0x63, 0, 0⟩ : CmdFields).wellFormed = true := by decide

/-! ### Decoding: every constructor by a word written out from R81, R83, R84, R87 -/

theorem test_decode_control_crc :
    decode 0x00000000 = .ok .nop ∧ decode 0x00000001 = .ok .crcInit ∧ decode 0x00000002 = .ok .crcUpdate ∧
    decode 0x00000003 = .ok .crcFinal ∧ decode 0x00000004 = .ok .crc32 := by decide +kernel

theorem test_decode_framer :
    decode 0x00000010 = .ok .framerReset ∧ decode 0x00000011 = .ok .sigCheck ∧ decode 0x00000012 = .ok .chunkParse ∧
    decode 0x00000013 = .ok .streamParse ∧ decode 0x00000018 = .ok .sigWrite ∧ decode 0x00000019 = .ok .chunkWrite ∧
    decode 0x0000001A = .ok .ihdrWrite ∧ decode 0x0000001B = .ok .idatWrite := by decide +kernel

theorem test_decode_rows :
    decode 0x00000020 = .ok (.filtApplyNone false) ∧ decode 0x00010120 = .ok (.filtApplySub true) ∧
    decode 0x00000220 = .ok (.filtApplyUp false) ∧ decode 0x00010320 = .ok (.filtApplyAvg true) ∧
    decode 0x00000420 = .ok (.filtApplyPaeth false) ∧ decode 0x00010021 = .ok (.filtReverseNone true) ∧
    decode 0x00000121 = .ok (.filtReverseSub false) ∧ decode 0x00010221 = .ok (.filtReverseUp true) ∧
    decode 0x00000321 = .ok (.filtReverseAvg false) ∧ decode 0x00010421 = .ok (.filtReversePaeth true) ∧
    decode 0x00010022 = .ok (.filtSelect true) ∧ decode 0x00000023 = .ok .paeth := by decide +kernel

theorem test_decode_images :
    decode 0x00000024 = .ok .filterImageNone ∧ decode 0x00000124 = .ok .filterImageSub ∧
    decode 0x00000224 = .ok .filterImageUp ∧ decode 0x00000324 = .ok .filterImageAvg ∧
    decode 0x00000424 = .ok .filterImagePaeth ∧ decode 0x00000524 = .ok .filterImageAdaptive ∧
    decode 0x00000025 = .ok .unfilterImage := by decide +kernel

theorem test_decode_adam7 :
    decode 0x00000030 = .ok .adam7GeomP0 ∧ decode 0x00000130 = .ok .adam7GeomP1 ∧ decode 0x00000230 = .ok .adam7GeomP2 ∧
    decode 0x00000330 = .ok .adam7GeomP3 ∧ decode 0x00000430 = .ok .adam7GeomP4 ∧ decode 0x00000530 = .ok .adam7GeomP5 ∧
    decode 0x00000630 = .ok .adam7GeomP6 ∧ decode 0x00000031 = .ok .deinterlace ∧
    decode 0x00000032 = .ok .interlace := by decide +kernel

theorem test_decode_normalizer :
    decode 0x00020040 = .ok (.depthExpand true) ∧ decode 0x00040041 = .ok (.depthPack true) ∧
    decode 0x00006342 = .ok (.colorConvert .palette .rgba false) ∧
    decode 0x00042042 = .ok (.colorConvert .gray .rgb true) ∧
    decode 0x00000442 = .ok (.colorConvert .grayAlpha .gray false) ∧
    decode 0x00020043 = .ok (.decodeNormalize true) := by decide +kernel

/-- The table of vectors 2.1. -/
theorem test_status_of_words :
    statusOf 0x00000000 = some (2, 0) ∧ statusOf 0x00000005 = some (6, 0x20) ∧ statusOf 0x01000000 = some (6, 0x120) ∧
    statusOf 0x00000100 = some (6, 0x220) ∧ statusOf 0x00010000 = some (6, 0x320) ∧ statusOf 0x00000520 = some (6, 0x220) ∧
    statusOf 0x00010024 = some (6, 0x320) ∧ statusOf 0x00003542 = some (6, 0x220) ∧ statusOf 0x00080043 = some (6, 0x320) ∧
    statusOf 0x00040040 = some (6, 0x320) ∧ statusOf 0x00000342 = some (6, 9) := by decide +kernel

/-! ### CRC32 engine (vectors 2.2) -/

/-- "123456789". -/
def digits : List Byte := [0x31, 0x32, 0x33, 0x34, 0x35, 0x36, 0x37, 0x38, 0x39]

theorem test_crc32 : seen 0 .crc32 (src digits 0 0) = some ([], 0xCBF43926, 0, 0) := by decide +kernel

theorem test_crc32_empty_region_at_the_end :
    seen 0 .crc32 (ops 0x10000 0 0 0) = some ([], 0, 0, 0) ∧ seen 0 .crc32 (ops 0x10001 0 0 0) = some ([], 0, 0, 0x21) := by
  decide +kernel

theorem test_crc_update :
    (result .crcUpdate (src digits 0 0)).map (·.crcReg) = some 0x340BC6D9 ∧
    (result .crcUpdate (ops 0xFFFF 2 0 0)).map (fun t => (t.crcReg, readReg t .error)) = some (0xFFFFFFFF, 0x21) := by
  decide +kernel

theorem test_crc_init_and_final :
    (result .crcInit { State.reset with crcReg := 5 }).map (·.crcReg) = some 0xFFFFFFFF ∧
    (result .crcFinal { State.reset with crcReg := 0x340BC6D9 }).map (fun t => (t.res.res0, t.crcReg)) =
      some (0xCBF43926, 0x340BC6D9) := by decide +kernel

theorem test_crc_table :
    readReg State.reset (.crcTable 1) = 0x77073096 ∧ readReg State.reset (.crcTable 128) = 0xEDB88320 ∧
    readReg State.reset (.crcTable 255) = 0x2D02EF8D := by decide +kernel

theorem test_nop : (result .nop State.reset).map (fun t => readReg t .status) = some 2 := by decide +kernel

/-! ### Chunk framer (vectors 2.3) -/

theorem test_sig_check :
    parsed .sigCheck (streamAt sigBytes) = some [8, 0, 0, 0, 1, 0] ∧
    parsed .sigCheck (streamAt [0x89, 0x50, 0x4E, 0x47, 0x0D, 0x0A, 0x1A, 0x0B]) = some [0, 0, 0, 0, 0x1000F, 1] ∧
    parsed .sigCheck (framed .sigOk (streamAt sigBytes)) = some [0, 0, 0, 0, 0x3000F, 3] := by decide +kernel

theorem test_framer_reset :
    (result .framerReset (img 2 2 8 6 1 (redGreen (chunkAt .failed [])))).map (fun t =>
      [readReg t .framer, readReg t .hdrWidth, readReg t .hdrFormat, readReg t .plteN, readReg t .idatBase]) =
      some [0, 0, 0, 0, 0x8000] := by decide +kernel

/-- H6 in SIG_OK, and the header it loads. -/
theorem test_chunk_parse_ihdr :
    parsed .chunkParse (chunkAt .sigOk chunkH6) = some [25, 0x49484452, 13, 0x808, 2, 0] ∧
    (result .chunkParse (chunkAt .sigOk chunkH6)).map (fun t => readReg t .hdrFormat) = some 0x00000608 := by
  decide +kernel

/-- PL after H6; I1, GA and IE after H6 and I1; XY and IE after H6. -/
theorem test_chunk_parse_others :
    parsed .chunkParse (img 1 1 8 6 0 (chunkAt .header chunkPL)) = some [18, 0x504C5445, 6, 0x808, 0x102, 0] ∧
    (result .chunkParse (img 1 1 8 6 0 (chunkAt .header chunkI1))).map (fun t => memRead t 0x8000 2) = some [0x78, 1] ∧
    (result .chunkParse (img 1 1 8 6 0 (chunkAt .idat chunkGA))).map (fun t => memRead t 0x9000 12) =
      some [0x67, 0x41, 0x4D, 0x41, 0, 0, 8, 8, 0, 0, 0, 4] ∧
    parsed .chunkParse (img 1 1 8 6 0 (chunkAt .header chunkXY)) = some [0, 0, 0, 0, 0x26000F, 0x26] ∧
    parsed .chunkParse (img 1 1 8 6 0 (chunkAt .header chunkIE)) = some [0, 0, 0, 0, 0x2000F, 0x202] := by decide +kernel

theorem test_stream_parse :
    parsed .streamParse (streamAt good) = some [59, 2, 0, 3, 0x405, 0] ∧
    parsed .streamParse (memWrite (streamAt good) 44 [0x1B]) = some [33, 0, 0, 0, 0x4000F, 4] := by decide +kernel

theorem test_sig_write :
    seen 8 .sigWrite (ops 0 0 0xFFF8 8) = some (sigBytes, 8, 0, 0) ∧
    (seen 0 .sigWrite (ops 0 0 0xFFF9 8)) = some ([], 0, 0, 0x121) := by decide +kernel

theorem test_chunk_write :
    seen 12 .chunkWrite { ops 0 0 0x100 12 with opd := { (ops 0 0 0x100 12).opd with chunkType := 0x49454E44 } } =
      some ([0, 0, 0, 0, 0x49, 0x45, 0x4E, 0x44, 0xAE, 0x42, 0x60, 0x82], 12, 0xAE426082, 0) := by decide +kernel

theorem test_ihdr_write :
    seen 25 .ihdrWrite (img 1 1 8 6 0 (ops 0 0 0x100 25)) = some (chunkH6, 25, 0x1F15C489, 0) ∧
    seen 0 .ihdrWrite (img 1 1 16 3 0 (ops 0 0 0x100 25)) = some ([], 0, 0, 6) := by decide +kernel

/-- The state of vectors 2.3.8 with IDAT_MAX 2. -/
def idatSetup (max : Word) : State :=
  { src [0x41, 0x42, 0x43, 0x44, 0x45] 0x100 0x100 with
    opd := { (src [0x41, 0x42, 0x43, 0x44, 0x45] 0x100 0x100).opd with idatMax := max } }

theorem test_idat_write :
    seen 41 .idatWrite (idatSetup 2) =
      some ([0, 0, 0, 2, 0x49, 0x44, 0x41, 0x54, 0x41, 0x42, 0x0D, 0x4B, 0xE3, 0x42, 0, 0, 0, 2, 0x49, 0x44, 0x41, 0x54, 0x43,
        0x44, 0xD6, 0x1E, 0x24, 0xF5, 0, 0, 0, 1, 0x49, 0x44, 0x41, 0x54, 0x45, 0x2E, 0x8E, 0xC8, 0xF7], 41, 3, 0) ∧
    seen 0 .idatWrite (idatSetup 0) = some ([], 0, 0, 0x420) := by decide +kernel

/-! ### Filter engine (vectors 2.4) -/

/-- The wrap-around row of vectors 2.4.1. -/
def wrapRow : State := rows [0xFF, 0xFF, 0x01] [0xFF, 0xFF, 0x80] 1

theorem test_filt_apply :
    (([.filtApplyNone false, .filtApplySub false, .filtApplyUp false, .filtApplyAvg false, .filtApplyPaeth false] :
      List Instr).map fun i => seen 3 i wrapRow) =
      [some ([0xFF, 0xFF, 0x01], 3, 3, 0), some ([0xFF, 0x00, 0x02], 3, 3, 0), some ([0x00, 0x00, 0x81], 3, 127, 0),
       some ([0x80, 0x00, 0x42], 3, 194, 0), some ([0x00, 0x00, 0x81], 3, 127, 0)] := by decide +kernel

/-- Each filtered row of vectors 2.4.2 comes back. -/
theorem test_filt_reverse :
    (([(.filtReverseNone false, [0x0A, 0x14, 0x1E, 0x28, 0x32, 0x3C]),
       (.filtReverseSub false, [0x0A, 0x14, 0x1E, 0x1E, 0x1E, 0x1E]),
       (.filtReverseUp false, [0x09, 0x12, 0x1B, 0x24, 0x2D, 0x36]),
       (.filtReverseAvg false, [0x0A, 0x13, 0x1D, 0x21, 0x26, 0x2A]),
       (.filtReversePaeth false, [0x09, 0x12, 0x1B, 0x1E, 0x1E, 0x1E])] : List (Instr × List Byte)).map fun q =>
      seen 6 q.1 (rows q.2 [1, 2, 3, 4, 5, 6] 3)) =
      List.replicate 5 (some ([0x0A, 0x14, 0x1E, 0x28, 0x32, 0x3C], 6, 0, 0)) := by decide +kernel

theorem test_filt_select :
    seen 7 (.filtSelect false) (rows [0x0A, 0x14, 0x1E, 0x28, 0x32, 0x3C] [1, 2, 3, 4, 5, 6] 3) =
      some ([4, 0x09, 0x12, 0x1B, 0x1E, 0x1E, 0x1E], 4, 144, 0) ∧
    seen 1 (.filtSelect true) (rows [] [] 3) = some ([0], 0, 0, 0) := by decide +kernel

theorem test_paeth :
    ([(0, 0, 0), (10, 20, 15), (200, 10, 255), (0, 3, 2), (0, 3, 1), (5, 5, 0), (7, 1, 4)].map fun (a, b, c) =>
      (seen 0 .paeth (param (a + 256 * b + 65536 * c) State.reset)).map fun q => q.2.1) =
      [some 0, some 15, some 10, some 0, some 3, some 5, some 4] := by decide +kernel

/-- The 2 by 2 gray image of vectors 2.4.5. The rows of None, Up and Average are worked out by hand from R170, R172, R173;
their scores are those the vector lists. -/
theorem test_filter_image :
    (([.filterImageNone, .filterImageUp, .filterImageAvg, .filterImagePaeth, .filterImageAdaptive] : List Instr).map fun i =>
      seen 6 i (img 2 2 8 0 0 (src [0x0A, 0x14, 0x1E, 0x28] 0x200 0x100))) =
      [some ([0, 0x0A, 0x14, 0, 0x1E, 0x28], 6, 2, 0), some ([2, 0x0A, 0x14, 2, 0x14, 0x14], 6, 2, 0),
       some ([3, 0x0A, 0x0F, 3, 0x19, 0x0F], 6, 2, 0), some ([4, 0x0A, 0x0A, 4, 0x14, 0x0A], 6, 2, 0),
       some ([1, 0x0A, 0x0A, 4, 0x14, 0x0A], 6, 2, 0)] := by decide +kernel

/-- The interlaced image of vectors 2.4.5. -/
def stream3 : List Byte := [1, 1, 1, 3, 1, 0x15, 2, 1, 2, 1, 0x16, 1, 0x0B, 1, 1]

def raster3 : List Byte := [1, 3, 0x15, 0x17, 2, 0x16, 0x0B, 0x0C, 0x0D]

theorem test_filter_image_interlaced :
    seen 15 .filterImageSub (img 3 3 8 0 1 (src raster3 0x200 0x100)) = some (stream3, 15, 6, 0) := by decide +kernel

theorem test_unfilter_image :
    seen 9 .unfilterImage (img 3 3 8 0 1 (src stream3 0x200 0x100)) = some (raster3, 9, 6, 0) ∧
    seen 0 .unfilterImage (img 3 3 8 0 1 (src (stream3.set 4 7) 0x200 0x100)) = some ([], 0, 0, 0x724) := by decide +kernel

/-! ### Adam7 (vectors 2.5) -/

/-- The 8 by 8 table of vectors 2.5.1. -/
theorem test_adam7_geom :
    (([.adam7GeomP0, .adam7GeomP1, .adam7GeomP2, .adam7GeomP3, .adam7GeomP4, .adam7GeomP5, .adam7GeomP6] : List Instr).map
      fun i => (parsed i (img 8 8 8 0 0 State.reset)).map (·.take 4)) =
      [some [1, 1, 0x08080000, 0], some [1, 1, 0x08080004, 1], some [2, 1, 0x08040400, 2], some [2, 2, 0x04040002, 4],
       some [4, 2, 0x04020200, 8], some [4, 4, 0x02020001, 16], some [8, 4, 0x02010100, 32]] := by decide +kernel

theorem test_interlace :
    seen 7 .interlace (img 3 3 4 0 0 (src [0x12, 0x3F, 0x45, 0x60, 0x78, 0x90] 0x100 0x100)) =
      some ([0x10, 0x30, 0x79, 0x20, 0x80, 0x45, 0x60], 7, 0, 0) := by decide +kernel

theorem test_deinterlace :
    seen 6 .deinterlace (img 3 3 4 0 0 (src [0x10, 0x30, 0x79, 0x20, 0x80, 0x45, 0x60] 0x100 0x100)) =
      some ([0x12, 0x30, 0x45, 0x60, 0x78, 0x90], 6, 0, 0) := by decide +kernel

/-! ### Normaliser (vectors 2.6) -/

theorem test_depth_expand :
    seen 3 (.depthExpand false) (img 3 1 4 0 0 (src [0x0F, 0xA5] 0x400 0x100)) = some ([0x00, 0xFF, 0xAA], 3, 0, 0) ∧
    seen 3 (.depthExpand true) (img 1 1 16 2 0 (src [0x12, 0x34, 0x56, 0x78, 0xAB, 0xCD] 0x400 0x100)) =
      some ([0x12, 0x56, 0xAB], 3, 0, 0) := by decide +kernel

theorem test_depth_pack :
    seen 2 (.depthPack false) (img 3 1 4 0 0 (src [0x00, 0x08, 0xFF] 0x400 0x100)) = some ([0x00, 0xF0], 2, 0, 0) ∧
    seen 0 (.depthPack true) (img 2 1 2 3 0 (src [0, 0, 1, 3] 0x400 0x100)) = some ([], 0, 0, 0x308) := by decide +kernel

theorem test_color_convert :
    seen 1 (.colorConvert .rgb .gray false) (param 1 (src [0x0A, 0x14, 0x1E] 0x400 0x100)) = some ([0x12], 1, 0, 0) ∧
    seen 3 (.colorConvert .palette .rgb false) (param 1 (redGreen (src [1] 0x400 0x100))) = some ([0, 0xFF, 0], 3, 0, 0) ∧
    seen 0 (.colorConvert .palette .palette false) (param 2 (redGreen (src [1, 2] 0x400 0x100))) =
      some ([], 0, 0, 0x208) := by decide +kernel

/-- The gray key is compared with the raw sample (conflict C4). -/
theorem test_decode_normalize :
    let gray := img 4 1 2 0 0 (src [0x1B] 0x400 0x100)
    seen 16 (.decodeNormalize false) { gray with pal := { gray.pal with grayValid := true, trnsGray := 2 } } =
      some ([0, 0, 0, 0xFF, 0x55, 0x55, 0x55, 0xFF, 0xAA, 0xAA, 0xAA, 0, 0xFF, 0xFF, 0xFF, 0xFF], 16, 0, 0) ∧
    seen 4 (.decodeNormalize true) (img 1 1 16 4 0 (src [0x12, 0x34, 0x80, 0x01] 0x400 0x100)) =
      some ([0x12, 0x12, 0x12, 0x80], 4, 0, 0) := by decide +kernel

/-! ### Host accesses, reset and errors -/

/-- A state whose inbox is `es`. -/
def given (es : List Event) (s : State) : State := withInbox s es

/-- The word of register `r` after one step. -/
def stepReg (r : Reg) (s : State) : Option Word := (stepped s).map fun t => readReg t r

/-- A CMD write starts, a second one is dropped (sequence of vectors 2.1, step 7). -/
theorem test_cmd_write :
    stepReg .status (given [.write 0x40000010 .w32 0x4] State.reset) = some 1 ∧
    stepReg .status (given [.write 0x40000010 .w32 0x5] (accept State.reset 0x4)) = some 9 ∧
    stepReg .cmd (given [.write 0x40000010 .w32 0x5] (accept State.reset 0x4)) = some 4 := by decide +kernel

/-- DONE and OVERRUN are cleared by writing 1 (R22). -/
theorem test_status_write :
    let s := { State.reset with ctl := { State.reset.ctl with done := true, overrun := true } }
    stepReg .status (given [.write 0x40000008 .w32 2] s) = some 8 ∧
    stepReg .status (given [.write 0x40000008 .w32 8] s) = some 2 := by decide +kernel

/-- A soft reset while idle (R292; vectors 2.7), and one while BUSY, which is ignored (R292). -/
theorem test_soft_reset :
    stepReg .idatMax (given [.write 0x40000004 .w32 2] (idatSetup 7)) = some 0x8000 ∧
    stepReg .idatMax (given [.write 0x40000004 .w32 2] (accept (idatSetup 7) 0)) = some 7 := by decide +kernel

/-- R48, R65: a reserved offset, a read-only register, a narrow access, and a 64-bit access of the buffer are ignored. -/
theorem test_ignored_accesses :
    (stepped (given [.write 0x50000000 (.other 8) 5] State.reset)).map (·.buf) = some [] ∧
    (stepped (given [.read 0x50000000 (.other 8)] State.reset)).map (·.bus.lastRead) = some 0 ∧
    (stepped (given [.read 0x4000002C .w32] State.reset)).map (·.bus.lastRead) = some 0 ∧
    stepReg .id (given [.write 0x40000000 .w32 5] State.reset) = some 0x504E4701 ∧
    stepReg .param (given [.write 0x40000028 .w16 5] State.reset) = some 0 := by decide +kernel

/-- R63: the lanes of a 16-bit write, little-endian and big-endian. -/
theorem test_buffer_lanes :
    let big := { State.reset with params := { State.reset.params with laneOrder := .big } }
    (stepped (given [.write 0x50000002 .w16 0x1234] State.reset)).map (fun t => memRead t 2 2) = some [0x34, 0x12] ∧
    (stepped (given [.write 0x50000002 .w16 0x1234] big)).map (fun t => memRead t 2 2) = some [0x12, 0x34] := by
  decide +kernel

/-- Item 12: an access outside the windows faults. -/
theorem test_outside_windows :
    (stepped (given [.read 0x60000000 .w32] State.reset)).isSome = false := by decide +kernel

/-! ### Witnesses: for every statement with hypotheses, states and operands that meet them, one for each clause -/

/-- The state is idle, its parameters legal, and the next event is `e`. -/
def idleBefore (e : Event) (s : State) : Prop := s.params.wf ∧ s.ctl.busy = false ∧ s.bus.inbox = [e]

/-- A command runs, the parameters are legal, and the next event is `e`. -/
def busyBefore (e : Event) (s : State) : Prop := s.params.wf ∧ s.ctl.busy = true ∧ s.bus.inbox = [e]

theorem witness_DecodeAndEncodeAgree :
    decode 0x00006342 = .ok (.colorConvert .palette .rgba false) ∧
    (0x00006342 : Word) = encode (.colorConvert .palette .rgba false) := by decide +kernel

theorem witness_FirstFailingDecodeCheckDecides :
    (let f := CmdFields.ofWord 0xFFFFFF05; f.opcodeOk = false) ∧
    (let f := CmdFields.ofWord 0xFFFFFF00; f.opcodeOk = true ∧ f.rsvOk = false) ∧
    (let f := CmdFields.ofWord 0x00FF0730; f.opcodeOk = true ∧ f.rsvOk = true ∧ f.subOk = false) ∧
    (let f := CmdFields.ofWord 0x00010630; f.opcodeOk = true ∧ f.rsvOk = true ∧ f.subOk = true ∧ f.flagsOk = false) ∧
    (let f := CmdFields.ofWord 0x00046642; f.wellFormed = true) := by decide +kernel

/-- A running CRC32 command, its turn next or nothing to come. -/
def running : State := accept (src digits 0 0) 4

theorem witness_StepRunsTheDecodedCommand :
    running.ctl.busy = true ∧ decode running.ctl.cmd = .ok .crc32 ∧ (given [.engine] running).bus.inbox = [.engine] ∧
    running.bus.inbox = [] ∧ running.bus.hazard = false ∧ (∃ t, exec .crc32 (withInbox running []) = .next t) :=
  ⟨by decide +kernel, by decide +kernel, by decide +kernel, by decide +kernel, by decide +kernel,
    _, exec_run (by decide +kernel)⟩

theorem witness_IllegalWordChangesOnlyStatusAndError :
    ([(0x05, .unassignedOpcode), (0x01000000, .reservedNotZero), (0x100, .badSub), (0x10000, .badFlags)] :
      List (Word × DecodeError)).all fun q =>
      let s := given [.engine] (accept State.reset q.1)
      s.ctl.busy && !s.bus.hazard && decide (decode s.ctl.cmd = .error q.2) && s.bus.inbox == [.engine] := by
  decide +kernel

theorem witness_CmdWriteStartsOrIsDropped :
    idleBefore (.write 0x40000010 .w32 4) (given [.write (State.reset.params.blockBase + 0x010) .w32 4] State.reset) ∧
    busyBefore (.write 0x40000010 .w32 4) (given [.write (State.reset.params.blockBase + 0x010) .w32 4] running) ∧
    idleBefore (.read 0x40000010 .w32) (given [.read (State.reset.params.blockBase + 0x010) .w32] State.reset) ∧
    (stepped (given [.write 0x40000004 .w32 1] running)).isSome = true := by
  unfold idleBefore busyBefore; decide +kernel

theorem witness_StatusFollowsTheHandshake :
    idleBefore (.write 0x40000008 .w32 0xA) (given [.write (State.reset.params.blockBase + 0x008) .w32 0xA] State.reset) ∧
    busyBefore (.write 0x40000008 .w32 0xA) (given [.write (State.reset.params.blockBase + 0x008) .w32 0xA] running) := by
  unfold idleBefore busyBefore; decide +kernel

theorem witness_CtrlWriteMasksOrResets :
    idleBefore (.write 0x40000004 .w32 1) (given [.write (State.reset.params.blockBase + 0x004) .w32 1] State.reset) ∧
    idleBefore (.write 0x40000004 .w32 3) (given [.write (State.reset.params.blockBase + 0x004) .w32 3] State.reset) ∧
    busyBefore (.write 0x40000004 .w32 2) (given [.write (State.reset.params.blockBase + 0x004) .w32 2] running) ∧
    (1 : Word).getLsbD 1 = false ∧ (3 : Word).getLsbD 1 = true := by
  unfold idleBefore busyBefore; decide +kernel

theorem witness_ResetValues :
    (given [.powerOn] running).bus.inbox = .powerOn :: [] ∧ ∃ t, step (given [.powerOn] running) = .next t :=
  ⟨rfl, step_run (by decide +kernel)⟩

/-- Reserved offsets at the ends of their ranges, a narrow and a misaligned access, one that runs past the register window, a
misaligned buffer access and a 64-bit one at the end of the buffer; then the addresses next to the two windows. -/
theorem witness_UndefinedAccessesAreIgnored :
    let p := State.reset.params
    p.wf ∧
    (∀ a ∈ [0x4000002C, 0x4000004C, 0x4000009C, 0x400003FC], p.blockBase ≤ a ∧ a < p.blockBase + 4096 ∧
      (a - p.blockBase ∈ [0x02C, 0x04C] ∨ 0x09C ≤ a - p.blockBase ∧ a - p.blockBase ≤ 0x3FC)) ∧
    (p.blockBase ≤ 0x40000FFF ∧ 0x40000FFF < p.blockBase + 4096 ∧ 0x40000FFF % 4 ≠ 0) ∧
    (inRegWindow p 0x5000FFFD = false ∧ p.bufBase ≤ 0x5000FFFD ∧
      0x5000FFFD + Width.w16.bytes ≤ p.bufBase + p.memBytes ∧ 0x5000FFFD % Width.w16.bytes ≠ 0) ∧
    (inRegWindow p 0x5000FFF8 = false ∧ 0x5000FFF8 + (Width.other 8).bytes ≤ p.bufBase + p.memBytes ∧
      Width.other 8 ∉ [Width.w8, .w16, .w32]) ∧
    (∀ a ∈ [0x3FFFFFFF, 0x40001000, 0x4FFFFFFF, 0x5000FFFF], (a < p.blockBase ∨ p.blockBase + 4096 ≤ a) ∧
      (a < p.bufBase ∨ p.bufBase + p.memBytes < a + Width.w16.bytes)) := by decide +kernel

theorem witness_RegistersReadBack :
    idleBefore (.write 0x40000014 .w32 7) (given [.write (State.reset.params.blockBase + 0x014) .w32 7] State.reset) ∧
    ([(0x000, .id), (0x014, .srcAddr), (0x400, .plteRam 0), (0x7FC, .plteRam 255), (0x800, .alphaRam 0),
      (0xBFC, .alphaRam 255), (0xC00, .crcTable 0), (0xFFC, .crcTable 255)] : List (Nat × Reg)).all
      (fun q => q.1 % 4 == 0 && decide (regAt q.1 = some q.2)) ∧
    Reg.srcAddr ∉ [Reg.ctrl, .status, .cmd] := by
  unfold idleBefore; decide +kernel

/-- The first and the last aligned word of the buffer window. -/
theorem witness_BufferLanesFollowTheLaneOrder :
    let p := State.reset.params
    State.reset.ctl.busy = false ∧ Width.w32 ∈ [Width.w8, .w16, .w32] ∧
    (∀ a ∈ [0, 0xFFFC], inRegWindow p (p.bufBase + a) = false ∧ a + Width.w32.bytes ≤ p.memBytes ∧
      (p.bufBase + a) % Width.w32.bytes = 0) ∧
    (given [.write (p.bufBase + 0xFFFC) .w32 5] State.reset).bus.inbox = [.write 0x5000FFFC .w32 5] := by decide +kernel

/-- Failures outside the parser, in FAILED, and of a parse that enters FAILED. -/
theorem witness_CompletionCommitsOrDiscards :
    (result .sigWrite (ops 0 0 0 7)).map (·.ctl.errCode) = some 0x23 ∧
    (result .sigCheck (framed .failed (streamAt sigBytes))).map (·.ctl.errCode) = some 0x27 ∧
    (result .chunkParse (chunkAt .sigOk chunkIE)).map (·.ctl.errCode) = some 3 := by decide +kernel

theorem witness_CommandsWriteOnlyTheirRegisters :
    (∃ t, exec .crc32 running = .next t) ∧ mayWrite .crc32 .res1 = false ∧ Reg.res1 ≠ .status :=
  ⟨⟨_, exec_run (by decide +kernel)⟩, by decide +kernel, by decide⟩

theorem witness_CommandsWriteOnlyTheirDestinations :
    (∃ t, exec .sigWrite (ops 0 0 0x100 8) = .next t) ∧ outsideAll (destRegions .sigWrite (ops 0 0 0x100 8)) 0xFF ∧
    outsideAll (destRegions .sigWrite (ops 0 0 0x100 8)) 0x108 :=
  ⟨⟨_, exec_run (by decide +kernel)⟩, by unfold outsideAll; decide +kernel, by unfold outsideAll; decide +kernel⟩

/-- The three ways out of FAILED. -/
theorem witness_FailedIsLeftOnlyByReset :
    let failed := { framed .failed (accept State.reset 0x10) with ctl := { State.reset.ctl with cmd := 0x10, busy := true } }
    let idle := framed .failed State.reset
    failed.framer.phase = .failed ∧ idle.framer.phase = .failed ∧
    (stepped (given [.powerOn] failed)).map (·.framer.phase) = some .start ∧
    (stepped (given [.write 0x40000004 .w32 2] idle)).map (·.framer.phase) = some .start ∧
    (stepped failed).map (·.framer.phase) = some .start := by decide +kernel

/-- A state with a palette and buffer bytes. -/
theorem witness_EveryStepKeepsTheInvariant :
    let s := redGreen (src digits 0 0)
    Inv (given [.write 0x40000010 .w32 4] s) ∧ ∃ t, step (given [.write 0x40000010 .w32 4] s) = .next t := by
  refine ⟨⟨by decide +kernel, by decide +kernel, by decide +kernel, by decide +kernel, by decide +kernel, by decide +kernel,
    ?_, ?_, ?_⟩, step_run (by decide +kernel)⟩
  · unfold FramerInv; decide +kernel
  · unfold CtlInv; decide +kernel
  · unfold BusInv; decide +kernel

theorem witness_HeaderRegistersDeriveFromTheHeader :
    header (img 1 1 16 6 1 State.reset) = some ⟨1, 1, 16, .rgba, true⟩ ∧ header (img 0 1 8 0 0 State.reset) = none ∧
    header (img 1 1 16 3 0 State.reset) = none := by decide +kernel

theorem witness_RescaleRoundsToNearest :
    (8 ∈ [1, 2, 4, 8, 16] ∧ 16 ∈ [1, 2, 4, 8, 16] ∧ 255 ≤ 2 ^ 8 - 1) ∧ (2 ∈ [1, 2, 4, 8, 16] ∧ 3 ≤ 2 ^ 2 - 1) ∧
    (4 ∈ [1, 2, 4, 8, 16] ∧ 15 ≤ 2 ^ 4 - 1) ∧ 0 ≤ 2 ^ 1 - 1 := by decide

theorem witness_CommandsWithoutOperands :
    (∀ w ∈ [0, 0x01000000, 0x00000100, 0x00010000], (CmdFields.ofWord (BitVec.ofNat 32 w)).opcode = 0) ∧
    (CmdFields.ofWord 0x01000000).rsv ≠ 0 ∧ (CmdFields.ofWord 0x00000100).sub ≠ 0 ∧
    (CmdFields.ofWord 0x00010000).flags ≠ 0 := by decide +kernel

/-- A source that ends with the buffer, and one a byte longer. -/
theorem witness_CrcCommandsFoldTheSource :
    (let s := ops 0xFFFF 1 0 0; srcAddr s + srcLen s ≤ s.params.memBytes) ∧
    (let s := ops 0xFFFF 2 0 0; s.params.memBytes < srcAddr s + srcLen s) := by decide +kernel

theorem witness_CrcStepIsBitwiseDivision : (0 < 256 ∧ 255 < 256) ∧ readReg State.reset (.crcTable 255) = 0x2D02EF8D := by
  decide +kernel

/-- The last byte of a sequence; the first byte of the type and the last of the data of I1. -/
theorem witness_CrcDetectsEverySingleBitError :
    (8 < digits.length ∧ 7 < 8) ∧
    (let s := chunkAt .header chunkI1
     firstError (framingOrder s) = none ∧ srcAddr s + 4 ≤ 0x804 ∧ 0x809 < srcAddr s + 8 + chunkLen s) := by decide +kernel

/-- The checks of SIG_CHECK. -/
def sigOrder (s : State) : List Check :=
  [(s.framer.phase != .failed, .framerFailed s.framer.failCode),
   (s.framer.phase == .start, .unexpectedChunkOrder),
   (decide (8 ≤ srcLen s), .signatureMismatch),
   regionCheck s (srcAddr s) 8 .src,
   (memRead s (srcAddr s) 8 == [0x89, 0x50, 0x4E, 0x47, 0x0D, 0x0A, 0x1A, 0x0A], .signatureMismatch)]

theorem witness_SignatureCheck :
    firstError (sigOrder (streamAt sigBytes)) = none ∧
    firstError (sigOrder (framed .failed (streamAt sigBytes))) = some (.framerFailed 0) ∧
    firstError (sigOrder (streamAt (sigBytes.take 7))) = some .signatureMismatch ∧
    firstError (sigOrder (framed .start (ops 0xFFF9 8 0 0))) = some (.addressOutOfRange .src) := by decide +kernel

theorem witness_ChunkFramingIsCheckedFirst :
    ([(.failed, []), (.start, []), (.header, []), (.sigOk, chunkH6.take 7), (.sigOk, chunkH6.take 24),
      (.sigOk, chunkH6.set 24 0x88)] : List (Phase × List Byte)).map (fun q => firstError (framingOrder (chunkAt q.1 q.2))) =
    [some (.framerFailed 0), some .unexpectedChunkOrder, some (.missingChunk .idat), some .truncatedChunk,
      some .truncatedChunk, some .chunkCrcMismatch] := by decide +kernel

/-- A forbidden cell, an unknown critical type, IEND in HEADER, and a success. -/
theorem witness_ChunkOrderTable :
    (let s := chunkAt .postIdat chunkI1
     firstError (framingOrder s) = none ∧ s.framer.phase = .postIdat ∧ chunkCode s = typeIdat) ∧
    (let s := chunkAt .header chunkXY
     firstError (framingOrder s) = none ∧ s.framer.phase ≠ .sigOk ∧
       chunkCode s ∉ [typeIhdr, typePlte, typeTrns, typeIdat, typeIend] ∧ (chunkCode s).testBit 29 = false) ∧
    (let s := chunkAt .header chunkIE
     firstError (framingOrder s) = none ∧ s.framer.phase = .header ∧ chunkCode s = typeIend) ∧
    (let s := chunkAt .idat chunkGA
     firstError (framingOrder s) = none ∧ (result .chunkParse s).map (·.ctl.errCode) = some 0) := by decide +kernel

/-- The checks of an IHDR chunk. -/
def ihdrOrder (s : State) : List Check :=
  let d := chunkData s
  [(s.framer.phase == .sigOk, .unexpectedChunkOrder),
   (chunkLen s == 13, .invalidHeader),
   (decide (be32 s d ≠ 0 ∧ be32 s (d + 4) ≠ 0 ∧
      legalPair s.params (bufByte s (d + 8)).toNat (bufByte s (d + 9)).toNat = true ∧
      bufByte s (d + 10) = 0 ∧ bufByte s (d + 11) = 0 ∧ (bufByte s (d + 12)).toNat ≤ 1), .invalidHeader)]

theorem witness_IhdrChunkLoadsTheHeader :
    (∀ p ∈ [Phase.sigOk, .header],
      firstError (framingOrder (chunkAt p chunkH6)) = none ∧ chunkCode (chunkAt p chunkH6) = 0x49484452) ∧
    firstError (ihdrOrder (chunkAt .sigOk chunkH6)) = none ∧
    firstError (ihdrOrder (chunkAt .header chunkH6)) = some .unexpectedChunkOrder := by decide +kernel

/-- The checks of a PLTE chunk. -/
def plteOrder (s : State) : List Check :=
  let len := chunkLen s
  [(s.framer.phase == .header && !s.framer.plteSeen && !s.framer.trnsSeen, .unexpectedChunkOrder),
   (s.hdr.colorType != 0 && s.hdr.colorType != 4, .invalidChunkData),
   (decide (len ≠ 0 ∧ len % 3 = 0 ∧ len ≤ 768 ∧ (s.hdr.colorType = 3 → len / 3 ≤ 2 ^ s.hdr.bitDepth.toNat)),
      .invalidChunkData)]

/-- Two entries at depth 1 are the most there can be; PLTE with colour type 0 is an error. -/
theorem witness_PlteChunkLoadsThePalette :
    (∀ ct ∈ [3, 0], firstError (framingOrder (img 2 1 1 (BitVec.ofNat 8 ct) 0 (chunkAt .header chunkPL))) = none ∧
      chunkCode (img 2 1 1 (BitVec.ofNat 8 ct) 0 (chunkAt .header chunkPL)) = 0x504C5445) ∧
    firstError (plteOrder (img 2 1 1 3 0 (chunkAt .header chunkPL))) = none ∧
    firstError (plteOrder (img 2 1 1 0 0 (chunkAt .header chunkPL))) = some .invalidChunkData := by decide +kernel

/-- The checks of an IDAT chunk. -/
def idatOrder (s : State) : List Check :=
  let len := chunkLen s
  let a := s.opd.idatBase.toNat + s.framer.idatLen.toNat
  [(s.framer.phase == .header || s.framer.phase == .idat, .unexpectedChunkOrder),
   (!paletteMissing s, .missingChunk .plte),
   capCheck (s.framer.idatLen.toNat + len) s.opd.idatCap.toNat .idat,
   regionCheck s a len .idat,
   apartCheck a len .idat (srcAddr s) (srcLen s)]

/-- I1 with `cap` bytes of IDAT buffer. -/
def idatState (cap : Nat) : State :=
  { chunkAt .idat chunkI1 with opd := { (chunkAt .idat chunkI1).opd with idatCap := BitVec.ofNat 32 cap } }

theorem witness_IdatChunkAppendsThePayload :
    (∀ cap ∈ [2, 1], firstError (framingOrder (idatState cap)) = none ∧ chunkCode (idatState cap) = 0x49444154) ∧
    firstError (idatOrder (idatState 2)) = none ∧
    firstError (idatOrder (idatState 1)) = some (.bufferTooSmall .idat) := by decide +kernel

/-- The checks of an ancillary chunk. -/
def dirOrder (s : State) : List Check :=
  let a := s.opd.dirBase.toNat + 12 * s.framer.dirCount.toNat
  [(s.framer.phase != .sigOk, .unexpectedChunkOrder),
   (decide (s.framer.dirCount.toNat < s.opd.dirCap.toNat), .bufferTooSmall .dir),
   regionCheck s a 12 .dir,
   apartCheck a 12 .dir (srcAddr s) (srcLen s)]

/-- GA with `n` of four records used. -/
def dirState (n : Nat) : State :=
  { chunkAt .idat chunkGA with framer := { (chunkAt .idat chunkGA).framer with dirCount := BitVec.ofNat 32 n } }

theorem witness_AncillaryChunkIsRecorded :
    (∀ n ∈ [3, 4], (dirState n).params.wf ∧ firstError (framingOrder (dirState n)) = none ∧
      (chunkCode (dirState n)).testBit 29 = true ∧ chunkCode (dirState n) ≠ 0x74524E53) ∧
    firstError (dirOrder (dirState 3)) = none ∧ firstError (dirOrder (dirState 4)) = some (.bufferTooSmall .dir) := by
  decide +kernel

/-- The checks of a tRNS chunk. -/
def trnsOrder (s : State) : List Check :=
  let len := chunkLen s
  let ct := s.hdr.colorType
  [(s.framer.phase == .header && !s.framer.trnsSeen, .unexpectedChunkOrder),
   (!paletteMissing s, .unexpectedChunkOrder),
   (ct != 4 && ct != 6, .invalidChunkData),
   (decide ((ct = 0 → len = 2) ∧ (ct = 2 → len = 6) ∧ (ct = 3 → len ≤ s.pal.plteN.toNat)), .invalidChunkData)]

/-- A palette image whose palette was parsed, with `n` entries. -/
def paletteParsed (n : BitVec 9) (s : State) : State :=
  { s with framer := { s.framer with plteSeen := true }, pal := { s.pal with plteN := n } }

theorem witness_TrnsChunkLoadsTheTransparency :
    (∀ s ∈ [img 2 1 8 0 0 (chunkAt .header chunkTG), img 1 1 8 2 0 (chunkAt .header chunkTR),
        paletteParsed 1 (img 2 1 1 3 0 (chunkAt .header chunkTP))],
      firstError (framingOrder s) = none ∧ chunkCode s = 0x74524E53 ∧ firstError (trnsOrder s) = none) ∧
    (let s := paletteParsed 0 (img 2 1 1 3 0 (chunkAt .header chunkTP))
     firstError (framingOrder s) = none ∧ chunkCode s = 0x74524E53 ∧ firstError (trnsOrder s) = some .invalidChunkData) := by
  decide +kernel

/-- The checks of an IEND chunk. -/
def iendOrder (s : State) : List Check :=
  [(s.framer.phase != .sigOk, .unexpectedChunkOrder),
   (s.framer.phase != .header, .missingChunk (if paletteMissing s then .plte else .idat)),
   (chunkLen s == 0, .invalidChunkData)]

theorem witness_IendChunkEndsTheStream :
    (∀ s ∈ [chunkAt .idat chunkIE, chunkAt .header chunkIE, chunkAt .idat chunkIE1],
      firstError (framingOrder s) = none ∧ chunkCode s = 0x49454E44) ∧
    firstError (iendOrder (chunkAt .idat chunkIE)) = none ∧
    firstError (iendOrder (chunkAt .header chunkIE)) = some (.missingChunk .idat) ∧
    firstError (iendOrder (chunkAt .idat chunkIE1)) = some .invalidChunkData := by decide +kernel

/-- The checks of STREAM_PARSE before its first step. -/
def streamOrder (s : State) : List Check :=
  [(s.framer.phase != .failed, .framerFailed s.framer.failCode),
   (s.framer.phase == .start, .unexpectedChunkOrder),
   regionCheck s (srcAddr s) (srcLen s) .src,
   apartCheck s.opd.idatBase.toNat s.opd.idatCap.toNat .idat (srcAddr s) (srcLen s),
   apartCheck s.opd.dirBase.toNat (12 * s.opd.dirCap.toNat) .dir (srcAddr s) (srcLen s)]

/-- The states of the command loop over *good*: after the signature, IHDR, IDAT and IEND. -/
def loop0 : State := run .sigCheck (streamAt good)
def loop1 : State := run .chunkParse (atOffset (streamAt good) 8 loop0)
def loop2 : State := run .chunkParse (atOffset (streamAt good) 33 loop1)
def loop3 : State := run .chunkParse (atOffset (streamAt good) 47 loop2)

/-- The run to END. -/
theorem witness_StreamParseIsTheCommandLoop :
    (streamAt good).params.wf ∧ firstError (streamOrder (streamAt good)) = none ∧
    (∃ n, ChunkRun (streamAt good) 59 n loop3) ∧ loop3.framer.phase = .ended := by
  refine ⟨by decide +kernel, by decide +kernel, ⟨3, ?_⟩, by decide +kernel⟩
  have h0 : ChunkRun (streamAt good) 8 0 loop0 := .signature (exec_run (by decide +kernel)) (by decide +kernel)
  have h1 : ChunkRun (streamAt good) (8 + loop1.res.res0.toNat) 1 loop1 :=
    .chunk h0 (by decide +kernel) (exec_run (by decide +kernel)) (by decide +kernel)
  rw [show 8 + loop1.res.res0.toNat = 33 by decide +kernel] at h1
  have h2 : ChunkRun (streamAt good) (33 + loop2.res.res0.toNat) 2 loop2 :=
    .chunk h1 (by decide +kernel) (exec_run (by decide +kernel)) (by decide +kernel)
  rw [show 33 + loop2.res.res0.toNat = 47 by decide +kernel] at h2
  have h3 : ChunkRun (streamAt good) (47 + loop3.res.res0.toNat) 3 loop3 :=
    .chunk h2 (by decide +kernel) (exec_run (by decide +kernel)) (by decide +kernel)
  rwa [show 47 + loop3.res.res0.toNat = 59 by decide +kernel] at h3

/-- The failing clauses: a next command that fails, a failing signature, a failing check before the first step. -/
theorem witness_StreamParseFails :
    (let s := streamAt (good.take 33)
     s.params.wf ∧ firstError (streamOrder s) = none ∧ (∃ u, ChunkRun s 8 0 u ∧ u.framer.phase ≠ .ended) ∧
       (result .sigCheck s).isSome = true) ∧
    (let s := streamAt (sigBytes.take 7)
     firstError (streamOrder s) = none ∧ (result .sigCheck s).map (·.ctl.errCode) = some 1) ∧
    firstError (streamOrder (framed .start (ops 0 0x10001 0 0))) = some (.addressOutOfRange .src) := by
  refine ⟨⟨by decide +kernel, by decide +kernel, ⟨run .sigCheck (streamAt (good.take 33)), ?_, by decide +kernel⟩,
    by decide +kernel⟩, by decide +kernel, by decide +kernel⟩
  exact .signature (exec_run (by decide +kernel)) (by decide +kernel)

/-- A payload of two bytes split one byte to a chunk, the IDAT buffer just large enough. -/
theorem witness_StreamRoundTrip :
    let payload : List Byte := [0x78, 0x01]
    let stream := sigBytes ++ chunkBytes typeIhdr (beBytes 1 4 ++ beBytes 1 4 ++ [8, 6, 0, 0, 1]) ++
      ((List.range (max 1 ((payload.length + 1 - 1) / 1))).map fun j => (payload.drop (j * 1)).take 1).flatMap
        (chunkBytes typeIdat) ++ chunkBytes typeIend []
    let s := { streamAt stream with opd := { (streamAt stream).opd with idatCap := 2 } }
    headerOf s.params 1 1 8 6 1 ≠ none ∧ (6 : Byte) ≠ 3 ∧ s.framer = ⟨.start, false, false, false, 0, 0, 0⟩ ∧
    srcLen s = stream.length ∧ memRead s (srcAddr s) (srcLen s) = stream ∧ srcAddr s + srcLen s ≤ s.params.memBytes ∧
    payload.length ≤ s.opd.idatCap.toNat ∧ s.opd.idatBase.toNat + payload.length ≤ s.params.memBytes ∧
    (apartCheck s.opd.idatBase.toNat s.opd.idatCap.toNat .idat (srcAddr s) (srcLen s)).1 = true ∧
    (apartCheck s.opd.dirBase.toNat (12 * s.opd.dirCap.toNat) .dir (srcAddr s) (srcLen s)).1 = true := by
  decide +kernel

theorem witness_SigWriteAndIhdrWrite :
    firstError (destChecks (ops 0 0 0xFFF8 8) 8) = none ∧
    firstError (destChecks (ops 0 0 0xFFF9 8) 8) = some (.addressOutOfRange .dst) ∧
    firstError (((header (img 1 1 8 6 0 (ops 0 0 0xFFE7 25))).isSome, Err.invalidHeader) ::
      destChecks (img 1 1 8 6 0 (ops 0 0 0xFFE7 25)) 25) = none ∧
    firstError (((header (ops 0 0 0 25)).isSome, Err.invalidHeader) :: destChecks (ops 0 0 0 25) 25) =
      some .invalidHeader := by decide +kernel

theorem witness_ChunkWriteWritesTheChunk :
    (let s := src [1, 2] 2 14; firstError (srcDestChecks s (srcLen s) (12 + srcLen s)) = none) ∧
    (let s := src [1, 2] 1 14; firstError (srcDestChecks s (srcLen s) (12 + srcLen s)) = some (.regionOverlap .dst)) := by
  decide +kernel

/-- The checks of IDAT_WRITE. -/
def splitOrder (s : State) : List Check :=
  (decide (s.opd.idatMax.toNat ≠ 0), .illegalCommand .parameter) ::
    srcDestChecks s (srcLen s) (srcLen s + 12 * max 1 ((srcLen s + s.opd.idatMax.toNat - 1) / s.opd.idatMax.toNat))

theorem witness_IdatWriteSplitsTheSource :
    firstError (splitOrder (idatSetup 2)) = none ∧
    firstError (splitOrder (idatSetup 0)) = some (.illegalCommand .parameter) := by decide +kernel

/-- The first and the last row distance, and the two beside them. -/
theorem witness_RowCommandsCheckInOrder :
    (∀ bpp ∈ [0, 9], firstError (rowOrder (rows [1, 2] [3, 4] bpp) false 2) = some (.illegalCommand .parameter)) ∧
    firstError (rowOrder (rows [1, 2] [3, 4] 8) false 0x101) = some (.bufferTooSmall .dst) := by decide +kernel

theorem witness_FiltApplySubtractsThePredictor :
    ∀ bpp ∈ [1, 8], ∀ first ∈ [true, false], firstError (rowOrder (rows [1, 2] [3, 4] bpp) first 2) = none := by
  decide +kernel

theorem witness_FiltReverseAddsThePredictor :
    ∀ first ∈ [true, false], firstError (rowOrder wrapRow first (srcLen wrapRow)) = none := by decide +kernel

theorem witness_FiltersAreInvertible :
    1 ≤ 8 ∧ 8 ≤ 8 ∧ ([0xFF, 1] : List Byte).length = ([0xFF, 0x80] : List Byte).length := by decide

theorem witness_FiltSelectChoosesTheBestFilter :
    ∀ first ∈ [true, false], firstError (rowOrder wrapRow first (srcLen wrapRow + 1)) = none := by decide +kernel

/-- An image of one gray byte and its regions. -/
def onePixel (im : Byte) : State := img 1 1 8 0 im (src [7] 1 0x100)

/-- A missing header; with a header and no room at the destination, an error of every group of commands; and a palette image
without a palette. -/
theorem witness_HeaderCommandsCheckInOrder :
    header State.reset = none ∧
    (let s := { onePixel 0 with opd := { (onePixel 0).opd with dstLen := 0 } }
     let h : Header := ⟨1, 1, 8, .gray, false⟩
     header s = some h ∧ firstError (imageOrder s (rasterBytes h) (streamBytes h)) = some (.bufferTooSmall .dst) ∧
     firstError (imageOrder s (streamBytes h) (rasterBytes h)) = some .insufficientPixelData ∧
     firstError (imageOrder s (passBytes h) 1) = some (.bufferTooSmall .dst) ∧
     firstError (imageOrder s 1 (passBytes h)) = some (.bufferTooSmall .dst) ∧
     firstError (imageOrder s 1 (1 * 1 * 1 * 8 / 8)) = some (.bufferTooSmall .dst) ∧
     firstError (imageOrder s (1 * 1 * 1 * 16 / 8) 1) = some .insufficientPixelData) ∧
    (let s := img 1 1 8 3 0 (onePixel 0)
     header s = some ⟨1, 1, 8, .palette, false⟩ ∧
     firstError ((decide (srcLen s = 1), .insufficientPixelData) ::
       (decide (ColorType.palette = .palette → s.pal.plteN ≠ 0), .paletteRequired) :: srcDestChecks s 1 4) =
       some .paletteRequired) := by decide +kernel

theorem witness_ImageLayouts :
    header (onePixel 0) = some ⟨1, 1, 8, .gray, false⟩ ∧ header (img 3 3 8 0 1 State.reset) = some ⟨3, 3, 8, .gray, true⟩ ∧
    subImages ⟨3, 3, 8, .gray, true⟩ = [(1, 1), (1, 1), (2, 1), (1, 2), (3, 1)] := by decide +kernel

/-- The interlaced image of vectors 2.4.5, and a row of its pass 5 (its second). -/
theorem witness_FilterImageFiltersEveryRow :
    (let s := img 3 3 8 0 1 (src raster3 0x200 15)
     ∃ h, header s = some h ∧ firstError (imageOrder s (rasterBytes h) (streamBytes h)) = none ∧
       subImages h = [(1, 1), (1, 1), (2, 1)] ++ (1, 2) :: [(3, 1)]) ∧ 1 < 2 :=
  ⟨⟨⟨3, 3, 8, .gray, true⟩, by decide +kernel, by decide +kernel, by decide +kernel⟩, by decide⟩

/-- The header of a 2 by 2 gray image. -/
def gray2 : Header := ⟨2, 2, 8, .gray, false⟩

theorem gray2_split {before rest : List (Nat × Nat)} {q : Nat × Nat} (h : subImages gray2 = before ++ q :: rest) :
    before = [] ∧ q = (2, 2) := by
  rw [show subImages gray2 = [(2, 2)] by decide +kernel] at h
  cases before with
  | nil => cases h; exact ⟨rfl, rfl⟩
  | cons _ l => cases l <;> simp at h

/-- A stream whose rows have the first and the last filter type, and one whose second row has type 5. -/
theorem witness_UnfilterImageReversesEveryRow :
    let s := fun k : Nat => img 2 2 8 0 0 (src [0, 1, 2, BitVec.ofNat 8 k, 3, 4] 0x200 4)
    (∀ k ∈ [4, 5], header (s k) = some gray2 ∧
      firstError (imageOrder (s k) (streamBytes gray2) (rasterBytes gray2)) = none) ∧
    (∀ before q rest y, subImages gray2 = before ++ q :: rest → y < q.2 →
      (byteAt (streamRow gray2 (memRead (s 4) (srcAddr (s 4)) (streamBytes gray2)) before q y) 0).toNat ≤ 4) ∧
    subImages gray2 = [] ++ (2, 2) :: [] ∧
    4 < (byteAt (streamRow gray2 (memRead (s 5) (srcAddr (s 5)) (streamBytes gray2)) [] (2, 2) 1) 0).toNat ∧
    (∀ before' q' rest' y', subImages gray2 = before' ++ q' :: rest' → y' < q'.2 →
      (before'.length < 0 ∨ before'.length = 0 ∧ y' < 1) →
      (byteAt (streamRow gray2 (memRead (s 5) (srcAddr (s 5)) (streamBytes gray2)) before' q' y') 0).toNat ≤ 4) := by
  refine ⟨by decide +kernel, ?_, by decide +kernel, by decide +kernel, ?_⟩
  · intro before q rest y h hy
    obtain ⟨rfl, rfl⟩ := gray2_split h
    have hy : y = 0 ∨ y = 1 := by omega
    rcases hy with rfl | rfl <;> decide +kernel
  · intro before q rest y h hy ho
    obtain ⟨rfl, rfl⟩ := gray2_split h
    have hy : y = 0 := by simpa using ho
    subst hy; decide +kernel

theorem witness_UnfilterUndoesFilter :
    let s := img 2 2 8 0 0 (src [0x0A, 0x14, 0x1E, 0x28] 0x200 0x100)
    let t := run .filterImageAdaptive s
    header s = some gray2 ∧ exec (imageCommand .adaptive) s = .next t ∧ t.ctl.errCode = 0 ∧
    firstError (imageOrder { t with opd := { t.opd with
      srcAddr := s.opd.dstAddr
      srcLen := BitVec.ofNat 32 (streamBytes gray2)
      dstAddr := 0x300
      dstLen := 4 } } (streamBytes gray2) (rasterBytes gray2)) = none :=
  ⟨by decide +kernel, exec_run (by decide +kernel), by decide +kernel, by decide +kernel⟩

theorem witness_Adam7GeomReportsThePass : header (img 13 2 16 6 0 State.reset) = some ⟨13, 2, 16, .rgba, false⟩ := by
  decide +kernel

/-- The last pixel of a 3 by 3 image, and the last pass's last pixel. -/
theorem witness_Adam7CoversEveryPixelOnce :
    let h : Header := ⟨3, 3, 8, .gray, true⟩
    (2 < h.width ∧ 2 < h.height) ∧ 6 < 7 ∧ 2 < passWidth h (passOf 6) ∧ 0 < passHeight h (passOf 6) := by decide +kernel

/-- The 3 by 3 image of 4-bit pixels of vectors 2.5.2: the last pixel of pass 6, and the padding of row 0. -/
theorem witness_DeinterlaceScattersThePasses :
    let s := img 3 3 4 0 0 (src [0x10, 0x30, 0x79, 0x20, 0x80, 0x45, 0x60] 0x100 6)
    let h : Header := ⟨3, 3, 4, .gray, false⟩
    header s = some h ∧ firstError (imageOrder s (passBytes h) (fullBytes h)) = none ∧
    (6 < 7 ∧ 2 < passWidth h (passOf 6) ∧ 0 < passHeight h (passOf 6)) ∧
    (0 < h.height ∧ h.width * h.bitsPP ≤ 15 ∧ 15 < 8 * h.rowBytes) := by decide +kernel

theorem witness_InterlaceGathersThePasses :
    let s := img 3 3 4 0 0 (src [0x12, 0x3F, 0x45, 0x60, 0x78, 0x90] 0x100 7)
    let h : Header := ⟨3, 3, 4, .gray, false⟩
    header s = some h ∧ firstError (imageOrder s (fullBytes h) (passBytes h)) = none ∧
    (6 < 7 ∧ 0 < passHeight h (passOf 6) ∧ 2 < passWidth h (passOf 6)) ∧
    (passWidth h (passOf 6) * h.bitsPP ≤ 15 ∧ 15 < 8 * rowBytes (passWidth h (passOf 6)) h.bitsPP) := by decide +kernel

theorem witness_DeinterlaceUndoesInterlace :
    let h : Header := ⟨3, 3, 4, .gray, false⟩
    ([0x12, 0x3F, 0x45, 0x60, 0x78, 0x90] : List Byte).length = fullBytes h ∧ 2 < h.height ∧ 15 < 8 * h.rowBytes := by
  decide +kernel

theorem witness_DepthExpandRescalesEverySample :
    let s := img 3 1 4 0 0 (src [0x0F, 0xA5] 0x400 3)
    let h : Header := ⟨3, 1, 4, .gray, false⟩
    header s = some h ∧ firstError (imageOrder s (fullBytes h) (h.width * h.height * h.color.channels * 8 / 8)) = none ∧
    2 < h.width ∧ 0 < h.height ∧ 0 < h.color.channels := by decide +kernel

/-- Gray samples, and palette indices of which the last is the greatest that fits. -/
theorem witness_DepthPackPacksEverySample :
    (let s := img 3 1 4 0 0 (src [0x00, 0x08, 0xFF] 0x400 2)
     let h : Header := ⟨3, 1, 4, .gray, false⟩
     header s = some h ∧ firstError (imageOrder s 3 (fullBytes h)) = none ∧ h.width * h.bitsPP ≤ 15 ∧
       15 < 8 * h.rowBytes) ∧
    (let s := img 4 1 2 3 0 (src [0, 1, 2, 3] 0x400 1)
     let h : Header := ⟨4, 1, 2, .palette, false⟩
     header s = some h ∧ firstError (imageOrder s 4 (fullBytes h)) = none ∧
       ∀ i, i < h.width * h.height → sampOf (memRead s (srcAddr s) 4) i 8 < 2 ^ h.depth) := by decide +kernel

/-- The checks of COLOR_CONVERT with 8-bit samples. -/
def convertOrder (a b : ColorType) (s : State) : List Check :=
  [(decide (((a ≠ .palette ∧ b ≠ .palette) ∨ (a = .palette ∧ b ∈ [ColorType.rgb, .palette, .rgba])) ∧
      ¬(a = .palette ∧ false = true)), .unsupportedColorConversion),
   (decide (srcLen s = s.opd.param.toNat * a.channels * 8 / 8), .insufficientPixelData),
   (decide (a = .palette → s.pal.plteN ≠ 0), .paletteRequired)] ++
    srcDestChecks s (s.opd.param.toNat * a.channels * 8 / 8) (s.opd.param.toNat * b.channels * 8 / 8)

/-- An unsupported pair, RGB to gray, and palette indices of which one is the last entry. -/
theorem witness_ColorConvertConvertsEveryPixel :
    firstError (convertOrder .palette .gray (param 1 (src [0] 0x400 1))) = some .unsupportedColorConversion ∧
    firstError (convertOrder .rgb .gray (param 1 (src [10, 20, 30] 0x400 1))) = none ∧
    (let s := param 2 (redGreen (src [1, 0] 0x400 6))
     firstError (convertOrder .palette .rgb s) = none ∧
       ∀ j, j < 2 → (byteAt (memRead s (srcAddr s) 2) j).toNat < s.pal.plteN.toNat) := by decide +kernel

/-- The 4 by 1 palette image of vectors 2.6.4 with `n` palette entries. -/
def palette4 (n : BitVec 9) : State :=
  let s := img 4 1 2 3 0 (src [0x1B] 0x400 16)
  { s with pal := { s.pal with plteN := n }, plteRam := [(0, 0), (1, 0x555555), (2, 0xAAAAAA), (3, 0xFFFFFF)] }

theorem witness_DecodeNormalizeGivesCanonicalRgba :
    let h : Header := ⟨4, 1, 2, .palette, false⟩
    header (palette4 4) = some h ∧ firstError (imageOrder (palette4 4) (fullBytes h) (4 * 1 * 4 * 8 / 8)) = none ∧
    (palette4 4).pal.plteN ≠ 0 ∧
    ∀ x, x < 4 → ∀ y, y < 1 →
      getPix (memRead (palette4 4) (srcAddr (palette4 4) + y * h.rowBytes) h.rowBytes) (x * 1 + 0) 2 < 4 := by
  decide +kernel

theorem witness_FirstBadPaletteIndexIsReported :
    (let s := param 2 (redGreen (src [1, 2] 0x400 6))
     s.pal.plteN ≠ 0 ∧ 1 < s.opd.param.toNat ∧ firstError (imageOrder s 2 (2 * 3)) = none ∧
     (∀ i, i < 1 → (bufByte s (srcAddr s + i)).toNat < s.pal.plteN.toNat) ∧
     s.pal.plteN.toNat ≤ (bufByte s (srcAddr s + 1)).toNat) ∧
    (let h : Header := ⟨4, 1, 2, .palette, false⟩
     header (palette4 3) = some h ∧ (palette4 3).pal.plteN ≠ 0 ∧
     firstError (imageOrder (palette4 3) (fullBytes h) (4 * 1 * 4)) = none ∧
     (∀ x, x < 3 → getPix (memRead (palette4 3) (srcAddr (palette4 3)) h.rowBytes) x h.depth < 3) ∧
     3 ≤ getPix (memRead (palette4 3) (srcAddr (palette4 3)) h.rowBytes) 3 h.depth) ∧
    (let s := img 2 1 2 3 0 (src [0, 0, 1, 3] 0x400 1)
     let h : Header := ⟨2, 1, 2, .palette, false⟩
     header s = some h ∧ firstError (imageOrder s 4 (fullBytes h)) = none ∧
     (∀ i, i < 1 → sampOf (memRead s (srcAddr s) 4) i 16 < 2 ^ h.depth) ∧
     2 ^ h.depth ≤ sampOf (memRead s (srcAddr s) 4) 1 16) := by decide +kernel

end
end Sys2Proof.Tests
end

section
/-! SUPPORT. Laws of rounding and rescale (R10 to R12): `roundDiv` is the nearest value with halves up, and between depths of
which one divides the other rescale is a multiplication that comes back. -/

namespace Sys2Proof.Machine

/-! ### roundDiv (R10) -/

/-- The quotient is less than half a unit above the result: a half goes up. -/
theorem two_mul_lt_roundDiv {a b : Nat} (hb : 0 < b) : 2 * a < (2 * roundDiv a b + 1) * b := by
  have h : 2 * a + b < (roundDiv a b + 1) * (2 * b) := Nat.lt_mul_of_div_lt (Nat.lt_succ_self _) (by omega)
  linarith

/-- The result is at most half a unit above the quotient. -/
theorem two_mul_roundDiv_le (a b : Nat) : 2 * roundDiv a b * b ≤ 2 * a + b := by
  have h : roundDiv a b * (2 * b) ≤ 2 * a + b := Nat.div_mul_le_self _ _
  linarith

theorem roundDiv_mono {a a' : Nat} (b : Nat) (h : a ≤ a') : roundDiv a b ≤ roundDiv a' b :=
  Nat.div_le_div_right (by omega)

/-- A quotient without remainder is not rounded. -/
@[simp] theorem roundDiv_mul_right (q : Nat) {b : Nat} (hb : 0 < b) : roundDiv (q * b) b = q := by
  refine Nat.div_eq_of_lt_le ?_ ?_ <;> linarith

/-! ### Rescale (R11, R12) -/

theorem maxSample_pos {n : Nat} (hn : 0 < n) : 0 < maxSample n :=
  Nat.sub_pos_of_lt (Nat.one_lt_two_pow hn.ne')

theorem maxSample_dvd {n m : Nat} (h : n ∣ m) : maxSample n ∣ maxSample m :=
  Nat.pow_sub_one_dvd_pow_sub_one 2 h

/-- A sample in range at the one depth is in range at the other. -/
theorem rescale_le_maxSample {v n : Nat} (m : Nat) (hn : 0 < n) (hv : v ≤ maxSample n) :
    rescale v n m ≤ maxSample m :=
  calc rescale v n m
      ≤ roundDiv (maxSample m * maxSample n) (maxSample n) :=
        roundDiv_mono _ (by rw [Nat.mul_comm]; exact Nat.mul_le_mul_left _ hv)
    _ = maxSample m := roundDiv_mul_right _ (maxSample_pos hn)

theorem rescale_self (v : Nat) {n : Nat} (hn : 0 < n) : rescale v n n = v :=
  roundDiv_mul_right v (maxSample_pos hn)

/-- From a depth to a multiple of it, rescale is the multiplication by a whole factor. -/
theorem rescale_of_dvd (v : Nat) {n m : Nat} (hn : 0 < n) (h : n ∣ m) :
    rescale v n m = maxSample m / maxSample n * v := by
  obtain ⟨k, hk⟩ := maxSample_dvd h
  have hpos := maxSample_pos hn
  calc rescale v n m
      = roundDiv (k * v * maxSample n) (maxSample n) := by rw [rescale, hk]; ring_nf
    _ = k * v := roundDiv_mul_right _ hpos
    _ = maxSample m / maxSample n * v := by rw [hk, Nat.mul_div_cancel_left k hpos]

/-- R232's arithmetic: a sample comes back through a multiple of its depth. -/
theorem rescale_rescale_of_dvd (v : Nat) {n m : Nat} (hn : 0 < n) (hm : 0 < m) (h : n ∣ m) :
    rescale (rescale v n m) m n = v := by
  have hk : maxSample m / maxSample n * maxSample n = maxSample m := Nat.div_mul_cancel (maxSample_dvd h)
  calc rescale (rescale v n m) m n
      = roundDiv (v * (maxSample m / maxSample n * maxSample n)) (maxSample m) := by
        rw [rescale_of_dvd v hn h, rescale]; ring_nf
    _ = v := by rw [hk, roundDiv_mul_right v (maxSample_pos hm)]

/-! ### The statement -/

/-- The depths up to 8 divide 8. -/
theorem depth_dvd_eight {n : Nat} (hn : n ∈ [1, 2, 4, 8, 16]) (h8 : n ≤ 8) : n ∣ 8 := by
  revert n; decide

theorem depth_pos {n : Nat} (hn : n ∈ [1, 2, 4, 8, 16]) : 0 < n := by
  revert n; decide

/-- Settles O20: the bounds are those of `roundDiv`; the factors and the way back hold because the depths divide one
another. -/
theorem rescaleRoundsToNearest : Obligations.RescaleRoundsToNearest := by
  intro v n m hn _ hv
  have hpos : 0 < n := depth_pos hn
  refine ⟨rescale_le_maxSample m hpos hv, two_mul_lt_roundDiv (maxSample_pos hpos), two_mul_roundDiv_le _ _,
    rescale_self v hpos, ?_, ?_, ?_, ?_⟩
  · rintro rfl rfl
    exact rescale_of_dvd v (by decide) (by decide)
  · rintro rfl rfl
    exact rescale_of_dvd v (by decide) (by decide)
  · rintro rfl rfl
    exact rescale_of_dvd v (by decide) (by decide)
  · intro h8
    exact rescale_rescale_of_dvd v hpos (by decide) (depth_dvd_eight hn h8)

end Sys2Proof.Machine
end

section
/-! SUPPORT. Laws of the step: what each event does, and what a host access can do to the state, idle and while BUSY. -/

namespace Sys2Proof.Machine

/-! ### Steps (R72; log 3) -/

/-- A step is the first event on the state without it, or the engine's turn where no event is to come. -/
theorem step_cons {s : State} {e : Event} {es : List Event} (h : s.bus.inbox = e :: es) :
    step s = handle e (withInbox s es) := by
  rw [step, h]

theorem step_nil {s : State} (h : s.bus.inbox = []) : step s = engineTurn s := by
  rw [step, h]

/-! ### Where a host access goes (R60, R61, R65) -/

/-- The RAM entries of the window are numbered below 256 (R49, R50). -/
theorem regAt_entry_lt {off i : Nat} (h : regAt off = some (.plteRam i) ∨ regAt off = some (.alphaRam i)) : i < 256 := by
  unfold regAt at h
  split at h
  · unfold namedReg at h
    split at h <;> simp at h
  · split at h
    · simp only [Option.some.injEq, Reg.plteRam.injEq, reduceCtorEq, or_false] at h
      omega
    · split at h
      · simp only [Option.some.injEq, Reg.alphaRam.injEq, reduceCtorEq, false_or] at h
        omega
      · split at h <;> simp at h

/-- Registers stand at the offsets of the window only (R61). -/
theorem regAt_lt {off : Nat} {r : Reg} (h : regAt off = some r) : off < 0x1000 := by
  unfold regAt at h
  split at h
  · omega
  · split at h
    · omega
    · split at h
      · omega
      · split at h
        · assumption
        · cases h

/-- What a host write can be: of a register of the window, of bytes inside the buffer, or ignored. -/
theorem hostWrite_cases {s t : State} {addr : Nat} {w : Width} {v : Word} (h : hostWrite s addr w v = .next t) :
    (∃ off r, regAt off = some r ∧ t = hostWriteReg s r v) ∨
    (∃ a, a + w.bytes ≤ s.params.memBytes ∧ t = hostWriteBuf s a w v) ∨ t = s := by
  unfold hostWrite at h
  split at h
  · split at h
    · rename_i r hr
      unfold regAccess at hr
      split at hr
      · exact .inl ⟨_, r, hr, by cases h; rfl⟩
      · cases hr
    · cases h; exact .inr (.inr rfl)
  · split at h
    · rename_i hin
      simp only [inBufWindow, decide_eq_true_eq] at hin
      split at h
      · rename_i a ha
        obtain ⟨-, -, rfl⟩ := (bufAccess_eq_some _ _ _ _).1 ha
        cases h
        exact .inr (.inl ⟨_, by omega, rfl⟩)
      · cases h; exact .inr (.inr rfl)
    · cases h

/-- What a host read can be: its value goes to the read latch, a fixed or a free one (log 5, 11). -/
theorem hostRead_cases {s t : State} {addr : Nat} {w : Width} (h : hostRead s addr w = .next t) :
    ∃ v n, t = { s with bus := { s.bus with lastRead := v, draws := n } } := by
  have reg (r : Reg) : ∃ v n, hostReadReg s r = { s with bus := { s.bus with lastRead := v, draws := n } } := by
    unfold hostReadReg; split <;> exact ⟨_, _, rfl⟩
  have buf (a : Nat) : ∃ v n, hostReadBuf s a w = { s with bus := { s.bus with lastRead := v, draws := n } } := by
    unfold hostReadBuf; split <;> exact ⟨_, _, rfl⟩
  unfold hostRead at h
  split at h
  · split at h
    · cases h; exact reg _
    · cases h; exact ⟨_, _, rfl⟩
  · split at h
    · split at h
      · cases h; exact buf _
      · cases h; exact ⟨_, _, rfl⟩
    · cases h

section
variable {s : State} {es : List Event} {off : Nat} {r : Reg}

/-- A 32-bit access at a register's offset is an access of that register (R61, R65). -/
theorem regAccess_at (hp : s.params.wf) (ho : off % 4 = 0) (hr : regAt off = some r) :
    inRegWindow s.params (s.params.blockBase + off) = true ∧
    regAccess s.params (s.params.blockBase + off) .w32 = some r := by
  obtain ⟨-, -, hb, -⟩ := hp
  have hlt := regAt_lt hr
  refine ⟨?_, ?_⟩
  · simp only [inRegWindow, decide_eq_true_eq]; omega
  · rw [regAccess, if_pos ⟨rfl, by omega⟩, Nat.add_sub_cancel_left, hr]

theorem step_write_reg {v : Word} (hp : s.params.wf) (ho : off % 4 = 0) (hr : regAt off = some r)
    (h : s.bus.inbox = .write (s.params.blockBase + off) .w32 v :: es) :
    step s = .next (hostWriteReg (withInbox s es) r v) := by
  obtain ⟨hin, hacc⟩ := regAccess_at hp ho hr
  rw [step_cons h]
  simp only [handle, hostWrite, withInbox_params, hin, hacc, if_true]

theorem step_read_reg (hp : s.params.wf) (ho : off % 4 = 0) (hr : regAt off = some r)
    (h : s.bus.inbox = .read (s.params.blockBase + off) .w32 :: es) :
    step s = .next (hostReadReg (withInbox s es) r) := by
  obtain ⟨hin, hacc⟩ := regAccess_at hp ho hr
  rw [step_cons h]
  simp only [handle, hostRead, withInbox_params, hin, hacc, if_true]

end

/-! ### Register writes -/

theorem hostWriteReg_busy {s : State} (h : s.ctl.busy = true) (r : Reg) (v : Word) :
    hostWriteReg s r v = writeRegBusy s r v := by
  rw [hostWriteReg, if_pos h]

theorem hostWriteReg_idle {s : State} (h : s.ctl.busy = false) (r : Reg) (v : Word) :
    hostWriteReg s r v = writeReg s r v := by
  rw [hostWriteReg, h]; rfl

/-- What a host write of a register while BUSY can do (R21, R22, R24, D8; log 6). -/
theorem writeRegBusy_cases (s : State) (r : Reg) (v : Word) :
    writeRegBusy s r v = s ∨ writeRegBusy s r v = writeIrqEn s v ∨ writeRegBusy s r v = writeStatus s v ∨
    writeRegBusy s r v = { s with ctl := { s.ctl with overrun := true } } ∨ writeRegBusy s r v = markHazard s [] := by
  unfold writeRegBusy
  split
  · split
    · exact .inl rfl
    · exact .inr (.inl rfl)
  · exact .inr (.inr (.inl rfl))
  · exact .inr (.inr (.inr (.inl rfl)))
  · split
    · exact .inr (.inr (.inr (.inr rfl)))
    · exact .inl rfl

theorem writeReg_ctrl (s : State) (v : Word) :
    writeReg s .ctrl v = if v.getLsbD 1 then softReset s else writeIrqEn s v := rfl

theorem writeReg_plteN (s : State) (v : Word) :
    writeReg s .plteN v = if v.toNat ≤ 256 then { s with pal := { s.pal with plteN := v.setWidth 9 } } else s := rfl

theorem writeReg_trnsN (s : State) (v : Word) :
    writeReg s .trnsN v = if v.toNat ≤ 256 then { s with pal := { s.pal with trnsN := v.setWidth 9 } } else s := rfl

/-- No register write, a soft reset included, reaches the parameters, the buffer or the model's own fields. -/
theorem writeReg_keeps (s : State) (r : Reg) (v : Word) :
    (writeReg s r v).params = s.params ∧ (writeReg s r v).buf = s.buf ∧ (writeReg s r v).bus = s.bus := by
  cases r
  case ctrl => rw [writeReg_ctrl]; split <;> exact ⟨rfl, rfl, rfl⟩
  case plteN => rw [writeReg_plteN]; split <;> exact ⟨rfl, rfl, rfl⟩
  case trnsN => rw [writeReg_trnsN]; split <;> exact ⟨rfl, rfl, rfl⟩
  all_goals exact ⟨rfl, rfl, rfl⟩

/-- Only CTRL, STATUS and CMD reach the control fields. -/
theorem writeReg_ctl (s : State) {r : Reg} (v : Word) (hr : r ∉ [Reg.ctrl, .status, .cmd]) :
    (writeReg s r v).ctl = s.ctl := by
  cases r
  case ctrl | status | cmd => simp at hr
  case plteN => rw [writeReg_plteN]; split <;> rfl
  case trnsN => rw [writeReg_trnsN]; split <;> rfl
  all_goals rfl

end Sys2Proof.Machine
end

section
/-! SUPPORT. The data part of the invariant, and what the parse rules keep of it (41_framer.md rules R121 to R133). -/

namespace Sys2Proof.Machine

/-! ### The part of the invariant that speaks of the data -/

/-- The invariant without STATUS, ERROR and the model's own fields: what a command's own writes can reach. -/
structure DataInv (s : State) : Prop where
  params : s.params.wf
  buf : Memory.wf s.params.memBytes s.buf
  plteRam : Ram.wf 256 s.plteRam
  alphaRam : Ram.wf 256 s.alphaRam
  plteN : s.pal.plteN.toNat ≤ 256
  trnsN : s.pal.trnsN.toNat ≤ 256
  framer : FramerInv s.framer

theorem inv_iff (s : State) : Inv s ↔ DataInv s ∧ CtlInv s.ctl ∧ BusInv s.params.memBytes s.ctl s.bus :=
  ⟨fun h => ⟨{ h with }, h.ctl, h.bus⟩, fun ⟨h, hc, hb⟩ => { h with ctl := hc, bus := hb }⟩

theorem Inv.data {s : State} (h : Inv s) : DataInv s := { h with }

/-! ### FRAMER and the error codes -/

/-- Every error has a code, and one that is reported (R260). -/
theorem Err.code_reported (e : Err) : e.code ∈ reportedCodes ∧ e.code ≠ 0 := by
  cases e <;> exact ⟨by simp [Err.code, reportedCodes], by simp [Err.code]⟩

/-- Entering FAILED with a code keeps FRAMER consistent (R121). -/
theorem FramerInv.failed (f : Framer) {c : Byte} (hc : c ≠ 0) : FramerInv { f with phase := .failed, failCode := c } := by
  simpa [FramerInv] using hc

/-- Outside FAILED no code is recorded (R39). -/
theorem FramerInv.failCode_eq_zero {f : Framer} (h : FramerInv f) (hp : f.phase ≠ .failed) : f.failCode = 0 := by
  obtain ⟨hf, -⟩ := h
  by_contra hc
  exact hp (hf.2 hc)

/-- START to SIG_OK: nothing has been seen (R123). -/
theorem FramerInv.toSigOk {f : Framer} (h : FramerInv f) (hp : f.phase = .start) :
    FramerInv { f with phase := .sigOk } := by
  have hc := h.failCode_eq_zero (by simp [hp])
  obtain ⟨-, hseen, hidat, -⟩ := h
  exact ⟨by simp [hc], fun _ => hseen (.inl hp), fun _ => hidat (.inl hp), by simp⟩

/-- SIG_OK to HEADER: no IDAT has been seen (R128). -/
theorem FramerInv.toHeader {f : Framer} (h : FramerInv f) (hp : f.phase = .sigOk) :
    FramerInv { f with phase := .header } := by
  have hc := h.failCode_eq_zero (by simp [hp])
  obtain ⟨-, -, hidat, -⟩ := h
  exact ⟨by simp [hc], by simp, fun _ => hidat (.inr (.inl hp)), by simp⟩

/-- In HEADER the seen-bits of PLTE and tRNS are free (R129, R132). -/
theorem FramerInv.inHeader {f : Framer} (h : FramerInv f) (hp : f.phase = .header) (plte trns : Bool) :
    FramerInv { f with plteSeen := plte, trnsSeen := trns } := by
  obtain ⟨hf, -, hidat, hlate⟩ := h
  exact ⟨hf, by simp [hp], hidat, hlate⟩

/-- Into IDAT, with IDAT_SEEN set (R130). -/
theorem FramerInv.toIdat {f : Framer} (h : FramerInv f) (hp : f.phase ≠ .failed) (n : Word) :
    FramerInv { f with phase := .idat, idatSeen := true, idatLen := n } :=
  ⟨by simp [h.failCode_eq_zero hp], by simp, by simp, fun _ => rfl⟩

/-- An ancillary chunk leaves IDAT for POST_IDAT, and every other state as it is (R131). -/
theorem FramerInv.afterAncillary {f : Framer} (h : FramerInv f) (n : Word) :
    FramerInv { f with phase := if f.phase = .idat then .postIdat else f.phase, dirCount := n } := by
  by_cases hp : f.phase = .idat
  · have hc := h.failCode_eq_zero (by simp [hp])
    obtain ⟨-, -, -, hlate⟩ := h
    rw [if_pos hp]
    exact ⟨by simp [hc], by simp, by simp, fun _ => hlate (.inl hp)⟩
  · rw [if_neg hp]
    exact h

/-- IDAT or POST_IDAT to END: an IDAT has been seen (R133). -/
theorem FramerInv.toEnded {f : Framer} (h : FramerInv f) (hp : f.phase = .idat ∨ f.phase = .postIdat ∨ f.phase = .ended) :
    FramerInv { f with phase := .ended } := by
  have hc := h.failCode_eq_zero (by rcases hp with hp | hp | hp <;> simp [hp])
  obtain ⟨-, -, -, hlate⟩ := h
  exact ⟨by simp [hc], by simp, by simp, fun _ => hlate hp⟩

theorem framerInv_reset : FramerInv Framer.reset := by
  simp [FramerInv, Framer.reset]

theorem failFramer_dataInv {s : State} (h : DataInv s) (e : Err) : DataInv (failFramer s e) := by
  have framer : FramerInv (failFramer s e).framer := by
    by_cases he : ∃ c, e = .framerFailed c
    · obtain ⟨c, rfl⟩ := he
      exact h.framer
    · rw [failFramer_framer s e (not_exists.1 he)]
      exact .failed _ e.code_reported.2
  cases e <;> exact { h with framer }

/-! ### Parsed chunks -/

/-- The checks that passed all hold. -/
theorem checks_of_runChecks {cs : List Check} {u : Unit} (h : runChecks cs = .ok u) : ∀ c ∈ cs, c.1 = true := by
  rw [runChecks] at h
  split at h
  · exact firstError_eq_none.1 ‹_›
  · cases h

theorem parseSignature_dataInv {s t : State} (h : DataInv s) (ht : parseSignature s = .ok t) : DataInv t := by
  rw [parseSignature_eq] at ht
  obtain ⟨_, hc, ht⟩ := bind_eq_ok.1 ht
  have hs : s.framer.phase = .start := by
    simpa using checks_of_runChecks hc _ (List.mem_cons_of_mem _ (List.mem_cons_self ..))
  cases ht
  exact { h with framer := h.framer.toSigOk hs }

theorem parseIhdr_dataInv {s t : State} {c : Chunk} (h : DataInv s) (ht : parseIhdr s c = .ok t) : DataInv t := by
  rw [parseIhdr_eq] at ht
  obtain ⟨_, hc, ht⟩ := bind_eq_ok.1 ht
  have hs : s.framer.phase = .sigOk := by simpa using checks_of_runChecks hc _ (List.mem_cons_self ..)
  cases ht
  exact { h with framer := h.framer.toHeader hs }

theorem parsePlte_dataInv {s t : State} {c : Chunk} (h : DataInv s) (ht : parsePlte s c = .ok t) : DataInv t := by
  rw [parsePlte_eq] at ht
  obtain ⟨_, hc, ht⟩ := bind_eq_ok.1 ht
  have hs := checks_of_runChecks hc _ (List.mem_cons_self ..)
  have hl := checks_of_runChecks hc _ (List.mem_cons_of_mem _ (List.mem_cons_of_mem _ (List.mem_cons_self ..)))
  simp only [Bool.and_eq_true, beq_iff_eq, decide_eq_true_eq] at hs hl
  obtain ⟨⟨hs, -⟩, -⟩ := hs
  obtain ⟨-, -, hl, -⟩ := hl
  cases ht
  have framer := h.framer.inHeader hs true s.framer.trnsSeen
  have plteRam : Ram.wf 256 (ramStore s.plteRam 0 (plteEntries s c)) :=
    Ram.wf_ramStore _ h.plteRam (by simp only [plteEntries, List.length_map, List.length_range]; omega)
  have plteN : (BitVec.ofNat 9 (c.len / 3)).toNat ≤ 256 := by
    rw [BitVec.toNat_ofNat]
    exact (Nat.mod_le _ _).trans (by omega)
  exact { h with framer, plteRam, plteN }

theorem trnsBody_dataInv {s t : State} {c : Chunk} (h : DataInv s) (ht : trnsBody s c = .ok t) : DataInv t := by
  unfold trnsBody at ht
  split at ht
  · obtain ⟨_, _, ht⟩ := bind_eq_ok.1 ht
    cases ht; exact { h with }
  · obtain ⟨_, _, ht⟩ := bind_eq_ok.1 ht
    cases ht; exact { h with }
  · obtain ⟨_, hc, ht⟩ := bind_eq_ok.1 ht
    rw [require_eq] at hc
    have hl : c.len ≤ s.pal.plteN.toNat := by simpa using checks_of_runChecks hc _ (List.mem_cons_self ..)
    have hl : c.len ≤ 256 := hl.trans h.plteN
    cases ht
    have alphaRam : Ram.wf 256 (ramStore s.alphaRam 0 (memRead s c.data c.len)) :=
      Ram.wf_ramStore _ h.alphaRam (by rw [memRead_length]; omega)
    have trnsN : (BitVec.ofNat 9 c.len).toNat ≤ 256 := by
      rw [BitVec.toNat_ofNat]
      exact (Nat.mod_le _ _).trans hl
    exact { h with alphaRam, trnsN }
  · cases ht; exact h

theorem parseTrns_dataInv {s t : State} {c : Chunk} (h : DataInv s) (ht : parseTrns s c = .ok t) : DataInv t := by
  rw [parseTrns_eq] at ht
  obtain ⟨_, hc, ht⟩ := bind_eq_ok.1 ht
  have hs := checks_of_runChecks hc _ (List.mem_cons_self ..)
  simp only [Bool.and_eq_true, beq_iff_eq] at hs
  obtain ⟨u, hu, ht⟩ := bind_eq_ok.1 ht
  cases ht
  exact { trnsBody_dataInv h hu with framer := h.framer.inHeader hs.1 s.framer.plteSeen true }

theorem parseIdat_dataInv {s t : State} {c : Chunk} {q : Nat × Nat} (h : DataInv s) (ht : parseIdat s c q = .ok t) :
    DataInv t := by
  rw [parseIdat_eq] at ht
  obtain ⟨_, hc, ht⟩ := bind_eq_ok.1 ht
  have hs : s.framer.phase = .header ∨ s.framer.phase = .idat := by
    simpa using checks_of_runChecks hc _ (List.mem_cons_self ..)
  have hr : s.opd.idatBase.toNat + s.framer.idatLen.toNat + c.len ≤ s.params.memBytes := by
    simpa [regionCheck] using
      checks_of_runChecks hc (regionCheck s (s.opd.idatBase.toNat + s.framer.idatLen.toNat) c.len .idat) (by simp)
  cases ht
  have framer := h.framer.toIdat (by rcases hs with hs | hs <;> simp [hs])
    (BitVec.ofNat 32 (s.framer.idatLen.toNat + c.len))
  have buf := memWrite_wf (bs := memRead s c.data c.len) h.buf (by rw [memRead_length]; exact hr)
  exact { h with framer, buf }

theorem parseAncillary_dataInv {s t : State} {c : Chunk} {q : Nat × Nat} (h : DataInv s)
    (ht : parseAncillary s c q = .ok t) : DataInv t := by
  rw [parseAncillary_eq] at ht
  obtain ⟨_, hc, ht⟩ := bind_eq_ok.1 ht
  have hr : dirNext s + 12 ≤ s.params.memBytes := by
    simpa [regionCheck] using checks_of_runChecks hc (regionCheck s (dirNext s) 12 .dir) (by simp)
  cases ht
  have framer := h.framer.afterAncillary (BitVec.ofNat 32 (s.framer.dirCount.toNat + 1))
  have buf := memWrite_wf (bs := dirRecord c) h.buf (by rw [dirRecord_length]; exact hr)
  exact { h with framer, buf }

/-- IEND is reached from IDAT and POST_IDAT only (R122, R133). -/
theorem parseIend_dataInv {s t : State} {c : Chunk} (h : DataInv s)
    (hp : s.framer.phase ≠ .failed ∧ s.framer.phase ≠ .start ∧ s.framer.phase ≠ .sigOk)
    (ht : parseIend s c = .ok t) : DataInv t := by
  rw [parseIend_eq] at ht
  obtain ⟨_, hc, ht⟩ := bind_eq_ok.1 ht
  have hs : s.framer.phase ≠ .header := by simpa using checks_of_runChecks hc _ (List.mem_cons_self ..)
  cases ht
  have hlate : s.framer.phase = .idat ∨ s.framer.phase = .postIdat ∨ s.framer.phase = .ended := by
    cases hq : s.framer.phase <;> simp_all
  exact { h with framer := h.framer.toEnded hlate }

/-- A committed chunk keeps the data consistent. -/
theorem commitChunk_dataInv {s t : State} {c : Chunk} {q : Nat × Nat} (h : DataInv s)
    (hp : s.framer.phase ≠ .failed ∧ s.framer.phase ≠ .start) (ht : commitChunk s c q = .ok t) : DataInv t := by
  cases hk : kindOf c.type
  case ihdr => exact parseIhdr_dataInv h (commitChunk_ihdr hk ▸ ht)
  all_goals
    rw [commitChunk_of_kind hk (by simp)] at ht
    obtain ⟨_, hc, ht⟩ := bind_eq_ok.1 ht
    have hs : s.framer.phase ≠ .sigOk := by simpa using checks_of_runChecks hc _ (List.mem_cons_self ..)
  case plte => exact parsePlte_dataInv h ht
  case trns => exact parseTrns_dataInv h ht
  case idat => exact parseIdat_dataInv h ht
  case iend => exact parseIend_dataInv h ⟨hp.1, hp.2, hs⟩ ht
  case ancillary => exact parseAncillary_dataInv h ht
  case unknownCritical => cases ht

theorem parseChunk_dataInv {s t : State} {a rem : Nat} {q : Nat × Nat} {c : Chunk} (h : DataInv s)
    (ht : parseChunk s a rem q = .ok (t, c)) : DataInv t := by
  unfold parseChunk at ht
  obtain ⟨_, hf, ht⟩ := bind_eq_ok.1 ht
  obtain ⟨_, hc, ht⟩ := bind_eq_ok.1 ht
  cases ht
  obtain ⟨-, -, -, hfailed, hstart, -⟩ := frameChunk_ok hf
  exact commitChunk_dataInv h ⟨hfailed, hstart⟩ hc

/-! ### The loop of STREAM_PARSE -/

/-- The state a STREAM_PARSE ends in. -/
def StreamEnd.state (r : StreamEnd) : State :=
  match r with
  | .finished t _ _ => t
  | .raised _ t _ => t

@[simp] theorem StreamEnd.state_finished (t : State) (off n : Nat) : (StreamEnd.finished t off n).state = t := rfl
@[simp] theorem StreamEnd.state_raised (e : Err) (t : State) (off : Nat) : (StreamEnd.raised e t off).state = t := rfl

/-- What the signature step and every chunk step keep, the whole of STREAM_PARSE keeps (R126). -/
theorem streamParse_induct {P : State → Prop} {s : State} (hs : P s) (hsig : ∀ t, parseSignature s = .ok t → P t)
    (hchunk : ∀ t u a rem q c, P t → parseChunk t a rem q = .ok (u, c) → P u) : P (streamParse s).state := by
  have loop (q : Nat × Nat) (fuel off n : Nat) (t : State) (ht : P t) : P (streamLoop q fuel off n t).state := by
    induction fuel generalizing off n t with
    | zero => exact ht
    | succ fuel ih =>
      simp only [streamLoop]
      split
      · exact ht
      · rename_i u c hp
        have hu := hchunk _ _ _ _ _ _ ht hp
        split
        · exact hu
        · exact ih _ _ _ hu
  unfold streamParse
  split
  · exact hs
  · split
    · exact hs
    · exact loop _ _ _ _ _ (hsig _ ‹_›)

theorem streamParse_dataInv {s : State} (h : DataInv s) : DataInv (streamParse s).state :=
  streamParse_induct h (fun _ ht => parseSignature_dataInv h ht) fun _ _ _ _ _ _ ht hu => parseChunk_dataInv ht hu

end Sys2Proof.Machine
end

section
/-! SUPPORT. What any command can do, said once (`exec_cases`): the writes of its rule and a completion (R262). -/

namespace Sys2Proof.Machine

/-! ### What any command can leave -/

/-- What the writes of command `i`'s rule leave alone: the parameters, STATUS, ERROR, CMD, the operands, the model's own
fields, and CRC_REG where the rule does not name it. -/
def RuleKeeps (i : Instr) (s u : State) : Prop :=
  u.params = s.params ∧ u.ctl = s.ctl ∧ u.opd = s.opd ∧ u.bus = s.bus ∧ (.crcReg ∉ writesOf i → u.crcReg = s.crcReg)

theorem ruleKeeps_of_parseKeeps {i : Instr} {s u : State} (h : ParseKeeps s u) : RuleKeeps i s u := by
  obtain ⟨hp, hc, ho, -, hr, hb⟩ := h
  exact ⟨hp, hc, ho, hb, fun _ => hr⟩

/-- Command `i` completes from `s` in `t`: it succeeds or fails after writes that keep the data consistent. -/
def CompletesFrom (i : Instr) (s t : State) : Prop :=
  ∃ u, RuleKeeps i s u ∧ (DataInv s → DataInv u) ∧ (t = succeed u ∨ ∃ e, t = fail u e)

theorem CompletesFrom.of_succeed {i : Instr} {s u : State} (hk : RuleKeeps i s u) (hd : DataInv s → DataInv u) :
    CompletesFrom i s (succeed u) := ⟨u, hk, hd, .inl rfl⟩

theorem CompletesFrom.of_fail {i : Instr} {s u : State} (e : Err) (hk : RuleKeeps i s u) (hd : DataInv s → DataInv u) :
    CompletesFrom i s (fail u e) := ⟨u, hk, hd, .inr ⟨e, rfl⟩⟩

theorem completesFrom_of_own {i : Instr} {s u : State} (h : OwnWrites i s u) : CompletesFrom i s (succeed u) := by
  obtain ⟨r, crc, bs, rfl, hcrc, -, -, -, -, hbs⟩ := h
  refine .of_succeed ⟨rfl, rfl, rfl, rfl, hcrc⟩ fun h => ?_
  have buf : Memory.wf s.params.memBytes (ramStore s.buf (dstAddr s) bs) := by
    rcases hbs with rfl | ⟨-, hbs⟩
    · exact h.buf
    · exact Ram.wf_ramStore bs h.buf hbs
  exact { h with buf }

theorem completesFrom_failFramer (i : Instr) (s : State) (e : Err) : CompletesFrom i s (fail (failFramer s e) e) :=
  .of_fail e (by simp [RuleKeeps]) fun h => failFramer_dataInv h e

theorem palReset_counts : Pal.reset.plteN.toNat ≤ 256 ∧ Pal.reset.trnsN.toNat ≤ 256 := by decide

theorem exec_framerReset_cases {s t : State} (h : exec .framerReset s = .next t) : CompletesFrom .framerReset s t := by
  cases h
  exact .of_succeed (u := framerReset s) ⟨rfl, rfl, rfl, rfl, fun _ => rfl⟩
    fun h => { h with plteN := palReset_counts.1, trnsN := palReset_counts.2, framer := framerInv_reset }

theorem exec_sigCheck_cases {s t : State} (h : exec .sigCheck s = .next t) :
    t = succeed (setRes0 (setPhase s .sigOk) 8) ∧ parseSignature s = .ok (setPhase s .sigOk) ∨
    ∃ e, t = fail (failFramer s e) e := by
  rcases finishParse_cases h with ⟨u, hu, rfl⟩ | ⟨e, -, rfl⟩
  · obtain ⟨v, hv, hu⟩ := bind_eq_ok.1 hu
    obtain rfl := parseSignature_keeps hv
    cases hu
    exact .inl ⟨rfl, hv⟩
  · exact .inr ⟨e, rfl⟩

theorem exec_chunkParse_cases {s t : State} (h : exec .chunkParse s = .next t) : CompletesFrom .chunkParse s t := by
  rcases finishParse_cases h with ⟨u, hu, rfl⟩ | ⟨e, -, rfl⟩
  · obtain ⟨⟨v, c⟩, hv, hu⟩ := bind_eq_ok.1 hu
    cases hu
    obtain ⟨hp, hc, ho, -, hr, hb⟩ := parseChunk_keeps hv
    exact .of_succeed ⟨hp, hc, ho, hb, fun _ => hr⟩ fun h => { parseChunk_dataInv h hv with }
  · exact completesFrom_failFramer _ s e

theorem parseKeeps_of_signature {s t : State} (h : parseSignature s = .ok t) : ParseKeeps s t := by
  rw [parseSignature_keeps h]
  exact ⟨rfl, rfl, rfl, rfl, rfl, rfl⟩

theorem streamParse_keeps (s : State) : ParseKeeps s (streamParse s).state :=
  streamParse_induct ⟨rfl, rfl, rfl, rfl, rfl, rfl⟩ (fun _ h => parseKeeps_of_signature h)
    fun _ _ _ _ _ _ h hp => h.trans (parseChunk_keeps hp)

theorem exec_streamParse_cases {s t : State} (h : exec .streamParse s = .next t) : CompletesFrom .streamParse s t := by
  have hd := streamParse_dataInv (s := s)
  have hk : RuleKeeps .streamParse s (streamParse s).state := ruleKeeps_of_parseKeeps (streamParse_keeps s)
  rcases finishStream_cases h with ⟨u, off, n, hu, rfl⟩ | ⟨c, u, off, -, rfl⟩ | ⟨e, u, off, -, hu, rfl⟩
  · rw [hu] at hd hk
    exact .of_succeed hk fun h => { hd h with }
  · exact .of_fail _ ⟨rfl, rfl, rfl, rfl, fun _ => rfl⟩ id
  · rw [hu] at hd hk
    have hd (h : DataInv s) : DataInv (setRes0 u off) := { hd h with }
    refine .of_fail e ?_ fun h => failFramer_dataInv (hd h) e
    simpa [RuleKeeps] using hk

/-- What any command can do, said once. -/
theorem exec_cases {i : Instr} {s t : State} (h : exec i s = .next t) : CompletesFrom i s t := by
  by_cases hi : i ∈ [Instr.framerReset, .sigCheck, .chunkParse, .streamParse]
  · simp only [List.mem_cons, List.not_mem_nil, or_false] at hi
    rcases hi with rfl | rfl | rfl | rfl
    · exact exec_framerReset_cases h
    · rcases exec_sigCheck_cases h with ⟨rfl, hv⟩ | ⟨e, rfl⟩
      · exact .of_succeed ⟨rfl, rfl, rfl, rfl, fun _ => rfl⟩ fun h => { parseSignature_dataInv h hv with }
      · exact completesFrom_failFramer _ s e
    · exact exec_chunkParse_cases h
    · exact exec_streamParse_cases h
  · rcases exec_own hi h with ⟨e, rfl⟩ | ⟨u, hu, rfl⟩
    · exact .of_fail (u := s) e ⟨rfl, rfl, rfl, rfl, fun _ => rfl⟩ id
    · exact completesFrom_of_own hu

/-- No command stops the machine. -/
theorem exec_next (i : Instr) (s : State) : ∃ t, exec i s = .next t := by
  have parse (r : Except Err State) : ∃ t, finishParse s r = .next t := by cases r <;> exact ⟨_, rfl⟩
  cases i
  case nop | crcInit | crcFinal | framerReset | paeth => exact ⟨_, rfl⟩
  case sigCheck => exact parse _
  case chunkParse => exact parse _
  case streamParse =>
    change ∃ t, finishStream s (streamParse s) = .next t
    unfold finishStream
    split <;> exact ⟨_, rfl⟩
  all_goals exact finish_next s _

/-! ### Completions -/

/-- What a completion leaves of the control and model fields (R260, R262). -/
theorem CompletesFrom.keeps {i : Instr} {s t : State} (h : CompletesFrom i s t) :
    t.params = s.params ∧ t.opd = s.opd ∧ t.bus = s.bus ∧ (.crcReg ∉ writesOf i → t.crcReg = s.crcReg) ∧
    t.ctl = { s.ctl with busy := false, done := true, errCode := t.ctl.errCode, errInfo := t.ctl.errInfo } ∧
    t.ctl.errCode ∈ reportedCodes := by
  obtain ⟨u, ⟨hp, hc, ho, hb, hr⟩, -, rfl | ⟨e, rfl⟩⟩ := h
  · exact ⟨hp, ho, hb, hr, by simp [hc], by simp [reportedCodes]⟩
  · exact ⟨hp, ho, hb, hr, by simp [hc], e.code_reported.1⟩

theorem CompletesFrom.dataInv {i : Instr} {s t : State} (h : CompletesFrom i s t) (hd : DataInv s) : DataInv t := by
  obtain ⟨u, -, hu, rfl | ⟨e, rfl⟩⟩ := h <;> exact { hu hd with }

end Sys2Proof.Machine
end

section
/-! SUPPORT. The invariant of the machine: `settle`, each host access, a reset and a completion keep it, and so does every
step. -/

namespace Sys2Proof.Machine

/-! ### The engine's turn -/

/-- `settle` clears the marks. -/
theorem settle_marks (dests : List (Nat × Nat)) {s : State} (h : s.bus.hazard = false → s.bus.busyWrites = []) :
    (settle dests s).bus.hazard = false ∧ (settle dests s).bus.busyWrites = [] := by
  unfold settle
  split
  · exact ⟨rfl, rfl⟩
  · rename_i hz
    exact ⟨by simpa using hz, h (by simpa using hz)⟩

/-- `settle` restores the whole invariant from consistent data and an idle block, whatever the host has marked. -/
theorem settle_inv (dests : List (Nat × Nat)) {s t : State} (hs : Inv s) (hd : DataInv t) (hp : t.params = s.params)
    (hb : t.bus = s.bus) (hbusy : t.ctl.busy = false) (hcode : t.ctl.errCode ∈ reportedCodes) :
    Inv (settle dests t) ∧ (settle dests t).params = s.params := by
  obtain ⟨-, hmarks, hlt⟩ := hs.bus
  obtain ⟨kp, kc, -, -, -, -, kf, kpal, kplte, kalpha, -⟩ := settle_keeps dests t
  obtain ⟨hz, hw⟩ := settle_marks dests (s := t) (by rw [hb]; exact hmarks)
  refine ⟨(inv_iff _).2 ⟨⟨?_, ?_, ?_, ?_, ?_, ?_, ?_⟩, ⟨?_, ?_⟩, ?_, ?_, ?_⟩, kp.trans hp⟩
  · rw [kp]; exact hd.params
  · rw [kp]; exact settle_wf dests hd.buf (by rw [hb, hp]; exact hlt)
  · rw [kplte]; exact hd.plteRam
  · rw [kalpha]; exact hd.alphaRam
  · rw [kpal]; exact hd.plteN
  · rw [kpal]; exact hd.trnsN
  · rw [kf]; exact hd.framer
  · rw [kc, hbusy]; simp
  · rw [kc]; exact hcode
  · exact fun _ => hz
  · exact fun _ => hw
  · rw [hw]; simp

theorem engineTurn_inv {s t : State} (h : Inv s) (ht : engineTurn s = .next t) : Inv t ∧ t.params = s.params := by
  unfold engineTurn at ht
  split at ht
  · unfold runCommand at ht
    split at ht
    · rename_i e _
      cases ht
      exact settle_inv _ h { h with } rfl rfl rfl (decodeErr e).code_reported.1
    · split at ht
      · rename_i u hu
        cases ht
        have hc := exec_cases hu
        obtain ⟨hp, -, hb, -, hctl, hcode⟩ := hc.keeps
        exact settle_inv _ h (hc.dataInv h.data) hp hb (by rw [hctl]) hcode
      · cases ht
      · cases ht
  · cases ht
    exact ⟨h, rfl⟩

/-! ### Host accesses -/

theorem softReset_dataInv {s : State} (h : DataInv s) : DataInv (softReset s) :=
  { h with plteN := palReset_counts.1, trnsN := palReset_counts.2, framer := framerInv_reset }

/-- A register write while idle keeps the data consistent; the entry counts stay in range (R43, R45). -/
theorem writeReg_dataInv {s : State} {off : Nat} {r : Reg} (h : DataInv s) (hr : regAt off = some r) (v : Word) :
    DataInv (writeReg s r v) := by
  have count {v : Word} (hv : v.toNat ≤ 256) : (v.setWidth 9).toNat ≤ 256 := by
    rw [BitVec.toNat_setWidth]; exact (Nat.mod_le _ _).trans hv
  cases r
  case ctrl =>
    rw [writeReg_ctrl]
    split
    · exact softReset_dataInv h
    · exact { h with }
  case plteN =>
    rw [writeReg_plteN]
    split
    · exact { h with plteN := count ‹_› }
    · exact h
  case trnsN =>
    rw [writeReg_trnsN]
    split
    · exact { h with trnsN := count ‹_› }
    · exact h
  case plteRam i => exact { h with plteRam := Ram.wf_ramSet h.plteRam (regAt_entry_lt (.inl hr)) _ }
  case alphaRam i => exact { h with alphaRam := Ram.wf_ramSet h.alphaRam (regAt_entry_lt (.inr hr)) _ }
  all_goals exact { h with }

/-- A register write while idle keeps STATUS and ERROR consistent: only an accepted CMD write starts a command (R24). -/
theorem writeReg_ctlInv {s : State} (h : CtlInv s.ctl) (hi : s.ctl.busy = false) (r : Reg) (v : Word) :
    CtlInv (writeReg s r v).ctl := by
  obtain ⟨-, hcode⟩ := h
  by_cases hr : r ∈ [Reg.ctrl, .status, .cmd]
  · simp only [List.mem_cons, List.not_mem_nil, or_false] at hr
    rcases hr with rfl | rfl | rfl
    · rw [writeReg_ctrl]
      split
      · exact ⟨(nomatch ·), by simp [softReset, State.reset, Ctl.reset, reportedCodes]⟩
      · exact ⟨by simp [hi], hcode⟩
    · exact ⟨by simp [writeReg, hi], hcode⟩
    · exact ⟨fun _ => ⟨rfl, rfl, rfl⟩, by simp [writeReg, accept, reportedCodes]⟩
  · rw [writeReg_ctl s v hr]
    exact ⟨by simp [hi], hcode⟩

theorem writeReg_inv {s : State} {off : Nat} {r : Reg} (h : Inv s) (hi : s.ctl.busy = false) (hr : regAt off = some r)
    (v : Word) : Inv (writeReg s r v) := by
  obtain ⟨-, -, hbus⟩ := writeReg_keeps s r v
  obtain ⟨hz, hw, -⟩ := h.bus
  refine (inv_iff _).2 ⟨writeReg_dataInv h.data hr v, writeReg_ctlInv h.ctl hi r v, ?_⟩
  rw [hbus]
  exact ⟨fun _ => hz hi, hw, by simp [hw (hz hi)]⟩

/-- A forbidden access while BUSY marks bytes that exist. -/
theorem markHazard_inv {s : State} {as : List Nat} (h : Inv s) (hb : s.ctl.busy = true)
    (ha : ∀ a ∈ as, a < s.params.memBytes) : Inv (markHazard s as) := by
  obtain ⟨-, -, hlt⟩ := h.bus
  refine { h with bus := ⟨by simp [hb], by simp, ?_⟩ }
  intro a hm
  rcases List.mem_append.1 hm with hm | hm
  · exact hlt a hm
  · exact ha a hm

theorem writeRegBusy_inv {s : State} (h : Inv s) (hb : s.ctl.busy = true) (r : Reg) (v : Word) :
    Inv (writeRegBusy s r v) := by
  obtain ⟨hclear, hcode⟩ := h.ctl
  rcases writeRegBusy_cases s r v with e | e | e | e | e <;> rw [e]
  · exact h
  · exact { h with ctl := ⟨hclear, hcode⟩ }
  · exact { h with ctl := ⟨fun _ => by simpa [(hclear hb).1] using (hclear hb).2, hcode⟩ }
  · exact { h with ctl := ⟨hclear, hcode⟩ }
  · exact markHazard_inv h hb (by simp)

theorem hostWriteReg_inv {s : State} {off : Nat} {r : Reg} (h : Inv s) (hr : regAt off = some r) (v : Word) :
    Inv (hostWriteReg s r v) := by
  cases hb : s.ctl.busy
  · rw [hostWriteReg_idle hb]; exact writeReg_inv h hb hr v
  · rw [hostWriteReg_busy hb]; exact writeRegBusy_inv h hb r v

@[simp] theorem laneBytes_length (o : LaneOrder) (n : Nat) (v : Word) : (laneBytes o n v).length = n := by
  cases o <;> simp [laneBytes]

theorem hostWriteBuf_inv {s : State} {a : Nat} {w : Width} (h : Inv s) (ha : a + w.bytes ≤ s.params.memBytes) (v : Word) :
    Inv (hostWriteBuf s a w v) := by
  unfold hostWriteBuf
  split
  · refine markHazard_inv h ‹_› fun b hb => ?_
    obtain ⟨k, hk, rfl⟩ := List.mem_map.1 hb
    rw [List.mem_range] at hk
    omega
  · exact { h with buf := memWrite_wf h.buf (by rw [laneBytes_length]; exact ha) }

theorem hostWriteReg_params (s : State) (r : Reg) (v : Word) : (hostWriteReg s r v).params = s.params := by
  unfold hostWriteReg
  split
  · rcases writeRegBusy_cases s r v with e | e | e | e | e <;> rw [e] <;> rfl
  · exact (writeReg_keeps s r v).1

theorem hostWriteBuf_params (s : State) (a : Nat) (w : Width) (v : Word) : (hostWriteBuf s a w v).params = s.params := by
  unfold hostWriteBuf
  split <;> rfl

theorem hostWrite_inv {s t : State} {addr : Nat} {w : Width} {v : Word} (h : Inv s)
    (ht : hostWrite s addr w v = .next t) : Inv t ∧ t.params = s.params := by
  rcases hostWrite_cases ht with ⟨off, r, hr, rfl⟩ | ⟨a, ha, rfl⟩ | rfl
  · exact ⟨hostWriteReg_inv h hr v, hostWriteReg_params s r v⟩
  · exact ⟨hostWriteBuf_inv h ha v, hostWriteBuf_params s a w v⟩
  · exact ⟨h, rfl⟩

theorem hostRead_inv {s t : State} {addr : Nat} {w : Width} (h : Inv s) (ht : hostRead s addr w = .next t) :
    Inv t ∧ t.params = s.params := by
  obtain ⟨v, n, rfl⟩ := hostRead_cases ht
  exact ⟨{ h with }, rfl⟩

/-! ### Steps -/

theorem powerOn_inv {s : State} (h : Inv s) : Inv (powerOn s) where
  params := h.params
  buf := Ram.wf_nil _
  plteRam := Ram.wf_nil _
  alphaRam := Ram.wf_nil _
  plteN := palReset_counts.1
  trnsN := palReset_counts.2
  framer := framerInv_reset
  ctl := ⟨(nomatch ·), by simp [powerOn, State.reset, Ctl.reset, reportedCodes]⟩
  bus := ⟨fun _ => rfl, fun _ => rfl, fun _ ha => nomatch ha⟩

theorem withInbox_inv {s : State} (h : Inv s) (es : List Event) : Inv (withInbox s es) := { h with }

theorem handle_inv {e : Event} {s t : State} (h : Inv s) (ht : handle e s = .next t) : Inv t ∧ t.params = s.params := by
  cases e with
  | write addr w v => exact hostWrite_inv h ht
  | read addr w => exact hostRead_inv h ht
  | powerOn => cases ht; exact ⟨powerOn_inv h, rfl⟩
  | engine => exact engineTurn_inv h ht

/-- Settles O17: each kind of event keeps the invariant; a command keeps the data consistent, and `settle` clears the marks
that the host's accesses while BUSY have left. -/
theorem everyStepKeepsTheInvariant : Obligations.EveryStepKeepsTheInvariant := by
  intro s t h ht
  cases hi : s.bus.inbox with
  | nil => rw [step_nil hi] at ht; exact engineTurn_inv h ht
  | cons e es => rw [step_cons hi] at ht; exact handle_inv (s := withInbox s es) (withInbox_inv h es) ht

end Sys2Proof.Machine
end

section
/-! SUPPORT. The register words as concatenations of their fields (10_state.md rules R21 to R25, R39, R44), and the statements
about them. -/

namespace Sys2Proof.Machine

/-! ### Words from fields -/

/-- A concatenation as a number: the left part counts in units above the right one. -/
theorem toNat_append_eq {m n : Nat} (x : BitVec m) (y : BitVec n) : (x ++ y).toNat = x.toNat * 2 ^ n + y.toNat := by
  rw [BitVec.toNat_append, ← Nat.shiftLeft_add_eq_or_of_lt y.isLt, Nat.shiftLeft_eq]

theorem bitAt_eq (b : Bool) (i : Nat) : bitAt b i = (BitVec.ofBool b).toNat * 2 ^ i := by
  cases b <;> simp [bitAt]

theorem setWidth_eq_append {m : Nat} (n : Nat) (x : BitVec m) : x.setWidth (n + m) = 0#n ++ x := by
  apply BitVec.eq_of_toNat_eq
  rw [toNat_append_eq, BitVec.toNat_setWidth_of_le (by omega)]
  simp

theorem errorWord_eq_append (s : State) : errorWord s = 0#16 ++ s.ctl.errInfo ++ s.ctl.errCode := by
  apply BitVec.eq_of_toNat_eq
  simp only [errorWord, toNat_append_eq, BitVec.toNat_ofNat]
  omega

theorem hdrFormatWord_eq_append (s : State) :
    hdrFormatWord s = 0#8 ++ s.hdr.interlace ++ s.hdr.colorType ++ s.hdr.bitDepth := by
  apply BitVec.eq_of_toNat_eq
  simp only [hdrFormatWord, toNat_append_eq, BitVec.toNat_ofNat]
  omega

theorem trnsCtrlWord_eq_append (s : State) :
    trnsCtrlWord s =
      0#29 ++ BitVec.ofBool s.pal.palValid ++ BitVec.ofBool s.pal.rgbValid ++ BitVec.ofBool s.pal.grayValid := by
  apply BitVec.eq_of_toNat_eq
  simp only [trnsCtrlWord, bitAt_eq, toNat_append_eq, BitVec.toNat_ofNat]
  omega

theorem statusWord_eq_append (s : State) :
    statusWord s = 0#28 ++ BitVec.ofBool s.ctl.overrun ++ BitVec.ofBool (statusErr s) ++ BitVec.ofBool s.ctl.done ++
      BitVec.ofBool s.ctl.busy := by
  apply BitVec.eq_of_toNat_eq
  simp only [statusWord, bitAt_eq, toNat_append_eq, BitVec.toNat_ofNat]
  omega

theorem ctrlWord_eq_append (s : State) : ctrlWord s = 0#31 ++ BitVec.ofBool s.ctl.irqEn := by
  apply BitVec.eq_of_toNat_eq
  simp only [ctrlWord, bitAt_eq, toNat_append_eq, BitVec.toNat_ofNat]
  omega

theorem framerWord_eq_append (s : State) :
    framerWord s = 0#8 ++ s.framer.failCode ++ 0#5 ++ BitVec.ofBool s.framer.idatSeen ++
      BitVec.ofBool s.framer.trnsSeen ++ BitVec.ofBool s.framer.plteSeen ++ 0#4 ++
      BitVec.ofNat 4 s.framer.phase.code := by
  have hp : s.framer.phase.code < 16 := by cases s.framer.phase <;> decide
  apply BitVec.eq_of_toNat_eq
  simp only [framerWord, bitAt_eq, toNat_append_eq, BitVec.toNat_ofNat]
  omega

/-! ### Bits of STATUS and CTRL -/

theorem statusWord_getLsbD (s : State) (k : Nat) :
    (statusWord s).getLsbD k =
      match k with
      | 0 => s.ctl.busy
      | 1 => s.ctl.done
      | 2 => s.ctl.errCode != 0
      | 3 => s.ctl.overrun
      | _ => false := by
  rw [statusWord_eq_append]
  change BitVec.getLsbD (w := 28 + 1 + 1 + 1 + 1) _ k = _
  simp only [BitVec.getLsbD_append]
  match k with
  | 0 => simp
  | 1 => simp
  | 2 => simp [statusErr]
  | 3 => simp
  | k + 4 => simp

theorem ctrlWord_getLsbD (s : State) (k : Nat) : (ctrlWord s).getLsbD k = (k == 0 && s.ctl.irqEn) := by
  rw [ctrlWord_eq_append]
  change BitVec.getLsbD (w := 31 + 1) _ k = _
  simp only [BitVec.getLsbD_append]
  cases k <;> simp

/-! ### The statement -/

/-- Settles O60: each register word is the concatenation of its fields. -/
theorem registerBitsAreTheFields : Obligations.RegisterBitsAreTheFields := by
  intro s state
  have hs : state = BitVec.ofNat 4 s.framer.phase.code := by
    simp only [state]; cases s.framer.phase <;> rfl
  refine ⟨rfl, errorWord_eq_append s, hs ▸ framerWord_eq_append s, hdrFormatWord_eq_append s, rfl, rfl,
    trnsCtrlWord_eq_append s, setWidth_eq_append 23 _, setWidth_eq_append 23 _, setWidth_eq_append 16 _,
    setWidth_eq_append 16 _, setWidth_eq_append 16 _, setWidth_eq_append 16 _,
    fun i => ⟨setWidth_eq_append 8 _, setWidth_eq_append 24 _⟩, ?_⟩
  exact ⟨rfl, rfl, rfl, rfl, rfl, rfl, rfl, rfl, rfl, rfl, rfl, rfl, rfl, rfl, rfl, rfl, rfl, rfl, rfl, rfl⟩

end Sys2Proof.Machine
end

section
/-! SUPPORT. The host's accesses to CMD, STATUS and CTRL (10_state.md rules R21, R22, R24; 70_reset_and_hazards.md rule R292), and
the accesses that no window defines (20_memory.md rule R65). -/

namespace Sys2Proof.Machine

/-! ### CMD (R24) -/

/-- No command writes CMD, so a read of it is defined while BUSY (R300(c)). -/
theorem runningMayWrite_cmd (s : State) : runningMayWrite s .cmd = false := by
  unfold runningMayWrite
  split
  · rename_i i _
    cases i <;> rfl
  · rfl

theorem hostReadReg_cmd (s : State) : hostReadReg s .cmd = latch s s.ctl.cmd := by
  rw [hostReadReg, runningMayWrite_cmd]
  simp [Reg.isPaletteRam, readReg]

/-- A host write while BUSY changes IRQ_EN, DONE, OVERRUN and the model's marks at most (D8, D51). -/
theorem hostWrite_busy {s t : State} {addr : Nat} {w : Width} {v : Word} (hb : s.ctl.busy = true)
    (ht : hostWrite s addr w v = .next t) :
    t = { s with
      ctl := { s.ctl with irqEn := t.ctl.irqEn, done := t.ctl.done, overrun := t.ctl.overrun }
      bus := t.bus } := by
  rcases hostWrite_cases ht with ⟨off, r, -, rfl⟩ | ⟨a, -, rfl⟩ | rfl
  · rw [hostWriteReg_busy hb]
    rcases writeRegBusy_cases s r v with e | e | e | e | e <;> rw [e] <;> rfl
  · rw [hostWriteBuf, if_pos hb]; rfl
  · rfl

/-- Settles O6: a CMD write is `accept` while idle and sets OVERRUN while BUSY; the frame is that of every host write while
BUSY. -/
theorem cmdWriteStartsOrIsDropped : Obligations.CmdWriteStartsOrIsDropped := by
  intro s es hp
  refine ⟨fun w h => ?_, fun h => ?_, fun t a wd v hb h ht => ?_, rfl⟩
  · have hstep := step_write_reg (r := .cmd) hp rfl rfl h
    refine ⟨fun hi => ?_, fun hb => ?_⟩
    · rw [hstep, hostWriteReg_idle (s := withInbox s es) hi]; rfl
    · rw [hstep, hostWriteReg_busy (s := withInbox s es) hb]; rfl
  · rw [step_read_reg (r := .cmd) hp rfl rfl h, hostReadReg_cmd]; rfl
  · rw [step_cons h] at ht
    exact hostWrite_busy (s := withInbox s es) hb ht

/-! ### STATUS (R22) -/

/-- The W1C bits of STATUS are honoured busy or idle. -/
theorem hostWriteReg_status (s : State) (v : Word) : hostWriteReg s .status v = writeStatus s v := by
  unfold hostWriteReg; split <;> rfl

/-- Settles O7: the bits are those of the fields, and a completion is a success or an error of `exec_cases`. -/
theorem statusFollowsTheHandshake : Obligations.StatusFollowsTheHandshake := by
  intro s hp
  refine ⟨fun k => statusWord_getLsbD s k, fun v es h => ?_, fun w es h => ?_, fun i => ?_, rfl⟩
  · rw [step_write_reg (r := .status) hp rfl rfl h, hostWriteReg_status]; rfl
  · have hstep := step_write_reg (r := .cmd) hp rfl rfl h
    refine ⟨_, hstep, ?_⟩
    cases hb : s.ctl.busy
    · rw [hostWriteReg_idle (by exact hb)]
      exact ⟨rfl, rfl, rfl⟩
    · rw [hostWriteReg_busy (s := withInbox s es) hb]
      exact ⟨hb, rfl, rfl⟩
  · obtain ⟨t, ht⟩ := exec_next i s
    obtain ⟨-, -, -, -, hc, -⟩ := (exec_cases ht).keeps
    exact ⟨t, ht, by rw [hc], by rw [hc], by rw [hc]⟩

/-! ### CTRL (R21, R270, R292) -/

/-- A CTRL write without SOFT_RESET sets IRQ_EN, busy or idle. -/
theorem hostWriteReg_ctrl_mask (s : State) {v : Word} (hv : v.getLsbD 1 = false) :
    hostWriteReg s .ctrl v = writeIrqEn s v := by
  unfold hostWriteReg writeRegBusy
  rw [writeReg_ctrl, hv]
  split <;> rfl

/-- One with SOFT_RESET is ignored while BUSY, and resets while idle. -/
theorem hostWriteReg_ctrl_reset (s : State) {v : Word} (hv : v.getLsbD 1 = true) :
    hostWriteReg s .ctrl v = if s.ctl.busy then s else softReset s := by
  unfold hostWriteReg writeRegBusy
  rw [writeReg_ctrl, hv]
  rfl

/-- A header with width 0 is not valid (R28). -/
theorem header_softReset (s : State) : header (softReset s) = none := by
  rw [header, headerOf, if_neg]
  rintro ⟨hw, -⟩
  exact Nat.not_succ_le_zero 0 hw

/-- After a soft reset every register reads its reset value (R292). -/
theorem readReg_softReset (s : State) {r : Reg} (hr : r.isPaletteRam = false) :
    readReg (softReset s) r = readReg State.reset r := by
  have hreset : header State.reset = none := header_softReset State.reset
  cases r
  case hdrInfo => simp only [readReg, hdrInfoWord, header_softReset, hreset]
  case rowBytes => simp only [readReg, rowBytesWord, header_softReset, hreset]
  case plteRam | alphaRam => cases hr
  all_goals rfl

/-- Settles O8: a CTRL write sets IRQ_EN, is ignored, or is a soft reset. -/
theorem ctrlWriteMasksOrResets : Obligations.CtrlWriteMasksOrResets := by
  intro s v es hp
  refine ⟨fun k => ctrlWord_getLsbD s k, rfl, fun h => ?_⟩
  have hstep := step_write_reg (r := .ctrl) hp rfl rfl h
  refine ⟨fun hv => ?_, fun hv hb => ?_, fun hv hi => ?_⟩
  · rw [hstep, hostWriteReg_ctrl_mask _ hv]; rfl
  · rw [hstep, hostWriteReg_ctrl_reset _ hv, if_pos (by exact hb)]
  · rw [hostWriteReg_ctrl_reset _ hv, withInbox_ctl, hi] at hstep
    exact ⟨_, hstep, fun _ hr => readReg_softReset _ hr, rfl, rfl, rfl, rfl, rfl, rfl⟩

/-! ### Accesses that no window defines (R48, R65) -/

/-- The reserved offsets of the register map (R48). -/
theorem regAt_reserved {off : Nat} (h : off = 0x02C ∨ off = 0x04C ∨ 0x09C ≤ off ∧ off ≤ 0x3FC) : regAt off = none := by
  rw [regAt, if_pos (by omega)]
  unfold namedReg
  split <;> first | rfl | omega

/-- An access of the register window that is not 32 bits, not aligned or at a reserved offset is of no register. -/
theorem regAccess_undefined {p : Params} {a : Nat} {w : Width} (hp : p.wf) (ha : p.blockBase ≤ a)
    (h : w ≠ .w32 ∨ a % 4 ≠ 0 ∨ a - p.blockBase ∈ [0x02C, 0x04C] ∨
      0x09C ≤ a - p.blockBase ∧ a - p.blockBase ≤ 0x3FC) : regAccess p a w = none := by
  unfold regAccess
  split
  · rename_i hd
    rcases h with h | h | h | h
    · exact absurd hd.1 h
    · exact absurd hd.2 h
    · simp only [List.mem_cons, List.not_mem_nil, or_false] at h
      exact regAt_reserved (by omega)
    · exact regAt_reserved (.inr (.inr h))
  · rfl

/-- A misaligned access of the buffer window, or one of another width, is of no buffer byte. -/
theorem bufAccess_undefined {p : Params} {a : Nat} {w : Width} (h : a % w.bytes ≠ 0 ∨ w ∉ [Width.w8, .w16, .w32]) :
    bufAccess p a w = none := by
  rw [Option.eq_none_iff_forall_ne_some]
  intro b hb
  obtain ⟨hw, ha, -⟩ := (bufAccess_eq_some _ _ _ _).1 hb
  exact h.elim (absurd ha) (absurd hw)

/-- An access that its window does not define is ignored when a write and reads 0 (R65). -/
theorem host_access_undefined (s : State) {a : Nat} {w : Width}
    (h : inRegWindow s.params a = true ∧ regAccess s.params a w = none ∨
      inRegWindow s.params a = false ∧ inBufWindow s.params a w = true ∧ bufAccess s.params a w = none) (v : Word) :
    hostWrite s a w v = .next s ∧ hostRead s a w = .next (latch s 0) := by
  rcases h with ⟨hr, hn⟩ | ⟨hr, hb, hn⟩ <;> simp [hostWrite, hostRead, *]

/-- An access outside both windows is the platform's (item 12). -/
theorem host_access_fault (s : State) {a : Nat} {w : Width} (hr : inRegWindow s.params a = false)
    (hb : inBufWindow s.params a w = false) (v : Word) :
    hostWrite s a w v = .fault .hostAccessOutsideWindows ∧ hostRead s a w = .fault .hostAccessOutsideWindows := by
  simp [hostWrite, hostRead, hr, hb]

/-- Settles O10: an access that its window does not define decodes to no register and no buffer byte. -/
theorem undefinedAccessesAreIgnored : Obligations.UndefinedAccessesAreIgnored := by
  intro s a wd v es hp
  refine ⟨fun h => ?_, fun hr hb => ?_⟩
  · have hu : inRegWindow s.params a = true ∧ regAccess s.params a wd = none ∨
        inRegWindow s.params a = false ∧ inBufWindow s.params a wd = true ∧ bufAccess s.params a wd = none := by
      rcases h with ⟨hlo, hhi, h⟩ | ⟨hr, hlo, hhi, h⟩
      · exact .inl ⟨by simp [inRegWindow, hlo, hhi], regAccess_undefined hp hlo h⟩
      · exact .inr ⟨hr, by simp [inBufWindow, hlo, hhi], bufAccess_undefined h⟩
    obtain ⟨hw, hrd⟩ := host_access_undefined (withInbox s es) hu v
    refine ⟨fun h => ?_, fun h => ?_⟩
    · rw [step_cons h]; exact hw
    · rw [step_cons h]; exact hrd
  · obtain ⟨hw, hrd⟩ := host_access_fault (withInbox s es) (a := a) (w := wd)
      (decide_eq_false (by rw [withInbox_params]; omega)) (decide_eq_false (by rw [withInbox_params]; omega)) v
    refine ⟨fun h => ?_, fun h => ?_⟩
    · rw [step_cons h]; exact hw
    · rw [step_cons h]; exact hrd

end Sys2Proof.Machine
end

section
/-! SUPPORT. The register map and the registers as the host reads and writes them while the block is idle (10_state.md rules R25,
R31 to R51). -/

namespace Sys2Proof.Machine

/-! ### The register map -/

theorem regAt_plteRam {i : Nat} (h : i < 256) : regAt (0x400 + 4 * i) = some (.plteRam i) := by
  rw [regAt, if_neg (by omega), if_pos (by omega), show (0x400 + 4 * i - 0x400) / 4 = i by omega]

theorem regAt_alphaRam {i : Nat} (h : i < 256) : regAt (0x800 + 4 * i) = some (.alphaRam i) := by
  rw [regAt, if_neg (by omega), if_neg (by omega), if_pos (by omega), show (0x800 + 4 * i - 0x800) / 4 = i by omega]

theorem regAt_crcTable {i : Nat} (h : i < 256) : regAt (0xC00 + 4 * i) = some (.crcTable i) := by
  rw [regAt, if_neg (by omega), if_neg (by omega), if_neg (by omega), if_pos (by omega),
    show (0xC00 + 4 * i - 0xC00) / 4 = i by omega]

/-! ### What a written register reads -/

/-- The value a register takes where the host writes `v` (R25, R31 to R51): under the register's width, or nothing where it is
read-only or the count too large. -/
def storedWord (s : State) (r : Reg) (v : Word) : Word :=
  match r with
  | .hdrFormat => v &&& 0x00FFFFFF
  | .plteN => if v.toNat ≤ 256 then v else readReg s r
  | .trnsN => if v.toNat ≤ 256 then v else readReg s r
  | .trnsCtrl => v &&& 7
  | .trnsGray => v &&& 0xFFFF
  | .trnsR => v &&& 0xFFFF
  | .trnsG => v &&& 0xFFFF
  | .trnsB => v &&& 0xFFFF
  | .plteRam _ => v &&& 0x00FFFFFF
  | .alphaRam _ => v &&& 0xFF
  | .id => readReg s r
  | .error => readReg s r
  | .res0 => readReg s r
  | .res1 => readReg s r
  | .res2 => readReg s r
  | .res3 => readReg s r
  | .hdrInfo => readReg s r
  | .rowBytes => readReg s r
  | .framer => readReg s r
  | .idatLen => readReg s r
  | .dirCount => readReg s r
  | .crcTable _ => readReg s r
  | _ => v

/-- Cutting a word to its low `n` bits is masking it. -/
theorem setWidth_setWidth_eq_and (v : Word) {n : Nat} (hn : n ≤ 32) :
    (v.setWidth n).setWidth 32 = v &&& BitVec.ofNat 32 (2 ^ n - 1) := by
  apply BitVec.eq_of_toNat_eq
  have h2 : 2 ^ n ≤ 2 ^ 32 := Nat.pow_le_pow_right (by omega) hn
  have hpos : 0 < 2 ^ n := Nat.two_pow_pos n
  rw [BitVec.toNat_and, BitVec.toNat_ofNat, Nat.mod_eq_of_lt (by omega), Nat.and_two_pow_sub_one_eq_mod,
    BitVec.toNat_setWidth_of_le hn, BitVec.toNat_setWidth]

/-- A count of at most 256 survives the 9 bits of its register. -/
theorem setWidth_count {v : Word} (h : v.toNat ≤ 256) : (v.setWidth 9).setWidth 32 = v := by
  apply BitVec.eq_of_toNat_eq
  rw [BitVec.toNat_setWidth_of_le (by omega), BitVec.toNat_setWidth, Nat.mod_eq_of_lt (by omega)]

/-- The three fields of HDR_FORMAT take the low 24 bits of the word (R25). -/
theorem readReg_writeReg_hdrFormat (s : State) (v : Word) :
    readReg (writeReg s .hdrFormat v) .hdrFormat = v &&& 0x00FFFFFF := by
  apply BitVec.eq_of_toNat_eq
  change (BitVec.ofNat 32 ((v.extractLsb' 0 8).toNat + 256 * (v.extractLsb' 8 8).toNat +
    65536 * (v.extractLsb' 16 8).toNat)).toNat = (v &&& BitVec.ofNat 32 (2 ^ 24 - 1)).toNat
  rw [← setWidth_setWidth_eq_and v (by decide)]
  simp only [BitVec.toNat_ofNat, BitVec.extractLsb'_toNat, BitVec.toNat_setWidth, Nat.shiftRight_eq_div_pow]
  omega

theorem bitAt_getLsbD (v : Word) (i : Nat) : bitAt (v.getLsbD i) i = v.toNat / 2 ^ i % 2 * 2 ^ i := by
  rw [bitAt, BitVec.getLsbD, Nat.testBit_eq_decide_div_mod_eq]
  rcases Nat.mod_two_eq_zero_or_one (v.toNat / 2 ^ i) with h | h <;> simp [h]

/-- The three flags of TRNS_CTRL take the low 3 bits of the word (R44). -/
theorem readReg_writeReg_trnsCtrl (s : State) (v : Word) :
    readReg (writeReg s .trnsCtrl v) .trnsCtrl = v &&& 7 := by
  apply BitVec.eq_of_toNat_eq
  change (BitVec.ofNat 32 (bitAt (v.getLsbD 0) 0 + bitAt (v.getLsbD 1) 1 + bitAt (v.getLsbD 2) 2)).toNat =
    (v &&& BitVec.ofNat 32 (2 ^ 3 - 1)).toNat
  rw [← setWidth_setWidth_eq_and v (by decide)]
  simp only [BitVec.toNat_ofNat, BitVec.toNat_setWidth, bitAt_getLsbD]
  omega

theorem plteEntry_writeReg (s : State) (i j : Nat) (v : Word) :
    plteEntry (writeReg s (.plteRam i) v) j = if i = j then v.setWidth 24 else plteEntry s j := by
  simp only [plteEntry, writeReg, ramGet_ramSet]
  split <;> rfl

theorem alphaEntry_writeReg (s : State) (i j : Nat) (v : Word) :
    alphaEntry (writeReg s (.alphaRam i) v) j = if i = j then v.setWidth 8 else alphaEntry s j := by
  simp only [alphaEntry, writeReg, ramGet_ramSet]
  split <;> rfl

/-- A register written while idle reads as the stored word. -/
theorem readReg_writeReg_same (s : State) {r : Reg} (v : Word) (hr : r ∉ [Reg.ctrl, .status, .cmd]) :
    readReg (writeReg s r v) r = storedWord s r v := by
  cases r
  case ctrl | status | cmd => simp at hr
  case plteN =>
    rw [writeReg_plteN, storedWord]
    split
    · exact setWidth_count ‹_›
    · rfl
  case trnsN =>
    rw [writeReg_trnsN, storedWord]
    split
    · exact setWidth_count ‹_›
    · rfl
  case hdrFormat => exact readReg_writeReg_hdrFormat s v
  case trnsCtrl => exact readReg_writeReg_trnsCtrl s v
  case trnsGray | trnsR | trnsG | trnsB => exact setWidth_setWidth_eq_and v (by decide)
  case plteRam i =>
    rw [readReg, plteEntry_writeReg, if_pos rfl]
    exact setWidth_setWidth_eq_and v (by decide)
  case alphaRam i =>
    rw [readReg, alphaEntry_writeReg, if_pos rfl]
    exact setWidth_setWidth_eq_and v (by decide)
  all_goals rfl

/-- A write of a register changes no other register but what is computed from the header (R29, R30). -/
theorem readReg_writeReg_ne (s : State) {r r' : Reg} (v : Word) (hr : r ∉ [Reg.ctrl, .status, .cmd]) (hne : r' ≠ r)
    (hh : r' ∈ [Reg.hdrInfo, .rowBytes] → r ∉ [Reg.hdrWidth, .hdrHeight, .hdrFormat]) :
    readReg (writeReg s r v) r' = readReg s r' := by
  cases r
  case ctrl | status | cmd => simp at hr
  case plteN =>
    rw [writeReg_plteN]
    split
    · cases r' <;> first | rfl | exact absurd rfl hne
    · rfl
  case trnsN =>
    rw [writeReg_trnsN]
    split
    · cases r' <;> first | rfl | exact absurd rfl hne
    · rfl
  case hdrWidth | hdrHeight | hdrFormat =>
    cases r' <;> first | rfl | exact absurd rfl hne | simp at hh
  case plteRam i =>
    cases r'
    case plteRam j => rw [readReg, plteEntry_writeReg, if_neg (by rintro rfl; exact hne rfl)]; rfl
    all_goals rfl
  case alphaRam i =>
    cases r'
    case alphaRam j => rw [readReg, alphaEntry_writeReg, if_neg (by rintro rfl; exact hne rfl)]; rfl
    all_goals rfl
  case id | error | res0 | res1 | res2 | res3 | hdrInfo | rowBytes | framer | idatLen | dirCount | crcTable => rfl
  -- what is left are the stored words and TRNS_CTRL: the field written is read by its own register only
  all_goals (cases r' <;> first | rfl | exact absurd rfl hne)

/-! ### The statement -/

/-- A host read of a register while idle gives its value. -/
theorem hostReadReg_idle {s : State} (h : s.ctl.busy = false) (r : Reg) : hostReadReg s r = latch s (readReg s r) := by
  rw [hostReadReg, h]; rfl

/-- Taking an event off the inbox changes what no register reads. -/
theorem readReg_withInbox (s : State) (es : List Event) (r : Reg) : readReg (withInbox s es) r = readReg s r := by
  cases r <;> rfl

/-- Settles O11: while idle a host access of a register is `readReg` or `writeReg`, and a written register reads the stored
word while the others keep theirs. -/
theorem registersReadBack : Obligations.RegistersReadBack := by
  refine ⟨by decide, fun i hi => ⟨regAt_plteRam hi, regAt_alphaRam hi, regAt_crcTable hi⟩, ?_⟩
  intro s off r v es hp hi ho hr
  refine ⟨fun h => ?_, fun hn h => ⟨writeReg (withInbox s es) r v, ?_, ?_, fun r' hne hh => ?_, ?_, ?_⟩⟩
  · rw [step_read_reg hp ho hr h, hostReadReg_idle (s := withInbox s es) hi, readReg_withInbox]; rfl
  · rw [step_write_reg hp ho hr h, hostWriteReg_idle (s := withInbox s es) hi]
  · rw [readReg_writeReg_same _ v hn]
    cases r <;> rfl
  · rw [readReg_writeReg_ne _ v hn hne hh, readReg_withInbox]
  · obtain ⟨-, hbuf, hbus⟩ := writeReg_keeps (withInbox s es) r v
    exact fun x => bufByte_congr hbuf (congrArg Bus.epoch hbus) x
  · obtain ⟨hparams, -, hbus⟩ := writeReg_keeps (withInbox s es) r v
    exact ⟨hparams, hbus⟩

end Sys2Proof.Machine
end

section
/-! SUPPORT. The registers through a command: each register that a command's rule does not name reads as before it (R262 and the
command rules; Effects.lean). -/

namespace Sys2Proof.Machine

/-- What `mayWrite` denies: the register is not ERROR, the rule does not name it, and a parser's palette entries are out. -/
theorem mayWrite_eq_false {i : Instr} {r : Reg} (h : mayWrite i r = false) :
    r ≠ .error ∧ r ∉ writesOf i ∧ (writesPaletteRams i = true → r.isPaletteRam = false) := by
  simpa [mayWrite, and_assoc] using h

/-- A completion changes no register but STATUS and ERROR (R262). -/
theorem readReg_complete (s : State) (code info : Byte) {r : Reg} (hs : r ≠ .status) (he : r ≠ .error) :
    readReg (complete s code info) r = readReg s r := by
  cases r
  case status => exact absurd rfl hs
  case error => exact absurd rfl he
  all_goals rfl

/-- The writes of a command outside the parser change no register but those its rule names. -/
theorem OwnWrites.readReg_eq {i : Instr} {s u : State} (h : OwnWrites i s u) {r : Reg} (hr : r ∉ writesOf i) :
    readReg u r = readReg s r := by
  obtain ⟨r', crc, bs, rfl, hcrc, h0, h1, h2, h3, -⟩ := h
  cases r
  case crcReg => exact hcrc hr
  case res0 => exact h0 hr
  case res1 => exact h1 hr
  case res2 => exact h2 hr
  case res3 => exact h3 hr
  all_goals rfl

/-- FRAMER_RESET changes no register outside its list (R120). -/
theorem readReg_framerReset (s : State) {r : Reg} (hr : r ∉ framerResetWrites) :
    readReg (framerReset s) r = readReg s r := by
  cases r <;> first | rfl | exact absurd (by decide) hr

/-- FRAMER's state and FAIL_CODE are read in FRAMER only (R39). -/
theorem readReg_phase (s : State) (p : Phase) (c : Byte) {r : Reg} (hr : r ≠ .framer) :
    readReg { s with framer := { s.framer with phase := p, failCode := c } } r = readReg s r := by
  cases r
  case framer => exact absurd rfl hr
  all_goals rfl

theorem readReg_failFramer (s : State) (e : Err) {r : Reg} (hr : r ≠ .framer) :
    readReg (failFramer s e) r = readReg s r := by
  unfold failFramer
  split
  · rfl
  · exact readReg_phase s .failed e.code hr

theorem readReg_setRes0 (s : State) (n : Nat) {r : Reg} (hr : r ≠ .res0) : readReg (setRes0 s n) r = readReg s r := by
  cases r
  case res0 => exact absurd rfl hr
  all_goals rfl

/-- The registers of the parsers' list and the palette entries apart, a register is CTRL, CMD, an operand, CRC_REG or
constant. -/
theorem readReg_of_parser {s t : State} (ho : t.opd = s.opd) (hc : t.crcReg = s.crcReg) (hi : t.ctl.irqEn = s.ctl.irqEn)
    (hw : t.ctl.cmd = s.ctl.cmd) {r : Reg} (hs : r ≠ .status) (he : r ≠ .error) (hr : r ∉ parseWrites)
    (hp : r.isPaletteRam = false) : readReg t r = readReg s r := by
  cases r
  case status => exact absurd rfl hs
  case error => exact absurd rfl he
  case ctrl => simp only [readReg, ctrlWord, hi]
  case plteRam | alphaRam => cases hp
  case id | crcTable => rfl
  all_goals first | exact absurd (by decide) hr | simp only [readReg, ho, hc, hw]

/-- The parsers keep every register outside their list (R124 to R133). -/
theorem readReg_exec_parser {i : Instr} {s t : State} {r : Reg} (h : exec i s = .next t) (hw : writesOf i = parseWrites)
    (hs : r ≠ .status) (he : r ≠ .error) (hr : r ∉ parseWrites) (hp : r.isPaletteRam = false) :
    readReg t r = readReg s r := by
  obtain ⟨-, ho, -, hcrc, hctl, -⟩ := (exec_cases h).keeps
  exact readReg_of_parser ho (hcrc (by rw [hw]; decide)) (by rw [hctl]) (by rw [hctl]) hs he hr hp

/-- SIG_CHECK changes FRAMER and RES0 only (R121, R123). -/
theorem readReg_exec_sigCheck {s t : State} {r : Reg} (h : exec .sigCheck s = .next t) (hs : r ≠ .status) (he : r ≠ .error)
    (hf : r ≠ .framer) (h0 : r ≠ .res0) : readReg t r = readReg s r := by
  rcases exec_sigCheck_cases h with ⟨rfl, -⟩ | ⟨e, rfl⟩
  · rw [succeed, readReg_complete _ _ _ hs he, readReg_setRes0 _ _ h0]
    exact readReg_phase s .sigOk s.framer.failCode hf
  · rw [fail, readReg_complete _ _ _ hs he, readReg_failFramer s e hf]

/-- Settles O14: a command outside the parser writes what `OwnWrites` says, and the parser's commands keep all that their
lists do not name. -/
theorem commandsWriteOnlyTheirRegisters : Obligations.CommandsWriteOnlyTheirRegisters := by
  intro i s t r h hm hs
  obtain ⟨he, hr, hp⟩ := mayWrite_eq_false hm
  by_cases hi : i ∈ [Instr.framerReset, .sigCheck, .chunkParse, .streamParse]
  · simp only [List.mem_cons, List.not_mem_nil, or_false] at hi
    rcases hi with rfl | rfl | rfl | rfl
    · cases h
      exact (readReg_complete _ _ _ hs he).trans (readReg_framerReset s hr)
    · simp only [writesOf, List.mem_cons, List.not_mem_nil, or_false, not_or] at hr
      exact readReg_exec_sigCheck h hs he hr.1 hr.2
    · exact readReg_exec_parser h rfl hs he hr (hp rfl)
    · exact readReg_exec_parser h rfl hs he hr (hp rfl)
  · rcases exec_own hi h with ⟨e, rfl⟩ | ⟨u, hu, rfl⟩
    · exact readReg_complete s e.code e.info hs he
    · exact (readReg_complete u 0 0 hs he).trans (hu.readReg_eq hr)

end Sys2Proof.Machine
end

section
/-! SUPPORT. The header: when it is valid and what is computed from it (10_state.md rules R26 to R30). -/

namespace Sys2Proof.Machine

/-- A legal pair is one of R27 that the build keeps (D20; log 14). -/
theorem legalPair_iff (p : Params) (d ct : Nat) :
    legalPair p d ct = true ↔ (d, ct) ∈ Config.pngPairs ∧ (d, ct) ∈ p.legalPairs := by
  simp [legalPair]

/-- The colour type of a pair of R27, with the channels of R26. -/
theorem ofCode_of_pngPair {d ct : Nat} (h : (d, ct) ∈ Config.pngPairs) :
    ∃ c, ColorType.ofCode ct = some c ∧ c.code = ct ∧
      c.channels = if ct = 2 then 3 else if ct = 4 then 2 else if ct = 6 then 4 else 1 := by
  have codes : ∀ q ∈ Config.pngPairs, q.2 ∈ [0, 2, 3, 4, 6] := by decide
  have hct := codes _ h
  simp only [List.mem_cons, List.not_mem_nil, or_false] at hct
  rcases hct with rfl | rfl | rfl | rfl | rfl <;> exact ⟨_, rfl, rfl, rfl⟩

/-- R28's condition, on the header registers. -/
def HeaderValid (s : State) : Prop :=
  1 ≤ s.hdr.width.toNat ∧ 1 ≤ s.hdr.height.toNat ∧
  ((s.hdr.bitDepth.toNat, s.hdr.colorType.toNat) ∈ Config.pngPairs ∧
    (s.hdr.bitDepth.toNat, s.hdr.colorType.toNat) ∈ s.params.legalPairs) ∧
  s.hdr.interlace.toNat ≤ 1

/-- The header of a state that meets R28's condition. -/
theorem header_of_valid {s : State} {c : ColorType} (h : HeaderValid s)
    (hc : ColorType.ofCode s.hdr.colorType.toNat = some c) :
    header s = some ⟨s.hdr.width.toNat, s.hdr.height.toNat, s.hdr.bitDepth.toNat, c, s.hdr.interlace.toNat == 1⟩ := by
  obtain ⟨hw, hh, hl, hi⟩ := h
  rw [header, headerOf, if_pos ⟨hw, hh, (legalPair_iff _ _ _).2 hl, hi⟩, hc]
  rfl

theorem header_of_not_valid {s : State} (h : ¬HeaderValid s) : header s = none := by
  rw [header, headerOf, if_neg]
  rintro ⟨hw, hh, hl, hi⟩
  exact h ⟨hw, hh, (legalPair_iff _ _ _).1 hl, hi⟩

theorem readReg_hdrInfo_of_header {s : State} {h : Header} (hh : header s = some h) :
    readReg s .hdrInfo = BitVec.ofNat 32 (1 + 2 ^ 8 * h.color.channels + 2 ^ 16 * h.bitsPP + 2 ^ 24 * h.bpp) := by
  simp only [readReg, hdrInfoWord, hh]

theorem readReg_rowBytes_of_header {s : State} {h : Header} (hh : header s = some h) :
    readReg s .rowBytes = BitVec.ofNat 32 h.rowBytes := by
  simp only [readReg, rowBytesWord, hh]

/-- HDR_INFO and ROW_BYTES read 0 while the header is invalid (R29, R30). -/
theorem readReg_of_no_header {s : State} (hh : header s = none) : readReg s .hdrInfo = 0 ∧ readReg s .rowBytes = 0 := by
  simp only [readReg, hdrInfoWord, rowBytesWord, hh, and_self]

/-- Settles O19: a pair of R27 has a colour type with R26's channels, and the computed registers read from the header. -/
theorem headerRegistersDeriveFromTheHeader : Obligations.HeaderRegistersDeriveFromTheHeader := by
  intro s d ct w legal channels bits rowBytes valid
  refine ⟨fun hv => ?_, fun hn => ?_⟩
  · have hv : HeaderValid s := hv
    obtain ⟨-, -, ⟨hpair, -⟩, -⟩ := id hv
    obtain ⟨c, hc, hcode, (hch : c.channels = channels)⟩ := ofCode_of_pngPair hpair
    have hh := header_of_valid hv hc
    have hbits : c.channels * d = bits := by rw [hch]
    have hrow : (w * (c.channels * d) + 7) / 8 = rowBytes := by rw [hbits]
    refine ⟨_, hh, rfl, rfl, rfl, hcode, ?_, hch, hbits, ?_, ?_, ?_, ?_⟩
    · rw [beq_iff_eq]
      exact BitVec.toNat_inj (y := 1#8)
    · rw [← hbits]; rfl
    · exact hrow
    · rw [readReg_hdrInfo_of_header hh, ← hch, ← hbits]; rfl
    · rw [readReg_rowBytes_of_header hh, BitVec.toNat_ofNat, ← hrow]; rfl
  · have hh := header_of_not_valid hn
    exact ⟨hh, readReg_of_no_header hh⟩

end Sys2Proof.Machine
end

section
/-! SUPPORT. The commands that use the header: InvalidHeader without a valid one, else the first check of their list that fails
(R182, R204, R205, R230, R231, R238). -/

namespace Sys2Proof.Machine

/-- A rule with a header raises InvalidHeader where the header is not valid (R28). -/
theorem failsWith_invalidHeader {i : Instr} {s : State} {k : Header → Except Err State} (hh : header s = none)
    (hk : exec i s = finish s (requireHeader s >>= k)) : FailsWith i s .invalidHeader := by
  rw [FailsWith, hk, requireHeader_none hh]
  rfl

/-- A rule that begins with a list of checks fails with the first one that does not hold (R263). -/
theorem failsWith_firstError {i : Instr} {s : State} {cs : List Check} {k : Unit → Except Err State} {e : Err}
    (hk : exec i s = finish s (runChecks cs >>= k)) (he : firstError cs = some e) : FailsWith i s e := by
  rw [FailsWith, hk]
  exact finish_error he

theorem exec_imageCommand (m : FilterMode) (s : State) : exec (imageCommand m) s = finish s (filterImage m s) := by
  cases m with
  | fixed f => cases f <;> rfl
  | adaptive => rfl

/-- The palette check of DECODE_NORMALIZE (R238), as a condition on the colour type. -/
theorem paletteCheck_eq (c : ColorType) (n : BitVec 9) :
    (!(c == .palette && n == 0)) = decide (c = .palette → n ≠ 0) := by
  rw [Bool.eq_iff_iff]
  simp

/-- Settles O45: each rule is a required header and then its list of checks. -/
theorem headerCommandsCheckInOrder : Obligations.HeaderCommandsCheckInOrder := by
  intro s i
  refine ⟨fun hh hi => ?_, fun h e hh => ?_⟩
  · simp only [List.mem_cons, List.not_mem_nil, or_false] at hi
    rcases hi with rfl | rfl | rfl | rfl | rfl | rfl | rfl | rfl | rfl | rfl | rfl | rfl | rfl | rfl | rfl | rfl | rfl |
      rfl | rfl | rfl | rfl | rfl | rfl <;> exact failsWith_invalidHeader hh rfl
  · refine ⟨fun m he => ?_, fun he => ?_, fun he => ?_, fun he => ?_, fun narrow => ⟨fun he => ?_, fun he => ?_⟩,
      fun s16 he => ?_⟩
    · exact failsWith_firstError ((exec_imageCommand m s).trans (congrArg (finish s) (filterImage_eq hh m))) he
    · exact failsWith_firstError (congrArg (finish s) (unfilterImage_eq hh)) he
    · exact failsWith_firstError (congrArg (finish s) (deinterlace_eq hh)) he
    · exact failsWith_firstError (congrArg (finish s) (interlace_eq hh)) he
    · exact failsWith_firstError (congrArg (finish s) (depthExpand_eq hh narrow)) he
    · refine failsWith_firstError (congrArg (finish s) (decodeNormalize_eq hh narrow)) ?_
      rw [paletteCheck_eq, beq_eq_decide]
      exact he
    · exact failsWith_firstError (congrArg (finish s) (depthPack_eq hh s16)) he

end Sys2Proof.Machine
end

section
/-! SUPPORT. Host accesses of the buffer while idle: which byte stands in which lane (20_memory.md rules R63, R65). -/

namespace Sys2Proof.Machine

/-! ### Lanes (R63) -/

/-- The lowest bit of the lane that carries byte `k` of an access of `n` bytes (R63). -/
def laneBit (o : LaneOrder) (n k : Nat) : Nat := if o = .little then 8 * k else 8 * (n - 1 - k)

theorem laneBytes_getElem (o : LaneOrder) (n : Nat) (v : Word) (k : Nat) (hk : k < (laneBytes o n v).length) :
    (laneBytes o n v)[k] = v.extractLsb' (laneBit o n k) 8 := by
  cases o with
  | little => simp [laneBytes, laneBit]
  | big => simp [laneBytes, laneBit]

/-- Byte `j` of a big-endian field, counted from the last one, stands at bit `8 * j` of the word. -/
theorem extractLsb'_beNat {bs : List Byte} (hl : bs.length ≤ 4) {j : Nat} (hj : j < bs.length) :
    (BitVec.ofNat 32 (beNat bs)).extractLsb' (8 * j) 8 = bs[bs.length - 1 - j] := by
  have hlt : beNat bs < 2 ^ 32 := (beNat_lt bs).trans_le (Nat.pow_le_pow_right (n := 256) (by decide) hl)
  calc (BitVec.ofNat 32 (beNat bs)).extractLsb' (8 * j) 8
      = BitVec.ofNat 8 (beNat bs / 256 ^ j) := by
        rw [BitVec.extractLsb', BitVec.toNat_ofNat, Nat.mod_eq_of_lt hlt, Nat.shiftRight_eq_div_pow, pow_mul]
        rfl
    _ = (beBytes (beNat bs) bs.length)[bs.length - 1 - j]'(by rw [beBytes_length]; omega) := by
        simp only [beBytes, List.getElem_map, List.getElem_range]
        rw [show bs.length - 1 - (bs.length - 1 - j) = j by omega]
    _ = bs[bs.length - 1 - j] := by simp only [beBytes_beNat]

theorem extractLsb'_laneValue (o : LaneOrder) {bs : List Byte} (hl : bs.length ≤ 4) {k : Nat} (hk : k < bs.length) :
    (laneValue o bs).extractLsb' (laneBit o bs.length k) 8 = bs[k] := by
  cases o with
  | little =>
    have h := extractLsb'_beNat (bs := bs.reverse) (by simpa using hl) (j := k) (by simpa using hk)
    simp only [List.length_reverse, List.getElem_reverse, show bs.length - 1 - (bs.length - 1 - k) = k by omega] at h
    exact h
  | big =>
    have h := extractLsb'_beNat hl (j := bs.length - 1 - k) (by omega)
    simp only [show bs.length - 1 - (bs.length - 1 - k) = k by omega] at h
    exact h

/-- The bits above a narrow read are 0 (log 11). -/
theorem laneValue_lt (o : LaneOrder) (bs : List Byte) : (laneValue o bs).toNat < 256 ^ bs.length := by
  have le {n : Nat} (h : n < 256 ^ bs.length) : (BitVec.ofNat 32 n).toNat < 256 ^ bs.length := by
    rw [BitVec.toNat_ofNat]
    exact (Nat.mod_le _ _).trans_lt h
  cases o with
  | little => exact le (by simpa using beNat_lt bs.reverse)
  | big => exact le (beNat_lt bs)

/-! ### Steps -/

section
variable {s : State} {es : List Event} {a : Nat} {w : Width}

/-- An aligned access inside the buffer window is an access of its bytes (R60, R65). -/
theorem bufAccess_at (hw : w ∈ [Width.w8, .w16, .w32]) (ha : a + w.bytes ≤ s.params.memBytes)
    (hal : (s.params.bufBase + a) % w.bytes = 0) :
    inBufWindow s.params (s.params.bufBase + a) w = true ∧ bufAccess s.params (s.params.bufBase + a) w = some a := by
  refine ⟨?_, (bufAccess_eq_some _ _ _ _).2 ⟨hw, hal, by omega⟩⟩
  simp only [inBufWindow, decide_eq_true_eq]
  omega

theorem step_write_buf {v : Word} (hw : w ∈ [Width.w8, .w16, .w32])
    (hreg : inRegWindow s.params (s.params.bufBase + a) = false) (ha : a + w.bytes ≤ s.params.memBytes)
    (hal : (s.params.bufBase + a) % w.bytes = 0) (h : s.bus.inbox = .write (s.params.bufBase + a) w v :: es) :
    step s = .next (hostWriteBuf (withInbox s es) a w v) := by
  obtain ⟨hin, hacc⟩ := bufAccess_at hw ha hal
  rw [step_cons h]
  simp only [handle, hostWrite, withInbox_params, hreg, hin, hacc, Bool.false_eq_true, if_false, if_true]

theorem step_read_buf (hw : w ∈ [Width.w8, .w16, .w32])
    (hreg : inRegWindow s.params (s.params.bufBase + a) = false) (ha : a + w.bytes ≤ s.params.memBytes)
    (hal : (s.params.bufBase + a) % w.bytes = 0) (h : s.bus.inbox = .read (s.params.bufBase + a) w :: es) :
    step s = .next (hostReadBuf (withInbox s es) a w) := by
  obtain ⟨hin, hacc⟩ := bufAccess_at hw ha hal
  rw [step_cons h]
  simp only [handle, hostRead, withInbox_params, hreg, hin, hacc, Bool.false_eq_true, if_false, if_true]

end

theorem hostWriteBuf_idle {s : State} (h : s.ctl.busy = false) (a : Nat) (w : Width) (v : Word) :
    hostWriteBuf s a w v = memWrite s a (laneBytes s.params.laneOrder w.bytes v) := by
  rw [hostWriteBuf, h]; rfl

theorem hostReadBuf_idle {s : State} (h : s.ctl.busy = false) (a : Nat) (w : Width) :
    hostReadBuf s a w = latch s (laneValue s.params.laneOrder (memRead s a w.bytes)) := by
  rw [hostReadBuf, h]; rfl

/-! ### The statement -/

theorem bytes_le_four {w : Width} (hw : w ∈ [Width.w8, .w16, .w32]) : w.bytes ≤ 4 := by
  revert w; decide

/-- Settles O12: while idle a write stores `laneBytes` of the word and a read latches `laneValue` of the bytes. -/
theorem bufferLanesFollowTheLaneOrder : Obligations.BufferLanesFollowTheLaneOrder := by
  intro s a wd v es hi hw hreg ha hal lane
  refine ⟨fun h => ⟨_, step_write_buf hw hreg ha hal h, ?_⟩, fun h => ⟨_, step_read_buf hw hreg ha hal h, ?_⟩⟩
  · rw [hostWriteBuf_idle (s := withInbox s es) hi]
    refine ⟨fun k hk => ?_, ?_, rfl⟩
    · rw [bufByte_memWrite_in _ _ _ _ (by simpa using hk), laneBytes_getElem]
      rfl
    · have hs := sameOutside_memWrite (withInbox s es) a (laneBytes s.params.laneOrder wd.bytes v)
      rw [laneBytes_length] at hs
      exact hs
  · rw [hostReadBuf_idle (s := withInbox s es) hi]
    refine ⟨fun k hk => ?_, ?_, rfl⟩
    · have hv := extractLsb'_laneValue s.params.laneOrder (bs := memRead s a wd.bytes)
        (by simpa using bytes_le_four hw) (k := k) (by simpa using hk)
      rw [memRead_getElem, memRead_length] at hv
      exact hv
    · have hv := laneValue_lt s.params.laneOrder (memRead s a wd.bytes)
      rw [memRead_length] at hv
      exact hv

end Sys2Proof.Machine
end

section
/-! SUPPORT. The buffer through a command: each byte outside the destination regions reads as before it (R68, R69, R262;
Effects.lean). -/

namespace Sys2Proof.Machine

/-! ### Committed chunks -/

/-- What a committed chunk writes: an IDAT payload within IDAT_CAP (R130), a directory record within DIR_CAP (R131), and
nothing for every other kind. -/
theorem commitChunk_bytes {s t : State} {c : Chunk} {q : Nat × Nat} (h : commitChunk s c q = .ok t) :
    SameBytes s t ∨
    (kindOf c.type = .idat ∧ s.framer.idatLen.toNat + c.len ≤ s.opd.idatCap.toNat ∧
      SameOutside s t (s.opd.idatBase.toNat + s.framer.idatLen.toNat) c.len) ∨
    (kindOf c.type = .ancillary ∧ s.framer.dirCount.toNat < s.opd.dirCap.toNat ∧ SameOutside s t (dirNext s) 12) := by
  cases hk : kindOf c.type
  case ihdr =>
    rw [commitChunk_ihdr hk, parseIhdr_eq] at h
    obtain ⟨_, _, h⟩ := bind_eq_ok.1 h
    cases h; exact .inl fun _ => rfl
  all_goals
    rw [commitChunk_of_kind hk (by simp)] at h
    obtain ⟨_, _, h⟩ := bind_eq_ok.1 h
  case plte =>
    rw [parsePlte_eq] at h
    obtain ⟨_, _, h⟩ := bind_eq_ok.1 h
    cases h; exact .inl fun _ => rfl
  case trns =>
    rw [parseTrns_eq] at h
    obtain ⟨_, _, h⟩ := bind_eq_ok.1 h
    obtain ⟨u, hu, h⟩ := bind_eq_ok.1 h
    obtain ⟨⟨-, -, -, -, -, hbus⟩, -, -, -, hbuf⟩ := trnsBody_keeps hu
    cases h; exact .inl (bufByte_congr hbuf (congrArg Bus.epoch hbus))
  case iend =>
    rw [parseIend_eq] at h
    obtain ⟨_, _, h⟩ := bind_eq_ok.1 h
    cases h; exact .inl fun _ => rfl
  case unknownCritical => cases h
  case idat =>
    rw [parseIdat_eq] at h
    obtain ⟨_, hc, h⟩ := bind_eq_ok.1 h
    have hcap : s.framer.idatLen.toNat + c.len ≤ s.opd.idatCap.toNat := by
      simpa [capCheck] using
        checks_of_runChecks hc (capCheck (s.framer.idatLen.toNat + c.len) s.opd.idatCap.toNat .idat) (by simp)
    have hs := sameOutside_memWrite s (s.opd.idatBase.toNat + s.framer.idatLen.toNat) (memRead s c.data c.len)
    rw [memRead_length] at hs
    cases h; exact .inr (.inl ⟨rfl, hcap, hs⟩)
  case ancillary =>
    rw [parseAncillary_eq] at h
    obtain ⟨_, hc, h⟩ := bind_eq_ok.1 h
    have hcap : s.framer.dirCount.toNat < s.opd.dirCap.toNat := by
      simpa using checks_of_runChecks hc _ (List.mem_cons_self ..)
    cases h; exact .inr (.inr ⟨rfl, hcap, sameOutside_memWrite s (dirNext s) (dirRecord c)⟩)

theorem parseChunk_ok {s t : State} {a rem : Nat} {q : Nat × Nat} {c : Chunk} (h : parseChunk s a rem q = .ok (t, c)) :
    frameChunk s a rem = .ok c ∧ commitChunk s c q = .ok t := by
  unfold parseChunk at h
  obtain ⟨_, hf, h⟩ := bind_eq_ok.1 h
  obtain ⟨_, hc, h⟩ := bind_eq_ok.1 h
  cases h
  exact ⟨hf, hc⟩

/-- A parsed chunk writes in its own destination region only. -/
theorem bufByte_parseChunk {s t : State} {a rem x : Nat} {q : Nat × Nat} {c : Chunk}
    (h : parseChunk s a rem q = .ok (t, c)) (hx : outsideAll (chunkDests s a rem) x) : bufByte t x = bufByte s x := by
  obtain ⟨hf, hc⟩ := parseChunk_ok h
  rcases commitChunk_bytes hc with hs | ⟨hk, -, hs⟩ | ⟨hk, -, hs⟩
  · exact hs x
  · exact hs x (hx (s.opd.idatBase.toNat + s.framer.idatLen.toNat, c.len) (by simp [chunkDests, hf, hk]))
  · exact hs x (hx (dirNext s, 12) (by simp [chunkDests, hf, hk]))

/-- The regions that bound every chunk's writes: IDAT_CAP bytes at IDAT_BASE and DIR_CAP records at DIR_BASE (R130, R131). -/
theorem bufByte_parseChunk_of_caps {s t : State} {a rem x : Nat} {q : Nat × Nat} {c : Chunk}
    (h : parseChunk s a rem q = .ok (t, c)) (hx : outsideAll (destRegions .streamParse s) x) :
    bufByte t x = bufByte s x := by
  have hidat := hx (s.opd.idatBase.toNat, s.opd.idatCap.toNat) (by simp [destRegions])
  have hdir := hx (s.opd.dirBase.toNat, 12 * s.opd.dirCap.toNat) (by simp [destRegions])
  simp only at hidat hdir
  rcases commitChunk_bytes (parseChunk_ok h).2 with hs | ⟨-, hcap, hs⟩ | ⟨-, hcap, hs⟩
  · exact hs x
  · exact hs x (by omega)
  · exact hs x (by unfold dirNext; omega)

/-! ### Commands -/

theorem OwnWrites.bufByte_eq {i : Instr} {s u : State} (h : OwnWrites i s u) {x : Nat}
    (hx : outsideAll (destRegions i s) x) : bufByte u x = bufByte s x := by
  obtain ⟨r, crc, bs, rfl, -, -, -, -, -, rfl | ⟨hd, -⟩⟩ := h
  · rfl
  · rw [hd] at hx
    exact bufByte_memWrite_out s (dstAddr s) bs x (hx _ (List.mem_cons_self ..))

theorem bufByte_exec_chunkParse {s t : State} {x : Nat} (h : exec .chunkParse s = .next t)
    (hx : outsideAll (destRegions .chunkParse s) x) : bufByte t x = bufByte s x := by
  rcases finishParse_cases h with ⟨u, hu, rfl⟩ | ⟨e, -, rfl⟩
  · obtain ⟨⟨v, c⟩, hv, hu⟩ := bind_eq_ok.1 hu
    cases hu
    change bufByte v x = bufByte s x
    exact bufByte_parseChunk hv hx
  · rw [bufByte_fail, bufByte_failFramer]

/-- Every step of the stream writes within the caps, and none changes the registers that give them (R126). -/
theorem bufByte_streamParse {s : State} {x : Nat} (hx : outsideAll (destRegions .streamParse s) x) :
    bufByte (streamParse s).state x = bufByte s x := by
  have key : (streamParse s).state.opd = s.opd ∧ bufByte (streamParse s).state x = bufByte s x := by
    refine streamParse_induct (P := fun t => t.opd = s.opd ∧ bufByte t x = bufByte s x) ⟨rfl, rfl⟩ ?_ ?_
    · intro t ht
      rw [parseSignature_keeps ht]
      exact ⟨rfl, rfl⟩
    · rintro t u a rem q c ⟨ho, hb⟩ hp
      obtain ⟨-, -, ho', -⟩ := parseChunk_keeps hp
      have hx' : outsideAll (destRegions .streamParse t) x := by simpa only [destRegions, ho] using hx
      exact ⟨ho'.trans ho, (bufByte_parseChunk_of_caps hp hx').trans hb⟩
  exact key.2

theorem bufByte_exec_streamParse {s t : State} {x : Nat} (h : exec .streamParse s = .next t)
    (hx : outsideAll (destRegions .streamParse s) x) : bufByte t x = bufByte s x := by
  have hb := bufByte_streamParse hx
  rcases finishStream_cases h with ⟨u, off, n, hu, rfl⟩ | ⟨c, u, off, -, rfl⟩ | ⟨e, u, off, -, hu, rfl⟩
  · rw [hu] at hb
    exact hb
  · rfl
  · rw [hu] at hb
    rw [bufByte_fail, bufByte_failFramer]
    exact hb

/-- Settles O15: outside the parser the bytes are those of `OwnWrites`; a parser writes what its chunks do, and a failure
elsewhere writes nothing. -/
theorem commandsWriteOnlyTheirDestinations : Obligations.CommandsWriteOnlyTheirDestinations := by
  intro i s t x h hx
  by_cases hi : i ∈ [Instr.framerReset, .sigCheck, .chunkParse, .streamParse]
  · simp only [List.mem_cons, List.not_mem_nil, or_false] at hi
    rcases hi with rfl | rfl | rfl | rfl
    · cases h; rfl
    · rcases exec_sigCheck_cases h with ⟨rfl, -⟩ | ⟨e, rfl⟩
      · rfl
      · rw [bufByte_fail, bufByte_failFramer]
    · exact bufByte_exec_chunkParse h hx
    · exact bufByte_exec_streamParse h hx
  · rcases exec_own hi h with ⟨e, rfl⟩ | ⟨u, hu, rfl⟩
    · rfl
    · exact hu.bufByte_eq hx

end Sys2Proof.Machine
end

section
/-! SUPPORT. Laws of the decoder and the encoder (30_encoding.md rules R81 to R87), and the statements about command
words. -/

namespace Sys2Proof

/-! ### The fields of a word (R81) -/

theorem CmdFields.toNat_toWord (f : CmdFields) : f.toWord.toNat =
    f.rsv.toNat * 2 ^ 24 + f.flags.toNat * 2 ^ 16 + f.sub.toNat * 2 ^ 8 + f.opcode.toNat := by
  rw [toWord, BitVec.toNat_ofNat]
  omega

@[simp] theorem CmdFields.ofWord_toWord (f : CmdFields) : CmdFields.ofWord f.toWord = f := by
  have h := f.toNat_toWord
  rw [ofWord]
  congr <;> apply BitVec.eq_of_toNat_eq <;> rw [BitVec.extractLsb'_toNat, Nat.shiftRight_eq_div_pow] <;> omega

@[simp] theorem CmdFields.toWord_ofWord (w : Word) : (CmdFields.ofWord w).toWord = w := by
  apply BitVec.eq_of_toNat_eq
  simp only [toNat_toWord, ofWord, BitVec.extractLsb'_toNat, Nat.shiftRight_eq_div_pow]
  omega

/-! ### What a row of the opcode map selects (R83, R84, R87) -/

/-- What the SUB of `f` selects in its row `r`: `o` holds a command exactly where the row allows the SUB, and that command's
fields are those of `f`, less the FLAGS bits the row does not allow and RSV. -/
def OpcodeRow.Selects (r : OpcodeRow) (f : CmdFields) (o : Option Instr) : Prop :=
  r.subs.contains f.sub = o.isSome ∧ ∀ i, o = some i → encodeFields i = ⟨r.opcode, f.sub, f.flags &&& r.flagMask, 0⟩

theorem zero_eq_flags_and_zero (f : CmdFields) : 0 = f.flags &&& 0 := BitVec.and_zero.symm

theorem flagBit_first (f : CmdFields) : flagBit 0 f.first = f.flags &&& 1 := (BitVec.and_twoPow f.flags 0).symm

theorem flagBit_narrow (f : CmdFields) : flagBit 1 f.narrow = f.flags &&& 2 := (BitVec.and_twoPow f.flags 1).symm

theorem flagBit_s16 (f : CmdFields) : flagBit 2 f.s16 = f.flags &&& 4 := (BitVec.and_twoPow f.flags 2).symm

section
variable {op mask m : Byte} {f : CmdFields}

/-- A selection by table: the SUB values are the positions of the table. -/
theorem selects_getElem? {subs : List Byte} {l : List Instr} (hm : m = f.flags &&& mask)
    (hs : subs = (List.range l.length).map (BitVec.ofNat 8)) (hl : l.length ≤ 256)
    (h : l.map encodeFields = (List.range l.length).map fun k => ⟨op, BitVec.ofNat 8 k, m, 0⟩) :
    OpcodeRow.Selects ⟨op, subs, mask⟩ f l[f.sub.toNat]? := by
  subst hs
  refine ⟨?_, fun i hi => ?_⟩
  · rw [Bool.eq_iff_iff, List.contains_iff_mem, List.mem_map, isSome_getElem?]
    constructor
    · rintro ⟨k, hk, hs⟩
      rw [List.mem_range] at hk
      rw [← hs, BitVec.toNat_ofNat]
      omega
    · exact fun hs => ⟨f.sub.toNat, List.mem_range.2 hs, by simp⟩
  · have hi' := congrArg (·[f.sub.toNat]?) h
    obtain ⟨hlt, rfl⟩ := List.getElem?_eq_some_iff.1 hi
    simpa [hlt, ← hm] using hi'

theorem selects_soleSub {i : Instr} (hm : m = f.flags &&& mask) (h : encodeFields i = ⟨op, 0, m, 0⟩) :
    OpcodeRow.Selects ⟨op, [0], mask⟩ f (soleSub f i) := by
  subst hm
  unfold soleSub
  split
  · next hs => simp [OpcodeRow.Selects, hs, h]
  · next hs => simpa [OpcodeRow.Selects] using hs

end

theorem applyOfSub_eq (n : Nat) (first : Bool) : applyOfSub n first =
    [.filtApplyNone first, .filtApplySub first, .filtApplyUp first, .filtApplyAvg first, .filtApplyPaeth first][n]? :=
  match n with
  | 0 | 1 | 2 | 3 | 4 | _ + 5 => rfl

theorem reverseOfSub_eq (n : Nat) (first : Bool) : reverseOfSub n first =
    [.filtReverseNone first, .filtReverseSub first, .filtReverseUp first, .filtReverseAvg first,
      .filtReversePaeth first][n]? :=
  match n with
  | 0 | 1 | 2 | 3 | 4 | _ + 5 => rfl

theorem imageOfSub_eq (n : Nat) : imageOfSub n =
    [.filterImageNone, .filterImageSub, .filterImageUp, .filterImageAvg, .filterImagePaeth, .filterImageAdaptive][n]? :=
  match n with
  | 0 | 1 | 2 | 3 | 4 | 5 | _ + 6 => rfl

theorem geomOfSub_eq (n : Nat) : geomOfSub n =
    [.adam7GeomP0, .adam7GeomP1, .adam7GeomP2, .adam7GeomP3, .adam7GeomP4, .adam7GeomP5, .adam7GeomP6][n]? :=
  match n with
  | 0 | 1 | 2 | 3 | 4 | 5 | 6 | _ + 7 => rfl

theorem selects_applyOfSub (f : CmdFields) :
    OpcodeRow.Selects ⟨0x20, [0, 1, 2, 3, 4], 1⟩ f (applyOfSub f.sub.toNat f.first) := by
  rw [applyOfSub_eq]
  exact selects_getElem? (flagBit_first f) rfl (by simp) rfl

theorem selects_reverseOfSub (f : CmdFields) :
    OpcodeRow.Selects ⟨0x21, [0, 1, 2, 3, 4], 1⟩ f (reverseOfSub f.sub.toNat f.first) := by
  rw [reverseOfSub_eq]
  exact selects_getElem? (flagBit_first f) rfl (by simp) rfl

theorem selects_imageOfSub (f : CmdFields) :
    OpcodeRow.Selects ⟨0x24, [0, 1, 2, 3, 4, 5], 0⟩ f (imageOfSub f.sub.toNat) := by
  rw [imageOfSub_eq]
  exact selects_getElem? (zero_eq_flags_and_zero f) rfl (by simp) rfl

theorem selects_geomOfSub (f : CmdFields) :
    OpcodeRow.Selects ⟨0x30, [0, 1, 2, 3, 4, 5, 6], 0⟩ f (geomOfSub f.sub.toNat) := by
  rw [geomOfSub_eq]
  exact selects_getElem? (zero_eq_flags_and_zero f) rfl (by simp) rfl

theorem ColorType.ofCode_eq_some {n : Nat} {c : ColorType} : ColorType.ofCode n = some c ↔ c.code = n := by
  constructor
  · intro h
    unfold ofCode at h
    split at h <;> cases h <;> rfl
  · rintro rfl
    cases c <;> rfl

theorem ColorType.code_lt (c : ColorType) : c.code < 16 := by cases c <;> decide

theorem mem_colorCodes {n : Nat} : n ∈ colorCodes ↔ ∃ c : ColorType, c.code = n := by
  constructor
  · simp only [colorCodes, List.mem_cons, List.not_mem_nil, or_false]
    rintro (rfl | rfl | rfl | rfl | rfl)
    exacts [⟨.gray, rfl⟩, ⟨.rgb, rfl⟩, ⟨.palette, rfl⟩, ⟨.grayAlpha, rfl⟩, ⟨.rgba, rfl⟩]
  · rintro ⟨c, rfl⟩
    cases c <;> decide

theorem convertOfSub_eq_some {n : Nat} {s16 : Bool} {i : Instr} : convertOfSub n s16 = some i ↔
    ∃ src dst : ColorType, n = src.code + 16 * dst.code ∧ i = .colorConvert src dst s16 := by
  constructor
  · intro h
    unfold convertOfSub at h
    split at h
    · next src dst hsrc hdst =>
      rw [ColorType.ofCode_eq_some] at hsrc hdst
      cases h
      exact ⟨src, dst, by omega, rfl⟩
    · cases h
  · rintro ⟨src, dst, rfl, rfl⟩
    have hs := src.code_lt
    have hsrc : ColorType.ofCode ((src.code + 16 * dst.code) % 16) = some src :=
      ColorType.ofCode_eq_some.2 (by omega)
    have hdst : ColorType.ofCode ((src.code + 16 * dst.code) / 16) = some dst :=
      ColorType.ofCode_eq_some.2 (by omega)
    rw [convertOfSub, hsrc, hdst]

theorem mem_colorPairSubs {b : Byte} :
    b ∈ colorPairSubs ↔ ∃ src dst : ColorType, b.toNat = src.code + 16 * dst.code := by
  simp only [colorPairSubs, List.mem_flatMap, List.mem_map, mem_colorCodes]
  constructor
  · rintro ⟨-, ⟨src, rfl⟩, -, ⟨dst, rfl⟩, rfl⟩
    have hs := src.code_lt
    have hd := dst.code_lt
    exact ⟨src, dst, by rw [BitVec.toNat_ofNat]; omega⟩
  · rintro ⟨src, dst, h⟩
    exact ⟨_, ⟨src, rfl⟩, _, ⟨dst, rfl⟩, by rw [← h, BitVec.ofNat_toNat, BitVec.setWidth_eq]⟩

theorem selects_convertOfSub (f : CmdFields) :
    OpcodeRow.Selects ⟨0x42, colorPairSubs, 4⟩ f (convertOfSub f.sub.toNat f.s16) := by
  refine ⟨?_, fun i hi => ?_⟩
  · rw [Bool.eq_iff_iff, List.contains_iff_mem, mem_colorPairSubs, Option.isSome_iff_exists]
    constructor
    · rintro ⟨src, dst, h⟩
      exact ⟨_, convertOfSub_eq_some.2 ⟨src, dst, h, rfl⟩⟩
    · rintro ⟨i, hi⟩
      obtain ⟨src, dst, h, -⟩ := convertOfSub_eq_some.1 hi
      exact ⟨src, dst, h⟩
  · obtain ⟨src, dst, h, rfl⟩ := convertOfSub_eq_some.1 hi
    rw [encodeFields, ← h, flagBit_s16, BitVec.ofNat_toNat, BitVec.setWidth_eq]

/-! ### The opcode map (R87) -/

theorem opcodeEntry_of_row {r : OpcodeRow} (hr : r ∈ opcodeRows) {f : CmdFields} (hf : r.opcode = f.opcode) :
    ∃ o, opcodeEntry f = some (r.flagMask, o) ∧ r.Selects f o := by
  obtain ⟨op, sub, flags, rsv⟩ := f
  obtain rfl : r.opcode = op := hf
  simp only [opcodeRows, List.cons_append, List.nil_append, List.mem_cons, List.not_mem_nil, or_false] at hr
  rcases hr with rfl | rfl | rfl | rfl | rfl | rfl | rfl | rfl | rfl | rfl | rfl | rfl | rfl | rfl | rfl | rfl | rfl | rfl |
    rfl | rfl | rfl | rfl | rfl | rfl | rfl | rfl
  all_goals refine ⟨_, rfl, ?_⟩
  iterate 13 · exact selects_soleSub (zero_eq_flags_and_zero _) rfl
  · exact selects_applyOfSub _
  · exact selects_reverseOfSub _
  · exact selects_soleSub (flagBit_first _) rfl
  · exact selects_soleSub (zero_eq_flags_and_zero _) rfl
  · exact selects_imageOfSub _
  · exact selects_soleSub (zero_eq_flags_and_zero _) rfl
  · exact selects_geomOfSub _
  iterate 2 · exact selects_soleSub (zero_eq_flags_and_zero _) rfl
  · exact selects_soleSub (flagBit_narrow _) rfl
  · exact selects_soleSub (flagBit_s16 _) rfl
  · exact selects_convertOfSub _
  · exact selects_soleSub (flagBit_narrow _) rfl

theorem opcodes_nodup : (opcodeRows.map (·.opcode)).Nodup := by decide

theorem CmdFields.opcodeOk_iff {f : CmdFields} : f.opcodeOk = true ↔ ∃ r ∈ opcodeRows, r.opcode = f.opcode := by
  simp [opcodeOk]

theorem opcodeEntry_eq_none {f : CmdFields} (h : f.opcodeOk = false) : opcodeEntry f = none := by
  have hop : f.opcode = BitVec.ofNat 8 f.opcode.toNat := by simp
  unfold opcodeEntry
  split
  case h_27 => rfl
  all_goals
    rename_i hn
    rw [hn] at hop
    rw [CmdFields.opcodeOk, hop] at h
    exact absurd h (by decide)

/-- An opcode has one row, so a check over the map is a check on that row. -/
theorem any_opcodeRow {r : OpcodeRow} (hr : r ∈ opcodeRows) {f : CmdFields} (hf : r.opcode = f.opcode)
    (p : OpcodeRow → Bool) : (opcodeRows.any fun q => q.opcode == f.opcode && p q) = p r := by
  rw [Bool.eq_iff_iff, List.any_eq_true]
  constructor
  · rintro ⟨q, hq, hp⟩
    rw [Bool.and_eq_true, beq_iff_eq] at hp
    obtain rfl := List.inj_on_of_nodup_map opcodes_nodup hq hr (hp.1.trans hf.symm)
    exact hp.2
  · exact fun hp => ⟨r, hr, by simp [hf, hp]⟩

/-! ### The checks in their order (R82) -/

theorem decodeFields_eq {f : CmdFields} {mask : Byte} {o : Option Instr} (h : opcodeEntry f = some (mask, o)) :
    decodeFields f = if f.rsv = 0 then
      o.elim (.error .badSub) fun i => if f.flags &&& ~~~mask = 0 then .ok i else .error .badFlags
    else .error .reservedNotZero := by
  rw [decodeFields, h]
  cases o <;> rfl

/-- Masking with the allowed bits changes nothing where no other bit is set. -/
theorem and_mask_of_and_not_mask {x mask : Byte} (h : x &&& ~~~mask = 0) : x &&& mask = x := by
  calc x &&& mask = (x &&& mask) ||| (x &&& ~~~mask) := by rw [h]; simp
    _ = x := by rw [← BitVec.and_or_distrib_left, BitVec.or_not_self, BitVec.and_allOnes]

section
variable {f : CmdFields}

/-- A word whose opcode is in the map, by its row: the row's entry, what its SUB selects, and the two checks on the row. -/
theorem exists_row (h : f.opcodeOk = true) : ∃ (r : OpcodeRow) (o : Option Instr), r.opcode = f.opcode ∧
    opcodeEntry f = some (r.flagMask, o) ∧ r.Selects f o ∧
    f.subOk = o.isSome ∧ f.flagsOk = (f.flags &&& ~~~r.flagMask == 0) := by
  obtain ⟨r, hr, hf⟩ := CmdFields.opcodeOk_iff.1 h
  obtain ⟨o, he, hs⟩ := opcodeEntry_of_row hr hf
  exact ⟨r, o, hf, he, hs, (any_opcodeRow hr hf _).trans hs.1, any_opcodeRow hr hf _⟩

theorem decodeFields_of_opcode_bad (h : f.opcodeOk = false) : decodeFields f = .error .unassignedOpcode := by
  rw [decodeFields, opcodeEntry_eq_none h]

theorem decodeFields_of_rsv_bad (hop : f.opcodeOk = true) (h : f.rsvOk = false) :
    decodeFields f = .error .reservedNotZero := by
  obtain ⟨r, o, -, he, -⟩ := exists_row hop
  rw [decodeFields_eq he, if_neg (by simpa [CmdFields.rsvOk] using h)]

theorem decodeFields_of_sub_bad (hop : f.opcodeOk = true) (hrsv : f.rsvOk = true) (h : f.subOk = false) :
    decodeFields f = .error .badSub := by
  obtain ⟨r, o, -, he, -, hsub, -⟩ := exists_row hop
  obtain rfl : o = none := by simpa [h] using hsub
  rw [decodeFields_eq he, if_pos (beq_iff_eq.1 hrsv), Option.elim_none]

theorem decodeFields_of_flags_bad (hop : f.opcodeOk = true) (hrsv : f.rsvOk = true) (hsub : f.subOk = true)
    (h : f.flagsOk = false) : decodeFields f = .error .badFlags := by
  obtain ⟨r, o, -, he, -, ho, hflags⟩ := exists_row hop
  obtain ⟨i, rfl⟩ := Option.isSome_iff_exists.1 (ho.symm.trans hsub)
  rw [decodeFields_eq he, if_pos (beq_iff_eq.1 hrsv), Option.elim_some, if_neg (by simpa [h] using hflags)]

theorem decodeFields_of_wellFormed (h : f.wellFormed = true) : ∃ i, decodeFields f = .ok i ∧ encodeFields i = f := by
  simp only [CmdFields.wellFormed, Bool.and_eq_true] at h
  obtain ⟨⟨⟨hop, hrsv⟩, hsub⟩, hflags⟩ := h
  obtain ⟨r, o, hf, he, ⟨-, hs⟩, ho, hmask⟩ := exists_row hop
  obtain ⟨i, rfl⟩ := Option.isSome_iff_exists.1 (ho.symm.trans hsub)
  have hrsv : f.rsv = 0 := beq_iff_eq.1 hrsv
  have hmask : f.flags &&& ~~~r.flagMask = 0 := beq_iff_eq.1 (hmask.symm.trans hflags)
  refine ⟨i, ?_, ?_⟩
  · rw [decodeFields_eq he, if_pos hrsv, Option.elim_some, if_pos hmask]
  · rw [hs i rfl, hf, and_mask_of_and_not_mask hmask, ← hrsv]

/-- Only a word that passes the four checks decodes. -/
theorem wellFormed_of_decodeFields {i : Instr} (h : decodeFields f = .ok i) : f.wellFormed = true := by
  cases hop : f.opcodeOk with
  | false => rw [decodeFields_of_opcode_bad hop] at h; cases h
  | true =>
    cases hrsv : f.rsvOk with
    | false => rw [decodeFields_of_rsv_bad hop hrsv] at h; cases h
    | true =>
      cases hsub : f.subOk with
      | false => rw [decodeFields_of_sub_bad hop hrsv hsub] at h; cases h
      | true =>
        cases hflags : f.flagsOk with
        | false => rw [decodeFields_of_flags_bad hop hrsv hsub hflags] at h; cases h
        | true => simp [CmdFields.wellFormed, hop, hrsv, hsub, hflags]

theorem encodeFields_of_decodeFields {i : Instr} (h : decodeFields f = .ok i) : encodeFields i = f := by
  obtain ⟨j, hj, hf⟩ := decodeFields_of_wellFormed (wellFormed_of_decodeFields h)
  cases hj.symm.trans h
  exact hf

end

/-! ### Round trips -/

theorem decodeFields_encodeFields (i : Instr) : decodeFields (encodeFields i) = .ok i := by
  cases i
  case filtApplyNone b | filtApplySub b | filtApplyUp b | filtApplyAvg b | filtApplyPaeth b | filtReverseNone b |
      filtReverseSub b | filtReverseUp b | filtReverseAvg b | filtReversePaeth b | filtSelect b | depthExpand b |
      depthPack b | decodeNormalize b => cases b <;> rfl
  case colorConvert src dst s16 => cases src <;> cases dst <;> cases s16 <;> rfl
  all_goals rfl

theorem decode_encode (i : Instr) : decode (encode i) = .ok i := by
  rw [decode, encode, CmdFields.ofWord_toWord, decodeFields_encodeFields]

theorem encode_of_decode {w : Word} {i : Instr} (h : decode w = .ok i) : encode i = w := by
  rw [encode, encodeFields_of_decodeFields h, CmdFields.toWord_ofWord]

/-! ### The statements -/

/-- Settles O1: the fields and the word are inverse (R81), and so are decoding and encoding of the fields. -/
theorem decodeAndEncodeAgree : Obligations.DecodeAndEncodeAgree := by
  intro w i
  constructor
  · exact fun h => (encode_of_decode h).symm
  · rintro rfl
    exact decode_encode i

/-- Settles O2, by the row of the opcode. -/
theorem firstFailingDecodeCheckDecides : Obligations.FirstFailingDecodeCheckDecides := fun _ =>
  ⟨decodeFields_of_opcode_bad, decodeFields_of_rsv_bad, decodeFields_of_sub_bad, decodeFields_of_flags_bad,
    decodeFields_of_wellFormed⟩

/-- Settles O3: each word is the encoding of its command. -/
theorem specWordsDecode : Obligations.SpecWordsDecode :=
  ⟨decode_encode .nop, decode_encode .crc32, decode_encode .chunkParse, decode_encode (.filtApplyPaeth true),
    decode_encode .filterImageAdaptive, decode_encode .adam7GeomP4, decode_encode (.colorConvert .palette .rgba false),
    decode_encode (.colorConvert .rgba .gray true), decode_encode (.decodeNormalize true)⟩

end Sys2Proof
end

section
/-! SUPPORT. The engine's turn on a running command word (30_encoding.md rules R80, R88). -/

namespace Sys2Proof.Machine

section
variable {s : State} (hb : s.ctl.busy = true)
include hb

theorem engineTurn_of_decode_ok {t : State} {i : Instr} (hd : decode s.ctl.cmd = .ok i) (he : exec i s = .next t) :
    engineTurn s = .next (settle (destRegions i s) t) := by
  rw [engineTurn, if_pos hb, runCommand, fetchWord, hd]
  simp only [he]

theorem engineTurn_of_decode_error {e : DecodeError} (hd : decode s.ctl.cmd = .error e) :
    engineTurn s = .next (settle [] (fail s (decodeErr e))) := by
  rw [engineTurn, if_pos hb, runCommand, fetchWord, hd]

end

/-- The engine's turn is next, or nothing is to come: the step is the engine's turn, with what remains. -/
theorem step_engine {s : State} {es : List Event} (h : s.bus.inbox = .engine :: es ∨ (s.bus.inbox = [] ∧ es = [])) :
    step s = engineTurn (withInbox s es) := by
  rcases h with h | ⟨h, rfl⟩
  · exact step_cons h
  · rw [step_nil h, withInbox, ← h]

theorem exec_hazard {i : Instr} {s t : State} (h : exec i s = .next t) : t.bus.hazard = s.bus.hazard := by
  obtain ⟨-, -, hbus, -⟩ := (exec_cases h).keeps
  rw [hbus]

/-- Settles O4: the step is the turn of the engine, and a command leaves the mark of a host write while BUSY as it is. -/
theorem stepRunsTheDecodedCommand : Obligations.StepRunsTheDecodedCommand := by
  intro s t i es hb hd hin he
  refine ⟨?_, fun hz => settle_of_no_hazard _ ((exec_hazard he).trans hz)⟩
  rw [step_engine hin]
  exact engineTurn_of_decode_ok (s := withInbox s es) hb hd he

/-- Settles O5: the completion is the decode error's `fail`, which writes STATUS and ERROR only. -/
theorem illegalWordChangesOnlyStatusAndError : Obligations.IllegalWordChangesOnlyStatusAndError := by
  intro s e es hb hz hd hin
  rw [step_engine (.inl hin), engineTurn_of_decode_error (s := withInbox s es) hb hd,
    settle_of_no_hazard _ (s := fail (withInbox s es) (decodeErr e)) hz]
  cases e <;> rfl

end Sys2Proof.Machine
end

section
/-! SUPPORT. Laws of the CRC32 engine (40_crc.md rules R100 to R102): a bit step is linear and injective, a byte step is
eight bit steps, and so the CRC tells any two values of one byte apart. -/

namespace Sys2Proof.Machine

/-! ### One bit (R101) -/

/-- What a bit step adds for the bit it shifts out: the polynomial, or nothing. -/
def crcTap (b : Bool) : Word := if b then 0xEDB88320 else 0

theorem crcTap_xor (a b : Bool) : crcTap (a ^^ b) = crcTap a ^^^ crcTap b := by
  cases a <;> cases b <;> rfl

theorem crcBitStep_eq (c : Word) : crcBitStep c = crcTap (c.getLsbD 0) ^^^ (c >>> 1) := by
  have hand : c &&& 1 = if c.getLsbD 0 then 1 else 0 := BitVec.and_twoPow c 0
  rw [crcBitStep, hand]
  cases c.getLsbD 0
  · exact BitVec.zero_xor.symm
  · rfl

/-- A bit step is linear over exclusive or. -/
theorem crcBitStep_xor (x y : Word) : crcBitStep (x ^^^ y) = crcBitStep x ^^^ crcBitStep y := by
  simp only [crcBitStep_eq, BitVec.getLsbD_xor, BitVec.ushiftRight_xor_distrib, crcTap_xor]
  ac_rfl

/-- The polynomial has the top bit set, so the top bit after a step is the bit shifted out. -/
theorem crcBitStep_msb (c : Word) : (crcBitStep c).getLsbD 31 = c.getLsbD 0 := by
  rw [crcBitStep_eq, BitVec.getLsbD_xor, BitVec.getLsbD_ushiftRight, BitVec.getLsbD_of_ge c (1 + 31) (by decide)]
  cases c.getLsbD 0 <;> rfl

theorem crcBitStep_injective : Function.Injective crcBitStep := by
  intro x y h
  have hlow : x.getLsbD 0 = y.getLsbD 0 := by rw [← crcBitStep_msb, h, crcBitStep_msb]
  have hhigh : x >>> 1 = y >>> 1 := by
    rw [crcBitStep_eq, crcBitStep_eq, hlow] at h
    exact (BitVec.xor_right_inj _).1 h
  refine BitVec.eq_of_getLsbD_eq fun i _ => ?_
  cases i with
  | zero => exact hlow
  | succ i =>
    have hi := congrArg (·.getLsbD i) hhigh
    simpa [Nat.add_comm] using hi

/-! ### Eight bits (R101, R102) -/

theorem crcBitStep_iterate_xor (n : Nat) (x y : Word) :
    crcBitStep^[n] (x ^^^ y) = crcBitStep^[n] x ^^^ crcBitStep^[n] y := by
  induction n generalizing x y with
  | zero => rfl
  | succ n ih => rw [Function.iterate_succ_apply, crcBitStep_xor, ih]; rfl

/-- Steps that shift out zeros only are a shift. -/
theorem crcBitStep_iterate_of_low_zero {n : Nat} {c : Word} (h : ∀ i < n, c.getLsbD i = false) :
    crcBitStep^[n] c = c >>> n := by
  induction n generalizing c with
  | zero => rfl
  | succ n ih =>
    have hstep : crcBitStep c = c >>> 1 := by
      rw [crcBitStep_eq, h 0 n.succ_pos]
      exact BitVec.zero_xor
    have hnext : ∀ i < n, (c >>> 1).getLsbD i = false := fun i hi => by
      rw [BitVec.getLsbD_ushiftRight, Nat.add_comm]
      exact h _ (Nat.succ_lt_succ hi)
    rw [Function.iterate_succ_apply, hstep, ih hnext, ← BitVec.shiftRight_add, Nat.add_comm]

theorem crcTable_eq_iterate (i : Nat) : crcTable i = crcBitStep^[8] (BitVec.ofNat 32 i) :=
  List.foldl_const crcBitStep _ _

/-- Eight steps take the low byte through the table and shift the other three down: by linearity the two parts go apart. -/
theorem crcBitStep_iterate_eight (c : Word) : crcBitStep^[8] c = crcTable (c &&& 0xFF).toNat ^^^ (c >>> 8) := by
  have hsplit : c = (c &&& 0xFF) ^^^ (c ^^^ (c &&& 0xFF)) := by
    rw [BitVec.xor_comm c, ← BitVec.xor_assoc, BitVec.xor_self, BitVec.zero_xor]
  have hzero : ∀ i < 8, (c ^^^ (c &&& 0xFF)).getLsbD i = false := by
    intro i hi
    have hmask : (0xFF : Word).getLsbD i = true := by revert i; decide
    rw [BitVec.getLsbD_xor, BitVec.getLsbD_and, hmask, Bool.and_true, Bool.xor_self]
  have hshift : (c ^^^ (c &&& 0xFF)) >>> 8 = c >>> 8 := by
    simp [BitVec.ushiftRight_xor_distrib, BitVec.ushiftRight_and_distrib]
  calc crcBitStep^[8] c
      = crcBitStep^[8] (c &&& 0xFF) ^^^ crcBitStep^[8] (c ^^^ (c &&& 0xFF)) := by
        rw [← crcBitStep_iterate_xor, ← hsplit]
    _ = crcTable (c &&& 0xFF).toNat ^^^ (c >>> 8) := by
        rw [crcTable_eq_iterate, BitVec.ofNat_toNat, BitVec.setWidth_eq, crcBitStep_iterate_of_low_zero hzero, hshift]

/-- A byte step is eight bit steps on the register with the byte added at its low end. -/
theorem crcStep_eq_iterate (c : Word) (b : Byte) : crcStep c b = crcBitStep^[8] (c ^^^ b.setWidth 32) := by
  have hb : b.setWidth 32 >>> 8 = 0#32 := by bv_omega
  rw [crcBitStep_iterate_eight, BitVec.ushiftRight_xor_distrib, hb, BitVec.xor_zero, crcStep]

theorem crcStep_left_injective (b : Byte) : Function.Injective (crcStep · b) := by
  intro c d h
  simp only [crcStep_eq_iterate] at h
  exact (BitVec.xor_left_inj _).1 (crcBitStep_injective.iterate 8 h)

theorem crcStep_right_injective (c : Word) : Function.Injective (crcStep c) := by
  intro a b h
  simp only [crcStep_eq_iterate] at h
  have hab : a.setWidth 32 = b.setWidth 32 := (BitVec.xor_right_inj _).1 (crcBitStep_injective.iterate 8 h)
  bv_omega

/-- Settles O23: the bit step of the statement is `crcBitStep`. -/
theorem crcStepIsBitwiseDivision : Obligations.CrcStepIsBitwiseDivision :=
  ⟨fun _ i _ => crcTable_eq_iterate i, crcStep_eq_iterate⟩

/-! ### Byte sequences (R100) -/

theorem crcFold_append (c : Word) (as bs : List Byte) : crcFold c (as ++ bs) = crcFold (crcFold c as) bs :=
  List.foldl_append

theorem crcFold_left_injective (bs : List Byte) : Function.Injective (crcFold · bs) := by
  induction bs with
  | nil => exact Function.injective_id
  | cons b bs ih => exact ih.comp (crcStep_left_injective b)

theorem crc32_set (bs : List Byte) {i : Nat} (h : i < bs.length) (b : Byte) :
    crc32 (bs.set i b) =
      crcFold (crcStep (crcFold 0xFFFFFFFF (bs.take i)) b) (bs.drop (i + 1)) ^^^ 0xFFFFFFFF := by
  rw [crc32, List.set_eq_take_append_cons_drop, if_pos h, crcFold_append]
  rfl

/-- The CRC tells any two values of one byte apart. -/
theorem crc32_set_ne (bs : List Byte) {i : Nat} (h : i < bs.length) {b : Byte} (hb : b ≠ bs[i]) :
    crc32 (bs.set i b) ≠ crc32 bs := by
  intro he
  have hself := crc32_set bs h bs[i]
  rw [List.set_getElem_self] at hself
  rw [crc32_set bs h, hself] at he
  exact hb (crcStep_right_injective _ (crcFold_left_injective _ ((BitVec.xor_left_inj _).1 he)))

theorem xor_bit_ne_self (b : Byte) {k : Nat} (hk : k < 8) : b ^^^ (1#8 <<< k) ≠ b := by
  have hbit : 1#8 <<< k ≠ 0#8 := by revert k; decide
  intro h
  exact hbit ((BitVec.xor_right_inj b).1 (h.trans BitVec.xor_zero.symm))

end Sys2Proof.Machine
end

section
/-! SUPPORT. The commands without operands and the CRC commands (45_control.md rule R140; 40_crc.md rules R103 to R106;
41_framer.md rule R120). -/

namespace Sys2Proof.Machine

theorem opcodeEntry_nop {f : CmdFields} (h : f.opcode = 0) : opcodeEntry f = some (0, soleSub f .nop) := by
  rw [opcodeEntry, h]; rfl

/-- A word with NOP's opcode, by the checks of R82 that its row of the opcode map leaves: RSV, SUB and FLAGS are 0. -/
theorem decode_of_nop_opcode {w : Word} (h : (CmdFields.ofWord w).opcode = 0) :
    decode w =
      if (CmdFields.ofWord w).rsv ≠ 0 then .error .reservedNotZero
      else if (CmdFields.ofWord w).sub ≠ 0 then .error .badSub
      else if (CmdFields.ofWord w).flags ≠ 0 then .error .badFlags
      else .ok .nop := by
  have hmask : (CmdFields.ofWord w).flags &&& ~~~0 = (CmdFields.ofWord w).flags := BitVec.and_allOnes
  rw [decode, decodeFields_eq (opcodeEntry_nop h), soleSub, hmask]
  simp only [ne_eq, ite_not]
  split
  · split <;> rfl
  · rfl

/-- Settles O21: each command has no check, so it completes with its writes; the word is decided by the row of its opcode. -/
theorem commandsWithoutOperands : Obligations.CommandsWithoutOperands := by
  refine ⟨fun s => ⟨rfl, rfl, ?_, _, rfl, ?_, rfl⟩, fun w => decode_of_nop_opcode⟩
  · rw [exec, execCrcFinal, setRes0, BitVec.ofNat_toNat, BitVec.setWidth_eq]
    rfl
  · simp only [List.forall_mem_cons]
    exact ⟨rfl, rfl, rfl, rfl, rfl, rfl, rfl, rfl, rfl, rfl, rfl, rfl, rfl, nofun⟩

theorem firstError_regionCheck_of_le {s : State} {a n : Nat} (r : Region) (h : a + n ≤ s.params.memBytes) :
    firstError [regionCheck s a n r] = none := by
  simp [regionCheck, firstError_cons, h]

theorem firstError_regionCheck_of_lt {s : State} {a n : Nat} (r : Region) (h : s.params.memBytes < a + n) :
    firstError [regionCheck s a n r] = some (.addressOutOfRange r) := by
  simp [regionCheck, firstError_cons, h]

theorem exec_crcUpdate (s : State) : exec .crcUpdate s = finish s (runChecks [regionCheck s (srcAddr s) (srcLen s) .src] >>=
    fun _ => .ok { s with crcReg := crcFold s.crcReg (memRead s (srcAddr s) (srcLen s)) }) :=
  congrArg (finish s) (crcUpdate_eq s)

theorem exec_crc32 (s : State) : exec .crc32 s = finish s (runChecks [regionCheck s (srcAddr s) (srcLen s) .src] >>=
    fun _ => .ok (setRes0 s (crc32 (memRead s (srcAddr s) (srcLen s))).toNat)) :=
  congrArg (finish s) (crcOneShot_eq s)

/-- Settles O22: both commands check their source and then write; a fold over adjoining pieces is two folds. -/
theorem crcCommandsFoldTheSource : Obligations.CrcCommandsFoldTheSource := by
  intro s
  refine ⟨fun h => ⟨?_, ?_⟩, fun h => ⟨?_, ?_⟩, fun n m => ?_⟩
  · rw [exec_crcUpdate, finish_ok (firstError_regionCheck_of_le .src h) rfl]
    rfl
  · rw [exec_crc32, finish_ok (firstError_regionCheck_of_le .src h) rfl, setRes0, BitVec.ofNat_toNat, BitVec.setWidth_eq]
    rfl
  · exact failsWith_firstError (exec_crcUpdate s) (firstError_regionCheck_of_lt .src h)
  · exact failsWith_firstError (exec_crc32 s) (firstError_regionCheck_of_lt .src h)
  · rw [memRead_add, crcFold_append]

end Sys2Proof.Machine
end

section
/-! SUPPORT. CHUNK_PARSE and a changed byte (40_crc.md rule R108; 41_framer.md rule R124): a change in the type or the data
leaves every framing check but the last as it was. -/

namespace Sys2Proof.Machine

/-- CHUNK_PARSE fails with its first framing check that does not hold (R124, R121). -/
theorem failsParse_of_framingOrder {s : State} {e : Err} (h : firstError (framingOrder s) = some e) :
    FailsParseWith .chunkParse s e := by
  have hparse : chunkParse s = .error e := by
    rw [chunkParse, parseChunk, frameChunk_source, runChecks_error h]; rfl
  refine finishParse_error hparse fun c => ?_
  by_cases hp : s.framer.phase = .failed
  · rw [framingOrder, firstError_cons, if_neg (by simp [hp])] at h
    cases h
    simp [hp, eq_comm]
  · rw [framingOrder, firstError_cons, if_pos (by simp [hp])] at h
    have hmem := firstError_mem h
    refine ⟨?_, fun hc => absurd hc.1 hp⟩
    rintro rfl
    simp [regionCheck] at hmem

/-! ### Bytes written into a chunk -/

@[simp] theorem srcAddr_memWrite (s : State) (x : Nat) (bs : List Byte) : srcAddr (memWrite s x bs) = srcAddr s := rfl

theorem be32_memWrite_out {s : State} {a x : Nat} {bs : List Byte} (h : a + 4 ≤ x ∨ x + bs.length ≤ a) :
    be32 (memWrite s x bs) a = be32 s a := by
  rw [be32, be32, memRead_congr fun i hi => bufByte_memWrite_out s x bs (a + i) (by omega)]

theorem memRead_memWrite_byte (s : State) (a n i : Nat) (b : Byte) :
    memRead (memWrite s (a + i) [b]) a n = (memRead s a n).set i b := by
  refine List.ext_getElem (by simp) fun k _ _ => ?_
  rw [memRead_getElem, List.getElem_set]
  split
  · next h => subst h; exact bufByte_memWrite_in s (a + i) [b] 0 (by simp)
  · rw [bufByte_memWrite_out _ _ _ _ (by simp; omega), memRead_getElem]

theorem chunkLen_memWrite {s : State} {x : Nat} (bs : List Byte) (h : srcAddr s + 4 ≤ x) :
    chunkLen (memWrite s x bs) = chunkLen s := be32_memWrite_out (.inl h)

/-! ### The framing checks after such a write -/

/-- The last framing check: the CRC of type and data is the chunk's CRC field (R93, R124). -/
def chunkCrcCheck (s : State) : Check :=
  (decide ((crc32 (memRead s (srcAddr s + 4) (4 + chunkLen s))).toNat = be32 s (srcAddr s + 8 + chunkLen s)),
    .chunkCrcMismatch)

theorem framingOrder_eq_append (s : State) : framingOrder s = (framingOrder s).dropLast ++ [chunkCrcCheck s] := rfl

/-- Of the bytes of the chunk, the framing checks before the last one read the length field only. -/
theorem framingOrder_dropLast_memWrite {s : State} {x : Nat} (bs : List Byte) (h : srcAddr s + 4 ≤ x) :
    (framingOrder (memWrite s x bs)).dropLast = (framingOrder s).dropLast := by
  simp only [framingOrder, chunkLen_memWrite bs h]
  rfl

theorem chunkCrcCheck_memWrite_byte {s : State} {i : Nat} (b : Byte) (h : i < 4 + chunkLen s) :
    chunkCrcCheck (memWrite s (srcAddr s + 4 + i) [b]) =
      (decide ((crc32 ((memRead s (srcAddr s + 4) (4 + chunkLen s)).set i b)).toNat =
        be32 s (srcAddr s + 8 + chunkLen s)), .chunkCrcMismatch) := by
  rw [chunkCrcCheck, srcAddr_memWrite, chunkLen_memWrite _ (by omega), memRead_memWrite_byte,
    be32_memWrite_out (.inr (by simp; omega))]

/-- A framed chunk with another value of one byte of its type or data fails the last framing check: its CRC has changed, its
CRC field has not. -/
theorem firstError_framingOrder_memWrite {s : State} (h : firstError (framingOrder s) = none) {i : Nat}
    (hi : i < 4 + chunkLen s) {b : Byte} (hb : b ≠ bufByte s (srcAddr s + 4 + i)) :
    firstError (framingOrder (memWrite s (srcAddr s + 4 + i) [b])) = some .chunkCrcMismatch := by
  rw [framingOrder_eq_append, firstError_append, Option.or_eq_none_iff] at h
  obtain ⟨hfirst, hlast⟩ := h
  have hfield : (crc32 (memRead s (srcAddr s + 4) (4 + chunkLen s))).toNat = be32 s (srcAddr s + 8 + chunkLen s) := by
    simpa [chunkCrcCheck, firstError_cons] using hlast
  have hcrc : crc32 ((memRead s (srcAddr s + 4) (4 + chunkLen s)).set i b) ≠
      crc32 (memRead s (srcAddr s + 4) (4 + chunkLen s)) := crc32_set_ne _ (by simpa using hi) (by simpa using hb)
  have hfails : (crc32 ((memRead s (srcAddr s + 4) (4 + chunkLen s)).set i b)).toNat ≠
      be32 s (srcAddr s + 8 + chunkLen s) := fun he => hcrc (BitVec.eq_of_toNat_eq (he.trans hfield.symm))
  rw [framingOrder_eq_append, framingOrder_dropLast_memWrite _ (by omega), firstError_append, hfirst,
    chunkCrcCheck_memWrite_byte b hi, firstError_cons, decide_eq_false hfails]
  rfl

/-- Settles O24: a flipped bit is another value of its byte. -/
theorem crcDetectsEverySingleBitError : Obligations.CrcDetectsEverySingleBitError := by
  refine ⟨fun bs i k h hk => crc32_set_ne bs h (xor_bit_ne_self _ hk), fun s x k h hk hlo hhi => ?_⟩
  obtain ⟨i, rfl⟩ := Nat.exists_eq_add_of_le hlo
  exact failsParse_of_framingOrder (firstError_framingOrder_memWrite h (by omega) (xor_bit_ne_self _ hk))

end Sys2Proof.Machine
end

section
/-! SUPPORT. SIG_CHECK (41_framer.md rule R123), and what leaves FRAMER's state FAILED: no command but FRAMER_RESET (R121), and
no host access but a soft reset (70_reset_and_hazards.md rule R292). -/

namespace Sys2Proof.Machine

/-! ### Which failure is FramerFailed (R121) -/

/-- A rule that checks for FAILED first, and raises FramerFailed nowhere else, raises it exactly in FAILED. -/
theorem framerFailed_iff {s : State} {cs : List Check} {e : Err}
    (h : firstError ((s.framer.phase != .failed, .framerFailed s.framer.failCode) :: cs) = some e)
    (hcs : ∀ c, .framerFailed c ∉ cs.map Prod.snd) (c : Byte) :
    e = .framerFailed c ↔ s.framer.phase = .failed ∧ c = s.framer.failCode := by
  rw [firstError_cons] at h
  by_cases hp : s.framer.phase = .failed
  · rw [if_neg (by simp [hp])] at h
    cases h
    simp [hp, eq_comm]
  · rw [if_pos (by simp [hp])] at h
    refine ⟨?_, fun hc => absurd hc.1 hp⟩
    rintro rfl
    exact absurd (firstError_mem h) (hcs c)

/-! ### SIG_CHECK (R123) -/

/-- SIG_CHECK's checks. -/
def sigChecks (s : State) : List Check :=
  [(s.framer.phase != .failed, .framerFailed s.framer.failCode), (s.framer.phase == .start, .unexpectedChunkOrder),
   (decide (8 ≤ srcLen s), .signatureMismatch), regionCheck s (srcAddr s) 8 .src,
   (memRead s (srcAddr s) 8 == signature, .signatureMismatch)]

theorem sigCheck_eq (s : State) :
    sigCheck s = runChecks (sigChecks s) >>= fun _ => .ok (setRes0 (setPhase s .sigOk) 8) := by
  rw [sigCheck, parseSignature_eq, sigChecks, bind_assoc]
  rfl

theorem exec_sigCheck_ok {s : State} (h : firstError (sigChecks s) = none) :
    exec .sigCheck s = .next (succeed (setRes0 (setPhase s .sigOk) 8)) := by
  rw [exec, execSigCheck, sigCheck_eq, runChecks_ok h]
  rfl

theorem failsParse_of_sigChecks {s : State} {e : Err} (h : firstError (sigChecks s) = some e) :
    FailsParseWith .sigCheck s e :=
  finishParse_error (by rw [sigCheck_eq, runChecks_error h]; rfl) (framerFailed_iff h (by simp [regionCheck]))

/-- Settles O25: the checks of the statement are `sigChecks`. -/
theorem signatureCheck : Obligations.SignatureCheck :=
  fun _ => ⟨fun h => exec_sigCheck_ok h, fun _ h => failsParse_of_sigChecks h⟩

/-- Settles O26: an earlier law says it of every framing check. -/
theorem chunkFramingIsCheckedFirst : Obligations.ChunkFramingIsCheckedFirst :=
  fun _ _ h => failsParse_of_framingOrder h

/-! ### Leaving FAILED: commands -/

theorem failFramer_failed {s : State} (hp : s.framer.phase = .failed) (e : Err) :
    (failFramer s e).framer.phase = .failed := by
  unfold failFramer
  split
  · exact hp
  · rfl

theorem parseSignature_ne_ok {s : State} (hp : s.framer.phase = .failed) (t : State) : parseSignature s ≠ .ok t := by
  rw [parseSignature_eq, runChecks_cons, hp]
  nofun

theorem parseChunk_ne_ok {s : State} (hp : s.framer.phase = .failed) {a rem : Nat} {q : Nat × Nat} (r : State × Chunk) :
    parseChunk s a rem q ≠ .ok r := by
  intro h
  obtain ⟨-, -, -, hf, -⟩ := frameChunk_ok (parseChunk_ok (c := r.2) h).1
  exact hf hp

theorem streamParse_failed {s : State} (hp : s.framer.phase = .failed) : (streamParse s).state.framer.phase = .failed :=
  streamParse_induct (P := fun t => t.framer.phase = .failed) hp (fun t h => absurd h (parseSignature_ne_ok hp t))
    fun _ _ _ _ _ _ ht h => absurd h (parseChunk_ne_ok ht _)

/-- No command but FRAMER_RESET leaves FAILED (R121). -/
theorem exec_failed {i : Instr} {s t : State} (hp : s.framer.phase = .failed) (hi : i ≠ .framerReset)
    (h : exec i s = .next t) : t.framer.phase = .failed := by
  by_cases hparse : i ∈ [Instr.framerReset, .sigCheck, .chunkParse, .streamParse]
  · simp only [List.mem_cons, List.not_mem_nil, or_false] at hparse
    rcases hparse with rfl | rfl | rfl | rfl
    · exact absurd rfl hi
    · rcases exec_sigCheck_cases h with ⟨-, hs⟩ | ⟨e, rfl⟩
      · exact absurd hs (parseSignature_ne_ok hp _)
      · exact failFramer_failed hp e
    · rcases finishParse_cases h with ⟨u, hu, -⟩ | ⟨e, -, rfl⟩
      · obtain ⟨r, hr, -⟩ := bind_eq_ok.1 hu
        exact absurd hr (parseChunk_ne_ok hp r)
      · exact failFramer_failed hp e
    · have hs := streamParse_failed hp
      rcases finishStream_cases h with ⟨u, off, n, hu, rfl⟩ | ⟨c, u, off, -, rfl⟩ | ⟨e, u, off, -, hu, rfl⟩
      · rw [hu] at hs; exact hs
      · exact hp
      · rw [hu] at hs; exact failFramer_failed (s := setRes0 u off) hs e
  · rcases exec_own hparse h with ⟨e, rfl⟩ | ⟨u, ⟨r, crc, bs, rfl, -⟩, rfl⟩
    · exact hp
    · exact hp

/-- The engine's turn leaves FAILED by completing FRAMER_RESET only. -/
theorem engineTurn_failed {s t : State} (hp : s.framer.phase = .failed) (h : engineTurn s = .next t)
    (ht : t.framer.phase ≠ .failed) : decode s.ctl.cmd = .ok .framerReset ∧ s.ctl.busy = true := by
  have settled (ds : List (Nat × Nat)) (u : State) : (settle ds u).framer = u.framer := by
    obtain ⟨-, -, -, -, -, -, hf, -⟩ := settle_keeps ds u
    exact hf
  cases hb : s.ctl.busy
  · rw [engineTurn, hb] at h
    cases h
    exact absurd hp ht
  cases hd : decode s.ctl.cmd with
  | error e =>
    rw [engineTurn_of_decode_error hb hd] at h
    cases h
    rw [settled] at ht
    exact absurd hp ht
  | ok i =>
    obtain ⟨u, hu⟩ := exec_next i s
    rw [engineTurn_of_decode_ok hb hd hu] at h
    cases h
    rw [settled] at ht
    by_cases hi : i = .framerReset
    · exact ⟨by rw [hi], rfl⟩
    · exact absurd (exec_failed hp hi hu) ht

/-! ### Leaving FAILED: host accesses -/

/-- CTRL stands at one offset (register map). -/
theorem regAt_eq_ctrl {off : Nat} (h : regAt off = some .ctrl) : off = 0x004 := by
  unfold regAt at h
  split at h
  · unfold namedReg at h
    split at h <;> cases h
    rfl
  · split at h
    · cases h
    · split at h
      · cases h
      · split at h <;> cases h

theorem hostWriteReg_framer (s : State) {r : Reg} (hr : r ≠ .ctrl) (v : Word) :
    (hostWriteReg s r v).framer = s.framer := by
  cases hb : s.ctl.busy
  · rw [hostWriteReg_idle hb]
    cases r
    case ctrl => exact absurd rfl hr
    case plteN => rw [writeReg_plteN]; split <;> rfl
    case trnsN => rw [writeReg_trnsN]; split <;> rfl
    all_goals rfl
  · rw [hostWriteReg_busy hb]
    rcases writeRegBusy_cases s r v with h | h | h | h | h <;> rw [h] <;> rfl

/-- A host write reaches FRAMER by an idle soft reset only (R292). -/
theorem hostWrite_framer {s t : State} {addr : Nat} {w : Width} {v : Word} (h : hostWrite s addr w v = .next t) :
    t.framer = s.framer ∨
    (addr = s.params.blockBase + 0x004 ∧ w = .w32 ∧ v.getLsbD 1 = true ∧ s.ctl.busy = false) := by
  unfold hostWrite at h
  split at h
  · rename_i hin
    simp only [inRegWindow, decide_eq_true_eq] at hin
    split at h
    · rename_i r hr
      cases h
      by_cases hc : r = .ctrl
      · subst hc
        unfold regAccess at hr
        split at hr
        · rename_i hw
          have hoff := regAt_eq_ctrl hr
          cases hv : v.getLsbD 1
          · rw [hostWriteReg_ctrl_mask s hv]; exact .inl rfl
          · rw [hostWriteReg_ctrl_reset s hv]
            cases hb : s.ctl.busy
            · exact .inr ⟨by omega, hw.1, rfl, rfl⟩
            · exact .inl rfl
        · cases hr
      · exact .inl (hostWriteReg_framer s hc v)
    · cases h; exact .inl rfl
  · split at h
    · split at h
      · cases h
        unfold hostWriteBuf
        split <;> exact .inl rfl
      · cases h; exact .inl rfl
    · cases h

/-- Settles O16: of the events a host read keeps FRAMER, and each of the others leaves FAILED in one way only. -/
theorem failedIsLeftOnlyByReset : Obligations.FailedIsLeftOnlyByReset := by
  intro s t hp h ht
  cases hin : s.bus.inbox with
  | nil =>
    rw [step_nil hin] at h
    obtain ⟨hd, hb⟩ := engineTurn_failed hp h ht
    exact .inr (.inr ⟨hd, hb, .inr rfl⟩)
  | cons e es =>
    rw [step_cons hin] at h
    cases e with
    | powerOn => exact .inl ⟨es, rfl⟩
    | read a w =>
      obtain ⟨v, n, rfl⟩ := hostRead_cases h
      exact absurd hp ht
    | engine =>
      obtain ⟨hd, hb⟩ := engineTurn_failed (s := withInbox s es) hp h ht
      exact .inr (.inr ⟨hd, hb, .inl ⟨es, rfl⟩⟩)
    | write a w v =>
      rcases hostWrite_framer h with hf | ⟨ha, rfl, hv, hb⟩
      · rw [hf] at ht
        exact absurd hp ht
      · exact .inr (.inl ⟨a, v, es, rfl, ha, hv, hb⟩)

end Sys2Proof.Machine
end

section
/-! SUPPORT. CHUNK_PARSE on a framed chunk, kind by kind: the checks of the rule with the order checks of R122 among them, and
its commit (41_framer.md rules R122, R125 to R134). -/

namespace Sys2Proof.Machine

/-! ### Shapes of rules -/

theorem chunkResults_eq (s t : State) : chunkResults t (sourceChunk s) = { t with res := chunkResult s } := by
  simp only [chunkResults, chunkResult, setRes0, setRes1, setRes2, setRes3]

/-- A rule made of checks and a commit: CHUNK_PARSE succeeds with the commit and the results of R125. -/
theorem exec_chunkParse_ok {s t : State} {cs : List Check} {k : Unit → Except Err State}
    (h : firstError (framingOrder s) = none)
    (hc : commitChunk s (sourceChunk s) (srcAddr s, srcLen s) = runChecks cs >>= k) (hcs : firstError cs = none)
    (hk : k () = .ok t) : exec .chunkParse s = .next { t with ctl := okCtl t, res := chunkResult s } := by
  rw [exec_chunkParse_of_framed h, hc, runChecks_ok hcs, ok_bind, hk, ok_bind, chunkResults_eq]
  rfl

/-- A completion and its results leave the buffer as it is. -/
theorem be32_completed (s : State) (c : Ctl) (r : Results) (a : Nat) : be32 { s with ctl := c, res := r } a = be32 s a :=
  rfl

/-- A check that the next one implies, with the same error, is redundant. -/
theorem runChecks_implied {c d : Bool} {e : Err} (cs : List Check) (h : d = true → c = true) :
    runChecks ((c, e) :: (d, e) :: cs) = runChecks ((d, e) :: cs) := by
  cases d
  · cases c <;> rfl
  · rw [h rfl]; rfl

theorem framed_phase {s : State} (h : firstError (framingOrder s) = none) :
    s.framer.phase ≠ .failed ∧ s.framer.phase ≠ .start ∧ s.framer.phase ≠ .ended := by
  obtain ⟨-, -, -, hphase⟩ := frameChunk_ok (frameChunk_of_framed h)
  exact hphase

theorem not_paletteMissing (s : State) :
    decide (¬(s.hdr.colorType = 3 ∧ s.framer.plteSeen = false)) = !paletteMissing s := by
  rw [Bool.eq_iff_iff]
  simp [paletteMissing]

theorem missingKind_of_header {s : State} (h : s.framer.phase = .header) :
    missingKind s = if paletteMissing s then .plte else .idat := by
  simp [missingKind, h, paletteMissing]

/-- A framed chunk fails with the error of its rule: FramerFailed is not among them (R121). -/
theorem failsParse_of_commit {s : State} {e : Err} (h : firstError (framingOrder s) = none)
    (hc : commitChunk s (sourceChunk s) (srcAddr s, srcLen s) = .error e) : FailsParseWith .chunkParse s e := by
  obtain ⟨hfailed, -⟩ := framed_phase h
  rw [FailsParseWith, exec_chunkParse_of_framed h]
  exact finishParse_error (by rw [hc]; rfl) fun c => by simp [commitChunk_error hc c, hfailed]

theorem failsParse_of_checks {s : State} {cs : List Check} {k : Unit → Except Err State} {e : Err}
    (h : firstError (framingOrder s) = none)
    (hc : commitChunk s (sourceChunk s) (srcAddr s, srcLen s) = runChecks cs >>= k) (he : firstError cs = some e) :
    FailsParseWith .chunkParse s e :=
  failsParse_of_commit h (by rw [hc, runChecks_error he]; rfl)

/-! ### IHDR (R128) -/

/-- The checks of an IHDR chunk. -/
def ihdrChecks (s : State) (c : Chunk) : List Check :=
  [(s.framer.phase == .sigOk, .unexpectedChunkOrder), (c.len == 13, .invalidHeader),
   (decide (be32 s c.data ≠ 0 ∧ be32 s (c.data + 4) ≠ 0 ∧
      legalPair s.params (bufByte s (c.data + 8)).toNat (bufByte s (c.data + 9)).toNat = true ∧
      bufByte s (c.data + 10) = 0 ∧ bufByte s (c.data + 11) = 0 ∧ (bufByte s (c.data + 12)).toNat ≤ 1), .invalidHeader)]

/-- The header an IHDR chunk loads. -/
def ihdrLoaded (s : State) (c : Chunk) : HeaderRegs :=
  ⟨BitVec.ofNat 32 (be32 s c.data), BitVec.ofNat 32 (be32 s (c.data + 4)), bufByte s (c.data + 8), bufByte s (c.data + 9),
    bufByte s (c.data + 12)⟩

theorem commitChunk_ihdr_eq {s : State} {c : Chunk} {q : Nat × Nat} (hk : kindOf c.type = .ihdr) :
    commitChunk s c q = runChecks (ihdrChecks s c) >>= fun _ =>
      .ok (setPhase { s with hdr := ihdrLoaded s c } .header) := by
  rw [commitChunk_ihdr hk, parseIhdr_eq, ihdrChecks]
  simp only [Bool.decide_and, Bool.decide_eq_true, Bool.and_assoc]
  rfl

/-- Settles O28: the checks and the commit are `commitChunk_ihdr_eq`'s. -/
theorem ihdrChunkLoadsTheHeader : Obligations.IhdrChunkLoadsTheHeader := by
  intro s hf ht
  have hc := commitChunk_ihdr_eq (s := s) (c := sourceChunk s) (q := (srcAddr s, srcLen s))
    (show kindOf (chunkCode s) = .ihdr by rw [ht]; rfl)
  exact ⟨fun ho => exec_chunkParse_ok hf hc ho rfl, fun e he => failsParse_of_checks hf hc he⟩

/-! ### PLTE (R129) -/

/-- The checks of a PLTE chunk. -/
def plteChecks (s : State) (c : Chunk) : List Check :=
  [(s.framer.phase == .header && !s.framer.plteSeen && !s.framer.trnsSeen, .unexpectedChunkOrder),
   (s.hdr.colorType != 0 && s.hdr.colorType != 4, .invalidChunkData),
   (decide (c.len ≠ 0 ∧ c.len % 3 = 0 ∧ c.len ≤ 768 ∧ (s.hdr.colorType = 3 → c.len / 3 ≤ 2 ^ s.hdr.bitDepth.toNat)),
      .invalidChunkData)]

/-- What a PLTE chunk commits. -/
def plteCommit (s : State) (c : Chunk) : State :=
  { s with
    plteRam := ramStore s.plteRam 0 (plteEntries s c)
    pal := { s.pal with plteN := BitVec.ofNat 9 (c.len / 3) }
    framer := { s.framer with plteSeen := true } }

theorem commitChunk_plte_eq {s : State} {c : Chunk} {q : Nat × Nat} (hk : kindOf c.type = .plte) :
    commitChunk s c q = runChecks (plteChecks s c) >>= fun _ => .ok (plteCommit s c) := by
  rw [commitChunk_of_kind hk (by simp)]
  simp only [parsePlte_eq, ← bind_assoc, ← runChecks_append, List.cons_append, List.nil_append]
  rw [runChecks_implied _ (by simp +contextual)]
  simp only [not_and, not_lt]
  rfl

@[simp] theorem plteEntries_length (s : State) (c : Chunk) : (plteEntries s c).length = c.len / 3 := by simp [plteEntries]

theorem plteEntries_getElem (s : State) (c : Chunk) (i : Nat) (h : i < (plteEntries s c).length) :
    (plteEntries s c)[i] = bufByte s (c.data + 3 * i) ++ bufByte s (c.data + 3 * i + 1) ++ bufByte s (c.data + 3 * i + 2) := by
  simp [plteEntries, rgbEntry]

/-- A list stored from entry 0 on: its entries, and the others kept. -/
theorem ramGet_ramStore_zero {α : Type} (m : Ram α) (vs : List α) (i : Nat) (x : α) :
    (ramGet (ramStore m 0 vs) i).getD x = if h : i < vs.length then vs[i] else (ramGet m i).getD x := by
  have hin := ramGet_ramStore_in m 0 vs i
  rw [Nat.zero_add] at hin
  split
  · rw [hin ‹_›]
    rfl
  · rw [ramGet_ramStore_out _ _ _ _ (by omega)]

/-- Settles O29: a palette of at most 256 entries has its count in PLTE_N's nine bits. -/
theorem plteChunkLoadsThePalette : Obligations.PlteChunkLoadsThePalette := by
  intro s hf ht
  have hc := commitChunk_plte_eq (s := s) (c := sourceChunk s) (q := (srcAddr s, srcLen s))
    (show kindOf (chunkCode s) = .plte by rw [ht]; rfl)
  refine ⟨fun ho => ⟨_, exec_chunkParse_ok hf hc ho rfl, rfl, ?_, fun i hi => ?_, fun i hi => ?_⟩,
    fun e he => failsParse_of_checks hf hc he⟩
  · have hlen := firstError_eq_none.1 ho _ (List.mem_cons_of_mem _ (List.mem_cons_of_mem _ (List.mem_cons_self ..)))
    simp only [decide_eq_true_eq] at hlen
    obtain ⟨-, -, hlen, -⟩ := hlen
    change ((BitVec.ofNat 9 (chunkLen s / 3)).setWidth 32).toNat = chunkLen s / 3
    rw [BitVec.toNat_setWidth_of_le (by decide), BitVec.toNat_ofNat, Nat.mod_eq_of_lt (by omega)]
  · have hi : i < (plteEntries s (sourceChunk s)).length := by rwa [plteEntries_length]
    exact (ramGet_ramStore_zero s.plteRam (plteEntries s (sourceChunk s)) i _).trans
      ((dif_pos hi).trans (plteEntries_getElem s _ i hi))
  · exact (ramGet_ramStore_zero s.plteRam (plteEntries s (sourceChunk s)) i _).trans
      (dif_neg (by rw [plteEntries_length]; exact Nat.not_lt.2 hi))

/-! ### IDAT (R130) -/

/-- Where an IDAT payload goes. -/
def idatNext (s : State) : Nat := s.opd.idatBase.toNat + s.framer.idatLen.toNat

/-- The checks of an IDAT chunk but the last. -/
def idatFits (s : State) (c : Chunk) : List Check :=
  [(s.framer.phase == .header || s.framer.phase == .idat, .unexpectedChunkOrder),
   (!paletteMissing s, .missingChunk .plte),
   capCheck (s.framer.idatLen.toNat + c.len) s.opd.idatCap.toNat .idat,
   regionCheck s (idatNext s) c.len .idat]

/-- What an IDAT chunk commits. -/
def idatCommit (s : State) (c : Chunk) : State :=
  { memWrite s (idatNext s) (memRead s c.data c.len) with
    framer := { s.framer with
      phase := .idat
      idatSeen := true
      idatLen := BitVec.ofNat 32 (s.framer.idatLen.toNat + c.len) } }

theorem commitChunk_idat_eq {s : State} {c : Chunk} {q : Nat × Nat} (hk : kindOf c.type = .idat) :
    commitChunk s c q = runChecks (idatFits s c ++ [apartCheck (idatNext s) c.len .idat q.1 q.2]) >>= fun _ =>
      .ok (idatCommit s c) := by
  rw [commitChunk_of_kind hk (by simp)]
  simp only [parseIdat_eq, ← bind_assoc, ← runChecks_append, List.cons_append, List.nil_append]
  rw [runChecks_implied _ (by rintro h; rcases (by simpa using h) with h | h <;> simp [h]), not_paletteMissing]
  rfl

theorem idatFits_cap {s : State} {c : Chunk} (h : firstError (idatFits s c) = none) :
    s.framer.idatLen.toNat + c.len ≤ s.opd.idatCap.toNat := by
  simpa [capCheck] using
    firstError_eq_none.1 h (capCheck (s.framer.idatLen.toNat + c.len) s.opd.idatCap.toNat .idat) (by simp [idatFits])

/-- The payload fits the capacity, so IDAT_LEN does not wrap (R130). -/
theorem idatLen_idatCommit {s : State} {c : Chunk} (h : firstError (idatFits s c) = none) :
    (idatCommit s c).framer.idatLen.toNat = s.framer.idatLen.toNat + c.len := by
  have hcap := idatFits_cap h
  change (BitVec.ofNat 32 (s.framer.idatLen.toNat + c.len)).toNat = _
  rw [BitVec.toNat_ofNat, Nat.mod_eq_of_lt (hcap.trans_lt s.opd.idatCap.isLt)]

theorem memRead_idatCommit (s : State) (c : Chunk) :
    memRead (idatCommit s c) (idatNext s) c.len = memRead s c.data c.len := by
  have h := memRead_memWrite s (idatNext s) (memRead s c.data c.len)
  rw [memRead_length] at h
  exact h

theorem sameOutside_idatCommit (s : State) (c : Chunk) : SameOutside s (idatCommit s c) (idatNext s) c.len := by
  have h := sameOutside_memWrite s (idatNext s) (memRead s c.data c.len)
  rw [memRead_length] at h
  exact h

/-- Settles O30: the payload is one run of bytes at `idatNext`. -/
theorem idatChunkAppendsThePayload : Obligations.IdatChunkAppendsThePayload := by
  intro s hf ht
  have hc := commitChunk_idat_eq (s := s) (c := sourceChunk s) (q := (srcAddr s, srcLen s))
    (show kindOf (chunkCode s) = .idat by rw [ht]; rfl)
  refine ⟨fun ho => ⟨_, exec_chunkParse_ok hf hc ho rfl, rfl, ?_, memRead_idatCommit s (sourceChunk s),
    sameOutside_idatCommit s (sourceChunk s)⟩, fun e he => failsParse_of_checks hf hc he⟩
  · refine idatLen_idatCommit (c := sourceChunk s) (firstError_eq_none.2 fun c hm => firstError_eq_none.1 ho c ?_)
    exact List.mem_append_left _ hm

/-! ### Other ancillary chunks (R131, R134) -/

/-- The checks of an ancillary chunk but the last. -/
def dirFits (s : State) : List Check :=
  [(s.framer.phase != .sigOk, .unexpectedChunkOrder),
   (decide (s.framer.dirCount.toNat < s.opd.dirCap.toNat), .bufferTooSmall .dir),
   regionCheck s (dirNext s) 12 .dir]

/-- What an ancillary chunk with the directory record `record` commits. -/
def dirCommit (s : State) (record : List Byte) : State :=
  { memWrite s (dirNext s) record with
    framer := { s.framer with
      phase := if s.framer.phase = .idat then .postIdat else s.framer.phase
      dirCount := s.framer.dirCount + 1 } }

theorem ofNat_toNat_succ (w : Word) : BitVec.ofNat 32 (w.toNat + 1) = w + 1 := by
  rw [BitVec.ofNat_add, BitVec.ofNat_toNat, BitVec.setWidth_eq]
  rfl

theorem commitChunk_ancillary_eq {s : State} {c : Chunk} {q : Nat × Nat} (hk : kindOf c.type = .ancillary) :
    commitChunk s c q = runChecks (dirFits s ++ [apartCheck (dirNext s) 12 .dir q.1 q.2]) >>= fun _ =>
      .ok (dirCommit s (dirRecord c)) := by
  rw [commitChunk_of_kind hk (by simp)]
  simp only [parseAncillary_eq, ← bind_assoc, ← runChecks_append, List.cons_append, List.nil_append, ofNat_toNat_succ]
  rfl

/-- Bit 29 is clear in the codes of the critical chunks, so an ancillary code other than tRNS is the directory's (R97, R127). -/
theorem kindOf_ancillary {t : Nat} (ht : t.testBit 29 = true) (hn : t ≠ typeTrns) : kindOf t = .ancillary := by
  have clear : ∀ x ∈ [typeIhdr, typePlte, typeIdat, typeIend], x.testBit 29 = false := by decide
  have ne : ∀ x ∈ [typeIhdr, typePlte, typeIdat, typeIend], t ≠ x := by
    rintro x hx rfl
    rw [clear t hx] at ht
    cases ht
  simp only [List.forall_mem_cons] at ne
  obtain ⟨h1, h2, h3, h4, -⟩ := ne
  rw [kindOf, if_neg h1, if_neg h2, if_neg hn, if_neg h3, if_neg h4, if_pos ht]

/-- The bytes between `x` and `z` of a run of bytes, read at their own address. -/
theorem memRead_of_append {s : State} {a n : Nat} {x y z : List Byte} (h : memRead s a n = x ++ (y ++ z)) :
    memRead s (a + x.length) y.length = y := by
  have hl : n = x.length + (y.length + z.length) := by simpa using congrArg List.length h
  rw [← memRead_drop_take s a n x.length y.length (by omega), h, List.drop_left, List.take_left]

/-- A big-endian field between the bytes `x` and `z` reads back. -/
theorem be32_of_memRead {s : State} {a n v : Nat} {x z : List Byte} (h : memRead s a n = x ++ (beBytes v 4 ++ z))
    (hv : v < 2 ^ 32) : be32 s (a + x.length) = v :=
  be32_eq (by simpa using memRead_of_append h) hv

theorem memRead_dirCommit (s : State) (record : List Byte) :
    memRead (dirCommit s record) (dirNext s) record.length = record := memRead_memWrite s (dirNext s) record

theorem sameOutside_dirCommit (s : State) (record : List Byte) :
    SameOutside s (dirCommit s record) (dirNext s) record.length := sameOutside_memWrite s (dirNext s) record

/-- The record's three words read back (R134). -/
theorem be32_dirCommit {s : State} {c : Chunk} (ht : c.type < 2 ^ 32) (hd : c.data < 2 ^ 32) (hl : c.len < 2 ^ 32) :
    be32 (dirCommit s (dirRecord c)) (dirNext s) = c.type ∧ be32 (dirCommit s (dirRecord c)) (dirNext s + 4) = c.data ∧
    be32 (dirCommit s (dirRecord c)) (dirNext s + 8) = c.len := by
  have h : memRead (dirCommit s (dirRecord c)) (dirNext s) (dirRecord c).length =
      beBytes c.type 4 ++ (beBytes c.data 4 ++ beBytes c.len 4) := by
    rw [memRead_dirCommit, dirRecord, List.append_assoc]
  refine ⟨be32_of_memRead (x := []) h ht, ?_, ?_⟩
  · simpa using be32_of_memRead (x := beBytes c.type 4) (z := beBytes c.len 4) h hd
  · simpa using be32_of_memRead (x := beBytes c.type 4 ++ beBytes c.data 4) (z := [])
      (by rw [h, List.append_nil, List.append_assoc]) hl

/-- A framed chunk ends within MEM_BYTES, so its data address is a word. -/
theorem chunkData_lt {s : State} (hp : s.params.wf) (hf : firstError (framingOrder s) = none) : chunkData s < 2 ^ 32 := by
  obtain ⟨-, hmem, -⟩ := hp
  obtain ⟨-, -, hr, -⟩ := frameChunk_ok (frameChunk_of_framed hf)
  simp only [chunkData] at hr ⊢
  omega

/-- Settles O31: the record is one run of bytes at `dirNext`, and its three fields are words. -/
theorem ancillaryChunkIsRecorded : Obligations.AncillaryChunkIsRecorded := by
  intro s hp hf ht hn
  have hc := commitChunk_ancillary_eq (s := s) (c := sourceChunk s) (q := (srcAddr s, srcLen s)) (kindOf_ancillary ht hn)
  obtain ⟨htype, hdata, hlen⟩ :=
    be32_dirCommit (s := s) (c := sourceChunk s) (be32_lt s _) (chunkData_lt hp hf) (be32_lt s _)
  have hout := sameOutside_dirCommit s (dirRecord (sourceChunk s))
  rw [dirRecord_length] at hout
  generalize dirRecord (sourceChunk s) = record at hc htype hdata hlen hout
  exact ⟨fun ho => ⟨_, exec_chunkParse_ok hf hc ho rfl, rfl, (be32_completed ..).trans htype,
    (be32_completed ..).trans hdata, (be32_completed ..).trans hlen, hout⟩, fun e he => failsParse_of_checks hf hc he⟩

/-! ### tRNS (R132) -/

/-- The checks of a tRNS chunk. -/
def trnsChecks (s : State) (c : Chunk) : List Check :=
  [(s.framer.phase == .header && !s.framer.trnsSeen, .unexpectedChunkOrder),
   (!paletteMissing s, .unexpectedChunkOrder),
   (s.hdr.colorType != 4 && s.hdr.colorType != 6, .invalidChunkData),
   (decide ((s.hdr.colorType = 0 → c.len = 2) ∧ (s.hdr.colorType = 2 → c.len = 6) ∧
      (s.hdr.colorType = 3 → c.len ≤ s.pal.plteN.toNat)), .invalidChunkData)]

/-- The transparency registers a tRNS chunk leaves, by colour type. -/
def trnsPal (s : State) (c : Chunk) : Pal :=
  if s.hdr.colorType = 0 then { s.pal with trnsGray := BitVec.ofNat 16 (be16 s c.data), grayValid := true }
  else if s.hdr.colorType = 2 then { s.pal with
    trnsR := BitVec.ofNat 16 (be16 s c.data)
    trnsG := BitVec.ofNat 16 (be16 s (c.data + 2))
    trnsB := BitVec.ofNat 16 (be16 s (c.data + 4))
    rgbValid := true }
  else if s.hdr.colorType = 3 then { s.pal with trnsN := BitVec.ofNat 9 c.len, palValid := true }
  else s.pal

/-- The alpha entries a tRNS chunk leaves: those of the chunk for a palette image. -/
def trnsAlpha (s : State) (c : Chunk) : Ram (BitVec 8) :=
  if s.hdr.colorType = 3 then ramStore s.alphaRam 0 (memRead s c.data c.len) else s.alphaRam

/-- The rule of a tRNS chunk by colour type, as one check on the length and one commit. -/
theorem trnsBody_eq (s : State) (c : Chunk) :
    trnsBody s c = runChecks [(decide ((s.hdr.colorType = 0 → c.len = 2) ∧ (s.hdr.colorType = 2 → c.len = 6) ∧
      (s.hdr.colorType = 3 → c.len ≤ s.pal.plteN.toNat)), .invalidChunkData)] >>= fun _ =>
      .ok { s with pal := trnsPal s c, alphaRam := trnsAlpha s c } := by
  have code (n : Nat) (hn : n < 256) : s.hdr.colorType = BitVec.ofNat 8 n ↔ s.hdr.colorType.toNat = n := by
    rw [← BitVec.toNat_inj, BitVec.toNat_ofNat, Nat.mod_eq_of_lt hn]
  have h0 := code 0 (by decide)
  have h2 := code 2 (by decide)
  have h3 := code 3 (by decide)
  unfold trnsBody
  split
  · rename_i h
    simp [require_eq, trnsPal, trnsAlpha, h0.2 h, beq_eq_decide]
  · rename_i h
    simp [require_eq, trnsPal, trnsAlpha, h2.2 h, beq_eq_decide]
  · rename_i h
    simp [require_eq, trnsPal, trnsAlpha, h3.2 h]
  · rename_i n0 n2 n3
    have n0 : s.hdr.colorType ≠ 0#8 := fun h => n0 (h0.1 h)
    have n2 : s.hdr.colorType ≠ 2#8 := fun h => n2 (h2.1 h)
    have n3 : s.hdr.colorType ≠ 3#8 := fun h => n3 (h3.1 h)
    simp [trnsPal, trnsAlpha, n0, n2, n3, runChecks_cons, require]

theorem commitChunk_trns_eq {s : State} {c : Chunk} {q : Nat × Nat} (hk : kindOf c.type = .trns) :
    commitChunk s c q = runChecks (trnsChecks s c) >>= fun _ =>
      .ok { s with pal := trnsPal s c, alphaRam := trnsAlpha s c, framer := { s.framer with trnsSeen := true } } := by
  rw [commitChunk_of_kind hk (by simp)]
  simp only [parseTrns_eq, trnsBody_eq, bind_assoc, ok_bind]
  simp only [← bind_assoc, ← runChecks_append, List.cons_append, List.nil_append]
  rw [runChecks_implied _ (by simp +contextual), not_paletteMissing]
  rfl

/-- Settles O32: the loads by colour type are `trnsPal` and `trnsAlpha`. -/
theorem trnsChunkLoadsTheTransparency : Obligations.TrnsChunkLoadsTheTransparency := by
  intro s hf ht
  have hc := commitChunk_trns_eq (s := s) (c := sourceChunk s) (q := (srcAddr s, srcLen s))
    (show kindOf (chunkCode s) = .trns by rw [ht]; rfl)
  refine ⟨fun ho => ⟨_, exec_chunkParse_ok hf hc ho rfl, rfl, fun hct i => ?_, fun hct => if_neg hct⟩,
    fun e he => failsParse_of_checks hf hc he⟩
  · change (ramGet (trnsAlpha s (sourceChunk s)) i).getD _ = _
    rw [trnsAlpha, if_pos hct, ramGet_ramStore_zero]
    simp only [memRead_length, memRead_getElem, dite_eq_ite]
    rfl

/-! ### IEND (R133) -/

/-- The checks of an IEND chunk. -/
def iendChecks (s : State) (c : Chunk) : List Check :=
  [(s.framer.phase != .sigOk, .unexpectedChunkOrder),
   (s.framer.phase != .header, .missingChunk (if paletteMissing s then .plte else .idat)),
   (c.len == 0, .invalidChunkData)]

theorem commitChunk_iend_eq {s : State} {c : Chunk} {q : Nat × Nat} (hk : kindOf c.type = .iend) :
    commitChunk s c q = runChecks (iendChecks s c) >>= fun _ => .ok (setPhase s .ended) := by
  rw [commitChunk_of_kind hk (by simp)]
  simp only [parseIend_eq, ← bind_assoc, ← runChecks_append, List.cons_append, List.nil_append, iendChecks]
  by_cases hp : s.framer.phase = .header
  · rw [missingKind_of_header hp]
  · simp only [runChecks, firstError_cons, bne_iff_ne, ne_eq, hp, not_false_eq_true, if_true]

/-- Settles O33: the checks and the commit are `commitChunk_iend_eq`'s. -/
theorem iendChunkEndsTheStream : Obligations.IendChunkEndsTheStream := by
  intro s hf ht
  have hc := commitChunk_iend_eq (s := s) (c := sourceChunk s) (q := (srcAddr s, srcLen s))
    (show kindOf (chunkCode s) = .iend by rw [ht]; rfl)
  exact ⟨fun ho => exec_chunkParse_ok hf hc ho rfl, fun e he => failsParse_of_checks hf hc he⟩

end Sys2Proof.Machine
end

section
/-! SUPPORT. The chunk order table (41_framer.md rules R122, R127) by the kind of the chunk. -/

namespace Sys2Proof.Machine

/-! ### Completions of the parse commands by their error code (R121, R262) -/

theorem finishParse_success {s u : State} {r : Except Err State} (h : finishParse s r = .next u) (hc : u.ctl.errCode = 0) :
    ∃ t, r = .ok t ∧ u = succeed t := by
  rcases finishParse_cases h with ht | ⟨e, -, rfl⟩
  · exact ht
  · exact absurd hc e.code_reported.2

theorem finishParse_failure {s u : State} {r : Except Err State} (h : finishParse s r = .next u) (hc : u.ctl.errCode ≠ 0) :
    ∃ e, r = .error e ∧ u = fail (failFramer s e) e := by
  rcases finishParse_cases h with ⟨t, -, rfl⟩ | he
  · exact absurd rfl hc
  · exact he

/-- A rule that answers passed its first check. -/
theorem first_of_ok {b : Bool} {e : Err} {cs : List Check} {k : Unit → Except Err State} {t : State}
    (h : runChecks ((b, e) :: cs) >>= k = .ok t) : b = true ∧ k () = .ok t := by
  obtain ⟨_, hc, hk⟩ := bind_eq_ok.1 h
  exact ⟨checks_of_runChecks hc _ (List.mem_cons_self ..), hk⟩

/-! ### The table -/

/-- The state a chunk of kind `k` leads to from `st`, where the table allows it (R122). -/
def nextPhase (st : Phase) (k : Kind) : Option Phase :=
  match k with
  | .ihdr => if st = .sigOk then some .header else none
  | .plte | .trns => if st = .header then some .header else none
  | .idat => if st = .sigOk ∨ st = .postIdat then none else some .idat
  | .iend => if st = .sigOk then none else some .ended
  | .ancillary | .unknownCritical => if st = .sigOk then none else if st = .header then some .header else some .postIdat

theorem nextPhase_kindOf (st : Phase) (t : Nat) :
    nextPhase st (kindOf t) =
      if t = typeIhdr then (if st = .sigOk then some .header else none)
      else if st = .sigOk then none
      else if t = typePlte ∨ t = typeTrns then (if st = .header then some .header else none)
      else if t = typeIdat then (if st = .postIdat then none else some .idat)
      else if t = typeIend then some .ended
      else if st = .header then some .header else some .postIdat := by
  by_cases h : t ∈ [typeIhdr, typePlte, typeTrns, typeIdat, typeIend]
  · simp only [List.mem_cons, List.not_mem_nil, or_false] at h
    rcases h with rfl | rfl | rfl | rfl | rfl <;> cases st <;> rfl
  · simp only [List.mem_cons, List.not_mem_nil, or_false, not_or] at h
    obtain ⟨h1, h2, h3, h4, h5⟩ := h
    simp only [kindOf, h1, h2, h3, h4, h5, or_self, if_false]
    split <;> rfl

theorem kindOf_eq_ancillary {t : Nat} :
    kindOf t = .ancillary ↔ t ∉ [typeIhdr, typePlte, typeTrns, typeIdat, typeIend] ∧ t.testBit 29 = true := by
  unfold kindOf
  split_ifs <;> simp_all

theorem kindOf_eq_unknownCritical {t : Nat} :
    kindOf t = .unknownCritical ↔ t ∉ [typeIhdr, typePlte, typeTrns, typeIdat, typeIend] ∧ t.testBit 29 = false := by
  unfold kindOf
  split_ifs <;> simp_all

/-- An error of the first check of a kind's rule. -/
theorem failsParse_of_first {s : State} {b : Bool} {e : Err} {cs : List Check} {k : Unit → Except Err State}
    (h : firstError (framingOrder s) = none)
    (hc : commitChunk s (sourceChunk s) (srcAddr s, srcLen s) = runChecks ((b, e) :: cs) >>= k) (hb : b = false) :
    FailsParseWith .chunkParse s e :=
  failsParse_of_checks h hc (by rw [hb]; rfl)

/-- A forbidden cell of the table: the first check of the kind's rule fails. -/
theorem failsParse_of_nextPhase_none {s : State} (hf : firstError (framingOrder s) = none)
    (hn : nextPhase s.framer.phase (kindOf (chunkCode s)) = none) : FailsParseWith .chunkParse s .unexpectedChunkOrder := by
  by_cases hs : s.framer.phase = .sigOk
  · have hk : kindOf (chunkCode s) ≠ .ihdr := fun hk => by simp [hk, nextPhase, hs] at hn
    exact failsParse_of_first hf (commitChunk_of_kind rfl hk) (by simp [hs])
  · cases hk : kindOf (chunkCode s) <;> simp only [hk, nextPhase, hs, if_false, false_or] at hn
    case ihdr => exact failsParse_of_first hf (commitChunk_ihdr_eq hk) (by simp [hs])
    case plte => exact failsParse_of_first hf (commitChunk_plte_eq hk) (by simp_all)
    case trns => exact failsParse_of_first hf (commitChunk_trns_eq hk) (by simp_all)
    case idat => exact failsParse_of_first hf (commitChunk_idat_eq hk) (by simp_all)
    case iend => cases hn
    case ancillary | unknownCritical => split at hn <;> cases hn

/-- A committed chunk is of a known kind and leads to the state of the table. -/
theorem commitChunk_phase {s t : State} {c : Chunk} {q : Nat × Nat}
    (hp : s.framer.phase ≠ .failed ∧ s.framer.phase ≠ .start ∧ s.framer.phase ≠ .ended) (h : commitChunk s c q = .ok t) :
    kindOf c.type ≠ .unknownCritical ∧ nextPhase s.framer.phase (kindOf c.type) = some t.framer.phase ∧
    (kindOf c.type = .ancillary → t.framer.dirCount = s.framer.dirCount + 1) := by
  cases hk : kindOf c.type
  case ihdr =>
    rw [commitChunk_ihdr_eq hk] at h
    obtain ⟨hs, h⟩ := first_of_ok h
    cases h
    exact ⟨nofun, by simpa [nextPhase] using hs, nofun⟩
  case plte =>
    rw [commitChunk_plte_eq hk] at h
    obtain ⟨hs, h⟩ := first_of_ok h
    cases h
    exact ⟨nofun, by simp_all [nextPhase, plteCommit], nofun⟩
  case trns =>
    rw [commitChunk_trns_eq hk] at h
    obtain ⟨hs, h⟩ := first_of_ok h
    cases h
    exact ⟨nofun, by simp_all [nextPhase], nofun⟩
  case idat =>
    rw [commitChunk_idat_eq hk] at h
    obtain ⟨hs, h⟩ := first_of_ok h
    cases h
    refine ⟨nofun, ?_, nofun⟩
    rcases (by simpa using hs : s.framer.phase = .header ∨ s.framer.phase = .idat) with hs | hs <;>
      simp [nextPhase, hs, idatCommit]
  case iend =>
    rw [commitChunk_iend_eq hk] at h
    obtain ⟨hs, h⟩ := first_of_ok h
    cases h
    exact ⟨nofun, by simpa [nextPhase] using hs, nofun⟩
  case ancillary =>
    rw [commitChunk_ancillary_eq hk] at h
    obtain ⟨hs, h⟩ := first_of_ok h
    cases h
    refine ⟨nofun, ?_, fun _ => rfl⟩
    cases hs : s.framer.phase <;> simp_all [nextPhase, dirCommit]
  case unknownCritical =>
    rw [commitChunk_of_kind hk (by simp)] at h
    obtain ⟨-, h⟩ := first_of_ok h
    cases h

/-- Settles O27: the table of the statement is `nextPhase` of the chunk's kind. -/
theorem chunkOrderTable : Obligations.ChunkOrderTable := by
  intro s hf st t named ancillary unknown next
  have hnext : nextPhase st (kindOf t) = next := nextPhase_kindOf st t
  refine ⟨fun hn => failsParse_of_nextPhase_none hf (hnext.trans hn), fun hs hu => ?_, fun hs ht => ?_, fun u hx hc => ?_⟩
  · have hk : kindOf (chunkCode s) = .unknownCritical := kindOf_eq_unknownCritical.2 hu
    have hs : firstError [(s.framer.phase != .sigOk, .unexpectedChunkOrder)] = none := by
      simpa [firstError_cons] using hs
    exact failsParse_of_commit hf (by rw [commitChunk_of_kind hk (by simp), runChecks_ok hs]; rfl)
  · have hk : kindOf (chunkCode s) = .iend := by rw [show chunkCode s = typeIend from ht]; rfl
    have hs : s.framer.phase = .header := hs
    exact failsParse_of_checks hf (commitChunk_iend_eq hk) (by simp [iendChecks, firstError_cons, hs])
  · rw [exec_chunkParse_of_framed hf] at hx
    obtain ⟨v, hv, rfl⟩ := finishParse_success hx hc
    obtain ⟨w, hw, hv⟩ := bind_eq_ok.1 hv
    cases hv
    obtain ⟨hk, hp, hd⟩ := commitChunk_phase (framed_phase hf) hw
    exact ⟨⟨fun hu => hk (kindOf_eq_unknownCritical.2 hu), hnext.symm.trans hp⟩,
      fun ha => hd (kindOf_eq_ancillary.2 ha)⟩

end Sys2Proof.Machine
end

section
/-! SUPPORT. The serialising commands (41_framer.md rules R135 to R138): what stands at DST_ADDR after each, and the fields of
a chunk in the buffer (R93). -/

namespace Sys2Proof.Machine

/-! ### The fields of a chunk in the buffer (R93) -/

/-- A chunk of type `type` with data `bs` stands at `a`. -/
def ChunkAt (s : State) (a type : Nat) (bs : List Byte) : Prop :=
  memRead s a (12 + bs.length) = chunkBytes type bs

section
variable {s : State} {a type : Nat} {bs : List Byte} (h : ChunkAt s a type bs)
include h

theorem ChunkAt.fields : memRead s a (12 + bs.length) =
    beBytes bs.length 4 ++ (beBytes type 4 ++ (bs ++ beBytes (crc32 (beBytes type 4 ++ bs)).toNat 4)) := by
  rw [h, chunkBytes]
  simp only [List.append_assoc]

theorem ChunkAt.len (hl : bs.length < 2 ^ 32) : be32 s a = bs.length := be32_of_memRead (x := []) h.fields hl

theorem ChunkAt.code (ht : type < 2 ^ 32) : be32 s (a + 4) = type := by
  simpa using be32_of_memRead (x := beBytes bs.length 4) h.fields ht

/-- What the CRC covers: the type and the data. -/
theorem ChunkAt.covered : memRead s (a + 4) (4 + bs.length) = beBytes type 4 ++ bs := by
  have hf := h.fields
  rw [← List.append_assoc (beBytes type 4)] at hf
  simpa using memRead_of_append hf

theorem ChunkAt.data : memRead s (a + 8) bs.length = bs := by
  have hf := h.fields
  rw [← List.append_assoc (beBytes bs.length 4)] at hf
  simpa using memRead_of_append hf

theorem ChunkAt.crc : be32 s (a + 8 + bs.length) = (crc32 (beBytes type 4 ++ bs)).toNat := by
  have hf : memRead s a (12 + bs.length) = (beBytes bs.length 4 ++ beBytes type 4 ++ bs) ++
      (beBytes (crc32 (beBytes type 4 ++ bs)).toNat 4 ++ []) := by
    simp only [h.fields, List.append_assoc, List.append_nil]
  have hr := be32_of_memRead hf (BitVec.isLt _)
  rwa [List.length_append, List.length_append, beBytes_length, beBytes_length, ← Nat.add_assoc] at hr

end

/-! ### What a serialising command leaves -/

/-- A command that checks, and then writes results and the bytes `bs` at DST_ADDR. -/
theorem leaves_of_checks {i : Instr} {s u : State} {cs : List Check} {r : Results} {bs : List Byte} {n : Nat}
    (hx : exec i s = finish s (runChecks cs >>= fun _ => .ok u)) (hcs : firstError cs = none)
    (hu : u = { s with res := r, buf := ramStore s.buf (dstAddr s) bs }) (hn : bs.length = n) :
    ∃ t, exec i s = .next t ∧ Leaves s t r n ∧ memRead t (dstAddr s) n = bs := by
  subst hu
  exact ⟨_, hx.trans (finish_ok hcs rfl), leaves_store rfl hn⟩

theorem setRes_memWrite (s : State) (a n : Nat) (bs : List Byte) (w : Word) :
    setRes1 (setRes0 (memWrite s a bs) n) w.toNat =
      { s with res := { s.res with res0 := BitVec.ofNat 32 n, res1 := w }, buf := ramStore s.buf a bs } := by
  rw [setRes1, BitVec.ofNat_toNat, BitVec.setWidth_eq]
  rfl

/-! ### SIG_WRITE and IHDR_WRITE (R135, R137) -/

theorem exec_sigWrite (s : State) : exec .sigWrite s =
    finish s (runChecks (destChecks s 8) >>= fun _ => .ok (setRes0 (memWrite s (dstAddr s) signature) 8)) :=
  congrArg (finish s) (sigWrite_eq s)

theorem exec_ihdrWrite (s : State) : exec .ihdrWrite s =
    finish s (runChecks (((header s).isSome, .invalidHeader) :: destChecks s 25) >>= fun _ =>
      .ok (setRes1 (setRes0 (memWrite s (dstAddr s) (chunkBytes typeIhdr (ihdrData s))) 25)
        (crc32 (beBytes typeIhdr 4 ++ ihdrData s)).toNat)) :=
  congrArg (finish s) (ihdrWrite_eq s)

/-- The 13 data bytes of an IHDR chunk with the header `hdr` (R94). -/
def ihdrBytes (hdr : HeaderRegs) : List Byte :=
  beBytes hdr.width.toNat 4 ++ beBytes hdr.height.toNat 4 ++ [hdr.bitDepth, hdr.colorType, 0, 0, hdr.interlace]

@[simp] theorem ihdrBytes_length (hdr : HeaderRegs) : (ihdrBytes hdr).length = 13 := by simp [ihdrBytes]

theorem ihdrData_eq (s : State) : ihdrData s = ihdrBytes s.hdr := rfl

theorem be32_of_ihdrBytes {s : State} {a : Nat} {hdr : HeaderRegs} (h : memRead s a 13 = ihdrBytes hdr) :
    be32 s a = hdr.width.toNat ∧ be32 s (a + 4) = hdr.height.toNat ∧
    memRead s (a + 8) 5 = [hdr.bitDepth, hdr.colorType, 0, 0, hdr.interlace] := by
  have hwords := h
  rw [ihdrBytes, List.append_assoc] at hwords
  rw [ihdrBytes, ← List.append_nil [hdr.bitDepth, _, _, _, _]] at h
  exact ⟨be32_of_memRead (x := []) hwords hdr.width.isLt, by simpa using be32_of_memRead hwords hdr.height.isLt,
    by simpa using memRead_of_append h⟩

/-- IHDR_WRITE leaves the IHDR chunk of the header registers at DST_ADDR. -/
theorem ihdrWrite_leaves {s : State} (h : firstError (((header s).isSome, .invalidHeader) :: destChecks s 25) = none) :
    ∃ t, exec .ihdrWrite s = .next t ∧
      Leaves s t { s.res with res0 := 25, res1 := crc32 (beBytes typeIhdr 4 ++ ihdrData s) } 25 ∧
      ChunkAt t (dstAddr s) typeIhdr (ihdrData s) := by
  have hl : (chunkBytes typeIhdr (ihdrData s)).length = 25 := by rw [chunkBytes_length, ihdrData_length]
  exact leaves_of_checks (exec_ihdrWrite s) h (setRes_memWrite ..) hl

/-- Settles O36: the fields are those of the chunk `ihdrWrite_leaves` gives. -/
theorem sigWriteAndIhdrWrite : Obligations.SigWriteAndIhdrWrite := by
  intro s
  refine ⟨fun h => leaves_of_checks (exec_sigWrite s) h rfl rfl, fun e he => failsWith_firstError (exec_sigWrite s) he,
    fun h => ?_, fun e he => failsWith_firstError (exec_ihdrWrite s) he⟩
  obtain ⟨t, hx, hleaves, hchunk⟩ := ihdrWrite_leaves h
  have hcovered : memRead t (dstAddr s + 4) 17 = beBytes typeIhdr 4 ++ ihdrData s := hchunk.covered
  obtain ⟨hwidth, hheight, hbytes⟩ := be32_of_ihdrBytes (hchunk.data.trans (ihdrData_eq s))
  rw [← hcovered] at hleaves
  refine ⟨t, hx, hleaves, hchunk.len (by rw [ihdrData_length]; decide), hchunk.code (by decide), hwidth, hheight, hbytes, ?_⟩
  rw [hcovered]
  exact hchunk.crc

/-! ### CHUNK_WRITE (R136) -/

/-- Settles O37: the bytes at DST_ADDR are `chunkBytes`, so they stand as a chunk. -/
theorem chunkWriteWritesTheChunk : Obligations.ChunkWriteWritesTheChunk := by
  intro s n bs crc
  have hx : exec .chunkWrite s = _ := congrArg (finish s) (chunkWrite_eq s)
  refine ⟨fun h => ?_, fun e he => failsWith_firstError hx he⟩
  have hbs : bs.length = n := memRead_length s (srcAddr s) n
  have hlt : n < 2 ^ 32 := s.opd.srcLen.isLt
  obtain ⟨t, ht, hleaves, hchunk⟩ := leaves_of_checks (r := { s.res with res0 := BitVec.ofNat 32 (12 + n), res1 := crc })
    (bs := chunkBytes s.opd.chunkType.toNat bs) (n := 12 + n) hx h (setRes_memWrite ..)
    (by rw [chunkBytes_length, hbs])
  have hchunk : ChunkAt t (dstAddr s) s.opd.chunkType.toNat bs := by rwa [ChunkAt, hbs]
  refine ⟨t, ht, hleaves, (hchunk.len (by rwa [hbs])).trans hbs, hchunk.code s.opd.chunkType.isLt, ?_, ?_⟩
  · rw [← hbs]; exact hchunk.data
  · rw [← hbs]; exact hchunk.crc

/-! ### IDAT_WRITE (R138) -/

/-- A sequence of pieces, cut before piece `j`. -/
theorem flatMap_range_split {α : Type} (f : Nat → List α) {j k : Nat} (h : j < k) :
    ∃ rest, (List.range k).flatMap f = (List.range j).flatMap f ++ (f j ++ rest) := by
  obtain ⟨r, rfl⟩ := Nat.exists_eq_add_of_lt h
  refine ⟨((List.range r).map (j + 1 + ·)).flatMap f, ?_⟩
  rw [Nat.add_right_comm, List.range_add, List.flatMap_append, List.range_succ, List.flatMap_append, List.append_assoc]
  simp

theorem length_flatMap_range {α : Type} (f : Nat → List α) {j c : Nat} (h : ∀ i, i < j → (f i).length = c) :
    ((List.range j).flatMap f).length = j * c := by
  induction j with
  | zero => simp
  | succ j ih =>
    rw [List.range_succ, List.flatMap_append, List.length_append, ih fun i hi => h i (by omega), Nat.succ_mul]
    simp [h j (by omega)]

/-- The parts of a source of `len` bytes split at `m` start within it. -/
theorem mul_le_of_lt_parts {len m j : Nat} (hj : j < max 1 ((len + m - 1) / m)) : j * m ≤ len := by
  rcases Nat.eq_zero_or_pos j with rfl | hpos
  · simp
  · have hle : (j + 1) * m ≤ (len + m - 1) / m * m := Nat.mul_le_mul_right m (by omega)
    have hdiv : (len + m - 1) / m * m ≤ len + m - 1 := Nat.div_mul_le_self _ _
    rw [Nat.succ_mul] at hle
    omega

/-- Payload part `j` of IDAT_WRITE. -/
def idatPart (s : State) (j : Nat) : List Byte :=
  memRead s (srcAddr s + j * s.opd.idatMax.toNat) (min s.opd.idatMax.toNat (srcLen s - j * s.opd.idatMax.toNat))

theorem idatBytes_eq (s : State) :
    idatBytes s = (List.range (idatCount s)).flatMap fun j => chunkBytes typeIdat (idatPart s j) := rfl

/-- Every chunk before chunk `j` is full (R138). -/
theorem idatBytes_before_length {s : State} {j : Nat} (hj : j < idatCount s) :
    ((List.range j).flatMap fun i => chunkBytes typeIdat (idatPart s i)).length = j * (12 + s.opd.idatMax.toNat) := by
  refine length_flatMap_range _ fun i hi => ?_
  have hle : j * s.opd.idatMax.toNat ≤ srcLen s := mul_le_of_lt_parts hj
  have hij : (i + 1) * s.opd.idatMax.toNat ≤ j * s.opd.idatMax.toNat := Nat.mul_le_mul_right _ hi
  rw [Nat.succ_mul] at hij
  rw [chunkBytes_length, idatPart, memRead_length, Nat.min_eq_left (by omega)]

/-- Where IDAT_WRITE's bytes stand, each of its chunks stands at its place. -/
theorem chunkAt_of_idatBytes {s t : State} {a n j : Nat} (h : memRead t a n = idatBytes s) (hj : j < idatCount s) :
    ChunkAt t (a + j * (12 + s.opd.idatMax.toNat)) typeIdat (idatPart s j) := by
  obtain ⟨rest, hsplit⟩ := flatMap_range_split (fun i => chunkBytes typeIdat (idatPart s i)) hj
  rw [idatBytes_eq, hsplit] at h
  have hread := memRead_of_append h
  rwa [idatBytes_before_length hj, chunkBytes_length] at hread

theorem setRes_ofNat (s : State) (a n k : Nat) (bs : List Byte) :
    setRes1 (setRes0 (memWrite s a bs) n) k = { s with
      res := { s.res with res0 := BitVec.ofNat 32 n, res1 := BitVec.ofNat 32 k }, buf := ramStore s.buf a bs } := rfl

/-- Settles O38: every chunk before chunk `j` is full, so chunk `j` stands at the place the statement names. -/
theorem idatWriteSplitsTheSource : Obligations.IdatWriteSplitsTheSource := by
  intro s m len k n order
  have hmax : (s.opd.idatMax != 0) = decide (m ≠ 0) := by
    rw [Bool.eq_iff_iff, bne_iff_ne, decide_eq_true_eq, ne_eq, ← BitVec.toNat_inj]
    rfl
  have hx : exec .idatWrite s = finish s (runChecks order >>= fun _ =>
      .ok (setRes1 (setRes0 (memWrite s (dstAddr s) (idatBytes s)) n) k)) := by
    rw [exec, execIdatWrite, idatWrite_eq, hmax]
    rfl
  refine ⟨fun h => ?_, fun e he => failsWith_firstError hx he⟩
  have hm : s.opd.idatMax ≠ 0 := by
    rw [← bne_iff_ne, hmax]
    exact firstError_eq_none.1 h _ (List.mem_cons_self ..)
  obtain ⟨t, ht, hleaves, hbytes⟩ := leaves_of_checks (n := n) hx h (setRes_ofNat ..) (idatBytes_length s hm)
  refine ⟨t, ht, hleaves, ?_⟩
  intro j hj a part
  have hchunk : ChunkAt t a typeIdat (idatPart s j) := chunkAt_of_idatBytes hbytes hj
  have hpart : (idatPart s j).length = part := memRead_length ..
  have hlt : part < 2 ^ 32 := (Nat.min_le_left _ _).trans_lt s.opd.idatMax.isLt
  refine ⟨(hchunk.len (by rwa [hpart])).trans hpart, hchunk.code (by decide), ?_, ?_⟩
  · have hdata := hchunk.data
    rwa [hpart] at hdata
  · rw [← hpart, hchunk.covered]; exact hchunk.crc

end Sys2Proof.Machine
end

section
/-! SUPPORT. The steps of STREAM_PARSE against the single commands (41_framer.md rule R126): a parse does not depend on STATUS,
ERROR, the results, or the operands SRC_ADDR and SRC_LEN, and a destination apart from the whole stream is apart from its
rest. -/

namespace Sys2Proof.Machine

/-! ### A parse under other results and operands -/

/-- `t` with other control fields, results and SRC operands: what a single command sees where the loop of STREAM_PARSE sees
`t`. -/
def withStep (t : State) (c : Ctl) (r : Results) (a l : Word) : State :=
  { t with ctl := c, res := r, opd := { t.opd with srcAddr := a, srcLen := l } }

section
variable (t : State) (c : Ctl) (r : Results) (a l : Word)

theorem map_of_checks {cs : List Check} {x y : Except Err State} {u v : State} {f : State → State}
    (hx : x = runChecks cs >>= fun _ => .ok u) (hy : y = runChecks cs >>= fun _ => .ok v) (hv : v = f u) :
    y = x.map f := by
  subst hx hy hv
  cases runChecks cs <;> rfl

theorem frameChunk_withStep (x rem : Nat) : frameChunk (withStep t c r a l) x rem = frameChunk t x rem := by
  rw [frameChunk_eq, frameChunk_eq]
  rfl

theorem commitChunk_withStep (k : Chunk) (q : Nat × Nat) :
    commitChunk (withStep t c r a l) k q = (commitChunk t k q).map (withStep · c r a l) := by
  cases hk : kindOf k.type
  case ihdr => exact map_of_checks (commitChunk_ihdr_eq hk) (commitChunk_ihdr_eq hk) rfl
  case plte => exact map_of_checks (commitChunk_plte_eq hk) (commitChunk_plte_eq hk) rfl
  case trns => exact map_of_checks (commitChunk_trns_eq hk) (commitChunk_trns_eq hk) rfl
  case idat => exact map_of_checks (commitChunk_idat_eq hk) (commitChunk_idat_eq hk) rfl
  case iend => exact map_of_checks (commitChunk_iend_eq hk) (commitChunk_iend_eq hk) rfl
  case ancillary => exact map_of_checks (commitChunk_ancillary_eq hk) (commitChunk_ancillary_eq hk) rfl
  case unknownCritical =>
    rw [commitChunk_of_kind hk (by simp), commitChunk_of_kind hk (by simp)]
    change (runChecks [(t.framer.phase != .sigOk, .unexpectedChunkOrder)] >>= _) = _
    cases runChecks [(t.framer.phase != .sigOk, .unexpectedChunkOrder)] <;> rfl

theorem parseChunk_withStep (x rem : Nat) (q : Nat × Nat) :
    parseChunk (withStep t c r a l) x rem q = (parseChunk t x rem q).map fun p => (withStep p.1 c r a l, p.2) := by
  rw [parseChunk, parseChunk, frameChunk_withStep]
  cases frameChunk t x rem with
  | error e => rfl
  | ok k =>
    rw [ok_bind, ok_bind, commitChunk_withStep]
    cases commitChunk t k q <;> rfl

end

/-! ### The source that a destination is apart from -/

/-- The IDAT buffer and the directory of `t` are apart from the bytes `q` (R126, R69). -/
def BuffersApart (t : State) (q : Nat × Nat) : Prop :=
  (apartCheck t.opd.idatBase.toNat t.opd.idatCap.toNat .idat q.1 q.2).1 = true ∧
  (apartCheck t.opd.dirBase.toNat (12 * t.opd.dirCap.toNat) .dir q.1 q.2).1 = true

/-- A region within one that is apart from `q` is apart from every part of `q`. -/
theorem apartCheck_mono {r : Region} {a n b m a' n' b' m' : Nat} (h : (apartCheck a n r b m).1 = true)
    (ha : a ≤ a' ∧ a' + n' ≤ a + n) (hb : b ≤ b' ∧ b' + m' ≤ b + m) : (apartCheck a' n' r b' m').1 = true := by
  simp only [apartCheck, decide_eq_true_eq] at h ⊢
  omega

theorem BuffersApart.mono {t : State} {b m b' m' : Nat} (h : BuffersApart t (b, m)) (hb : b ≤ b' ∧ b' + m' ≤ b + m) :
    BuffersApart t (b', m') :=
  ⟨apartCheck_mono h.1 ⟨le_rfl, le_rfl⟩ hb, apartCheck_mono h.2 ⟨le_rfl, le_rfl⟩ hb⟩

/-- A last check that the earlier ones imply is redundant. -/
theorem runChecks_append_implied {cs : List Check} {c : Check} (h : firstError cs = none → c.1 = true) :
    runChecks (cs ++ [c]) = runChecks cs := by
  cases hcs : firstError cs with
  | none => rw [runChecks, firstError_append, hcs, Option.none_or, firstError_cons, if_pos (h hcs), runChecks_ok hcs]; rfl
  | some e => rw [runChecks, firstError_append, hcs, runChecks_error hcs]; rfl

/-- An IDAT chunk that fits the buffer needs no further check (R126, R130). -/
theorem commitChunk_idat_of_apart {t : State} {k : Chunk} {q : Nat × Nat} (hk : kindOf k.type = .idat)
    (hq : BuffersApart t q) : commitChunk t k q = runChecks (idatFits t k) >>= fun _ => .ok (idatCommit t k) := by
  rw [commitChunk_idat_eq hk, runChecks_append_implied fun h => ?_]
  have hcap := idatFits_cap h
  exact apartCheck_mono hq.1 (by unfold idatNext; omega) ⟨le_rfl, le_rfl⟩

/-- A directory record that fits the directory needs no further check (R126, R131). -/
theorem commitChunk_ancillary_of_apart {t : State} {k : Chunk} {q : Nat × Nat} (hk : kindOf k.type = .ancillary)
    (hq : BuffersApart t q) : commitChunk t k q = runChecks (dirFits t) >>= fun _ => .ok (dirCommit t (dirRecord k)) := by
  rw [commitChunk_ancillary_eq hk, runChecks_append_implied fun h => ?_]
  have hcap : t.framer.dirCount.toNat < t.opd.dirCap.toNat := by
    simpa using firstError_eq_none.1 h _ (List.mem_cons_of_mem _ (List.mem_cons_self ..))
  exact apartCheck_mono hq.2 (by unfold dirNext; omega) ⟨le_rfl, le_rfl⟩

/-- The source matters to a chunk only through the disjointness of the buffers. -/
theorem commitChunk_source {t : State} {k : Chunk} {q q' : Nat × Nat} (hq : BuffersApart t q) (hq' : BuffersApart t q') :
    commitChunk t k q = commitChunk t k q' := by
  cases hk : kindOf k.type
  case idat => rw [commitChunk_idat_of_apart hk hq, commitChunk_idat_of_apart hk hq']
  case ancillary => rw [commitChunk_ancillary_of_apart hk hq, commitChunk_ancillary_of_apart hk hq']
  case ihdr => rw [commitChunk_ihdr_eq hk, commitChunk_ihdr_eq hk]
  all_goals rw [commitChunk_of_kind hk (by simp), commitChunk_of_kind hk (by simp)]

/-- With nothing left of the stream a chunk fails before it is read, wherever it would stand (R124). -/
theorem frameChunk_empty (t : State) : ∃ e, ∀ a, frameChunk t a 0 = .error e := by
  cases h : firstError [(t.framer.phase != .failed, .framerFailed t.framer.failCode),
    (t.framer.phase != .start && t.framer.phase != .ended, .unexpectedChunkOrder),
    (decide (0 ≠ 0), .missingChunk (missingKind t))] with
  | none => simpa using firstError_eq_none.1 h
  | some e =>
    refine ⟨e, fun a => ?_⟩
    have he : firstError (framingAt t a 0) = some e := by
      rw [framingAt, ← List.take_append_drop 3 (_ :: _), firstError_append]
      exact congrArg (Option.or · _) h
    rw [frameChunk_eq, runChecks_error he]
    rfl

/-- A chunk that begins at offset `off` of the stream `(b, m)`, parsed with the rest of the stream as its source. -/
theorem parseChunk_rest {t : State} {b m off : Nat} (hm : b + m ≤ 2 ^ 32) (hlt : m < 2 ^ 32) (ho : off ≤ m)
    (hq : BuffersApart t (b, m)) :
    parseChunk t (BitVec.ofNat 32 (b + off)).toNat (BitVec.ofNat 32 (m - off)).toNat
      ((BitVec.ofNat 32 (b + off)).toNat, (BitVec.ofNat 32 (m - off)).toNat) = parseChunk t (b + off) (m - off) (b, m) := by
  have hrest : (BitVec.ofNat 32 (m - off)).toNat = m - off := by
    rw [BitVec.toNat_ofNat, Nat.mod_eq_of_lt (by omega)]
  rw [hrest]
  rcases Nat.lt_or_eq_of_le ho with hlt | rfl
  · rw [BitVec.toNat_ofNat, Nat.mod_eq_of_lt (by omega), parseChunk, parseChunk]
    simp only [commitChunk_source (hq.mono (b' := b + off) (m' := m - off) (by omega)) hq]
  · obtain ⟨e, he⟩ := frameChunk_empty t
    simp only [parseChunk, Nat.sub_self, he]
    rfl

/-! ### A run of the single commands -/

theorem firstError_of_runChecks {cs : List Check} {e : Err} (h : runChecks cs = .error e) : firstError cs = some e := by
  unfold runChecks at h
  split at h
  · cases h
  · cases h; assumption

/-- Outside FAILED no chunk raises FramerFailed (R121). -/
theorem parseChunk_error {t : State} {a rem : Nat} {q : Nat × Nat} {e : Err} (hp : t.framer.phase ≠ .failed)
    (h : parseChunk t a rem q = .error e) (b : Byte) : e ≠ .framerFailed b := by
  rcases bind_eq_error.1 h with h | ⟨k, -, h⟩
  · rw [frameChunk_eq] at h
    rcases bind_eq_error.1 h with h | ⟨_, -, h⟩
    · rintro rfl
      exact hp ((framerFailed_iff (firstError_of_runChecks h) (by simp [regionCheck]) b).1 rfl).1
    · cases h
  · rcases bind_eq_error.1 h with h | ⟨_, -, h⟩
    · exact commitChunk_error h b
    · cases h

theorem nextPhase_ne_failed (st : Phase) (k : Kind) : nextPhase st k ≠ some .failed := by
  cases k <;> simp only [nextPhase] <;> split_ifs <;> nofun

theorem parseChunk_phase {t u : State} {a rem : Nat} {q : Nat × Nat} {k : Chunk}
    (h : parseChunk t a rem q = .ok (u, k)) : u.framer.phase ≠ .failed := by
  obtain ⟨hf, hc⟩ := parseChunk_ok h
  obtain ⟨-, -, -, hphase⟩ := frameChunk_ok hf
  obtain ⟨-, hnext, -⟩ := commitChunk_phase hphase hc
  intro hu
  rw [hu] at hnext
  exact nextPhase_ne_failed _ _ hnext

/-- The checks of STREAM_PARSE before its first step (R126). -/
def streamOrder (s : State) : List Check :=
  [(s.framer.phase != .failed, .framerFailed s.framer.failCode),
   (s.framer.phase == .start, .unexpectedChunkOrder),
   regionCheck s (srcAddr s) (srcLen s) .src,
   apartCheck s.opd.idatBase.toNat s.opd.idatCap.toNat .idat (srcAddr s) (srcLen s),
   apartCheck s.opd.dirBase.toNat (12 * s.opd.dirCap.toNat) .dir (srcAddr s) (srcLen s)]

theorem streamChecks_eq (s : State) : streamChecks s = runChecks (streamOrder s) := by
  simp only [streamChecks, streamOrder, checkRegion_eq, checkDisjoint_one, regionCheck, apartCheck, runChecks_cons,
    runChecks_nil, bind_assoc, ok_bind]

theorem streamOrder_region {s : State} (ho : firstError (streamOrder s) = none) :
    srcAddr s + srcLen s ≤ s.params.memBytes := by
  simpa [regionCheck] using
    firstError_eq_none.1 ho (regionCheck s (srcAddr s) (srcLen s) .src) (by simp [streamOrder])

theorem streamOrder_apart {s : State} (ho : firstError (streamOrder s) = none) :
    BuffersApart s (srcAddr s, srcLen s) :=
  ⟨firstError_eq_none.1 ho _ (by simp [streamOrder]), firstError_eq_none.1 ho _ (by simp [streamOrder])⟩

/-- One chunk of the loop (R126). -/
theorem streamLoop_chunk {q : Nat × Nat} {off n : Nat} {t u : State} {k : Chunk}
    (h : parseChunk t (q.1 + off) (q.2 - off) q = .ok (u, k)) (fuel : Nat) :
    streamLoop q (fuel + 1) off n t =
      if u.framer.phase = .ended then .finished u (off + 12 + k.len) (n + 1)
      else streamLoop q fuel (off + 12 + k.len) (n + 1) u := by
  rw [streamLoop, h]

theorem streamLoop_error {q : Nat × Nat} {off n : Nat} {t : State} {e : Err}
    (h : parseChunk t (q.1 + off) (q.2 - off) q = .error e) (fuel : Nat) :
    streamLoop q (fuel + 1) off n t = .raised e t off := by
  rw [streamLoop, h]

theorem map_eq_ok {α β : Type} {x : Except Err α} {f : α → β} {b : β} : x.map f = .ok b ↔ ∃ a, x = .ok a ∧ f a = b := by
  cases x <;> simp [Except.map]

theorem map_eq_error {α β : Type} {x : Except Err α} {f : α → β} {e : Err} : x.map f = .error e ↔ x = .error e := by
  cases x <;> simp [Except.map]

/-- STREAM_PARSE has come to offset `off` and `n` chunks in the state `t`: from there its loop is still to run, or it has
ended. -/
structure LoopAt (s : State) (off n : Nat) (t : State) : Prop where
  keeps : ParseKeeps s t
  phase : t.framer.phase ≠ .failed
  within : off ≤ srcLen s
  rest : t.framer.phase ≠ .ended → ∀ fuel, srcLen s - off < 12 * fuel →
    streamParse s = streamLoop (srcAddr s, srcLen s) fuel off n t
  ended : t.framer.phase = .ended → streamParse s = .finished t off n

theorem loopAt_chunk {s t u : State} {off n : Nat} {k : Chunk} (ht : LoopAt s off n t) (hn : t.framer.phase ≠ .ended)
    (h : parseChunk t (srcAddr s + off) (srcLen s - off) (srcAddr s, srcLen s) = .ok (u, k)) :
    LoopAt s (off + 12 + k.len) (n + 1) u := by
  obtain ⟨-, hlen, -⟩ := frameChunk_ok (parseChunk_ok h).1
  refine ⟨ht.keeps.trans (parseChunk_keeps h), parseChunk_phase h, by have := ht.within; omega, fun hu fuel hfuel => ?_,
    fun hu => ?_⟩
  · rw [ht.rest hn (srcLen s + 1) (by omega), streamLoop_chunk (q := (srcAddr s, srcLen s)) h, if_neg hu]
    exact streamLoop_fuel _ _ _ _ _ _ (by simp only; omega) hfuel
  · rw [ht.rest hn (srcLen s + 1) (by omega), streamLoop_chunk (q := (srcAddr s, srcLen s)) h, if_pos hu]

section
variable {s : State} (hp : s.params.wf) (ho : firstError (streamOrder s) = none)
include ho

/-- After the signature (R123, R126). -/
theorem loopAt_signature {t : State} (h : parseSignature s = .ok t) : LoopAt s 8 0 t := by
  have hlen : 8 ≤ srcLen s := by
    rw [parseSignature_eq] at h
    obtain ⟨_, hc, -⟩ := bind_eq_ok.1 h
    simpa using checks_of_runChecks hc (decide (8 ≤ srcLen s), .signatureMismatch) (by simp)
  obtain rfl := parseSignature_keeps h
  refine ⟨⟨rfl, rfl, rfl, rfl, rfl, rfl⟩, nofun, hlen, fun _ fuel hfuel => ?_, nofun⟩
  rw [streamParse, streamChecks_eq, runChecks_ok ho, h]
  exact streamLoop_fuel _ _ _ _ _ _ (by simp only; omega) hfuel

include hp

/-- The chunk step of the loop is the single command's. -/
theorem parseChunk_atOffset {t : State} {off n : Nat} (ht : LoopAt s off n t) (c : Ctl) (r : Results) (a l : Word) :
    let w := atOffset s off (withStep t c r a l)
    parseChunk w (srcAddr w) (srcLen w) (srcAddr w, srcLen w) =
      (parseChunk t (srcAddr s + off) (srcLen s - off) (srcAddr s, srcLen s)).map
        fun p => (withStep p.1 c r (BitVec.ofNat 32 (srcAddr s + off)) (BitVec.ofNat 32 (srcLen s - off)), p.2) := by
  obtain ⟨-, hmem, -⟩ := hp
  obtain ⟨-, -, hopd, -⟩ := ht.keeps
  have hq := streamOrder_apart ho
  rw [BuffersApart, ← hopd] at hq
  rw [← parseChunk_rest ((streamOrder_region ho).trans hmem) s.opd.srcLen.isLt ht.within hq]
  exact parseChunk_withStep t c r _ _ _ _ _

/-- Every run of the single commands is where the loop of STREAM_PARSE comes to, but for STATUS, ERROR, the results and the
SRC operands. -/
theorem loopAt_of_chunkRun {off n : Nat} {u : State} (h : ChunkRun s off n u) :
    ∃ t c r a l, u = withStep t c r a l ∧ LoopAt s off n t := by
  induction h with
  | signature hx hc =>
    obtain ⟨v, hv, rfl⟩ := finishParse_success hx hc
    obtain ⟨t, ht, hv⟩ := bind_eq_ok.1 hv
    cases hv
    exact ⟨t, _, _, t.opd.srcAddr, t.opd.srcLen, rfl, loopAt_signature ho ht⟩
  | chunk hrun hend hx hc ih =>
    obtain ⟨t, c, r, a, l, rfl, ht⟩ := ih
    obtain ⟨v, hv, rfl⟩ := finishParse_success hx hc
    obtain ⟨p, hparse, hv⟩ := bind_eq_ok.1 hv
    rw [parseChunk_atOffset hp ho ht] at hparse
    obtain ⟨⟨u, k⟩, hstep, rfl⟩ := map_eq_ok.1 hparse
    cases hv
    have hnext := loopAt_chunk ht hend hstep
    have hlt := hnext.within.trans_lt s.opd.srcLen.isLt
    refine ⟨u, _, _, _, _, rfl, ?_⟩
    change LoopAt s (_ + (BitVec.ofNat 32 (12 + k.len)).toNat) _ u
    rw [BitVec.toNat_ofNat, Nat.mod_eq_of_lt (by omega), ← Nat.add_assoc]
    exact hnext

end

/-! ### Completions of STREAM_PARSE (R126, R262) -/

theorem exec_streamParse (s : State) : exec .streamParse s = finishStream s (streamParse s) := rfl

theorem finishStream_finished (s t : State) (off n : Nat) : finishStream s (.finished t off n) = .next { t with
    ctl := okCtl t, res := ⟨BitVec.ofNat 32 off, t.framer.idatLen, t.framer.dirCount, BitVec.ofNat 32 n⟩ } := by
  simp only [finishStream, setRes1, setRes2, BitVec.ofNat_toNat, BitVec.setWidth_eq]
  rfl

theorem fail_failFramer {s : State} {e : Err} (hn : ∀ c, e ≠ .framerFailed c) : fail (failFramer s e) e = { s with
    ctl := errCtl s e, framer := { s.framer with phase := .failed, failCode := e.code } } := by
  cases e
  case framerFailed c => exact absurd rfl (hn c)
  all_goals rfl

theorem finishStream_raised (s t : State) {e : Err} (off : Nat) (hn : ∀ c, e ≠ .framerFailed c) :
    finishStream s (.raised e t off) = .next (fail (failFramer (setRes0 t off) e) e) := by
  cases e
  case framerFailed c => exact absurd rfl (hn c)
  all_goals rfl

/-- A check before the first step: nothing but FRAMER, ERROR and RES0 changes, and in FAILED not even those of FRAMER and
RES0. -/
theorem exec_streamParse_of_order {s : State} {e : Err} (h : firstError (streamOrder s) = some e) :
    exec .streamParse s = .next { s with
      ctl := errCtl s e
      framer := if s.framer.phase = .failed then s.framer else { s.framer with phase := .failed, failCode := e.code }
      res := if s.framer.phase = .failed then s.res else { s.res with res0 := 0 } } := by
  have hf := framerFailed_iff h (by simp [regionCheck, apartCheck])
  rw [exec_streamParse, streamParse, streamChecks_eq, runChecks_error h]
  by_cases hp : s.framer.phase = .failed
  · obtain rfl := (hf _).2 ⟨hp, rfl⟩
    simp only [hp, if_true]
    rfl
  · have hn (c : Byte) : e ≠ .framerFailed c := fun hc => hp ((hf c).1 hc).1
    simp only [hp, if_false]
    rw [finishStream_raised _ _ _ hn, fail_failFramer hn]
    rfl

section
variable {s : State} (ho : firstError (streamOrder s) = none)
include ho

/-- The signature step fails as SIG_CHECK does. -/
theorem exec_streamParse_of_signature {v : State} (hx : exec .sigCheck s = .next v) (hc : v.ctl.errCode ≠ 0) :
    exec .streamParse s = .next { s with ctl := v.ctl, framer := v.framer, res := { s.res with res0 := 0 } } := by
  obtain ⟨e, he, rfl⟩ := finishParse_failure hx hc
  have hn (c : Byte) : e ≠ .framerFailed c := by
    rintro rfl
    rw [sigCheck_eq] at he
    rcases bind_eq_error.1 he with he | ⟨_, -, he⟩
    · have hf := ((framerFailed_iff (firstError_of_runChecks he) (by simp [regionCheck]) c).1 rfl).1
      simp [streamOrder, firstError_cons, hf] at ho
    · cases he
  have hsig : parseSignature s = .error e := by
    rcases bind_eq_error.1 he with he | ⟨_, -, he⟩
    · exact he
    · cases he
  rw [exec_streamParse, streamParse, streamChecks_eq, runChecks_ok ho, hsig]
  simp only
  rw [finishStream_raised _ _ _ hn, fail_failFramer hn, fail_failFramer hn]
  rfl

/-- The loop fails as the next CHUNK_PARSE does, the steps before it committed. -/
theorem exec_streamParse_of_chunk (hp : s.params.wf) {t v : State} {off n : Nat} (ht : LoopAt s off n t)
    (hend : t.framer.phase ≠ .ended) {c : Ctl} {r : Results} {a l : Word}
    (hx : exec .chunkParse (atOffset s off (withStep t c r a l)) = .next v) (hc : v.ctl.errCode ≠ 0) :
    exec .streamParse s = .next { t with
      ctl := { okCtl s with errCode := v.ctl.errCode, errInfo := v.ctl.errInfo }
      opd := s.opd
      framer := v.framer
      res := { s.res with res0 := BitVec.ofNat 32 off } } := by
  obtain ⟨e, he, rfl⟩ := finishParse_failure hx hc
  have hparse : parseChunk t (srcAddr s + off) (srcLen s - off) (srcAddr s, srcLen s) = .error e := by
    rcases bind_eq_error.1 he with he | ⟨_, -, he⟩
    · rwa [parseChunk_atOffset hp ho ht, map_eq_error] at he
    · cases he
  have hn := parseChunk_error ht.phase hparse
  obtain ⟨-, hctl, hopd, hres, -⟩ := ht.keeps
  rw [exec_streamParse, ht.rest hend (srcLen s + 1) (by omega),
    streamLoop_error (q := (srcAddr s, srcLen s)) hparse, finishStream_raised _ _ _ hn, fail_failFramer hn,
    fail_failFramer hn, ← hopd, ← hres, okCtl, ← hctl]
  rfl

end

/-- Settles O34: a run ends where the loop does, and the next chunk of the loop does what the next single command does. -/
theorem streamParseIsTheCommandLoop : Obligations.StreamParseIsTheCommandLoop := by
  intro s hp order
  refine ⟨fun ho => ⟨fun off n u hrun hend => ?_, fun off n u v hrun hend hx hc => ?_, fun v hx hc => ?_⟩, fun e he => ?_⟩
  · obtain ⟨t, c, r, a, l, rfl, ht⟩ := loopAt_of_chunkRun hp ho hrun
    obtain ⟨-, hctl, hopd, -⟩ := ht.keeps
    rw [exec_streamParse, ht.ended hend, finishStream_finished, ← hopd, okCtl, okCtl, ← hctl]
    rfl
  · obtain ⟨t, c, r, a, l, rfl, ht⟩ := loopAt_of_chunkRun hp ho hrun
    exact exec_streamParse_of_chunk (t := t) ho hp ht hend hx hc
  · exact exec_streamParse_of_signature ho hx hc
  · exact exec_streamParse_of_order he

end Sys2Proof.Machine
end

section
/-! SUPPORT. STREAM_PARSE on a written stream (41_framer.md rule R139): each chunk of the stream is framed and committed, and
the payloads of its IDAT chunks are appended one after another. -/

namespace Sys2Proof.Machine

/-! ### A chunk that stands in the buffer is parsed (R93, R124) -/

theorem memRead_append_iff {s : State} {a : Nat} {x y : List Byte} :
    memRead s a (x ++ y).length = x ++ y ↔ memRead s a x.length = x ∧ memRead s (a + x.length) y.length = y := by
  rw [List.length_append, memRead_add]
  exact ⟨fun h => List.append_inj h (memRead_length ..), fun h => by rw [h.1, h.2]⟩

theorem frameChunk_of_chunkAt {s : State} {a rem type : Nat} {bs : List Byte} (h : ChunkAt s a type bs)
    (hp : s.framer.phase ≠ .failed ∧ s.framer.phase ≠ .start ∧ s.framer.phase ≠ .ended) (ht : type < 2 ^ 32)
    (hrem : 12 + bs.length ≤ rem) (hlt : rem < 2 ^ 32) (hmem : a + (12 + bs.length) ≤ s.params.memBytes) :
    frameChunk s a rem = .ok ⟨bs.length, type, a + 8⟩ := by
  have hlen : be32 s a = bs.length := h.len (by omega)
  have hcrc : (crc32 (memRead s (a + 4) (4 + bs.length))).toNat = be32 s (a + 8 + bs.length) := by
    rw [h.covered, h.crc]
  obtain ⟨hfailed, hstart, hended⟩ := hp
  have hok : firstError (framingAt s a rem) = none := by
    simp only [firstError_eq_none, framingAt, hlen, hcrc, regionCheck, List.forall_mem_cons, bne_iff_ne, Bool.and_eq_true,
      decide_eq_true_eq, beq_self_eq_true, List.not_mem_nil, false_imp_iff, implies_true, and_true]
    exact ⟨hfailed, ⟨hstart, hended⟩, by omega, by omega, by omega, by omega, by omega, by omega⟩
  rw [frameChunk_eq, runChecks_ok hok, hlen, h.code ht]
  rfl

/-- The next chunk of the loop, from its bytes and its commit. -/
theorem LoopAt.chunk {s t u : State} {off n type : Nat} {bs : List Byte} (hl : LoopAt s off n t)
    (h : ChunkAt t (srcAddr s + off) type bs) (hp : t.framer.phase ≠ .start ∧ t.framer.phase ≠ .ended)
    (ht : type < 2 ^ 32) (hend : off + (12 + bs.length) ≤ srcLen s) (hmem : srcAddr s + srcLen s ≤ s.params.memBytes)
    (hc : commitChunk t ⟨bs.length, type, srcAddr s + off + 8⟩ (srcAddr s, srcLen s) = .ok u) :
    LoopAt s (off + (12 + bs.length)) (n + 1) u := by
  obtain ⟨hparams, -⟩ := hl.keeps
  have hlt : srcLen s < 2 ^ 32 := s.opd.srcLen.isLt
  have hf := frameChunk_of_chunkAt (rem := srcLen s - off) h ⟨hl.phase, hp⟩ ht (by omega) (by omega)
    (by rw [hparams]; omega)
  rw [← Nat.add_assoc]
  exact loopAt_chunk hl hp.2 (k := ⟨bs.length, type, srcAddr s + off + 8⟩) (by rw [parseChunk, hf, ok_bind, hc]; rfl)

/-! ### IHDR (R94, R128) -/

theorem headerOf_ne_none {p : Params} {w h d ct im : Nat} (hh : headerOf p w h d ct im ≠ none) :
    1 ≤ w ∧ 1 ≤ h ∧ legalPair p d ct = true ∧ im ≤ 1 := by
  by_contra hn
  exact hh (if_neg hn)

/-- The fields of the data bytes, each byte by its address. -/
theorem ihdr_fields {s : State} {a : Nat} {hdr : HeaderRegs} (h : memRead s a 13 = ihdrBytes hdr) :
    be32 s a = hdr.width.toNat ∧ be32 s (a + 4) = hdr.height.toNat ∧ bufByte s (a + 8) = hdr.bitDepth ∧
    bufByte s (a + 9) = hdr.colorType ∧ bufByte s (a + 10) = 0 ∧ bufByte s (a + 11) = 0 ∧
    bufByte s (a + 12) = hdr.interlace := by
  obtain ⟨hw, hh, hbytes⟩ := be32_of_ihdrBytes h
  refine ⟨hw, hh, ?_⟩
  simpa [memRead, List.range_succ] using hbytes

/-- The IHDR chunk of a valid header is committed in SIG_OK. -/
theorem commitChunk_of_ihdrBytes {t : State} {hdr : HeaderRegs} {a : Nat} {q : Nat × Nat}
    (hp : t.framer.phase = .sigOk) (h : memRead t a 13 = ihdrBytes hdr)
    (hh : headerOf t.params hdr.width.toNat hdr.height.toNat hdr.bitDepth.toNat hdr.colorType.toNat hdr.interlace.toNat ≠
      none) :
    commitChunk t ⟨13, typeIhdr, a⟩ q = .ok (setPhase { t with hdr := hdr } .header) := by
  obtain ⟨hw, hhgt, hd, hct, hcm, hfm, him⟩ := ihdr_fields h
  obtain ⟨h1, h2, h3, h4⟩ := headerOf_ne_none hh
  have hok : firstError (ihdrChecks t ⟨13, typeIhdr, a⟩) = none := by
    simp only [firstError_eq_none, ihdrChecks, hw, hhgt, hd, hct, hcm, hfm, him, hp, h3, List.forall_mem_cons,
      beq_self_eq_true, decide_eq_true_eq, List.not_mem_nil, false_imp_iff, implies_true, and_true, true_and]
    omega
  rw [commitChunk_ihdr_eq (show kindOf typeIhdr = .ihdr from rfl), runChecks_ok hok, ihdrLoaded]
  simp only [hw, hhgt, hd, hct, him, BitVec.ofNat_toNat, BitVec.setWidth_eq, ok_bind]

/-! ### IDAT (R130) -/

/-- What the stream of `s` has left once its header and the payload bytes `done` are parsed. -/
structure Appended (s : State) (hdr : HeaderRegs) (done : List Byte) (t : State) : Prop where
  hdr : t.hdr = hdr
  phase : t.framer.phase = .header ∨ t.framer.phase = .idat
  idatLen : t.framer.idatLen.toNat = done.length
  dirCount : t.framer.dirCount = 0
  bytes : memRead t s.opd.idatBase.toNat done.length = done
  frame : SameOutside s t s.opd.idatBase.toNat done.length

section
variable {s : State} {hdr : HeaderRegs} (hct : hdr.colorType ≠ 3) (hq : BuffersApart s (srcAddr s, srcLen s))
  (hmem : srcAddr s + srcLen s ≤ s.params.memBytes)
include hq

/-- The stream itself is as before: the payload's place is apart from it. -/
theorem Appended.chunkAt {done : List Byte} {t : State} (ha : Appended s hdr done t)
    (hcap : done.length ≤ s.opd.idatCap.toNat) {off type : Nat} {bs : List Byte}
    (hend : off + (12 + bs.length) ≤ srcLen s) (h : ChunkAt s (srcAddr s + off) type bs) :
    ChunkAt t (srcAddr s + off) type bs := by
  have hapart := hq.1
  simp only [apartCheck, decide_eq_true_eq] at hapart
  rw [ChunkAt, ← h]
  exact memRead_congr fun i hi => ha.frame _ (by omega)

include hct hmem

/-- One IDAT chunk of the stream. -/
theorem Appended.idat {done p : List Byte} {t : State} {off n : Nat} (hl : LoopAt s off n t) (ha : Appended s hdr done t)
    (h : ChunkAt s (srcAddr s + off) typeIdat p) (hend : off + (12 + p.length) ≤ srcLen s)
    (hcap : (done ++ p).length ≤ s.opd.idatCap.toNat)
    (hroom : s.opd.idatBase.toNat + (done ++ p).length ≤ s.params.memBytes) :
    ∃ u, LoopAt s (off + (12 + p.length)) (n + 1) u ∧ Appended s hdr (done ++ p) u ∧ u.framer.phase = .idat := by
  rw [List.length_append] at hcap hroom
  obtain ⟨hparams, -, hopd, -⟩ := hl.keeps
  have hchunk := ha.chunkAt hq (by omega) hend h
  have hplace : idatNext t = s.opd.idatBase.toNat + done.length := by rw [idatNext, hopd, ha.idatLen]
  generalize hc : (⟨p.length, typeIdat, srcAddr s + off + 8⟩ : Chunk) = c
  have hclen : c.len = p.length := by rw [← hc]
  have hok : firstError (idatFits t c) = none := by
    simp only [firstError_eq_none, idatFits, capCheck, regionCheck, List.forall_mem_cons, decide_eq_true_eq,
      List.not_mem_nil, false_imp_iff, implies_true, and_true, hplace, hclen, hopd, hparams, ha.idatLen]
    exact ⟨by simpa using ha.phase, by rw [paletteMissing, ha.hdr, beq_eq_false_iff_ne.2 hct]; rfl, hcap, by omega⟩
  have hcommit : commitChunk t c (srcAddr s, srcLen s) = .ok (idatCommit t c) := by
    rw [commitChunk_idat_of_apart (by rw [← hc]; rfl) (by rwa [BuffersApart, hopd]), runChecks_ok hok]
    rfl
  have hout := sameOutside_idatCommit t c
  have hin := memRead_idatCommit t c
  rw [hplace, hclen] at hout hin
  refine ⟨idatCommit t c, ?_, ⟨ha.hdr, .inr rfl, ?_, ha.dirCount, ?_, fun x hx => ?_⟩, rfl⟩
  · refine hl.chunk hchunk ?_ (by decide) hend hmem (hc ▸ hcommit)
    rcases ha.phase with hp | hp <;> simp [hp]
  · rw [idatLen_idatCommit hok, ha.idatLen, hclen, List.length_append]
  · refine memRead_append_iff.2 ⟨?_, ?_⟩
    · exact (memRead_congr fun i hi => hout _ (.inl (by omega))).trans ha.bytes
    · rw [hin, ← hc, hchunk.data]
  · rw [List.length_append] at hx
    exact (hout x (by omega)).trans (ha.frame x (by omega))

/-- The IDAT chunks of a list of payloads, one after another. -/
theorem Appended.idats (ps : List (List Byte)) {done : List Byte} {t : State} {off n : Nat} (hl : LoopAt s off n t)
    (ha : Appended s hdr done t)
    (h : memRead s (srcAddr s + off) (ps.flatMap (chunkBytes typeIdat)).length = ps.flatMap (chunkBytes typeIdat))
    (hend : off + (ps.flatMap (chunkBytes typeIdat)).length ≤ srcLen s)
    (hcap : (done ++ ps.flatten).length ≤ s.opd.idatCap.toNat)
    (hroom : s.opd.idatBase.toNat + (done ++ ps.flatten).length ≤ s.params.memBytes) :
    ∃ u, LoopAt s (off + (ps.flatMap (chunkBytes typeIdat)).length) (n + ps.length) u ∧
      Appended s hdr (done ++ ps.flatten) u ∧ u.framer.phase = if ps = [] then t.framer.phase else .idat := by
  induction ps generalizing done t off n with
  | nil => exact ⟨t, hl, by simpa using ha, rfl⟩
  | cons p ps ih =>
    rw [List.flatMap_cons, memRead_append_iff] at h
    obtain ⟨hfirst, hrest⟩ := h
    rw [List.flatMap_cons, List.length_append, chunkBytes_length] at hend
    rw [List.flatten_cons, ← List.append_assoc] at hcap hroom
    have hprefix : (done ++ p).length ≤ (done ++ p ++ ps.flatten).length := by simp
    rw [chunkBytes_length] at hfirst hrest
    obtain ⟨u, hu, hua, hup⟩ := ha.idat hct hq hmem hl hfirst (by omega) (hprefix.trans hcap) (by omega)
    obtain ⟨v, hv, hva, hvp⟩ := ih hu hua (by rwa [Nat.add_assoc] at hrest) (by omega) hcap hroom
    refine ⟨v, ?_, ?_, ?_⟩
    · rw [List.flatMap_cons, List.length_append, chunkBytes_length, List.length_cons, ← Nat.add_assoc off,
        Nat.add_comm ps.length, ← Nat.add_assoc n]
      exact hv
    · rwa [List.flatten_cons, ← List.append_assoc]
    · rw [hvp, hup, ite_self, if_neg (List.cons_ne_nil p ps)]

end

/-! ### The payload split at any size (R138) -/

theorem flatten_parts (payload : List Byte) (m k : Nat) :
    ((List.range k).map fun j => (payload.drop (j * m)).take m).flatten = payload.take (k * m) := by
  induction k with
  | zero => simp
  | succ k ih => rw [List.range_succ, List.map_append, List.flatten_append, ih, Nat.succ_mul, List.take_add]; simp

theorem le_parts_mul {len m : Nat} (hm : 1 ≤ m) : len ≤ max 1 ((len + m - 1) / m) * m := by
  have hdiv := Nat.div_add_mod (len + m - 1) m
  have hmod := Nat.mod_lt (len + m - 1) hm
  have hle : (len + m - 1) / m * m ≤ max 1 ((len + m - 1) / m) * m := Nat.mul_le_mul_right _ (Nat.le_max_right _ _)
  rw [Nat.mul_comm] at hdiv
  omega

/-- The stream of the signature, the header `hdr`, the payload parts `ps` and IEND. -/
def pngStream (hdr : HeaderRegs) (ps : List (List Byte)) : List Byte :=
  signature ++ chunkBytes typeIhdr (ihdrBytes hdr) ++ ps.flatMap (chunkBytes typeIdat) ++ chunkBytes typeIend []

section
variable {s : State} {hdr : HeaderRegs} {ps : List (List Byte)}
  (hread : memRead s (srcAddr s) (srcLen s) = pngStream hdr ps)
include hread

/-- Where the parts of the stream stand. -/
theorem pngStream_parts : srcLen s = 33 + (ps.flatMap (chunkBytes typeIdat)).length + 12 ∧
    memRead s (srcAddr s) 8 = signature ∧ ChunkAt s (srcAddr s + 8) typeIhdr (ihdrBytes hdr) ∧
    memRead s (srcAddr s + 33) (ps.flatMap (chunkBytes typeIdat)).length = ps.flatMap (chunkBytes typeIdat) ∧
    ChunkAt s (srcAddr s + (33 + (ps.flatMap (chunkBytes typeIdat)).length)) typeIend [] := by
  have hlen : srcLen s = (pngStream hdr ps).length := by rw [← hread, memRead_length]
  rw [hlen, pngStream, memRead_append_iff, memRead_append_iff, memRead_append_iff] at hread
  obtain ⟨⟨⟨hsig, hihdr⟩, hidat⟩, hiend⟩ := hread
  have h8 : signature.length = 8 := rfl
  have h33 : (signature ++ chunkBytes typeIhdr (ihdrBytes hdr)).length = 33 := by simp
  rw [List.length_append, h33] at hiend
  rw [h33] at hidat
  rw [h8, chunkBytes_length] at hihdr
  refine ⟨?_, hsig, hihdr, hidat, hiend⟩
  rw [hlen, pngStream, List.length_append, List.length_append, h33, chunkBytes_length, List.length_nil]

/-- The signature and the IHDR chunk of the stream, from START (R123, R128). -/
theorem loopAt_header (ho : firstError (streamOrder s) = none)
    (hh : headerOf s.params hdr.width.toNat hdr.height.toNat hdr.bitDepth.toNat hdr.colorType.toNat hdr.interlace.toNat ≠
      none) : LoopAt s 33 1 (setPhase { setPhase s .sigOk with hdr := hdr } .header) := by
  obtain ⟨hlen, hsig, hihdr, -, -⟩ := pngStream_parts hread
  have hmem := streamOrder_region ho
  have hphase : s.framer.phase = .start := by
    simpa using firstError_eq_none.1 ho (s.framer.phase == .start, .unexpectedChunkOrder) (by simp [streamOrder])
  have hok : parseSignature s = .ok (setPhase s .sigOk) := by
    rw [parseSignature_eq, runChecks_ok]
    · rfl
    · simp only [firstError_eq_none, regionCheck, List.forall_mem_cons, hsig, hphase, decide_eq_true_eq, beq_self_eq_true,
        List.not_mem_nil, false_imp_iff, implies_true, and_true, true_and]
      exact ⟨rfl, by omega, by omega⟩
  have hdata : memRead s (srcAddr s + 8 + 8) 13 = ihdrBytes hdr := by simpa using hihdr.data
  have hloop := (loopAt_signature ho hok).chunk (type := typeIhdr) (bs := ihdrBytes hdr) hihdr ⟨nofun, nofun⟩ (by decide)
    (by rw [ihdrBytes_length]; omega) hmem (by rw [ihdrBytes_length]; exact commitChunk_of_ihdrBytes rfl hdata hh)
  rwa [ihdrBytes_length] at hloop

/-- The whole stream. -/
theorem loopAt_pngStream (ho : firstError (streamOrder s) = none) (hdir : s.framer.idatLen = 0 ∧ s.framer.dirCount = 0)
    (hh : headerOf s.params hdr.width.toNat hdr.height.toNat hdr.bitDepth.toNat hdr.colorType.toNat hdr.interlace.toNat ≠
      none) (hct : hdr.colorType ≠ 3) (hps : ps ≠ []) (hcap : ps.flatten.length ≤ s.opd.idatCap.toNat)
    (hroom : s.opd.idatBase.toNat + ps.flatten.length ≤ s.params.memBytes) :
    ∃ u, LoopAt s (srcLen s) (2 + ps.length) (setPhase u .ended) ∧ Appended s hdr ps.flatten u := by
  obtain ⟨hlen, -, -, hidat, hiend⟩ := pngStream_parts hread
  have hmem := streamOrder_region ho
  have hq := streamOrder_apart ho
  have hstart : Appended s hdr [] (setPhase { setPhase s .sigOk with hdr := hdr } .header) :=
    ⟨rfl, .inl rfl, congrArg BitVec.toNat hdir.1, hdir.2, rfl, fun _ _ => rfl⟩
  obtain ⟨u, hu, hua, hphase⟩ := hstart.idats hct hq hmem ps (loopAt_header hread ho hh) hidat (by omega) hcap hroom
  rw [if_neg hps] at hphase
  have hok : firstError (iendChecks u ⟨0, typeIend, srcAddr s + (33 + (ps.flatMap (chunkBytes typeIdat)).length) + 8⟩) =
      none := by
    simp [iendChecks, firstError_eq_none, hphase]
  have hend := hu.chunk (hua.chunkAt hq hcap (by simp only [List.length_nil]; omega) hiend) (by simp [hphase]) (by decide)
    (by simp only [List.length_nil]; omega) hmem
    (by rw [commitChunk_iend_eq (by rfl), List.length_nil, runChecks_ok hok]; rfl)
  rw [List.length_nil, Nat.add_zero, ← hlen] at hend
  exact ⟨u, by rwa [Nat.add_right_comm] at hend, hua⟩

end

/-- Settles O35: the stream of the statement is `pngStream` of the payload's parts. -/
theorem streamRoundTrip : Obligations.StreamRoundTrip := by
  intro s w h d ct im payload m ihdr pieces stream hm hh hct hframer hlen hread hmem hcap hroom hidat hdir
  have hflat : pieces.flatten = payload := (flatten_parts ..).trans (List.take_of_length_le (le_parts_mul hm))
  have hps : pieces ≠ [] := by
    rw [← List.length_pos_iff, List.length_map, List.length_range]
    omega
  have ho : firstError (streamOrder s) = none := by
    simp only [firstError_eq_none, streamOrder, List.forall_mem_cons, regionCheck, hframer, hidat, hdir, decide_eq_true_eq]
    simpa using hmem
  obtain ⟨u, hloop, ⟨hhdr, -, hidatLen, hdirCount, hbytes, hframe⟩⟩ := loopAt_pngStream (hdr := ⟨w, h, d, ct, im⟩) hread ho
    (by rw [hframer]; exact ⟨rfl, rfl⟩) hh hct hps (by rwa [hflat]) (by rwa [hflat])
  rw [hflat] at hidatLen hbytes hframe
  obtain ⟨-, hctl, -⟩ := hloop.keeps
  refine ⟨_, (congrArg (finishStream s) (hloop.ended rfl)).trans (finishStream_finished ..), ?_, rfl, hhdr, hidatLen,
    hbytes, ?_, hframe⟩
  · rw [okCtl, hctl]; rfl
  · have hsrc : BitVec.ofNat 32 (srcLen s) = s.opd.srcLen := by rw [srcLen, BitVec.ofNat_toNat, BitVec.setWidth_eq]
    rw [hsrc, ← hdirCount]
    rfl

end Sys2Proof.Machine
end

section
/-! SUPPORT. The row commands (42_filter.md rules R160 to R181, R185, R186): their checks, the predictor as a function of the
neighbours' bytes, and that Apply and Reverse undo each other. -/

namespace Sys2Proof.Machine

/-! ### The commands by their sub-operation -/

theorem exec_applyCommand (f : FilterType) (first : Bool) (s : State) :
    exec (applyCommand f first) s = finish s (filtApply f first s) := by cases f <;> rfl

theorem exec_reverseCommand (f : FilterType) (first : Bool) (s : State) :
    exec (reverseCommand f first) s = finish s (filtReverse f first s) := by cases f <;> rfl

/-- Settles O39: each row command is its list of checks and then its writes. -/
theorem rowCommandsCheckInOrder : Obligations.RowCommandsCheckInOrder := by
  intro s first f e
  refine ⟨fun he => ⟨?_, ?_⟩, fun he => ?_⟩
  · exact failsWith_firstError ((exec_applyCommand f first s).trans (congrArg (finish s) (filtApply_eq f first s))) he
  · exact failsWith_firstError ((exec_reverseCommand f first s).trans (congrArg (finish s) (filtReverse_eq f first s))) he
  · exact failsWith_firstError (congrArg (finish s) (filtSelect_eq first s)) he

/-! ### The predictor, from the bytes of the rows (R161, R162) -/

/-- The predicted byte of the neighbours `a` to the left, `b` above and `c` above to the left (R162). -/
def predictByte (f : FilterType) (a b c : Byte) : Byte :=
  match f with
  | .none => 0
  | .sub => a
  | .up => b
  | .average => BitVec.ofNat 8 ((a.toNat + b.toNat) / 2)
  | .paeth => BitVec.ofNat 8 (paeth a.toNat b.toNat c.toNat)

theorem predictAt_eq_predictByte (f : FilterType) (recon prior : List Byte) (bpp x : Nat) :
    predictAt f recon prior bpp x = predictByte f (leftOf recon bpp x) (byteAt prior x) (leftOf prior bpp x) := by
  cases f with
  | none => rfl
  | sub => exact (BitVec.ofNat_toNat ..).trans (BitVec.setWidth_eq _)
  | up => exact (BitVec.ofNat_toNat ..).trans (BitVec.setWidth_eq _)
  | average => rfl
  | paeth => rfl

theorem leftOf_of_bytes {r : List Byte} {g : Nat → Byte} {n bpp x : Nat} (h : ∀ i, i < n → byteAt r i = g i) (hx : x < n) :
    leftOf r bpp x = if x < bpp then 0 else g (x - bpp) := by
  by_cases hb : bpp ≤ x
  · rw [leftOf, if_pos hb, if_neg (by omega), h _ (by omega)]
  · rw [leftOf, if_neg hb, if_pos (by omega)]

/-- The predictor where the rows hold the bytes `g` and `p`. -/
theorem predictAt_of_bytes (f : FilterType) {recon prior : List Byte} {g p : Nat → Byte} {n bpp x : Nat}
    (hg : ∀ i, i < n → byteAt recon i = g i) (hp : ∀ i, i < n → byteAt prior i = p i) (hx : x < n) :
    predictAt f recon prior bpp x =
      predictByte f (if x < bpp then 0 else g (x - bpp)) (p x) (if x < bpp then 0 else p (x - bpp)) := by
  rw [predictAt_eq_predictByte, leftOf_of_bytes hg hx, leftOf_of_bytes hp hx, hp x hx]

theorem byteAt_inputRow {s : State} {x : Nat} (h : x < srcLen s) : byteAt (inputRow s) x = bufByte s (srcAddr s + x) :=
  byteAt_memRead _ _ _ _ h

theorem byteAt_priorRow {s : State} (first : Bool) {x : Nat} (h : x < srcLen s) :
    byteAt (priorRow s first) x = if first then 0 else bufByte s (auxAddr s + x) := by
  cases first with
  | true => exact byteAt_zeros _ _
  | false => exact byteAt_memRead _ _ _ _ h

@[simp] theorem inputRow_length (s : State) : (inputRow s).length = srcLen s := memRead_length ..

/-- A byte of the row that a row command left at DST_ADDR. -/
theorem bufByte_of_memRead {t : State} {a n x : Nat} {bs : List Byte} (h : memRead t a n = bs) (hx : x < n) :
    bufByte t (a + x) = byteAt bs x := by rw [← h, byteAt_memRead _ _ _ _ hx]

/-! ### FILT_APPLY and FILT_REVERSE (R185, R186) -/

theorem ofNat_srcLen (s : State) : BitVec.ofNat 32 (srcLen s) = s.opd.srcLen :=
  (BitVec.ofNat_toNat ..).trans (BitVec.setWidth_eq _)

/-- Settles O40: the bytes written are Apply's, whose predictor reads the raw row and the prior row. -/
theorem filtApplySubtractsThePredictor : Obligations.FiltApplySubtractsThePredictor := by
  intro s first f n bpp raw up left upLeft h
  obtain ⟨t, ht, hleaves, hrow⟩ := leaves_of_checks (n := n)
    ((exec_applyCommand f first s).trans (congrArg (finish s) (filtApply_eq f first s))) h (setRes_ofNat ..)
    (by rw [applyFilter_length, inputRow_length])
  rw [← hrow, ofNat_srcLen] at hleaves
  refine ⟨t, ht, hleaves, fun x hx => ?_, hrow⟩
  have hbyte : bufByte t (dstAddr s + x) = raw x - predictByte f (left x) (up x) (upLeft x) := by
    rw [bufByte_of_memRead hrow hx, byteAt_applyFilter _ _ _ _ _ (by rwa [inputRow_length]), byteAt_inputRow hx,
      predictAt_of_bytes f (fun _ => byteAt_inputRow) (fun _ => byteAt_priorRow first) hx]
  rw [hbyte]
  cases f <;> rfl

/-- The row checks pass only with a distance of 1 to 8 (R160). -/
theorem paramBpp_of_rowOrder {s : State} {first : Bool} {m : Nat} (h : firstError (rowOrder s first m) = none) :
    1 ≤ paramBpp s ∧ paramBpp s ≤ 8 :=
  of_decide_eq_true (firstError_eq_none.1 h (decide (1 ≤ paramBpp s ∧ paramBpp s ≤ 8), .illegalCommand .parameter)
    (by simp [rowOrder]))

theorem setRes0_memWrite (s : State) (a n : Nat) (bs : List Byte) : setRes0 (memWrite s a bs) n =
    { s with res := { s.res with res0 := BitVec.ofNat 32 n }, buf := ramStore s.buf a bs } := rfl

/-- Settles O41: the bytes written are Reverse's, whose predictor reads the row it has written itself. -/
theorem filtReverseAddsThePredictor : Obligations.FiltReverseAddsThePredictor := by
  intro s first f n bpp up upLeft h
  obtain ⟨t, ht, hleaves, hrow⟩ := leaves_of_checks (n := n)
    ((exec_reverseCommand f first s).trans (congrArg (finish s) (filtReverse_eq f first s))) h (setRes0_memWrite ..)
    (by rw [reverseFilter_length, inputRow_length])
  rw [ofNat_srcLen] at hleaves
  refine ⟨t, ht, hleaves, ?_, hrow⟩
  intro x hx left
  have hbyte : bufByte t (dstAddr s + x) = bufByte s (srcAddr s + x) + predictByte f left (up x) (upLeft x) := by
    rw [bufByte_of_memRead hrow hx, byteAt_reverseFilter _ _ _ _ _ (paramBpp_of_rowOrder h).1 (by rwa [inputRow_length]),
      byteAt_inputRow hx,
      predictAt_of_bytes f (fun _ hi => (bufByte_of_memRead hrow hi).symm) (fun _ => byteAt_priorRow first) hx]
  rw [hbyte]
  cases f <;> rfl

/-! ### Apply and Reverse undo each other (R166) -/

/-- Reverse finds the bytes of the raw row from left to right: its predictor at `x` reads bytes it has found already. -/
theorem reverseFilter_applyFilter (f : FilterType) (row prior : List Byte) {bpp : Nat} (hb : 1 ≤ bpp) :
    reverseFilter f (applyFilter f row prior bpp) prior bpp = row := by
  have hl : (reverseFilter f (applyFilter f row prior bpp) prior bpp).length = row.length := by
    rw [reverseFilter_length, applyFilter_length]
  refine list_ext_byteAt hl fun x hx => ?_
  rw [hl] at hx
  induction x using Nat.strong_induction_on with
  | _ x ih =>
    have hpred := predictAt_congr f prior (bpp := bpp) (x := x) fun hx' => ih (x - bpp) (by omega) (by omega)
    rw [byteAt_reverseFilter _ _ _ _ _ hb (by rwa [applyFilter_length]), byteAt_applyFilter _ _ _ _ _ hx, hpred,
      BitVec.sub_add_cancel]

theorem applyFilter_reverseFilter (f : FilterType) (row prior : List Byte) {bpp : Nat} (hb : 1 ≤ bpp) :
    applyFilter f (reverseFilter f row prior bpp) prior bpp = row := by
  refine list_ext_byteAt (by rw [applyFilter_length, reverseFilter_length]) fun x hx => ?_
  rw [applyFilter_length] at hx
  rw [byteAt_applyFilter _ _ _ _ _ hx, byteAt_reverseFilter _ _ _ _ _ hb (by rwa [reverseFilter_length] at hx),
    BitVec.add_sub_cancel]

/-- Settles O42, by the two equations for distances of at least one byte. -/
theorem filtersAreInvertible : Obligations.FiltersAreInvertible := fun f row prior _ hb _ _ =>
  ⟨reverseFilter_applyFilter f row prior hb, applyFilter_reverseFilter f row prior hb⟩

/-! ### PAETH (R163, R181) -/

theorem paeth_mem (a b c : Nat) : paeth a b c = a ∨ paeth a b c = b ∨ paeth a b c = c := by
  simp only [paeth]
  split_ifs <;> simp

/-- R163 in signed distances. -/
theorem paeth_eq_nearest (a b c : Nat) :
    (paeth a b c : Int) =
      if |(a + b - c - a : Int)| ≤ |(a + b - c - b : Int)| ∧ |(a + b - c - a : Int)| ≤ |(a + b - c - c : Int)| then (a : Int)
      else if |(a + b - c - b : Int)| ≤ |(a + b - c - c : Int)| then (b : Int) else c := by
  simp only [paeth, Int.abs_eq_natAbs, Int.ofNat_le]
  split_ifs <;> rfl

/-- Choosing in R163's order gives a value of least distance. -/
theorem nearest_le (dist : Int → Int) (a b c : Int) :
    let r := if dist a ≤ dist b ∧ dist a ≤ dist c then a else if dist b ≤ dist c then b else c
    dist r ≤ dist a ∧ dist r ≤ dist b ∧ dist r ≤ dist c := by
  intro r
  simp only [r]
  split_ifs <;> omega

/-- Settles O43: RES0 is `paeth` of the low three bytes of PARAM, itself a byte. -/
theorem paethChoosesTheNearest : Obligations.PaethChoosesTheNearest := by
  intro s a b c dist
  have ha : (s.opd.param.extractLsb' 0 8).toNat = paramA s := by
    rw [BitVec.extractLsb'_toNat, Nat.shiftRight_zero]; rfl
  have hb : (s.opd.param.extractLsb' 8 8).toNat = paramB s := by
    rw [BitVec.extractLsb'_toNat, Nat.shiftRight_eq_div_pow]; rfl
  have hc : (s.opd.param.extractLsb' 16 8).toNat = paramC s := by
    rw [BitVec.extractLsb'_toNat, Nat.shiftRight_eq_div_pow]; rfl
  have hlt : paeth (paramA s) (paramB s) (paramC s) < 2 ^ 32 := by
    have := paeth_mem (paramA s) (paramB s) (paramC s)
    simp only [paramA, paramB, paramC] at this ⊢
    omega
  have hr : ((BitVec.ofNat 32 (paeth (paramA s) (paramB s) (paramC s))).toNat : Int) =
      if dist a ≤ dist b ∧ dist a ≤ dist c then a else if dist b ≤ dist c then b else c := by
    rw [BitVec.toNat_ofNat, Nat.mod_eq_of_lt hlt, paeth_eq_nearest, ← ha, ← hb, ← hc]
  refine ⟨_, rfl, hr, ?_⟩
  rw [hr]
  exact nearest_le dist a b c

/-! ### FILT_SELECT (R167, R168, R180) -/

/-- The weight of a byte in either reading of R167. -/
theorem scoreWeight_eq (v : Byte) :
    (scoreWeight .signed v : Int) = |v.toInt| ∧ (scoreWeight .offset128 v : Int) = |(v.toNat : Int) - 128| := by
  have hv := v.isLt
  simp only [scoreWeight, BitVec.toInt_eq_toNat_cond, Int.abs_eq_natAbs]
  constructor <;> split_ifs <;> omega

/-- A score is the sum of the integer weights of its bytes. -/
theorem score_eq_sum {r : ScoreReading} {w : Byte → Int} (h : ∀ v, (scoreWeight r v : Int) = w v) (bs : List Byte) :
    (score r bs : Int) = (bs.map w).sum := by
  rw [score, Nat.cast_list_sum, List.map_map]
  exact congrArg List.sum (List.map_congr_left fun v _ => h v)

/-- FILT_SELECT as its checks and then the writes of the best filter type (R180). -/
theorem exec_filtSelect (s : State) (first : Bool) :
    ∃ f, Best s.params.scoreReading (inputRow s) (priorRow s first) (paramBpp s) f ∧
      exec (.filtSelect first) s = finish s (runChecks (rowOrder s first (srcLen s + 1)) >>= fun _ =>
        .ok (setRes1
          (setRes0 (memWrite s (dstAddr s)
            (BitVec.ofNat 8 f.code :: applyFilter f (inputRow s) (priorRow s first) (paramBpp s))) f.code)
          (score s.params.scoreReading (applyFilter f (inputRow s) (priorRow s first) (paramBpp s))))) := by
  obtain ⟨hbest, hscore⟩ := selectFilter_best s.params.scoreReading (inputRow s) (priorRow s first) (paramBpp s)
  refine ⟨_, hbest, ?_⟩
  rw [exec, execFiltSelect, filtSelect_eq, ← hscore]

/-- Settles O44: the weights are R167's, and Select's type is the best one. -/
theorem filtSelectChoosesTheBestFilter : Obligations.FiltSelectChoosesTheBestFilter := by
  refine ⟨fun bs => ⟨score_eq_sum (fun v => (scoreWeight_eq v).1) bs, score_eq_sum (fun v => (scoreWeight_eq v).2) bs⟩, ?_⟩
  intro s first row prior h
  obtain ⟨f, hbest, hexec⟩ := exec_filtSelect s first
  obtain ⟨t, ht, hleaves, hrow⟩ := leaves_of_checks (n := srcLen s + 1) hexec h (setRes_ofNat ..)
    (by rw [List.length_cons, applyFilter_length, inputRow_length])
  exact ⟨t, f, ht, hbest, hleaves, hrow⟩

end Sys2Proof.Machine
end

section
/-! SUPPORT. The layouts of an image (42_filter.md rule R169, 43_interlace.md rules R201, R206): the sub-images, their sizes,
and the rows of a byte sequence cut into rows. -/

namespace Sys2Proof.Machine

/-! ### Sizes -/

/-- The bytes of sub-images in a raster layout (R169). -/
def rasterSize (bits : Nat) (subs : List (Nat × Nat)) : Nat := (subs.map fun q => q.2 * rowBytes q.1 bits).sum

/-- The bytes of sub-images in a stream layout (R169). -/
def streamSize (bits : Nat) (subs : List (Nat × Nat)) : Nat := (subs.map fun q => q.2 * (1 + rowBytes q.1 bits)).sum

theorem rasterBytes_eq (h : Header) : rasterBytes h = rasterSize h.bitsPP (subImages h) := rfl

theorem streamBytes_eq (h : Header) : streamBytes h = streamSize h.bitsPP (subImages h) := rfl

theorem rasterSize_append (bits : Nat) (xs ys : List (Nat × Nat)) :
    rasterSize bits (xs ++ ys) = rasterSize bits xs + rasterSize bits ys := by
  simp [rasterSize]

theorem rasterSize_cons (bits : Nat) (q : Nat × Nat) (rest : List (Nat × Nat)) :
    rasterSize bits (q :: rest) = q.2 * rowBytes q.1 bits + rasterSize bits rest := rfl

theorem streamSize_append (bits : Nat) (xs ys : List (Nat × Nat)) :
    streamSize bits (xs ++ ys) = streamSize bits xs + streamSize bits ys := by
  simp [streamSize]

theorem streamSize_cons (bits : Nat) (q : Nat × Nat) (rest : List (Nat × Nat)) :
    streamSize bits (q :: rest) = q.2 * (1 + rowBytes q.1 bits) + streamSize bits rest := rfl

/-- A stream has one byte more than the raster for each row (R169). -/
theorem streamSize_eq (bits : Nat) (subs : List (Nat × Nat)) :
    streamSize bits subs = rasterSize bits subs + (subs.map Prod.snd).sum := by
  induction subs with
  | nil => rfl
  | cons q subs ih =>
    rw [streamSize_cons, rasterSize_cons, ih, List.map_cons, List.sum_cons, Nat.mul_add]
    omega

/-- The sub-images of the non-empty passes are the pass sizes that are not 0 (R169, R201). -/
theorem map_livePasses (h : Header) :
    (livePasses h).map (fun p => (passWidth h p, passHeight h p)) =
      (passes.map fun p => (passWidth h p, passHeight h p)).filter fun q => q.1 ≠ 0 ∧ q.2 ≠ 0 := by
  rw [List.filter_map]
  refine congrArg (List.map _) (List.filter_congr fun p _ => ?_)
  rw [passNonempty, Bool.eq_iff_iff]
  simp

/-- Settles O46: the pass sizes are those of the pass table, and passes without pixels add nothing. -/
theorem imageLayouts : Obligations.ImageLayouts := by
  intro s h _ rb size all
  refine ⟨fun hi => ?_, fun hi => ?_, rfl, rfl, streamSize_eq h.bitsPP (subImages h), rfl, fun hi => ?_, fun hi => ?_⟩
  · rw [subImages, hi]; rfl
  · rw [subImages, if_pos hi]; exact map_livePasses h
  · rw [rasterBytes, subImages, if_pos hi, List.map_map, ← sum_livePasses]; rfl
  · rw [rasterBytes, subImages, hi]; rfl

/-! ### Rows of a byte sequence -/

theorem rowOf_zero (bs : List Byte) (n : Nat) : rowOf bs n 0 = bs.take n := by
  rw [rowOf, Nat.zero_mul, List.drop_zero]

theorem rowOf_drop (bs : List Byte) (n y : Nat) : rowOf (bs.drop n) n y = rowOf bs n (y + 1) := by
  rw [rowOf, rowOf, List.drop_drop, Nat.succ_mul, Nat.add_comm]

theorem rowOf_append_zero {row : List Byte} {n : Nat} (hl : row.length = n) (bs : List Byte) :
    rowOf (row ++ bs) n 0 = row := by rw [rowOf_zero, List.take_left' hl]

theorem rowOf_append_succ {row : List Byte} {n : Nat} (hl : row.length = n) (bs : List Byte) (y : Nat) :
    rowOf (row ++ bs) n (y + 1) = rowOf bs n y := by rw [← rowOf_drop, List.drop_left' hl]

theorem row_end_le {y n rows : Nat} (hy : y < rows) : y * n + n ≤ rows * n :=
  (Nat.succ_mul y n).symm.le.trans (Nat.mul_le_mul_right n hy)

theorem rowOf_append_left {bs : List Byte} {n rows y : Nat} (hl : bs.length = rows * n) (hy : y < rows) (cs : List Byte) :
    rowOf (bs ++ cs) n y = rowOf bs n y := by
  have hend := row_end_le (n := n) hy
  rw [rowOf, rowOf, List.drop_append_of_le_length (by omega), List.take_append_of_le_length (by rw [List.length_drop]; omega)]

theorem rowOf_length {bs : List Byte} {n rows y : Nat} (hl : rows * n ≤ bs.length) (hy : y < rows) :
    (rowOf bs n y).length = n := by
  have hend := row_end_le (n := n) hy
  rw [rowOf, List.length_take, List.length_drop]
  omega

/-- The row before row `y`, `prior` before the first one (R169). -/
def priorOf (prior bs : List Byte) (n y : Nat) : List Byte := if y = 0 then prior else rowOf bs n (y - 1)

theorem priorOf_zero (prior bs : List Byte) (n : Nat) : priorOf prior bs n 0 = prior := if_pos rfl

theorem priorOf_succ (prior bs : List Byte) (n y : Nat) : priorOf prior bs n (y + 1) = rowOf bs n y :=
  if_neg (Nat.succ_ne_zero y)

/-- Past its first row, a sequence of rows has that row before it. -/
theorem priorOf_rest {row bs : List Byte} {n : Nat} (hl : row.length = n) (prior : List Byte) (y : Nat) :
    priorOf prior (row ++ bs) n (y + 1) = priorOf row bs n y := by
  rw [priorOf_succ]
  cases y with
  | zero => rw [rowOf_append_zero hl, priorOf_zero]
  | succ y => rw [rowOf_append_succ hl, priorOf_succ]

theorem rasterRow_eq (h : Header) (bs : List Byte) (before : List (Nat × Nat)) (q : Nat × Nat) (y : Nat) :
    rasterRow h bs before q y = rowOf (bs.drop (rasterSize h.bitsPP before)) (rowBytes q.1 h.bitsPP) y := by
  rw [rowOf, List.drop_drop]; rfl

theorem rasterPrior_eq (h : Header) (bs : List Byte) (before : List (Nat × Nat)) (q : Nat × Nat) (y : Nat) :
    rasterPrior h bs before q y = priorOf (zeros (rowBytes q.1 h.bitsPP)) (bs.drop (rasterSize h.bitsPP before))
      (rowBytes q.1 h.bitsPP) y := by
  rw [rasterPrior, rasterRow_eq, priorOf]

theorem streamRow_eq (h : Header) (bs : List Byte) (before : List (Nat × Nat)) (q : Nat × Nat) (y : Nat) :
    streamRow h bs before q y = rowOf (bs.drop (streamSize h.bitsPP before)) (1 + rowBytes q.1 h.bitsPP) y := by
  rw [rowOf, List.drop_drop]; rfl

end Sys2Proof.Machine
end

section
/-! SUPPORT. FILTER_IMAGE (42_filter.md rule R183): what stands at each row of the stream it writes. -/

namespace Sys2Proof.Machine

/-! ### The rows of one sub-image -/

/-- A row as FILTER_IMAGE writes it: its filter-type byte and the row that filter gives (R183). -/
def filteredRow (r : ScoreReading) (m : FilterMode) (bpp : Nat) (raw prior : List Byte) : List Byte :=
  BitVec.ofNat 8 (modeFilter r m raw prior bpp).code :: applyFilter (modeFilter r m raw prior bpp) raw prior bpp

theorem filteredRow_length (r : ScoreReading) (m : FilterMode) (bpp : Nat) (raw prior : List Byte) :
    (filteredRow r m bpp raw prior).length = 1 + raw.length := by
  rw [filteredRow, List.length_cons, applyFilter_length, Nat.add_comm]

theorem filterRows_succ (r : ScoreReading) (m : FilterMode) (bpp rb rows : Nat) (prior bs : List Byte) :
    filterRows r m bpp rb (rows + 1) prior bs =
      filteredRow r m bpp (bs.take rb) prior ++ filterRows r m bpp rb rows (bs.take rb) (bs.drop rb) := rfl

theorem rowOf_filterRows (r : ScoreReading) (m : FilterMode) (bpp : Nat) {rb rows y : Nat} (prior : List Byte)
    {bs : List Byte} (hl : rows * rb ≤ bs.length) (hy : y < rows) :
    rowOf (filterRows r m bpp rb rows prior bs) (1 + rb) y =
      filteredRow r m bpp (rowOf bs rb y) (priorOf prior bs rb y) := by
  induction rows generalizing prior bs y with
  | zero => omega
  | succ rows ih =>
    rw [Nat.succ_mul] at hl
    have hraw : (bs.take rb).length = rb := List.length_take_of_le (by omega)
    have hfirst : (filteredRow r m bpp (bs.take rb) prior).length = 1 + rb := by rw [filteredRow_length, hraw]
    rw [filterRows_succ]
    cases y with
    | zero => rw [rowOf_append_zero hfirst, rowOf_zero, priorOf_zero]
    | succ y =>
      have hprior : priorOf prior bs rb (y + 1) = priorOf (bs.take rb) (bs.drop rb) rb y := by
        rw [← priorOf_rest hraw prior, List.take_append_drop]
      rw [rowOf_append_succ hfirst, ih _ (by rw [List.length_drop]; omega) (by omega), rowOf_drop, hprior]

/-! ### The sub-images one after another -/

theorem filterImages_cons (r : ScoreReading) (m : FilterMode) (bpp bits : Nat) (q : Nat × Nat) (rest : List (Nat × Nat))
    (bs : List Byte) : filterImages r m bpp bits (q :: rest) bs =
      filterRows r m bpp (rowBytes q.1 bits) q.2 (zeros (rowBytes q.1 bits)) bs ++
        filterImages r m bpp bits rest (bs.drop (q.2 * rowBytes q.1 bits)) := rfl

theorem filterImages_append (r : ScoreReading) (m : FilterMode) (bpp bits : Nat) (xs ys : List (Nat × Nat))
    (bs : List Byte) : filterImages r m bpp bits (xs ++ ys) bs =
      filterImages r m bpp bits xs bs ++ filterImages r m bpp bits ys (bs.drop (rasterSize bits xs)) := by
  induction xs generalizing bs with
  | nil => rfl
  | cons q xs ih =>
    rw [List.cons_append, filterImages_cons, filterImages_cons, ih, List.append_assoc, List.drop_drop, rasterSize_cons]

theorem streamRow_filterImages (r : ScoreReading) (m : FilterMode) (bpp : Nat) {h : Header}
    {before rest : List (Nat × Nat)} {q : Nat × Nat} {y : Nat} {bs : List Byte}
    (hl : rasterSize h.bitsPP (before ++ q :: rest) ≤ bs.length) (hy : y < q.2) :
    streamRow h (filterImages r m bpp h.bitsPP (before ++ q :: rest) bs) before q y =
      filteredRow r m bpp (rasterRow h bs before q y) (rasterPrior h bs before q y) := by
  rw [rasterSize_append, rasterSize_cons] at hl
  have hbefore : (filterImages r m bpp h.bitsPP before bs).length = streamSize h.bitsPP before :=
    filterImages_length _ _ _ _ _ _ (Nat.le_of_add_right_le hl)
  have hrows : q.2 * rowBytes q.1 h.bitsPP ≤ (bs.drop (rasterSize h.bitsPP before)).length := by
    rw [List.length_drop]; omega
  rw [streamRow_eq, filterImages_append, List.drop_left' hbefore, filterImages_cons,
    rowOf_append_left (filterRows_length _ _ _ _ _ _ _ hrows) hy, rowOf_filterRows _ _ _ _ hrows hy, rasterRow_eq,
    rasterPrior_eq]

/-! ### The command -/

/-- What FILTER_IMAGE leaves (R183). -/
theorem filterImage_leaves {s : State} {h : Header} (hh : header s = some h) (m : FilterMode)
    (hc : firstError (imageOrder s (rasterBytes h) (streamBytes h)) = none) :
    ∃ t, exec (imageCommand m) s = .next t ∧
      Leaves s t { s.res with
        res0 := BitVec.ofNat 32 (streamBytes h)
        res1 := BitVec.ofNat 32 (imageRows h) } (streamBytes h) ∧
      memRead t (dstAddr s) (streamBytes h) = filterImages s.params.scoreReading m h.bpp h.bitsPP (subImages h)
        (memRead s (srcAddr s) (rasterBytes h)) :=
  leaves_of_checks ((exec_imageCommand m s).trans (congrArg (finish s) (filterImage_eq hh m))) hc (setRes_ofNat ..)
    (filterImages_length _ _ _ _ _ _ (memRead_length ..).ge)

/-- Settles O47: row by row, the stream is `filteredRow`. -/
theorem filterImageFiltersEveryRow : Obligations.FilterImageFiltersEveryRow := by
  intro s h m hh hc raster
  obtain ⟨t, ht, hleaves, hstream⟩ := filterImage_leaves hh m hc
  refine ⟨t, ht, hleaves, fun before q rest y hsub hy => ⟨modeFilter s.params.scoreReading m
    (rasterRow h raster before q y) (rasterPrior h raster before q y) h.bpp, ?_, ?_⟩⟩
  · cases m with
    | fixed g => rfl
    | adaptive => exact (selectFilter_best ..).1
  · have hl : rasterSize h.bitsPP (before ++ q :: rest) ≤ raster.length := by
      rw [← hsub, memRead_length, rasterBytes_eq]
    rw [hstream, hsub, streamRow_filterImages _ _ _ hl hy]
    rfl

end Sys2Proof.Machine
end

section
/-! SUPPORT. The numbers of the filter types (42_filter.md rule R162). -/

namespace Sys2Proof

theorem FilterType.ofCode_code (f : FilterType) : FilterType.ofCode f.code = some f := by cases f <;> rfl

theorem FilterType.exists_code {n : Nat} (h : n ≤ 4) : ∃ f : FilterType, f.code = n := by
  match n, h with
  | 0, _ => exact ⟨.none, rfl⟩
  | 1, _ => exact ⟨.sub, rfl⟩
  | 2, _ => exact ⟨.up, rfl⟩
  | 3, _ => exact ⟨.average, rfl⟩
  | 4, _ => exact ⟨.paeth, rfl⟩

theorem FilterType.ofCode_of_lt {n : Nat} (h : 4 < n) : FilterType.ofCode n = Option.none := by
  match n, h with
  | _ + 5, _ => rfl

theorem FilterType.toNat_code (f : FilterType) : (BitVec.ofNat 8 f.code).toNat = f.code := by cases f <;> rfl

end Sys2Proof
end

section
/-! SUPPORT. UNFILTER_IMAGE (42_filter.md rule R184): the rows it reconstructs, the first bad filter-type byte, and that it
undoes FILTER_IMAGE (R166). -/

namespace Sys2Proof.Machine

/-! ### Filter-type bytes -/

/-- The filter-type byte of row `y` of a stream whose rows have `rb` bytes after it (R169). -/
def typeByte (bs : List Byte) (rb y : Nat) : Byte := byteAt (rowOf bs (1 + rb) y) 0

theorem byteAt_take {bs : List Byte} {n i : Nat} (h : i < n) : byteAt (bs.take n) i = byteAt bs i := by
  simp [byteAt, List.getD_eq_getElem?_getD, h]

theorem typeByte_zero (bs : List Byte) (rb : Nat) : typeByte bs rb 0 = byteAt bs 0 := by
  rw [typeByte, rowOf_zero, byteAt_take (by omega)]

theorem typeByte_drop (bs : List Byte) (rb y : Nat) : typeByte (bs.drop (1 + rb)) rb y = typeByte bs rb (y + 1) := by
  rw [typeByte, rowOf_drop]; rfl

/-! ### The rows of one sub-image -/

section
variable {bpp rb rows : Nat} {prior bs : List Byte}

/-- A row of a known filter type is reversed, and is the prior row of the rest. -/
theorem unfilterRows_of_code {f : FilterType} (hf : f.code = (typeByte bs rb 0).toNat) :
    unfilterRows bpp rb (rows + 1) prior bs =
      unfilterRows bpp rb rows (reverseFilter f ((rowOf bs (1 + rb) 0).drop 1) prior bpp) (bs.drop (1 + rb)) >>= fun rest =>
        .ok (reverseFilter f ((rowOf bs (1 + rb) 0).drop 1) prior bpp ++ rest) := by
  have hrow : (rowOf bs (1 + rb) 0).drop 1 = (bs.drop 1).take rb := by
    rw [rowOf_zero, List.drop_take, Nat.add_sub_cancel_left]
  rw [unfilterRows, ← typeByte_zero bs rb, ← hf, FilterType.ofCode_code, hrow]

theorem unfilterRows_of_bad (h : 4 < (typeByte bs rb 0).toNat) :
    unfilterRows bpp rb (rows + 1) prior bs = .error (.invalidFilterType (typeByte bs rb 0)) := by
  rw [unfilterRows, ← typeByte_zero bs rb, FilterType.ofCode_of_lt h]

theorem unfilterRows_of_types (h : ∀ y, y < rows → (typeByte bs rb y).toNat ≤ 4) :
    ∃ out, unfilterRows bpp rb rows prior bs = .ok out := by
  induction rows generalizing prior bs with
  | zero => exact ⟨[], rfl⟩
  | succ rows ih =>
    obtain ⟨f, hf⟩ := FilterType.exists_code (h 0 (by omega))
    obtain ⟨rest, hrest⟩ := ih (prior := reverseFilter f ((rowOf bs (1 + rb) 0).drop 1) prior bpp)
      (bs := bs.drop (1 + rb)) fun y hy => by rw [typeByte_drop]; exact h _ (by omega)
    exact ⟨_, by rw [unfilterRows_of_code hf, hrest, ok_bind]⟩

/-- The first bad filter-type byte raises (R184). -/
theorem unfilterRows_of_first_bad {y : Nat} (hy : y < rows) (hbad : 4 < (typeByte bs rb y).toNat)
    (hgood : ∀ y', y' < y → (typeByte bs rb y').toNat ≤ 4) :
    unfilterRows bpp rb rows prior bs = .error (.invalidFilterType (typeByte bs rb y)) := by
  induction y generalizing rows prior bs with
  | zero =>
    obtain ⟨rows, rfl⟩ := Nat.exists_eq_add_of_lt hy
    exact unfilterRows_of_bad hbad
  | succ y ih =>
    cases rows with
    | zero => omega
    | succ rows =>
      obtain ⟨f, hf⟩ := FilterType.exists_code (hgood 0 (by omega))
      rw [← typeByte_drop] at hbad ⊢
      rw [unfilterRows_of_code hf, ih (by omega) hbad fun y' hy' => by rw [typeByte_drop]; exact hgood _ (by omega),
        error_bind]

theorem rowOf_unfilterRows {out : List Byte} {y : Nat} (hl : rows * (1 + rb) ≤ bs.length)
    (h : unfilterRows bpp rb rows prior bs = .ok out) (hy : y < rows) :
    ∃ f : FilterType, f.code = (typeByte bs rb y).toNat ∧
      rowOf out rb y = reverseFilter f ((rowOf bs (1 + rb) y).drop 1) (priorOf prior out rb y) bpp := by
  induction rows generalizing prior bs out y with
  | zero => omega
  | succ rows ih =>
    rcases Nat.lt_or_ge 4 (typeByte bs rb 0).toNat with hbad | hgood
    · rw [unfilterRows_of_bad hbad] at h; cases h
    obtain ⟨f, hf⟩ := FilterType.exists_code hgood
    rw [unfilterRows_of_code hf] at h
    obtain ⟨rest, hrest, h⟩ := bind_eq_ok.1 h
    cases h
    have hrow : (reverseFilter f ((rowOf bs (1 + rb) 0).drop 1) prior bpp).length = rb := by
      rw [reverseFilter_length, List.length_drop, rowOf_length hl (by omega), Nat.add_sub_cancel_left]
    cases y with
    | zero => exact ⟨f, hf, by rw [rowOf_append_zero hrow, priorOf_zero]⟩
    | succ y =>
      rw [Nat.succ_mul] at hl
      rw [rowOf_append_succ hrow, priorOf_rest hrow, ← typeByte_drop, ← rowOf_drop]
      exact ih (by rw [List.length_drop]; omega) hrest (by omega)

end

/-! ### The sub-images one after another -/

theorem unfilterImages_cons (bpp bits : Nat) (q : Nat × Nat) (rest : List (Nat × Nat)) (bs : List Byte) :
    unfilterImages bpp bits (q :: rest) bs =
      unfilterRows bpp (rowBytes q.1 bits) q.2 (zeros (rowBytes q.1 bits)) bs >>= fun rows =>
        unfilterImages bpp bits rest (bs.drop (q.2 * (1 + rowBytes q.1 bits))) >>= fun others => .ok (rows ++ others) := rfl

theorem unfilterImages_append (bpp bits : Nat) (xs ys : List (Nat × Nat)) (bs : List Byte) :
    unfilterImages bpp bits (xs ++ ys) bs =
      unfilterImages bpp bits xs bs >>= fun rows =>
        unfilterImages bpp bits ys (bs.drop (streamSize bits xs)) >>= fun others => .ok (rows ++ others) := by
  induction xs generalizing bs with
  | nil => exact (bind_pure _).symm
  | cons q xs ih =>
    simp only [List.cons_append, unfilterImages_cons, ih, bind_assoc, ok_bind, List.append_assoc, List.drop_drop,
      streamSize_cons]

section
variable {bpp bits : Nat} {subs : List (Nat × Nat)} {bs : List Byte}

/-- The filter-type byte of row `y` of sub-image `q`, whose sub-images before it are `before`. -/
def imageType (bits : Nat) (bs : List Byte) (before : List (Nat × Nat)) (q : Nat × Nat) (y : Nat) : Byte :=
  typeByte (bs.drop (streamSize bits before)) (rowBytes q.1 bits) y

theorem unfilterImages_of_types
    (h : ∀ before q rest y, subs = before ++ q :: rest → y < q.2 → (imageType bits bs before q y).toNat ≤ 4) :
    ∃ out, unfilterImages bpp bits subs bs = .ok out := by
  induction subs generalizing bs with
  | nil => exact ⟨[], rfl⟩
  | cons q subs ih =>
    obtain ⟨rows, hrows⟩ := unfilterRows_of_types (bpp := bpp) (prior := zeros (rowBytes q.1 bits)) (bs := bs)
      fun y hy => h [] q subs y rfl hy
    obtain ⟨others, hothers⟩ := ih (bs := bs.drop (q.2 * (1 + rowBytes q.1 bits))) fun before p rest y hsub hy => by
      have hp := h (q :: before) p rest y (congrArg (q :: ·) hsub) hy
      rwa [imageType, streamSize_cons, ← List.drop_drop] at hp
    exact ⟨_, by rw [unfilterImages_cons, hrows, ok_bind, hothers, ok_bind]⟩

theorem unfilterImages_of_first_bad {before rest : List (Nat × Nat)} {q : Nat × Nat} {y : Nat} (hy : y < q.2)
    (hbad : 4 < (imageType bits bs before q y).toNat)
    (hgood : ∀ y', y' < y → (imageType bits bs before q y').toNat ≤ 4)
    (hbefore : ∃ out, unfilterImages bpp bits before bs = .ok out) :
    unfilterImages bpp bits (before ++ q :: rest) bs = .error (.invalidFilterType (imageType bits bs before q y)) := by
  obtain ⟨out, hout⟩ := hbefore
  rw [unfilterImages_append, hout, ok_bind, unfilterImages_cons, unfilterRows_of_first_bad hy hbad hgood, error_bind,
    error_bind]
  rfl

end

theorem byteAt_streamRow (h : Header) (bs : List Byte) (before : List (Nat × Nat)) (q : Nat × Nat) (y : Nat) :
    byteAt (streamRow h bs before q y) 0 = imageType h.bitsPP bs before q y := by
  rw [streamRow_eq]; rfl

theorem rasterRow_unfilterImages {bpp : Nat} {h : Header} {before rest : List (Nat × Nat)} {q : Nat × Nat} {y : Nat}
    {bs out : List Byte} (hl : streamSize h.bitsPP (before ++ q :: rest) ≤ bs.length)
    (ho : unfilterImages bpp h.bitsPP (before ++ q :: rest) bs = .ok out) (hy : y < q.2) :
    ∃ f : FilterType, f.code = (imageType h.bitsPP bs before q y).toNat ∧
      rasterRow h out before q y =
        reverseFilter f ((streamRow h bs before q y).drop 1) (rasterPrior h out before q y) bpp := by
  rw [streamSize_append, streamSize_cons] at hl
  have hrow : q.2 * (1 + rowBytes q.1 h.bitsPP) ≤ (bs.drop (streamSize h.bitsPP before)).length := by
    rw [List.length_drop]; omega
  rw [unfilterImages_append] at ho
  obtain ⟨done, hdone, ho⟩ := bind_eq_ok.1 ho
  obtain ⟨tail, htail, ho⟩ := bind_eq_ok.1 ho
  rw [unfilterImages_cons] at htail
  obtain ⟨rows, hrows, htail⟩ := bind_eq_ok.1 htail
  obtain ⟨others, -, htail⟩ := bind_eq_ok.1 htail
  cases htail
  cases ho
  have hdoneLen : done.length = rasterSize h.bitsPP before :=
    unfilterImages_length _ _ _ _ _ (Nat.le_of_add_right_le hl) hdone
  have hrowsLen : rows.length = q.2 * rowBytes q.1 h.bitsPP := unfilterRows_length _ _ _ _ _ _ hrow hrows
  have hprior : priorOf (zeros (rowBytes q.1 h.bitsPP)) (rows ++ others) (rowBytes q.1 h.bitsPP) y =
      priorOf (zeros (rowBytes q.1 h.bitsPP)) rows (rowBytes q.1 h.bitsPP) y := by
    cases y with
    | zero => rw [priorOf_zero, priorOf_zero]
    | succ y => rw [priorOf_succ, priorOf_succ, rowOf_append_left hrowsLen (by omega)]
  rw [rasterRow_eq, rasterPrior_eq, streamRow_eq, List.drop_left' hdoneLen, rowOf_append_left hrowsLen hy, hprior]
  exact rowOf_unfilterRows hrow hrows hy

/-! ### The command -/

section
variable {s : State} {h : Header} (hh : header s = some h)
  (hc : firstError (imageOrder s (streamBytes h) (rasterBytes h)) = none)
include hh hc

/-- What UNFILTER_IMAGE leaves where every filter-type byte is good (R184). -/
theorem unfilterImage_leaves {out : List Byte}
    (ho : unfilterImages h.bpp h.bitsPP (subImages h) (memRead s (srcAddr s) (streamBytes h)) = .ok out) :
    ∃ t, exec .unfilterImage s = .next t ∧
      Leaves s t { s.res with
        res0 := BitVec.ofNat 32 (rasterBytes h)
        res1 := BitVec.ofNat 32 (imageRows h) } (rasterBytes h) ∧
      memRead t (dstAddr s) (rasterBytes h) = out := by
  have hx : exec .unfilterImage s = finish s (runChecks (imageOrder s (streamBytes h) (rasterBytes h)) >>= fun _ =>
      .ok (setRes1 (setRes0 (memWrite s (dstAddr s) out) (rasterBytes h)) (imageRows h))) := by
    rw [exec, execUnfilterImage, unfilterImage_eq hh, ho]
    rfl
  exact leaves_of_checks hx hc (setRes_ofNat ..) (unfilterImages_length _ _ _ _ _ (memRead_length ..).ge ho)

theorem unfilterImage_fails {e : Err}
    (he : unfilterImages h.bpp h.bitsPP (subImages h) (memRead s (srcAddr s) (streamBytes h)) = .error e) :
    FailsWith .unfilterImage s e := by
  rw [FailsWith, exec, execUnfilterImage, unfilterImage_eq hh, he, runChecks_ok hc]
  rfl

end

/-- Settles O48: the rows before the first bad filter-type byte are reversed one by one. -/
theorem unfilterImageReversesEveryRow : Obligations.UnfilterImageReversesEveryRow := by
  intro s h hh hc stream typeAt
  have htype : ∀ before q y, typeAt before q y = imageType h.bitsPP stream before q y := byteAt_streamRow h stream
  have hl : streamSize h.bitsPP (subImages h) ≤ stream.length := by rw [memRead_length, streamBytes_eq]
  refine ⟨fun hgood => ?_, fun before q rest y hsub hy hbad hgood => ?_⟩
  · obtain ⟨out, hout⟩ := unfilterImages_of_types (bpp := h.bpp) (bs := stream) (bits := h.bitsPP)
      fun before q rest y hsub hy => by rw [← htype]; exact hgood before q rest y hsub hy
    obtain ⟨t, ht, hleaves, hraster⟩ := unfilterImage_leaves hh hc hout
    refine ⟨t, ht, hleaves, fun before q rest y hsub hy => ?_⟩
    rw [hsub] at hl hout
    rw [hraster, htype]
    exact rasterRow_unfilterImages hl hout hy
  · have hbefore : ∃ out, unfilterImages h.bpp h.bitsPP before stream = .ok out := by
      refine unfilterImages_of_types fun before' q' rest' y' hsub' hy' => ?_
      rw [← htype]
      refine hgood before' q' (rest' ++ q :: rest) y' (by rw [hsub, hsub', List.append_assoc, List.cons_append]) hy' (.inl ?_)
      rw [hsub', List.length_append, List.length_cons]
      omega
    rw [htype] at hbad ⊢
    refine unfilterImage_fails hh hc ?_
    rw [hsub]
    refine unfilterImages_of_first_bad hy hbad (fun y' hy' => ?_) hbefore
    rw [← htype]
    exact hgood before q rest y' hsub (hy'.trans hy) (.inr ⟨rfl, hy'⟩)

/-! ### UNFILTER_IMAGE undoes FILTER_IMAGE (R166) -/

section
variable (r : ScoreReading) (m : FilterMode) {bpp : Nat} (hb : 1 ≤ bpp)
include hb

theorem unfilterRows_filterRows {rb rows : Nat} (prior : List Byte) {bs : List Byte} (tail : List Byte)
    (hl : rows * rb ≤ bs.length) :
    unfilterRows bpp rb rows prior (filterRows r m bpp rb rows prior bs ++ tail) = .ok (bs.take (rows * rb)) := by
  induction rows generalizing prior bs with
  | zero => rw [Nat.zero_mul]; rfl
  | succ rows ih =>
    rw [Nat.succ_mul] at hl
    have hfirst : (filteredRow r m bpp (bs.take rb) prior).length = 1 + rb := by
      rw [filteredRow_length, List.length_take_of_le (by omega)]
    have hcode : (modeFilter r m (bs.take rb) prior bpp).code = (typeByte (filteredRow r m bpp (bs.take rb) prior ++
        (filterRows r m bpp rb rows (bs.take rb) (bs.drop rb) ++ tail)) rb 0).toNat := by
      rw [typeByte, rowOf_append_zero hfirst]
      exact (FilterType.toNat_code _).symm
    have hrow : reverseFilter (modeFilter r m (bs.take rb) prior bpp) ((filteredRow r m bpp (bs.take rb) prior).drop 1)
        prior bpp = bs.take rb := reverseFilter_applyFilter _ _ _ hb
    rw [filterRows_succ, List.append_assoc, unfilterRows_of_code hcode, rowOf_append_zero hfirst, hrow,
      List.drop_left' hfirst, ih _ (by rw [List.length_drop]; omega), ok_bind, Nat.succ_mul, Nat.add_comm, List.take_add]

theorem unfilterImages_filterImages {bits : Nat} {subs : List (Nat × Nat)} {bs : List Byte}
    (hl : rasterSize bits subs ≤ bs.length) :
    unfilterImages bpp bits subs (filterImages r m bpp bits subs bs) = .ok (bs.take (rasterSize bits subs)) := by
  induction subs generalizing bs with
  | nil => rfl
  | cons q subs ih =>
    rw [rasterSize_cons] at hl
    have hrows : (filterRows r m bpp (rowBytes q.1 bits) q.2 (zeros (rowBytes q.1 bits)) bs).length =
        q.2 * (1 + rowBytes q.1 bits) := filterRows_length _ _ _ _ _ _ _ (by omega)
    rw [filterImages_cons, unfilterImages_cons, unfilterRows_filterRows r m hb _ _ (by omega), ok_bind,
      List.drop_left' hrows, ih (by rw [List.length_drop]; omega), ok_bind, rasterSize_cons, List.take_add]

end

/-- A FILTER_IMAGE that succeeds has passed its checks. -/
theorem imageOrder_of_success {s t : State} {h : Header} {m : FilterMode} (hh : header s = some h)
    (ht : exec (imageCommand m) s = .next t) (hok : t.ctl.errCode = 0) :
    firstError (imageOrder s (rasterBytes h) (streamBytes h)) = none := by
  cases hc : firstError (imageOrder s (rasterBytes h) (streamBytes h)) with
  | none => rfl
  | some e =>
    rw [exec_imageCommand, filterImage_eq hh, finish_error hc] at ht
    cases ht
    exact absurd hok (Err.code_reported e).2

/-- Settles O49: the stream that FILTER_IMAGE left is what `unfilterImages_filterImages` reverses. -/
theorem unfilterUndoesFilter : Obligations.UnfilterUndoesFilter := by
  intro s t h m dst cap hh ht hok u hc
  obtain ⟨t', ht', ⟨-, -, ⟨hparams, -, -, hhdr, -⟩, -⟩, hstream⟩ :=
    filterImage_leaves hh m (imageOrder_of_success hh ht hok)
  obtain rfl : t' = t := by rw [ht'] at ht; cases ht; rfl
  have hu : header u = some h := by
    rw [← hh, header, header]
    simp only [u, hparams, hhdr]
  have hsrc : memRead u (srcAddr u) (streamBytes h) = filterImages s.params.scoreReading m h.bpp h.bitsPP (subImages h)
      (memRead s (srcAddr s) (rasterBytes h)) := hstream
  have hraster : unfilterImages h.bpp h.bitsPP (subImages h) (memRead u (srcAddr u) (streamBytes h)) =
      .ok (memRead s (srcAddr s) (rasterBytes h)) := by
    have hbpp : 1 ≤ h.bpp := Nat.le_max_left ..
    have hl := memRead_length s (srcAddr s) (rasterBytes h)
    rw [hsrc, unfilterImages_filterImages _ m hbpp hl.ge, ← rasterBytes_eq, List.take_of_length_le hl.le]
  obtain ⟨v, hv, ⟨hctl, -⟩, hread⟩ := unfilterImage_leaves hu hc hraster
  exact ⟨v, hv, by rw [hctl]; rfl, hread⟩

end Sys2Proof.Machine
end

section
/-! SUPPORT. The pass table (43_interlace.md rules R200 to R203): every pixel of an image lies in exactly one pass, and what
ADAM7_GEOM reports of a pass. -/

namespace Sys2Proof.Machine

/-! ### ADAM7_GEOM (R203) -/

theorem exec_geomCommand (p : Fin 7) (s : State) : exec (geomCommand p) s = finish s (adam7Geom p s) := by
  fin_cases p <;> rfl

/-- Settles O50: the header is the only check, and the pass table of the statement is the model's. -/
theorem adam7GeomReportsThePass : Obligations.Adam7GeomReportsThePass := by
  intro s h p hh table row size pw ph
  rw [exec_geomCommand, adam7Geom_eq hh]
  fin_cases p <;> rfl

/-! ### The pixels of a pass (R200, R201) -/

/-- The image column of pixel column `px` of pass `p` (R200). -/
def Pass.col (p : Pass) (px : Nat) : Nat := p.xOffset + px * p.xStep

/-- The image row of row `py` of pass `p` (R200). -/
def Pass.line (p : Pass) (py : Nat) : Nat := p.yOffset + py * p.yStep

theorem Pass.col_lt_iff (h : Header) {p : Pass} (hp : p ∈ passes) (px : Nat) : p.col px < h.width ↔ px < passWidth h p :=
  (lt_passWidth_iff h hp px).symm

theorem Pass.line_lt_iff (h : Header) {p : Pass} (hp : p ∈ passes) (py : Nat) : p.line py < h.height ↔ py < passHeight h p :=
  (lt_passHeight_iff h hp py).symm

/-- Pixel (`x`, `y`) lies on the grid of pass `p`, whatever the size of the image. -/
abbrev Pass.Covers (p : Pass) (x y : Nat) : Prop := x % p.xStep = p.xOffset ∧ y % p.yStep = p.yOffset

theorem passOf_eq_getElem {q : Nat} (hq : q < passes.length) : passOf q = passes[q] := List.getD_eq_getElem _ _ hq

theorem passOf_mem {q : Nat} (hq : q < 7) : passOf q ∈ passes :=
  passOf_eq_getElem (q := q) hq ▸ List.getElem_mem (l := passes) hq

theorem passes_offset_lt : ∀ p ∈ passes, p.xOffset < p.xStep ∧ p.yOffset < p.yStep := by decide

theorem passes_step_dvd : ∀ p ∈ passes, p.xStep ∣ 8 ∧ p.yStep ∣ 8 := by decide

theorem Pass.col_injective {p : Pass} (hp : p ∈ passes) : Function.Injective p.col := fun _ _ h =>
  Nat.eq_of_mul_eq_mul_right (passes_step_pos p hp).1 (Nat.add_left_cancel h)

theorem Pass.line_injective {p : Pass} (hp : p ∈ passes) : Function.Injective p.line := fun _ _ h =>
  Nat.eq_of_mul_eq_mul_right (passes_step_pos p hp).2 (Nat.add_left_cancel h)

/-- The grid of a pass is the set of its pixels' positions. -/
theorem Pass.covers_iff {p : Pass} (hp : p ∈ passes) (x y : Nat) : p.Covers x y ↔ ∃ px py, p.col px = x ∧ p.line py = y := by
  constructor
  · rintro ⟨hx, hy⟩
    exact ⟨x / p.xStep, y / p.yStep, by rw [col, ← hx, Nat.mul_comm, Nat.mod_add_div],
      by rw [line, ← hy, Nat.mul_comm, Nat.mod_add_div]⟩
  · rintro ⟨px, py, rfl, rfl⟩
    obtain ⟨hx, hy⟩ := passes_offset_lt p hp
    exact ⟨by rw [col, Nat.add_mul_mod_self_right, Nat.mod_eq_of_lt hx],
      by rw [line, Nat.add_mul_mod_self_right, Nat.mod_eq_of_lt hy]⟩

theorem Pass.covers_mod {p : Pass} (hp : p ∈ passes) (x y : Nat) : p.Covers (x % 8) (y % 8) ↔ p.Covers x y := by
  obtain ⟨hx, hy⟩ := passes_step_dvd p hp
  rw [Covers, Nat.mod_mod_of_dvd _ hx, Nat.mod_mod_of_dvd _ hy]

/-- The passes cut the 8 by 8 tile into seven disjoint grids. -/
theorem passes_cut_tile : ∀ x < 8, ∀ y < 8, ∃ q < 7, (passOf q).Covers x y ∧
    ∀ q' < 7, (passOf q').Covers x y → q' = q := by decide

/-- Every pixel lies on the grid of exactly one pass (R202). -/
theorem exists_unique_covers (x y : Nat) : ∃ q < 7, (passOf q).Covers x y ∧
    ∀ q' < 7, (passOf q').Covers x y → q' = q := by
  obtain ⟨q, hq, hcov, huniq⟩ := passes_cut_tile (x % 8) (Nat.mod_lt _ (by omega)) (y % 8) (Nat.mod_lt _ (by omega))
  exact ⟨q, hq, (Pass.covers_mod (passOf_mem hq) x y).1 hcov,
    fun q' hq' h => huniq q' hq' ((Pass.covers_mod (passOf_mem hq') x y).2 h)⟩

theorem pass_unique {q q' px py px' py' : Nat} (hq : q < 7) (hq' : q' < 7) (hx : (passOf q).col px = (passOf q').col px')
    (hy : (passOf q).line py = (passOf q').line py') : q = q' := by
  obtain ⟨r, -, -, huniq⟩ := exists_unique_covers ((passOf q).col px) ((passOf q).line py)
  have h := huniq q hq ((Pass.covers_iff (passOf_mem hq) _ _).2 ⟨px, py, rfl, rfl⟩)
  exact h.trans (huniq q' hq' ((Pass.covers_iff (passOf_mem hq') _ _).2 ⟨px', py', hx.symm, hy.symm⟩)).symm

theorem exists_pass_pixel (h : Header) {x y : Nat} (hx : x < h.width) (hy : y < h.height) :
    ∃ q px py, q < 7 ∧ px < passWidth h (passOf q) ∧ py < passHeight h (passOf q) ∧
      (passOf q).col px = x ∧ (passOf q).line py = y := by
  obtain ⟨q, hq, hcov, -⟩ := exists_unique_covers x y
  obtain ⟨px, py, rfl, rfl⟩ := (Pass.covers_iff (passOf_mem hq) x y).1 hcov
  exact ⟨q, px, py, hq, (Pass.col_lt_iff h (passOf_mem hq) px).1 hx, (Pass.line_lt_iff h (passOf_mem hq) py).1 hy, rfl, rfl⟩

/-! ### The pass sizes (R202) -/

/-- The pixels at multiples of `step` are those at multiples of `2 * step` and those half-way between. -/
theorem passSize_halves (n : Nat) {step : Nat} (hs : step = 1 ∨ step = 2 ∨ step = 4) :
    passSize n 0 step = passSize n 0 (2 * step) + passSize n step (2 * step) := by
  unfold passSize ceilDiv
  rcases hs with rfl | rfl | rfl <;> split <;> split <;> omega

theorem passSize_one (n : Nat) : passSize n 0 1 = n := by
  rw [passSize, ceilDiv]
  split <;> omega

/-- Each pass adds the missing lines or columns to the grid of the passes before it; pass 6 completes the image. -/
theorem sum_passSizes (h : Header) : (passes.map fun p => passWidth h p * passHeight h p).sum = h.width * h.height := by
  have grid (n : Nat) : n = passSize n 0 2 + passSize n 1 2 := by
    rw [← passSize_halves n (.inl rfl), passSize_one]
  have halfGrid (n : Nat) : passSize n 0 2 = passSize n 0 4 + passSize n 2 4 := passSize_halves n (.inr (.inl rfl))
  have quarterGrid (n : Nat) : passSize n 0 4 = passSize n 0 8 + passSize n 4 8 := passSize_halves n (.inr (.inr rfl))
  simp only [passes, passWidth, passHeight, List.map_cons, List.map_nil, List.sum_cons, List.sum_nil, passSize_one,
    Nat.add_zero, ← Nat.add_assoc]
  rw [← Nat.add_mul, ← quarterGrid, ← Nat.mul_add, ← quarterGrid, ← Nat.add_mul, ← halfGrid, ← Nat.mul_add, ← halfGrid,
    ← Nat.add_mul, ← grid, ← Nat.mul_add, ← grid]

/-- Settles O51: the grids of the passes cut the plane, and a pixel of a pass is in the image exactly when its position is. -/
theorem adam7CoversEveryPixelOnce : Obligations.Adam7CoversEveryPixelOnce := by
  intro h
  refine ⟨fun x y hx hy => ?_, fun p px py hp hpx hpy => ?_, sum_passSizes h⟩
  · obtain ⟨q, px, py, hq, hpx, hpy, rfl, rfl⟩ := exists_pass_pixel h hx hy
    refine ⟨(q, px, py), ⟨hq, hpx, hpy, rfl, rfl⟩, ?_⟩
    rintro ⟨q', px', py'⟩ ⟨hq', -, -, hx', hy'⟩
    obtain rfl : q' = q := pass_unique hq' hq hx' hy'
    obtain rfl : px' = px := Pass.col_injective (passOf_mem hq) hx'
    obtain rfl : py' = py := Pass.line_injective (passOf_mem hq) hy'
    rfl
  · exact ⟨(Pass.col_lt_iff h (passOf_mem hp) px).2 hpx, (Pass.line_lt_iff h (passOf_mem hp) py).2 hpy⟩

end Sys2Proof.Machine
end

section
/-! SUPPORT. Copies of packed pixels from row to row (00_scope.md rule R13; 43_interlace.md rules R204, R205). -/

namespace Sys2Proof.Machine

/-! ### One pixel -/

/-- A pixel that is set to a pixel of another row gets its bits. -/
theorem rowBit_setPix_getPix {r : List Byte} {x b j : Nat} (row : List Byte) (x' : Nat) (hfit : x * b + b ≤ 8 * r.length)
    (hj : j < b) : rowBit (setPix r x b (getPix row x' b)) (x * b + j) = rowBit row (x' * b + j) := by
  rw [rowBit_setPix _ _ _ _ _ hfit, if_pos ⟨by omega, by omega⟩, Nat.add_sub_cancel_left, getPix_testBit _ _ _ _ hj]

theorem rowBit_setPix_ne {r : List Byte} {x b k : Nat} (v : Nat) (hfit : x * b + b ≤ 8 * r.length) (hk : x ≠ k / b) :
    rowBit (setPix r x b v) k = rowBit r k := by
  rw [rowBit_setPix _ _ _ _ _ hfit, if_neg]
  rintro ⟨hlo, hhi⟩
  exact hk (Nat.div_eq_of_lt_le hlo (by rwa [Nat.succ_mul])).symm

/-- Bit `j` of pixel `x` is a bit of pixel `x`. -/
theorem pixel_of_bit (x : Nat) {b j : Nat} (hj : j < b) : (x * b + j) / b = x := by
  rw [Nat.mul_comm, Nat.mul_add_div (by omega), Nat.div_eq_of_lt hj, Nat.add_zero]

/-! ### A run of pixels -/

/-- Pixel `src i` of `row` copied to pixel `dst i` of `out`, for `i` below `n`. -/
def copyPixels (n : Nat) (dst src : Nat → Nat) (b : Nat) (row out : List Byte) : List Byte :=
  (List.range n).foldl (fun r i => setPix r (dst i) b (getPix row (src i) b)) out

theorem scatterRow_eq (h : Header) (p : Pass) (row out : List Byte) :
    scatterRow h p row out = copyPixels (passWidth h p) p.col id h.bitsPP row out := rfl

theorem gatherRow_eq (h : Header) (p : Pass) (row : List Byte) :
    gatherRow h p row = copyPixels (passWidth h p) id p.col h.bitsPP row (zeros (rowBytes (passWidth h p) h.bitsPP)) := rfl

theorem copyPixels_succ (n : Nat) (dst src : Nat → Nat) (b : Nat) (row out : List Byte) :
    copyPixels (n + 1) dst src b row out =
      setPix (copyPixels n dst src b row out) (dst n) b (getPix row (src n) b) := by
  rw [copyPixels, List.range_succ, List.foldl_append]; rfl

@[simp] theorem copyPixels_length (n : Nat) (dst src : Nat → Nat) (b : Nat) (row out : List Byte) :
    (copyPixels n dst src b row out).length = out.length := by
  induction n with
  | zero => rfl
  | succ n ih => rw [copyPixels_succ, setPix_length, ih]

section
variable {n b : Nat} {dst : Nat → Nat} (src : Nat → Nat) (row : List Byte) {out : List Byte}
  (hfit : ∀ i, i < n → dst i * b + b ≤ 8 * out.length)
include hfit

theorem rowBit_copyPixels_ne {k : Nat} (hk : ∀ i, i < n → dst i ≠ k / b) :
    rowBit (copyPixels n dst src b row out) k = rowBit out k := by
  induction n with
  | zero => rfl
  | succ n ih =>
    rw [copyPixels_succ, rowBit_setPix_ne _ (by rw [copyPixels_length]; exact hfit n n.lt_succ_self) (hk n n.lt_succ_self)]
    exact ih (fun i hi => hfit i (by omega)) fun i hi => hk i (by omega)

theorem rowBit_copyPixels {i j : Nat} (hdst : Function.Injective dst) (hi : i < n) (hj : j < b) :
    rowBit (copyPixels n dst src b row out) (dst i * b + j) = rowBit row (src i * b + j) := by
  induction n with
  | zero => omega
  | succ n ih =>
    have hlast : dst n * b + b ≤ 8 * (copyPixels n dst src b row out).length := by
      rw [copyPixels_length]; exact hfit n n.lt_succ_self
    rw [copyPixels_succ]
    by_cases hin : i = n
    · rw [hin, rowBit_setPix_getPix _ _ hlast hj]
    · rw [rowBit_setPix_ne _ hlast (by rw [pixel_of_bit _ hj]; exact fun he => hin (hdst he).symm)]
      exact ih (fun i hi => hfit i (by omega)) (by omega)

end

/-- A padding bit is after the last of `w` pixels. -/
theorem le_pixel_of_padding {w b k : Nat} (hk : w * b ≤ k) (hrow : k < 8 * rowBytes w b) : w ≤ k / b := by
  have hb : 0 < b := by
    refine Nat.pos_of_ne_zero ?_
    rintro rfl
    simp [rowBytes, ceilDiv] at hrow
  exact (Nat.le_div_iff_mul_le hb).2 hk

/-- A pixel of a row of `w` pixels ends within the row's bytes. -/
theorem pixel_fits {x w : Nat} (b : Nat) (hx : x < w) : x * b + b ≤ 8 * rowBytes w b :=
  (row_end_le hx).trans (rowBytes_bits w b)

end Sys2Proof.Machine
end

section
/-! SUPPORT. DEINTERLACE (43_interlace.md rule R204): where the bits of each image row come from. -/

namespace Sys2Proof.Machine

/-! ### Rows changed one after another -/

/-- Row `pos i` changed by `g i`, for `i` below `n`. -/
def modifyRows (n : Nat) (pos : Nat → Nat) (g : Nat → List Byte → List Byte) (rows : List (List Byte)) : List (List Byte) :=
  (List.range n).foldl (fun out i => out.modify (pos i) (g i)) rows

theorem scatterPass_eq (h : Header) (p : Pass) (bs : List Byte) (rows : List (List Byte)) :
    scatterPass h p bs rows = modifyRows (passHeight h p) p.line
      (fun py => scatterRow h p (rowOf bs (rowBytes (passWidth h p) h.bitsPP) py)) rows := rfl

theorem modifyRows_succ (n : Nat) (pos : Nat → Nat) (g : Nat → List Byte → List Byte) (rows : List (List Byte)) :
    modifyRows (n + 1) pos g rows = (modifyRows n pos g rows).modify (pos n) (g n) := by
  rw [modifyRows, List.range_succ, List.foldl_append]; rfl

section
variable {n : Nat} {pos : Nat → Nat} (g : Nat → List Byte → List Byte) (rows : List (List Byte))

theorem modifyRows_of_id (hg : ∀ i r, g i r = r) : modifyRows n pos g rows = rows := by
  induction n with
  | zero => rfl
  | succ n ih => rw [modifyRows_succ, ih, show g n = id from funext (hg n), List.modify_id]

theorem modifyRows_getElem?_ne {y : Nat} (hy : ∀ i, i < n → pos i ≠ y) : (modifyRows n pos g rows)[y]? = rows[y]? := by
  induction n with
  | zero => rfl
  | succ n ih =>
    rw [modifyRows_succ, List.getElem?_modify_ne _ _ (hy n n.lt_succ_self)]
    exact ih fun i hi => hy i (by omega)

theorem modifyRows_getElem? {i : Nat} (hpos : Function.Injective pos) (hi : i < n) :
    (modifyRows n pos g rows)[pos i]? = rows[pos i]?.map (g i) := by
  induction n with
  | zero => omega
  | succ n ih =>
    rw [modifyRows_succ]
    by_cases hin : i = n
    · rw [hin, List.getElem?_modify_eq, modifyRows_getElem?_ne g rows fun i hi he => hi.ne (hpos he)]
      rfl
    · rw [List.getElem?_modify_ne _ _ fun he => hin (hpos he).symm]
      exact ih (by omega)

end

/-! ### The rows of an image -/

/-- `rows` are as many as the image has, each as long as its rows. -/
def RowsOf (h : Header) (rows : List (List Byte)) : Prop := rows.length = h.height ∧ ∀ r ∈ rows, r.length = h.rowBytes

/-- Bit `k` of row `y`. -/
def rowsBit (rows : List (List Byte)) (y k : Nat) : Bool := rowBit (rows.getD y []) k

theorem rowsOf_zeros (h : Header) : RowsOf h (List.replicate h.height (zeros h.rowBytes)) :=
  ⟨List.length_replicate, fun _ hr => by rw [List.eq_of_mem_replicate hr, zeros_length]⟩

theorem rowsBit_zeros (n m y k : Nat) : rowsBit (List.replicate n (zeros m)) y k = false := by
  rw [rowsBit, List.getD_eq_getElem?_getD, List.getElem?_replicate]
  split
  · exact rowBit_zeros m k
  · exact rowBit_zeros 0 k

section
variable {h : Header} {rows : List (List Byte)} (hr : RowsOf h rows)
include hr

theorem RowsOf.scatterPass (p : Pass) (bs : List Byte) : RowsOf h (scatterPass h p bs rows) := by
  obtain ⟨hl, hrow⟩ := scatterPass_shape h p bs rows hr.2
  exact ⟨hl.trans hr.1, hrow⟩

theorem RowsOf.scatterPasses (ps : List Pass) (bs : List Byte) : RowsOf h (scatterPasses h ps bs rows) := by
  obtain ⟨hl, hrow⟩ := scatterPasses_shape h ps bs rows hr.2
  exact ⟨hl.trans hr.1, hrow⟩

theorem RowsOf.getD_length {y : Nat} (hy : y < h.height) : (rows.getD y []).length = h.rowBytes := by
  obtain ⟨hl, hrow⟩ := hr
  rw [List.getD_eq_getElem _ _ (hl ▸ hy)]
  exact hrow _ (List.getElem_mem _)

theorem rowOf_flatten_eq_getD {y : Nat} (hy : y < h.height) : rowOf rows.flatten h.rowBytes y = rows.getD y [] := by
  obtain ⟨hl, hrow⟩ := hr
  rw [rowOf_flatten hrow y (hl ▸ hy), List.getD_eq_getElem _ _ (hl ▸ hy)]

/-! ### One pass (R204) -/

variable {p : Pass} (hp : p ∈ passes) (bs : List Byte)
include hp

theorem scatterPass_getD {py : Nat} (hpy : py < passHeight h p) :
    (scatterPass h p bs rows).getD (p.line py) [] =
      scatterRow h p (rowOf bs (rowBytes (passWidth h p) h.bitsPP) py) (rows.getD (p.line py) []) := by
  have hy : p.line py < rows.length := hr.1 ▸ (Pass.line_lt_iff h hp py).2 hpy
  rw [List.getD_eq_getElem?_getD, scatterPass_eq, modifyRows_getElem? _ _ (Pass.line_injective hp) hpy,
    List.getElem?_eq_getElem hy, List.getD_eq_getElem _ _ hy]
  rfl

theorem pass_pixels_fit {y : Nat} (hy : y < h.height) :
    ∀ px, px < passWidth h p → p.col px * h.bitsPP + h.bitsPP ≤ 8 * (rows.getD y []).length := fun px hpx => by
  rw [hr.getD_length hy]
  exact pixel_fits _ ((Pass.col_lt_iff h hp px).2 hpx)

/-- The pixels of a pass go to their image positions. -/
theorem rowsBit_scatterPass {px py j : Nat} (hpx : px < passWidth h p) (hpy : py < passHeight h p) (hj : j < h.bitsPP) :
    rowsBit (scatterPass h p bs rows) (p.line py) (p.col px * h.bitsPP + j) =
      rowBit (rowOf bs (rowBytes (passWidth h p) h.bitsPP) py) (px * h.bitsPP + j) := by
  rw [rowsBit, scatterPass_getD hr hp bs hpy, scatterRow_eq]
  exact rowBit_copyPixels id _ (pass_pixels_fit hr hp ((Pass.line_lt_iff h hp py).2 hpy)) (Pass.col_injective hp) hpx hj

/-- Every other bit stays as it is. -/
theorem rowsBit_scatterPass_ne {y k : Nat}
    (hk : ∀ px py, px < passWidth h p → py < passHeight h p → p.col px = k / h.bitsPP → p.line py ≠ y) :
    rowsBit (scatterPass h p bs rows) y k = rowsBit rows y k := by
  by_cases hy : ∃ py, py < passHeight h p ∧ p.line py = y
  · obtain ⟨py, hpy, rfl⟩ := hy
    rw [rowsBit, scatterPass_getD hr hp bs hpy, scatterRow_eq]
    exact rowBit_copyPixels_ne id _ (pass_pixels_fit hr hp ((Pass.line_lt_iff h hp py).2 hpy))
      fun px hpx hx => hk px py hpx hpy hx rfl
  · rw [rowsBit, List.getD_eq_getElem?_getD, scatterPass_eq,
      modifyRows_getElem?_ne _ _ fun py hpy he => hy ⟨py, hpy, he⟩, ← List.getD_eq_getElem?_getD, rowsBit]

end

/-! ### The passes one after another (R204) -/

theorem scatterPasses_cons (h : Header) (p : Pass) (ps : List Pass) (bs : List Byte) (rows : List (List Byte)) :
    scatterPasses h (p :: ps) bs rows = scatterPasses h ps (bs.drop (passBytesOf h p)) (scatterPass h p bs rows) := rfl

theorem scatterPasses_append (h : Header) (ps qs : List Pass) (bs : List Byte) (rows : List (List Byte)) :
    scatterPasses h (ps ++ qs) bs rows =
      scatterPasses h qs (bs.drop (ps.map (passBytesOf h)).sum) (scatterPasses h ps bs rows) := by
  induction ps generalizing bs rows with
  | nil => rfl
  | cons p ps ih =>
    rw [List.cons_append, scatterPasses_cons, ih, List.drop_drop, scatterPasses_cons, List.map_cons, List.sum_cons]

/-- A pass without pixels changes nothing. -/
theorem scatterPass_of_empty {h : Header} {p : Pass} (hp : passNonempty h p = false) (bs : List Byte)
    (rows : List (List Byte)) : scatterPass h p bs rows = rows := by
  rw [scatterPass_eq]
  rw [passNonempty, Bool.and_eq_false_iff, bne_eq_false_iff_eq, bne_eq_false_iff_eq] at hp
  rcases hp with hw | hh
  · exact modifyRows_of_id _ _ fun py row => by rw [scatterRow_eq, hw]; rfl
  · rw [hh]; rfl

theorem scatterPasses_filter (h : Header) (ps : List Pass) (bs : List Byte) (rows : List (List Byte)) :
    scatterPasses h (ps.filter (passNonempty h)) bs rows = scatterPasses h ps bs rows := by
  induction ps generalizing bs rows with
  | nil => rfl
  | cons p ps ih =>
    by_cases hp : passNonempty h p = true
    · rw [List.filter_cons_of_pos hp, scatterPasses_cons, scatterPasses_cons, ih]
    · have hempty : passNonempty h p = false := by simpa using hp
      rw [List.filter_cons_of_neg hp, ih, scatterPasses_cons, scatterPass_of_empty hempty, passBytesOf_eq_zero hempty,
        List.drop_zero]

theorem rowsBit_scatterPasses_ne {h : Header} {rows : List (List Byte)} {ps : List Pass} (bs : List Byte) {y k : Nat}
    (hr : RowsOf h rows) (hps : ∀ p ∈ ps, p ∈ passes)
    (hk : ∀ p ∈ ps, ∀ px py, px < passWidth h p → py < passHeight h p → p.col px = k / h.bitsPP → p.line py ≠ y) :
    rowsBit (scatterPasses h ps bs rows) y k = rowsBit rows y k := by
  induction ps generalizing bs rows with
  | nil => rfl
  | cons p ps ih =>
    rw [List.forall_mem_cons] at hps hk
    rw [scatterPasses_cons, ih _ (hr.scatterPass p bs) hps.2 hk.2, rowsBit_scatterPass_ne hr hps.1 bs hk.1]

/-! ### The whole image -/

/-- The pass table around pass `q`. -/
theorem passes_split {q : Nat} (hq : q < 7) : passes = passes.take q ++ passOf q :: passes.drop (q + 1) := by
  have hlen : q < passes.length := hq
  rw [passOf_eq_getElem hlen, ← List.drop_eq_getElem_cons hlen, List.take_append_drop]

theorem exists_passOf_of_mem_drop {n : Nat} {p : Pass} (hp : p ∈ passes.drop n) : ∃ q, n ≤ q ∧ q < 7 ∧ passOf q = p := by
  obtain ⟨i, hi, rfl⟩ := List.mem_drop_iff_getElem.1 hp
  rw [Nat.add_comm] at hi
  exact ⟨n + i, by omega, hi, passOf_eq_getElem hi⟩

theorem rowOf_deinterlaceBytes (h : Header) (bs : List Byte) {y : Nat} (hy : y < h.height) :
    rowOf (deinterlaceBytes h bs) h.rowBytes y =
      (scatterPasses h passes bs (List.replicate h.height (zeros h.rowBytes))).getD y [] := by
  rw [deinterlaceBytes, livePasses, scatterPasses_filter,
    rowOf_flatten_eq_getD ((rowsOf_zeros h).scatterPasses passes bs) hy]

/-- A pixel of the image is the pixel of its pass: the passes after that one leave it as it is. -/
theorem rowBit_deinterlaceBytes (h : Header) (bs : List Byte) {q px py j : Nat} (hq : q < 7)
    (hpx : px < passWidth h (passOf q)) (hpy : py < passHeight h (passOf q)) (hj : j < h.bitsPP) :
    rowBit (rowOf (deinterlaceBytes h bs) h.rowBytes ((passOf q).line py)) ((passOf q).col px * h.bitsPP + j) =
      rowBit (rowOf (bs.drop (passStart h q)) (rowBytes (passWidth h (passOf q)) h.bitsPP) py) (px * h.bitsPP + j) := by
  have hp := passOf_mem hq
  have hbefore := (rowsOf_zeros h).scatterPasses (passes.take q) bs
  rw [rowOf_deinterlaceBytes h bs ((Pass.line_lt_iff h hp py).2 hpy), ← rowsBit, passes_split hq, scatterPasses_append,
    scatterPasses_cons, ← passStart,
    rowsBit_scatterPasses_ne _ (hbefore.scatterPass (passOf q) _) (fun p => List.mem_of_mem_drop),
    rowsBit_scatterPass hbefore hp _ hpx hpy hj]
  intro p hmem px' py' _ _ hx hy
  obtain ⟨q', hle, hq', rfl⟩ := exists_passOf_of_mem_drop hmem
  have heq : q' = q := pass_unique hq' hq (hx.trans (pixel_of_bit _ hj)) hy
  omega

/-- The bits after the last pixel of a row are the zeros the image starts with. -/
theorem rowBit_deinterlaceBytes_padding (h : Header) (bs : List Byte) {y k : Nat} (hy : y < h.height)
    (hk : h.width * h.bitsPP ≤ k) (hrow : k < 8 * h.rowBytes) : rowBit (rowOf (deinterlaceBytes h bs) h.rowBytes y) k = false := by
  rw [rowOf_deinterlaceBytes h bs hy, ← rowsBit, rowsBit_scatterPasses_ne _ (rowsOf_zeros h) (fun _ => id), rowsBit_zeros]
  intro p hp px py hpx hpy hx hy
  have hcol : p.col px < h.width := (Pass.col_lt_iff h hp px).2 hpx
  have hpad : h.width ≤ k / h.bitsPP := le_pixel_of_padding hk hrow
  omega

end Sys2Proof.Machine
end

section
/-! SUPPORT. INTERLACE (43_interlace.md rule R205): the rows of the pass raster it builds. -/

namespace Sys2Proof.Machine

/-! ### The rows of a pass raster -/

theorem passStart_add_passBytesOf_le (h : Header) {q : Nat} (hq : q < 7) :
    passStart h q + passBytesOf h (passOf q) ≤ passBytes h := by
  rw [passBytes, passes_split hq, List.map_append, List.sum_append, List.map_cons, List.sum_cons, ← passStart]
  omega

/-- Row `py` of pass `q` of a pass raster in the buffer (R203, R206). -/
theorem rowOf_passRaster (s : State) (a : Nat) (h : Header) {q py : Nat} (hq : q < 7)
    (hpy : py < passHeight h (passOf q)) :
    rowOf ((memRead s a (passBytes h)).drop (passStart h q)) (rowBytes (passWidth h (passOf q)) h.bitsPP) py =
      memRead s (a + passStart h q + py * rowBytes (passWidth h (passOf q)) h.bitsPP)
        (rowBytes (passWidth h (passOf q)) h.bitsPP) := by
  have hpass := passStart_add_passBytesOf_le h hq
  have hrow : (py + 1) * rowBytes (passWidth h (passOf q)) h.bitsPP ≤ passBytesOf h (passOf q) := Nat.mul_le_mul_right _ hpy
  rw [memRead_drop _ _ _ _ (by omega), rowOf_memRead _ _ _ _ _ (by omega)]

/-- Row `y` of a full raster in the buffer (R206). -/
theorem rowOf_fullRaster (s : State) (a : Nat) (h : Header) {y : Nat} (hy : y < h.height) :
    rowOf (memRead s a (fullBytes h)) h.rowBytes y = memRead s (a + y * h.rowBytes) h.rowBytes :=
  rowOf_memRead _ _ _ _ _ (Nat.mul_le_mul_right _ hy)

/-! ### The gathered rows (R205) -/

theorem rowOf_gatherPass (h : Header) (bs : List Byte) {p : Pass} {py : Nat} (hpy : py < passHeight h p) :
    rowOf (gatherPass h bs p) (rowBytes (passWidth h p) h.bitsPP) py =
      gatherRow h p (rowOf bs h.rowBytes (p.line py)) := by
  rw [gatherPass, List.flatMap_def, rowOf_flatten (by simp) py (by simpa using hpy)]
  simp [Pass.line]

/-- The passes without pixels add nothing to the pass raster. -/
theorem interlaceBytes_eq (h : Header) (bs : List Byte) : interlaceBytes h bs = passes.flatMap (gatherPass h bs) := by
  rw [interlaceBytes, livePasses]
  generalize passes = ps
  induction ps with
  | nil => rfl
  | cons p ps ih =>
    by_cases hp : passNonempty h p = true
    · rw [List.filter_cons_of_pos hp, List.flatMap_cons, List.flatMap_cons, ih]
    · have hempty : gatherPass h bs p = [] := List.eq_nil_of_length_eq_zero <| by
        rw [gatherPass_length, passBytesOf_eq_zero (by simpa using hp)]
      rw [List.filter_cons_of_neg hp, ih, List.flatMap_cons, hempty, List.nil_append]

theorem rowOf_interlaceBytes (h : Header) (bs : List Byte) {q py : Nat} (hq : q < 7)
    (hpy : py < passHeight h (passOf q)) :
    rowOf ((interlaceBytes h bs).drop (passStart h q)) (rowBytes (passWidth h (passOf q)) h.bitsPP) py =
      gatherRow h (passOf q) (rowOf bs h.rowBytes ((passOf q).line py)) := by
  have hstart : ((passes.take q).flatMap (gatherPass h bs)).length = passStart h q := by
    rw [List.length_flatMap, passStart]
    exact congrArg List.sum (List.map_congr_left fun p _ => gatherPass_length h bs p)
  rw [interlaceBytes_eq, passes_split hq, List.flatMap_append, List.flatMap_cons, List.drop_left' hstart,
    rowOf_append_left (gatherPass_length h bs _) hpy, rowOf_gatherPass h bs hpy]

section
variable (h : Header) (p : Pass) (row : List Byte)

theorem gatherRow_fits : ∀ px, px < passWidth h p →
    id px * h.bitsPP + h.bitsPP ≤ 8 * (zeros (rowBytes (passWidth h p) h.bitsPP)).length := fun px hpx => by
  rw [zeros_length]; exact pixel_fits _ hpx

theorem rowBit_gatherRow {px j : Nat} (hpx : px < passWidth h p) (hj : j < h.bitsPP) :
    rowBit (gatherRow h p row) (px * h.bitsPP + j) = rowBit row (p.col px * h.bitsPP + j) := by
  rw [gatherRow_eq]
  exact rowBit_copyPixels p.col row (gatherRow_fits h p) Function.injective_id hpx hj

theorem rowBit_gatherRow_padding {k : Nat} (hk : passWidth h p * h.bitsPP ≤ k)
    (hrow : k < 8 * rowBytes (passWidth h p) h.bitsPP) : rowBit (gatherRow h p row) k = false := by
  have hpad := le_pixel_of_padding hk hrow
  rw [gatherRow_eq, rowBit_copyPixels_ne p.col row (gatherRow_fits h p) fun px hpx => (hpx.trans_le hpad).ne, rowBit_zeros]

end

end Sys2Proof.Machine
end

section
/-! SUPPORT. The statements about DEINTERLACE and INTERLACE (43_interlace.md rules R204, R205). -/

namespace Sys2Proof.Machine

/-- Settles O52: bit by bit, a pixel comes from its pass, and the padding bits are the zeros the image starts with. -/
theorem deinterlaceScattersThePasses : Obligations.DeinterlaceScattersThePasses := by
  intro s h hh hc
  obtain ⟨t, ht, hleaves, hbytes⟩ := leaves_of_checks (i := .deinterlace) (congrArg (finish s) (deinterlace_eq hh)) hc
    (setRes0_memWrite ..) (deinterlaceBytes_length h _)
  refine ⟨t, ht, hleaves, ?_⟩
  intro out
  have hout : ∀ y, y < h.height →
      out y = rowOf (deinterlaceBytes h (memRead s (srcAddr s) (passBytes h))) h.rowBytes y := fun y hy => by
    rw [← hbytes, rowOf_fullRaster _ _ _ hy]
  refine ⟨fun p px py hp hpx hpy => getPix_congr fun j hj => ?_, fun y k hy hk hrow => ?_⟩
  · rw [← Pass.line, ← Pass.col, hout _ ((Pass.line_lt_iff h (passOf_mem hp) py).2 hpy),
      rowBit_deinterlaceBytes h _ hp hpx hpy hj, rowOf_passRaster _ _ _ hp hpy]
  · rw [hout y hy, rowBit_deinterlaceBytes_padding h _ hy hk hrow]

/-- Settles O53: each row of the pass raster is the row `gatherRow` builds of zeros and the pixels of an image row. -/
theorem interlaceGathersThePasses : Obligations.InterlaceGathersThePasses := by
  intro s h hh hc
  obtain ⟨t, ht, hleaves, hbytes⟩ := leaves_of_checks (i := .interlace) (congrArg (finish s) (interlace_eq hh)) hc
    (setRes0_memWrite ..) (interlaceBytes_length h _)
  refine ⟨t, ht, hleaves, ?_⟩
  intro p py hp hpy rb out
  have hout : out = gatherRow h (passOf p) (memRead s (srcAddr s + (passOf p).line py * h.rowBytes) h.rowBytes) := by
    rw [← rowOf_fullRaster _ _ _ ((Pass.line_lt_iff h (passOf_mem hp) py).2 hpy), ← rowOf_interlaceBytes h _ hp hpy,
      ← hbytes, rowOf_passRaster _ _ _ hp hpy]
  rw [hout]
  exact ⟨fun px hpx => getPix_congr fun j hj => rowBit_gatherRow h _ _ hpx hj,
    fun k hk hrow => rowBit_gatherRow_padding h _ _ hk hrow⟩

/-- Settles O54: every pixel lies in a pass, from which DEINTERLACE takes the bits that INTERLACE put there. -/
theorem deinterlaceUndoesInterlace : Obligations.DeinterlaceUndoesInterlace := by
  intro h raster _
  refine ⟨deinterlaceBytes_length h _, fun y k hy hrow => ?_⟩
  rcases Nat.lt_or_ge k (h.width * h.bitsPP) with hk | hk
  · have hb : 0 < h.bitsPP := Nat.pos_of_lt_mul_left hk
    obtain ⟨q, px, py, hq, hpx, hpy, hx, rfl⟩ := exists_pass_pixel h ((Nat.div_lt_iff_lt_mul hb).2 hk) hy
    have hbit : k = (passOf q).col px * h.bitsPP + k % h.bitsPP := by rw [hx, Nat.div_add_mod']
    have hj : k % h.bitsPP < h.bitsPP := Nat.mod_lt _ hb
    rw [decide_eq_true hk, Bool.true_and, hbit, rowBit_deinterlaceBytes h _ hq hpx hpy hj,
      rowOf_interlaceBytes h _ hq hpy, rowBit_gatherRow h _ _ hpx hj]
  · rw [decide_eq_false (Nat.not_lt.2 hk), Bool.false_and, rowBit_deinterlaceBytes_padding h _ hy hk hrow]

end Sys2Proof.Machine
end

section
/-! SUPPORT. What the commands of the normaliser share: the depth of a valid header (10_state.md rules R27, R28), samples in
range (R11, R12), the completion of a rule that builds bytes or raises, and arrays built pixel by pixel (44_normalizer.md rules
R221, R237). -/

namespace Sys2Proof.Machine

/-! ### The depth of a valid header (R27, R28) -/

/-- A valid header has a depth and a colour type of R27. -/
theorem header_pair {s : State} {h : Header} (hh : header s = some h) : (h.depth, h.color.code) ∈ Config.pngPairs := by
  rw [header, headerOf] at hh
  split at hh
  · rename_i hv
    obtain ⟨-, -, hl, -⟩ := hv
    obtain ⟨c, hc, rfl⟩ := Option.map_eq_some_iff.1 hh
    rw [ColorType.ofCode_eq_some.1 hc]
    exact ((legalPair_iff _ _ _).1 hl).1
  · cases hh

theorem header_depth_pos {s : State} {h : Header} (hh : header s = some h) : 0 < h.depth :=
  have pairs : ∀ q ∈ Config.pngPairs, 0 < q.1 := by decide
  pairs _ (header_pair hh)

theorem header_palette_depth {s : State} {h : Header} (hh : header s = some h) (hc : h.color = .palette) : h.depth ≤ 8 :=
  have pairs : ∀ q ∈ Config.pngPairs, q.2 = 3 → q.1 ≤ 8 := by decide
  pairs _ (header_pair hh) (by rw [hc]; rfl)

/-- A palette image is decoded to 8-bit samples (R222). -/
theorem outWidth_palette {s : State} {h : Header} (hh : header s = some h) (hc : h.color = .palette) (narrow : Bool) :
    outWidth h narrow = 8 := by
  have := header_palette_depth hh hc
  rw [outWidth, if_neg (by omega)]

/-! ### Samples in range (R11, R12) -/

theorem maxSample_lt (n : Nat) : maxSample n < 2 ^ n := Nat.sub_lt (Nat.two_pow_pos n) Nat.one_pos

theorem rescale_lt {v n : Nat} (m : Nat) (hn : 0 < n) (hv : v < 2 ^ n) : rescale v n m < 2 ^ m :=
  (rescale_le_maxSample m hn (Nat.le_sub_one_of_lt hv)).trans_lt (maxSample_lt m)

/-- A byte fits a sample of either width. -/
theorem byte_lt_two_pow {v sw : Nat} (hsw : sw = 8 ∨ sw = 16) (hv : v < 256) : v < 2 ^ sw := by
  rcases hsw with rfl | rfl <;> omega

/-! ### A rule that builds bytes or raises (R237, R263) -/

section
variable {i : Instr} {s : State} {cs : List Check} {x : Except Err (List Byte)} {n : Nat}
  (hx : exec i s = finish s (runChecks cs >>= fun _ => x >>= fun out => .ok (setRes0 (memWrite s (dstAddr s) out) n)))
  (hcs : firstError cs = none)
include hx hcs

theorem leaves_of_built {out : List Byte} (ho : x = .ok out) (hn : out.length = n) :
    ∃ t, exec i s = .next t ∧ Leaves s t { s.res with res0 := BitVec.ofNat 32 n } n ∧ memRead t (dstAddr s) n = out := by
  subst ho
  exact leaves_of_checks hx hcs (setRes0_memWrite ..) hn

theorem failsWith_of_built {e : Err} (he : x = .error e) : FailsWith i s e := by
  rw [FailsWith, hx, runChecks_ok hcs, he]
  rfl

end

/-! ### Arrays built pixel by pixel (R221, R237) -/

/-- The first item that raises decides (R237), by its position. -/
theorem collect_error_at {α : Type} {f : α → Except Err (List Byte)} {xs : List α} {i : Nat} {e : Err} (hi : i < xs.length)
    (hok : ∀ i', (hi' : i' < i) → ∃ bs, f (xs[i']'(hi'.trans hi)) = .ok bs) (he : f xs[i] = .error e) :
    collect f xs = .error e := by
  have hsplit : xs = xs.take i ++ xs[i] :: xs.drop (i + 1) := by simp
  rw [hsplit]
  refine collect_error (fun y hy => ?_) he
  obtain ⟨i', hi', rfl⟩ := List.mem_take_iff_getElem.1 hy
  exact hok i' (by omega)

theorem exists_collect_eq_ok {α : Type} {f : α → Except Err (List Byte)} {xs : List α} (h : ∀ x ∈ xs, ∃ bs, f x = .ok bs) :
    ∃ out, collect f xs = .ok out :=
  ⟨_, collect_ok (g := fun x => (f x).toOption.getD []) fun x hx => by
    obtain ⟨bs, hbs⟩ := h x hx
    rw [hbs]
    rfl⟩

/-- The samples of the pixels a rule gives, in order; the first error is raised. -/
def collectPixels {α : Type} (sw : Nat) (f : α → Except Err (List Nat)) (xs : List α) : Except Err (List Byte) :=
  collect (fun x => f x >>= fun vs => .ok (sampleBytes sw vs)) xs

theorem convertBytes_eq (s : State) (src dst : ColorType) (sw n : Nat) (bs : List Byte) :
    convertBytes s src dst sw n bs =
      collectPixels sw (fun j => convertPixel s src dst sw (arrayPixel bs src.channels sw j)) (List.range n) := rfl

theorem normalizeBytes_eq (s : State) (h : Header) (narrow : Bool) (bs : List Byte) :
    normalizeBytes s h narrow bs = collectPixels (outWidth h narrow)
      (fun q => canonicalPixel s h (outWidth h narrow) (rawPixel h bs q.1 q.2)) (pixelsOf h) := rfl

section
variable {α : Type} {sw : Nat} {f : α → Except Err (List Nat)} {xs : List α}

theorem collectPixels_ok (h : ∀ x ∈ xs, ∃ vs, f x = .ok vs) :
    collectPixels sw f xs = .ok (xs.flatMap fun x => sampleBytes sw ((f x).toOption.getD [])) :=
  collect_ok fun x hx => by
    obtain ⟨vs, hvs⟩ := h x hx
    rw [hvs]
    rfl

theorem collectPixels_error {i : Nat} {e : Err} (hi : i < xs.length)
    (hok : ∀ i', (hi' : i' < i) → ∃ vs, f (xs[i']'(hi'.trans hi)) = .ok vs) (he : f xs[i] = .error e) :
    collectPixels sw f xs = .error e := by
  refine collect_error_at hi (fun i' hi' => ?_) (by rw [he]; rfl)
  obtain ⟨vs, hvs⟩ := hok i' hi'
  exact ⟨sampleBytes sw vs, by rw [hvs]; rfl⟩

/-- Sample `k` of pixel `i` of the array, where every pixel has `c` samples in range. -/
theorem collectPixels_samples {c : Nat} (hsw : sw = 8 ∨ sw = 16)
    (h : ∀ x ∈ xs, ∃ vs, f x = .ok vs ∧ vs.length = c ∧ ∀ v ∈ vs, v < 2 ^ sw) : ∃ out, collectPixels sw f xs = .ok out ∧
      ∀ i k vs, (hi : i < xs.length) → k < c → f xs[i] = .ok vs → sampOf out (i * c + k) sw = vs.getD k 0 := by
  have hpixel : ∀ x ∈ xs, ((f x).toOption.getD []).length = c ∧ ∀ v ∈ (f x).toOption.getD [], v < 2 ^ sw := fun x hx => by
    obtain ⟨vs, hvs, hvs'⟩ := h x hx
    rw [hvs]
    exact hvs'
  refine ⟨_, collectPixels_ok fun x hx => (h x hx).imp fun vs hvs => hvs.1, fun i k vs hi hk hvs => ?_⟩
  rw [sampOf_flatMap sw c hsw _ _ (fun x hx => (hpixel x hx).1) (fun x hx => (hpixel x hx).2) i k hi hk, hvs]
  rfl

end

/-! ### The pixels in raster order (R237) -/

theorem lt_of_mem_pixelsOf {h : Header} {q : Nat × Nat} (hq : q ∈ pixelsOf h) : q.1 < h.height ∧ q.2 < h.width := by
  obtain ⟨y, hy, x, hx, rfl⟩ := by simpa [pixelsOf] using hq
  exact ⟨hy, hx⟩

theorem pixel_number_lt {h : Header} {x y : Nat} (hx : x < h.width) (hy : y < h.height) :
    y * h.width + x < (pixelsOf h).length := by
  rw [pixelsOf_length]
  exact (Nat.add_lt_add_left hx _).trans_le (row_end_le hy)

theorem pixelsOf_getElem_div_mod (h : Header) {i : Nat} (hi : i < (pixelsOf h).length) :
    (pixelsOf h)[i] = (i / h.width, i % h.width) := by
  have hi' : i < h.height * h.width := by simpa using hi
  have hw : 0 < h.width := Nat.pos_of_lt_mul_left hi'
  have := pixelsOf_getElem h (i % h.width) (i / h.width) (Nat.mod_lt _ hw) ((Nat.div_lt_iff_lt_mul hw).2 hi')
  simpa only [Nat.div_add_mod'] using this (by rwa [Nat.div_add_mod'])

/-- A pixel before pixel (x, y) of the raster order is in a row above, or before it in its row. -/
theorem before_of_number_lt {w x y i : Nat} (hx : x < w) (hi : i < y * w + x) : i / w < y ∨ i / w = y ∧ i % w < x := by
  have hle : i / w ≤ y := Nat.lt_succ_iff.1 ((Nat.div_lt_iff_lt_mul (by omega)).2 (by rw [Nat.succ_mul]; omega))
  rcases hle.lt_or_eq with hlt | rfl
  · exact .inl hlt
  · have := Nat.div_add_mod' i w
    exact .inr ⟨rfl, by omega⟩

end Sys2Proof.Machine
end

section
/-! SUPPORT. DEPTH_EXPAND (44_normalizer.md rule R230). -/

namespace Sys2Proof.Machine

theorem rawPixel_getD (h : Header) (bs : List Byte) (y x : Nat) {k : Nat} (hk : k < h.color.channels) :
    (rawPixel h bs y x).getD k 0 = getPix (rowOf bs h.rowBytes y) (x * h.color.channels + k) h.depth := by
  simp [rawPixel, hk]

theorem rawPixel_lt {h : Header} {bs : List Byte} {y x v : Nat} (hv : v ∈ rawPixel h bs y x) : v < 2 ^ h.depth := by
  obtain ⟨k, -, rfl⟩ := List.mem_map.1 hv
  exact getPix_lt ..

theorem expandSample_lt {s : State} {h : Header} (hh : header s = some h) {sw v : Nat} (hsw : sw = 8 ∨ sw = 16)
    (hv : v < 2 ^ h.depth) : expandSample h sw v < 2 ^ sw := by
  rw [expandSample]
  split
  · rename_i hc
    exact byte_lt_two_pow hsw (hv.trans_le (Nat.pow_le_pow_right (by decide) (header_palette_depth hh hc)))
  · exact rescale_lt sw (header_depth_pos hh) hv

/-- Sample `k` of pixel (x, y) of the sample array (R220, R230). -/
theorem sampOf_expandBytes {s : State} {h : Header} (hh : header s = some h) (narrow : Bool) (bs : List Byte) {x y k : Nat}
    (hx : x < h.width) (hy : y < h.height) (hk : k < h.color.channels) :
    sampOf (expandBytes h narrow bs) ((y * h.width + x) * h.color.channels + k) (outWidth h narrow) =
      expandSample h (outWidth h narrow) (getPix (rowOf bs h.rowBytes y) (x * h.color.channels + k) h.depth) := by
  have hlt : ∀ q ∈ pixelsOf h, ∀ v ∈ (rawPixel h bs q.1 q.2).map (expandSample h (outWidth h narrow)),
      v < 2 ^ outWidth h narrow := fun q _ v hv => by
    obtain ⟨w, hw, rfl⟩ := List.mem_map.1 hv
    exact expandSample_lt hh (outWidth_cases h narrow) (rawPixel_lt hw)
  rw [expandBytes, sampOf_flatMap _ h.color.channels (outWidth_cases h narrow) _ _ (by simp) hlt _ _
    (pixel_number_lt hx hy) hk, pixelsOf_getElem h x y hx hy]
  simp [rawPixel, hk]

/-- Settles O55: the array is built pixel by pixel, and each sample is in range, so it reads back. -/
theorem depthExpandRescalesEverySample : Obligations.DepthExpandRescalesEverySample := by
  intro s h narrow hh sw c nOut hc
  obtain ⟨t, ht, hleaves, hbytes⟩ := leaves_of_checks (i := .depthExpand narrow)
    (congrArg (finish s) (depthExpand_eq hh narrow)) hc (setRes0_memWrite ..) (expandBytes_length h narrow _)
  refine ⟨t, ht, hleaves, fun x y k hx hy hk => ?_⟩
  rw [← rowOf_fullRaster _ _ _ hy]
  exact (congrArg (sampOf · _ _) hbytes).trans (sampOf_expandBytes hh narrow _ hx hy hk)

end Sys2Proof.Machine
end

section
/-! SUPPORT. DEPTH_PACK (44_normalizer.md rule R231): the rows it packs, and the first palette index that does not fit. -/

namespace Sys2Proof.Machine

/-! ### One sample -/

theorem packSample_ok {h : Header} {sw v : Nat} (hv : h.color = .palette → v < 2 ^ h.depth) :
    packSample h sw v = .ok (if h.color = .palette then v else rescale v sw h.depth) := by
  rw [packSample]
  split
  · rename_i hc
    rw [if_pos (hv hc)]
  · rfl

theorem packSample_error {h : Header} {v : Nat} (sw : Nat) (hc : h.color = .palette) (hv : 2 ^ h.depth ≤ v) :
    packSample h sw v = .error (.paletteIndexOutOfRange (BitVec.ofNat 8 v)) := by
  rw [packSample, if_pos hc, if_neg (Nat.not_lt.2 hv)]

/-- A packed sample fits the header's depth. -/
theorem packSample_lt {h : Header} {sw v w : Nat} (hsw : 0 < sw) (hv : v < 2 ^ sw) (hw : packSample h sw v = .ok w) :
    w < 2 ^ h.depth := by
  rw [packSample] at hw
  split at hw
  · split at hw
    · cases hw; assumption
    · cases hw
  · cases hw; exact rescale_lt _ hsw hv

/-! ### One row -/

section
variable {h : Header} {sw : Nat} {bs : List Byte}

theorem packRow_succ (n i x : Nat) (row : List Byte) {v : Nat} (hv : packSample h sw (sampOf bs i sw) = .ok v) :
    packRow h sw bs (n + 1) i x row = packRow h sw bs n (i + 1) (x + 1) (setPix row x h.depth v) := by
  rw [packRow, hv, ok_bind]

theorem exists_packRow_eq_ok {n i : Nat} (hok : ∀ j, j < n → ∃ v, packSample h sw (sampOf bs (i + j) sw) = .ok v)
    (x : Nat) (row : List Byte) : ∃ out, packRow h sw bs n i x row = .ok out := by
  induction n generalizing i x row with
  | zero => exact ⟨row, rfl⟩
  | succ n ih =>
    obtain ⟨v, hv⟩ := hok 0 n.succ_pos
    rw [packRow_succ n i x row hv]
    exact ih (fun j hj => by rw [Nat.succ_add_eq_add_succ]; exact hok (j + 1) (by omega)) _ _

/-- The first sample that raises decides (R231, R237). -/
theorem packRow_error {m n i : Nat} {e : Err} (hm : m < n)
    (hok : ∀ j, j < m → ∃ v, packSample h sw (sampOf bs (i + j) sw) = .ok v)
    (he : packSample h sw (sampOf bs (i + m) sw) = .error e) (x : Nat) (row : List Byte) :
    packRow h sw bs n i x row = .error e := by
  obtain ⟨n, rfl⟩ := Nat.exists_eq_add_one_of_ne_zero (Nat.ne_zero_of_lt hm)
  induction m generalizing n i x row with
  | zero => rw [packRow, show packSample h sw (sampOf bs i sw) = .error e from he, error_bind]
  | succ m ih =>
    obtain ⟨v, hv⟩ := hok 0 m.succ_pos
    obtain ⟨n, rfl⟩ := Nat.exists_eq_add_one_of_ne_zero (show n ≠ 0 by omega)
    rw [packRow_succ (n + 1) i x row hv]
    exact ih (fun j hj => by rw [Nat.succ_add_eq_add_succ]; exact hok (j + 1) (by omega))
      (by rw [Nat.succ_add_eq_add_succ]; exact he) _ _ n (by omega)

/-- The bits outside the packed pixels are kept. -/
theorem rowBit_packRow_outside {n i x k : Nat} {row out : List Byte} (ho : packRow h sw bs n i x row = .ok out)
    (hfit : (x + n) * h.depth ≤ 8 * row.length) (hk : k < x * h.depth ∨ (x + n) * h.depth ≤ k) :
    rowBit out k = rowBit row k := by
  induction n generalizing i x row with
  | zero => cases ho; rfl
  | succ n ih =>
    obtain ⟨v, hv, ho⟩ := bind_eq_ok.1 ho
    have hx : (x + 1) * h.depth = x * h.depth + h.depth := Nat.succ_mul ..
    have hn : (x + 1) * h.depth ≤ (x + 1 + n) * h.depth := Nat.mul_le_mul_right _ (Nat.le_add_right ..)
    rw [Nat.add_comm n, ← Nat.add_assoc] at hfit hk
    rw [ih ho (by rwa [setPix_length]) (by omega), rowBit_setPix _ _ _ _ _ (by omega), if_neg (by omega)]

/-- Pixel `x + j` of the row is the packed sample `i + j` of the array. -/
theorem getPix_packRow {n i x j v : Nat} {row out : List Byte} (ho : packRow h sw bs n i x row = .ok out)
    (hfit : (x + n) * h.depth ≤ 8 * row.length) (hj : j < n) (hv : packSample h sw (sampOf bs (i + j) sw) = .ok v)
    (hlt : v < 2 ^ h.depth) : getPix out (x + j) h.depth = v := by
  induction n generalizing i x j row with
  | zero => omega
  | succ n ih =>
    obtain ⟨w, hw, ho⟩ := bind_eq_ok.1 ho
    rw [Nat.add_comm n, ← Nat.add_assoc] at hfit
    have hfit' : (x + 1 + n) * h.depth ≤ 8 * (setPix row x h.depth w).length := by rwa [setPix_length]
    cases j with
    | zero =>
      obtain rfl : w = v := by simpa [hw] using hv
      have hx : (x + 1) * h.depth = x * h.depth + h.depth := Nat.succ_mul ..
      have hn : (x + 1) * h.depth ≤ (x + 1 + n) * h.depth := Nat.mul_le_mul_right _ (Nat.le_add_right ..)
      calc getPix out x h.depth
          = getPix (setPix row x h.depth w) x h.depth :=
            getPix_congr fun b hb => rowBit_packRow_outside ho hfit' (.inl (by omega))
        _ = w := getPix_setPix row x h.depth w (by omega) hlt
    | succ j =>
      rw [← Nat.succ_add_eq_add_succ] at hv ⊢
      exact ih ho hfit' (by omega) hv

end

/-! ### The rows of the raster -/

/-- What DEPTH_PACK puts in row `y` of the raster. -/
def packedRow (h : Header) (sw : Nat) (bs : List Byte) (y : Nat) : Except Err (List Byte) :=
  packRow h sw bs (h.width * h.color.channels) (y * h.width * h.color.channels) 0 (zeros h.rowBytes)

theorem packBytes_eq (h : Header) (sw : Nat) (bs : List Byte) :
    packBytes h sw bs = collect (packedRow h sw bs) (List.range h.height) := rfl

theorem rowOf_packBytes {h : Header} {sw : Nat} {bs out : List Byte} (ho : packBytes h sw bs = .ok out) {y : Nat}
    (hy : y < h.height) : packedRow h sw bs y = .ok (rowOf out h.rowBytes y) := by
  obtain ⟨rows, hl, rfl, hrows⟩ := collect_eq_ok ho
  have hrow : ∀ i, (hi : i < rows.length) → packedRow h sw bs i = .ok rows[i] := fun i hi => by
    have := hrows i (hl ▸ hi) hi
    rwa [List.getElem_range] at this
  rw [List.length_range] at hl
  rw [rowOf_flatten _ y (hl ▸ hy), hrow y (hl ▸ hy)]
  intro r hr
  obtain ⟨i, hi, rfl⟩ := List.getElem_of_mem hr
  rw [packRow_length _ _ _ (hrow i hi), zeros_length]

section
variable {h : Header} {sw : Nat} {bs : List Byte}

theorem packedRow_fits (h : Header) :
    (0 + h.width * h.color.channels) * h.depth ≤ 8 * (zeros h.rowBytes).length := by
  rw [Nat.zero_add, Nat.mul_assoc, zeros_length]
  exact rowBytes_bits h.width h.bitsPP

/-- Sample `j` of row `y` is in the array. -/
theorem rowSample_lt {y j : Nat} (hy : y < h.height) (hj : j < h.width * h.color.channels) :
    y * h.width * h.color.channels + j < h.width * h.height * h.color.channels := by
  rw [Nat.mul_comm h.width h.height, Nat.mul_assoc, Nat.mul_assoc]
  exact (Nat.add_lt_add_left hj _).trans_le (row_end_le hy)

theorem exists_packBytes_eq_ok
    (hok : ∀ i, i < h.width * h.height * h.color.channels → ∃ v, packSample h sw (sampOf bs i sw) = .ok v) :
    ∃ out, packBytes h sw bs = .ok out :=
  exists_collect_eq_ok fun _ hy => exists_packRow_eq_ok (fun _ hj => hok _ (rowSample_lt (List.mem_range.1 hy) hj)) _ _

section
variable {out : List Byte} (ho : packBytes h sw bs = .ok out) {y : Nat} (hy : y < h.height)
include ho hy

/-- Sample `k` of pixel (x, y) of the raster (R231). -/
theorem getPix_packBytes (hsw : sw = 8 ∨ sw = 16) {x k v : Nat} (hx : x < h.width) (hk : k < h.color.channels)
    (hv : packSample h sw (sampOf bs ((y * h.width + x) * h.color.channels + k) sw) = .ok v) :
    getPix (rowOf out h.rowBytes y) (x * h.color.channels + k) h.depth = v := by
  rw [Nat.add_mul, Nat.add_assoc] at hv
  have hj : x * h.color.channels + k < h.width * h.color.channels := (Nat.add_lt_add_left hk _).trans_le (row_end_le hx)
  have := getPix_packRow (rowOf_packBytes ho hy) (packedRow_fits h) hj hv
    (packSample_lt (by omega) (sampOf_lt bs _ sw hsw) hv)
  rwa [Nat.zero_add] at this

/-- The padding bits of the raster are 0 (R13). -/
theorem rowBit_packBytes_padding {k : Nat} (hk : h.width * h.bitsPP ≤ k) : rowBit (rowOf out h.rowBytes y) k = false := by
  rw [rowBit_packRow_outside (rowOf_packBytes ho hy) (packedRow_fits h), rowBit_zeros]
  right
  rwa [Nat.zero_add, Nat.mul_assoc]

end

end

/-! ### The command -/

/-- Settles O56: every sample fits, so every row is packed, each pixel over zeros. -/
theorem depthPackPacksEverySample : Obligations.DepthPackPacksEverySample := by
  intro s h s16 hh sw c nIn sample hc hfit
  have hpack : ∀ i, i < h.width * h.height * c → packSample h sw (sample i sw) =
      .ok (if h.color = .palette then sample i sw else rescale (sample i sw) sw h.depth) := fun i hi =>
    packSample_ok fun hp => hfit hp i (by simpa [c, hp, ColorType.channels] using hi)
  obtain ⟨raster, hraster⟩ := exists_packBytes_eq_ok fun i hi => ⟨_, hpack i hi⟩
  obtain ⟨t, ht, hleaves, hbytes⟩ := leaves_of_built (i := .depthPack s16)
    (congrArg (finish s) (depthPack_eq hh s16)) hc hraster (packBytes_length hraster)
  refine ⟨t, ht, hleaves, ?_⟩
  intro out
  have hout : ∀ y, y < h.height → out y = rowOf raster h.rowBytes y := fun y hy => by
    rw [← hbytes, rowOf_fullRaster _ _ _ hy]
  refine ⟨fun x y k hx hy hk => ?_, fun y k hy hk _ => ?_⟩
  · rw [hout y hy]
    refine getPix_packBytes hraster hy (sampleWidth_cases s16) hx hk (hpack _ ?_)
    rw [Nat.add_mul, Nat.add_assoc]
    exact rowSample_lt hy ((Nat.add_lt_add_left hk _).trans_le (row_end_le hx))
  · rw [hout y hy]
    exact rowBit_packBytes_padding hraster hy hk

end Sys2Proof.Machine
end

section
/-! SUPPORT. The pixels of COLOR_CONVERT and DECODE_NORMALIZE (44_normalizer.md rules R225 to R227, R233, R236): where they are
given, and that their samples are in range. -/

namespace Sys2Proof.Machine

/-! ### Palette, transparency, luma (R225 to R227) -/

/-- Colour component `i` of a palette entry, from the low end. -/
theorem toNat_extractLsb'_byte (e : BitVec 24) (i : Nat) : (e.extractLsb' (8 * i) 8).toNat = e.toNat / 256 ^ i % 256 := by
  rw [BitVec.extractLsb'_toNat, Nat.shiftRight_eq_div_pow, Nat.pow_mul]

theorem lookup_ok {s : State} {i : Nat} (hi : i < s.pal.plteN.toNat) : lookup s i =
    .ok [((plteEntry s i).extractLsb' 16 8).toNat, ((plteEntry s i).extractLsb' 8 8).toNat,
      ((plteEntry s i).extractLsb' 0 8).toNat] := by
  rw [lookup, if_pos hi, toNat_extractLsb'_byte _ 2, toNat_extractLsb'_byte _ 1, toNat_extractLsb'_byte _ 0]
  simp

theorem lookup_error {s : State} {i : Nat} (hi : s.pal.plteN.toNat ≤ i) :
    lookup s i = .error (.paletteIndexOutOfRange (BitVec.ofNat 8 i)) := by rw [lookup, if_neg (Nat.not_lt.2 hi)]

theorem palAlpha_lt (s : State) (i : Nat) : palAlpha s i < 256 := by
  rw [palAlpha]
  split
  · exact (alphaEntry s i).isLt
  · decide

theorem paletteRgba_lt {s : State} {i sw : Nat} {rgb : List Nat} (hsw : sw = 8 ∨ sw = 16) (h : lookup s i = .ok rgb) :
    ∀ v ∈ rgb ++ [palAlpha s i], v < 2 ^ sw := by
  have hbyte : ∀ v ∈ rgb ++ [palAlpha s i], v < 256 := by
    rw [lookup] at h
    split at h
    · cases h
      simp [Nat.mod_lt, palAlpha_lt]
    · cases h
  exact fun v hv => byte_lt_two_pow hsw (hbyte v hv)

theorem keyGray_iff (s : State) (g : Nat) : keyGray s g = true ↔ s.pal.grayValid = true ∧ g = s.pal.trnsGray.toNat := by
  simp [keyGray]

theorem keyRgb_iff (s : State) (r g b : Nat) : keyRgb s r g b = true ↔
    s.pal.rgbValid = true ∧ r = s.pal.trnsR.toNat ∧ g = s.pal.trnsG.toNat ∧ b = s.pal.trnsB.toNat := by
  simp [keyRgb, and_assoc]

/-- The weights of the luma sum to 1. -/
theorem luma_lt {r g b n : Nat} (hr : r < n) (hg : g < n) (hb : b < n) : luma r g b < n := by
  rw [luma, Nat.div_lt_iff_lt_mul (by decide)]
  omega

/-- The alpha of a keyed pixel. -/
theorem keyAlpha_lt (key : Bool) (sw : Nat) : (if key then 0 else maxSample sw) < 2 ^ sw := by
  split
  · exact Nat.two_pow_pos sw
  · exact maxSample_lt sw

theorem getD_lt {px : List Nat} {n : Nat} (hn : 0 < n) (hpx : ∀ v ∈ px, v < n) (k : Nat) : px[k]?.getD 0 < n := by
  cases hk : px[k]? with
  | none => exact hn
  | some v => exact hpx v (List.mem_of_getElem? hk)

/-! ### Conv (R233) -/

section
variable (s : State) (sw : Nat)

theorem intermediate_gray (g : Nat) : intermediate s .gray sw [g] =
    .ok ([g, g, g] ++ [if s.pal.grayValid = true ∧ g = s.pal.trnsGray.toNat then 0 else maxSample sw], g) := by
  simp only [← keyGray_iff]
  rfl

theorem intermediate_rgb (r g b : Nat) : intermediate s .rgb sw [r, g, b] =
    .ok ([r, g, b] ++
      [if s.pal.rgbValid = true ∧ r = s.pal.trnsR.toNat ∧ g = s.pal.trnsG.toNat ∧ b = s.pal.trnsB.toNat then 0
       else maxSample sw], luma r g b) := by
  simp only [← keyRgb_iff]
  rfl

theorem intermediate_palette {i : Nat} (hi : i < s.pal.plteN.toNat) : intermediate s .palette sw [i] =
    .ok ([((plteEntry s i).extractLsb' 16 8).toNat, ((plteEntry s i).extractLsb' 8 8).toNat,
      ((plteEntry s i).extractLsb' 0 8).toNat] ++ [palAlpha s i], i) := by
  rw [intermediate, List.getD_cons_zero, lookup_ok hi]
  rfl

theorem intermediate_grayAlpha (g a : Nat) : intermediate s .grayAlpha sw [g, a] = .ok ([g, g, g] ++ [a], g) := rfl

theorem intermediate_rgba (r g b a : Nat) : intermediate s .rgba sw [r, g, b, a] = .ok ([r, g, b] ++ [a], luma r g b) := rfl

end

section
variable {s : State} {src dst : ColorType} {sw : Nat} {px : List Nat}

theorem exists_intermediate_eq_ok (h : src = .palette → px.getD 0 0 < s.pal.plteN.toNat) :
    ∃ r, intermediate s src sw px = .ok r := by
  cases src
  case palette => exact ⟨_, by rw [intermediate, lookup_ok (h rfl), ok_bind]⟩
  all_goals exact ⟨_, rfl⟩

theorem convertPixel_of_intermediate {rgb : List Nat} {alpha y i : Nat} (hl : rgb.length = 3) (hi : px.getD 0 0 = i)
    (hr : intermediate s src sw px = .ok (rgb ++ [alpha], y)) :
    convertPixel s src dst sw px = .ok (match dst with
      | .gray => [y]
      | .rgb => rgb
      | .palette => [i]
      | .grayAlpha => [y, alpha]
      | .rgba => rgb ++ [alpha]) := by
  obtain ⟨r, g, b, rfl⟩ := List.length_eq_three.1 hl
  rw [convertPixel, hr, ok_bind, hi]
  cases dst <;> rfl

theorem exists_convertPixel_eq_ok (h : src = .palette → px.getD 0 0 < s.pal.plteN.toNat) :
    ∃ vs, convertPixel s src dst sw px = .ok vs := by
  obtain ⟨r, hr⟩ := exists_intermediate_eq_ok (sw := sw) h
  rw [convertPixel, hr, ok_bind]
  cases dst <;> exact ⟨_, rfl⟩

theorem convertPixel_error (h : s.pal.plteN.toNat ≤ px.getD 0 0) : convertPixel s .palette dst sw px =
    .error (.paletteIndexOutOfRange (BitVec.ofNat 8 (px.getD 0 0))) := by
  rw [convertPixel, intermediate, lookup_error h]
  rfl

section
variable (hsw : sw = 8 ∨ sw = 16) (hpx : ∀ v ∈ px, v < 2 ^ sw)
include hsw hpx

theorem intermediate_lt {rgba : List Nat} {y : Nat} (h : intermediate s src sw px = .ok (rgba, y)) :
    (∀ v ∈ rgba, v < 2 ^ sw) ∧ y < 2 ^ sw := by
  have hv := getD_lt (Nat.two_pow_pos sw) hpx
  cases src
  case palette =>
    obtain ⟨rgb, hl, h⟩ := bind_eq_ok.1 h
    cases h
    exact ⟨paletteRgba_lt hsw hl, hv 0⟩
  case gray => cases h; exact ⟨by simp [hv, keyAlpha_lt], hv 0⟩
  case rgb => cases h; exact ⟨by simp [hv, keyAlpha_lt], luma_lt (hv 0) (hv 1) (hv 2)⟩
  case grayAlpha => cases h; exact ⟨by simp [hv], hv 0⟩
  case rgba => cases h; exact ⟨by simp [hv], luma_lt (hv 0) (hv 1) (hv 2)⟩

theorem convertPixel_lt {vs : List Nat} (h : convertPixel s src dst sw px = .ok vs) : ∀ v ∈ vs, v < 2 ^ sw := by
  obtain ⟨⟨rgba, y⟩, hi, h⟩ := bind_eq_ok.1 h
  obtain ⟨hrgba, hy⟩ := intermediate_lt hsw hpx hi
  have halpha := getD_lt (Nat.two_pow_pos sw) hrgba 3
  cases dst <;> cases h
  case gray => simpa using hy
  case rgb => exact fun v hv => hrgba v (List.mem_of_mem_take hv)
  case palette => simpa using getD_lt (Nat.two_pow_pos sw) hpx 0
  case grayAlpha => simpa using ⟨hy, halpha⟩
  case rgba => exact hrgba

end

end

/-! ### The canonical pixel (R236) -/

section
variable {s : State} {h : Header} {sw : Nat} {px : List Nat}

theorem canonicalPixel_gray (hc : h.color = .gray) (g : Nat) : canonicalPixel s h sw [g] =
    .ok [rescale g h.depth sw, rescale g h.depth sw, rescale g h.depth sw,
      if s.pal.grayValid = true ∧ g = s.pal.trnsGray.toNat then 0 else maxSample sw] := by
  simp only [← keyGray_iff, canonicalPixel, hc]
  rfl

theorem canonicalPixel_rgb (hc : h.color = .rgb) (r g b : Nat) : canonicalPixel s h sw [r, g, b] =
    .ok [rescale r h.depth sw, rescale g h.depth sw, rescale b h.depth sw,
      if s.pal.rgbValid = true ∧ r = s.pal.trnsR.toNat ∧ g = s.pal.trnsG.toNat ∧ b = s.pal.trnsB.toNat then 0
      else maxSample sw] := by
  simp only [← keyRgb_iff, canonicalPixel, hc]
  rfl

theorem canonicalPixel_palette (hc : h.color = .palette) {i : Nat} (hi : i < s.pal.plteN.toNat) : canonicalPixel s h sw [i] =
    .ok [((plteEntry s i).extractLsb' 16 8).toNat, ((plteEntry s i).extractLsb' 8 8).toNat,
      ((plteEntry s i).extractLsb' 0 8).toNat, palAlpha s i] := by
  simp only [canonicalPixel, hc, List.getD_cons_zero, lookup_ok hi]
  rfl

theorem canonicalPixel_grayAlpha (hc : h.color = .grayAlpha) (g a : Nat) : canonicalPixel s h sw [g, a] =
    .ok [rescale g h.depth sw, rescale g h.depth sw, rescale g h.depth sw, rescale a h.depth sw] := by
  simp only [canonicalPixel, hc]
  rfl

theorem canonicalPixel_rgba (hc : h.color = .rgba) (r g b a : Nat) : canonicalPixel s h sw [r, g, b, a] =
    .ok [rescale r h.depth sw, rescale g h.depth sw, rescale b h.depth sw, rescale a h.depth sw] := by
  simp only [canonicalPixel, hc]
  rfl

theorem exists_canonicalPixel_eq_ok (hp : h.color = .palette → px.getD 0 0 < s.pal.plteN.toNat) :
    ∃ vs, canonicalPixel s h sw px = .ok vs := by
  rw [canonicalPixel]
  split
  case h_3 hc => exact ⟨_, by rw [lookup_ok (hp hc), ok_bind]⟩
  all_goals exact ⟨_, rfl⟩

theorem canonicalPixel_error (hc : h.color = .palette) (hp : s.pal.plteN.toNat ≤ px.getD 0 0) :
    canonicalPixel s h sw px = .error (.paletteIndexOutOfRange (BitVec.ofNat 8 (px.getD 0 0))) := by
  simp only [canonicalPixel, hc, lookup_error hp, error_bind]

theorem canonicalPixel_lt (hh : header s = some h) (hsw : sw = 8 ∨ sw = 16) (hpx : ∀ v ∈ px, v < 2 ^ h.depth)
    {vs : List Nat} (hc : canonicalPixel s h sw px = .ok vs) : ∀ v ∈ vs, v < 2 ^ sw := by
  have hup (k : Nat) : rescale (px[k]?.getD 0) h.depth sw < 2 ^ sw :=
    rescale_lt sw (header_depth_pos hh) (getD_lt (Nat.two_pow_pos _) hpx k)
  rw [canonicalPixel] at hc
  split at hc
  case h_3 =>
    obtain ⟨rgb, hl, hc⟩ := bind_eq_ok.1 hc
    cases hc
    exact paletteRgba_lt hsw hl
  all_goals
    cases hc
    simp [hup, keyAlpha_lt]

end

end Sys2Proof.Machine
end

section
/-! SUPPORT. COLOR_CONVERT and DECODE_NORMALIZE (44_normalizer.md rules R235, R238): the array each writes. -/

namespace Sys2Proof

theorem ColorType.channels_pos (c : ColorType) : 0 < c.channels := by cases c <;> decide

end Sys2Proof

namespace Sys2Proof.Machine

/-! ### Checks -/

theorem firstError_cons_eq_none {c : Check} {cs : List Check} :
    firstError (c :: cs) = none ↔ c.1 = true ∧ firstError cs = none := by
  simp only [firstError_eq_none, List.forall_mem_cons]

theorem supportedPair_iff (src dst : ColorType) : supportedPair src dst = true ↔
    (src ≠ .palette ∧ dst ≠ .palette) ∨ (src = .palette ∧ dst ∈ [ColorType.rgb, .palette, .rgba]) := by
  cases src <;> cases dst <;> decide

/-- The first check of COLOR_CONVERT (R234, R235), as a condition on the colour types. -/
theorem supportedCheck_eq (src dst : ColorType) (s16 : Bool) : (supportedPair src dst && !(src == .palette && s16)) =
    decide (((src ≠ .palette ∧ dst ≠ .palette) ∨ (src = .palette ∧ dst ∈ [ColorType.rgb, .palette, .rgba])) ∧
      ¬(src = .palette ∧ s16 = true)) := by
  rw [Bool.eq_iff_iff, Bool.and_eq_true, supportedPair_iff]
  simp

/-! ### COLOR_CONVERT (R235) -/

theorem arrayPixel_getD (bs : List Byte) {c k : Nat} (sw j : Nat) (hk : k < c) :
    (arrayPixel bs c sw j).getD k 0 = sampOf bs (j * c + k) sw := by
  simp [arrayPixel, hk]

theorem arrayPixel_lt {bs : List Byte} {c sw j v : Nat} (hsw : sw = 8 ∨ sw = 16) (hv : v ∈ arrayPixel bs c sw j) :
    v < 2 ^ sw := by
  obtain ⟨k, -, rfl⟩ := List.mem_map.1 hv
  exact sampOf_lt _ _ _ hsw

theorem convertBytes_samples {s : State} {src dst : ColorType} {sw n : Nat} {bs : List Byte} (hsw : sw = 8 ∨ sw = 16)
    (hp : src = .palette → ∀ j, j < n → sampOf bs j sw < s.pal.plteN.toNat) :
    ∃ out, convertBytes s src dst sw n bs = .ok out ∧ ∀ j k vs, j < n → k < dst.channels →
      convertPixel s src dst sw (arrayPixel bs src.channels sw j) = .ok vs →
      sampOf out (j * dst.channels + k) sw = vs.getD k 0 := by
  rw [convertBytes_eq]
  obtain ⟨out, hout, hsamples⟩ := collectPixels_samples (xs := List.range n) (c := dst.channels)
    (f := fun j => convertPixel s src dst sw (arrayPixel bs src.channels sw j)) hsw fun j hj => by
      obtain ⟨vs, hvs⟩ := exists_convertPixel_eq_ok (s := s) (src := src) (dst := dst) (sw := sw) (px := arrayPixel bs src.channels sw j)
        fun hsrc => by
          rw [arrayPixel_getD _ _ _ src.channels_pos]
          simpa [hsrc, ColorType.channels] using hp hsrc j (List.mem_range.1 hj)
      exact ⟨vs, hvs, convertPixel_length hvs, convertPixel_lt hsw (fun v => arrayPixel_lt hsw) hvs⟩
  refine ⟨out, hout, fun j k vs hj hk hvs => hsamples j k vs (by simpa using hj) hk ?_⟩
  rwa [List.getElem_range]

/-- Settles O57: the intermediate of each source gives the channels, of which each destination takes its own. -/
theorem colorConvertConvertsEveryPixel : Obligations.ColorConvertConvertsEveryPixel := by
  intro s src dst s16 sw n nIn nOut input supported order
  have hsw : sw = 8 ∨ sw = 16 := sampleWidth_cases s16
  have hx : exec (.colorConvert src dst s16) s = finish s (runChecks order >>= fun _ =>
      convertBytes s src dst sw n input >>= fun out => .ok (setRes0 (memWrite s (dstAddr s) out) nOut)) := by
    rw [exec, execColorConvert, colorConvert_eq, supportedCheck_eq, paletteCheck_eq, beq_eq_decide]
    rfl
  refine ⟨fun e he => failsWith_firstError hx he, fun hc hp => ?_⟩
  have hp' : src = .palette → ∀ j, j < n → sampOf input j sw < s.pal.plteN.toNat := fun hsrc j hj => by
    have hnarrow : s16 = false := by
      have hfirst := of_decide_eq_true (firstError_cons_eq_none.1 hc).1
      simpa [hsrc] using hfirst.2
    have hsw8 : sw = 8 := by simp only [sw, hnarrow]; rfl
    rw [sampOf, if_pos hsw8]
    exact hp hsrc j hj
  obtain ⟨out, hout, hsamples⟩ := convertBytes_samples (dst := dst) hsw hp'
  obtain ⟨t, ht, hleaves, hbytes⟩ := leaves_of_built hx hc hout (convertBytes_length hsw hout)
  refine ⟨t, ht, hleaves, ?_⟩
  intro j k hj hk v e full rgb alpha y px
  have hpixel : intermediate s src sw (arrayPixel input src.channels sw j) = .ok (rgb ++ [alpha], y) := by
    cases src with
    | gray => exact intermediate_gray ..
    | rgb => exact intermediate_rgb ..
    | palette => exact intermediate_palette s sw (by simpa [v, ColorType.channels] using hp' rfl j hj)
    | grayAlpha => exact intermediate_grayAlpha ..
    | rgba => exact intermediate_rgba ..
  have hrgb : rgb.length = 3 := by cases src <;> rfl
  rw [hbytes]
  exact hsamples j k px hj hk
    (convertPixel_of_intermediate hrgb (arrayPixel_getD _ _ _ src.channels_pos) hpixel)

/-! ### DECODE_NORMALIZE (R238) -/

/-- The checks of DECODE_NORMALIZE are those of an image command with the palette check after the length (R238). -/
theorem decodeNormalize_checks {s : State} {h : Header} {nOut : Nat} (hc : firstError (imageOrder s (fullBytes h) nOut) = none)
    (hp : h.color = .palette → s.pal.plteN ≠ 0) :
    firstError ([(srcLen s == fullBytes h, .insufficientPixelData),
      (!(h.color == .palette && s.pal.plteN == 0), .paletteRequired)] ++ srcDestChecks s (fullBytes h) nOut) = none := by
  obtain ⟨hlen, hregions⟩ := firstError_cons_eq_none.1 hc
  refine firstError_cons_eq_none.2 ⟨?_, firstError_cons_eq_none.2 ⟨?_, hregions⟩⟩
  · rw [beq_eq_decide]; exact hlen
  · rw [paletteCheck_eq]; exact decide_eq_true hp

theorem normalizeBytes_samples {s : State} {h : Header} (hh : header s = some h) (narrow : Bool) {bs : List Byte}
    (hp : h.color = .palette → ∀ x y, x < h.width → y < h.height → (rawPixel h bs y x).getD 0 0 < s.pal.plteN.toNat) :
    ∃ out, normalizeBytes s h narrow bs = .ok out ∧ ∀ x y k vs, x < h.width → y < h.height → k < 4 →
      canonicalPixel s h (outWidth h narrow) (rawPixel h bs y x) = .ok vs →
      sampOf out ((y * h.width + x) * 4 + k) (outWidth h narrow) = vs.getD k 0 := by
  rw [normalizeBytes_eq]
  obtain ⟨out, hout, hsamples⟩ := collectPixels_samples (xs := pixelsOf h) (c := 4)
    (f := fun q => canonicalPixel s h (outWidth h narrow) (rawPixel h bs q.1 q.2)) (outWidth_cases h narrow) fun q hq => by
      obtain ⟨hy, hx⟩ := lt_of_mem_pixelsOf hq
      obtain ⟨vs, hvs⟩ := exists_canonicalPixel_eq_ok (sw := outWidth h narrow) fun hc => hp hc q.2 q.1 hx hy
      exact ⟨vs, hvs, canonicalPixel_length hvs,
        canonicalPixel_lt hh (outWidth_cases h narrow) (fun v => rawPixel_lt) hvs⟩
  refine ⟨out, hout, fun x y k vs hx hy hk hvs => hsamples _ k vs (pixel_number_lt hx hy) hk ?_⟩
  rwa [pixelsOf_getElem h x y hx hy]

/-- Settles O58: every pixel is the canonical pixel of its raw samples. -/
theorem decodeNormalizeGivesCanonicalRgba : Obligations.DecodeNormalizeGivesCanonicalRgba := by
  intro s h narrow hh sw c nOut raw hc hplte hp
  have hraw : ∀ x y, y < h.height →
      rawPixel h (memRead s (srcAddr s) (fullBytes h)) y x = (List.range c).map (raw x y) := fun x y hy => by
    rw [rawPixel, rowOf_fullRaster _ _ _ hy]
  obtain ⟨out, hout, hsamples⟩ := normalizeBytes_samples hh narrow (bs := memRead s (srcAddr s) (fullBytes h))
    fun hcol x y hx hy => by
      rw [rawPixel_getD _ _ _ _ h.color.channels_pos, rowOf_fullRaster _ _ _ hy]
      exact hp hcol x y hx hy
  obtain ⟨t, ht, hleaves, hbytes⟩ := leaves_of_built (i := .decodeNormalize narrow)
    (congrArg (finish s) (decodeNormalize_eq hh narrow)) (decodeNormalize_checks hc hplte) hout (normalizeBytes_length hout)
  refine ⟨t, ht, hleaves, ?_⟩
  intro x y k hx hy hk v up e full px
  have hpixel : canonicalPixel s h sw ((List.range c).map v) = .ok px := by
    have hindex := fun hcol => hp hcol x y hx hy
    obtain ⟨_, _, _, color, _⟩ := h
    cases color with
    | gray => exact canonicalPixel_gray rfl _
    | rgb => exact canonicalPixel_rgb rfl ..
    | palette => exact canonicalPixel_palette rfl (hindex rfl)
    | grayAlpha => exact canonicalPixel_grayAlpha rfl ..
    | rgba => exact canonicalPixel_rgba rfl ..
  exact (congrArg (sampOf · _ _) hbytes).trans (hsamples x y k px hx hy hk (by rw [hraw x y hy]; exact hpixel))

end Sys2Proof.Machine
end

section
/-! SUPPORT. The first bad palette index (44_normalizer.md rules R225, R231, R237): where each command meets it. -/

namespace Sys2Proof.Machine

/-! ### COLOR_CONVERT -/

theorem arrayBytes_eight (n c : Nat) : arrayBytes n c 8 = n * c := Nat.mul_div_cancel _ (by decide)

theorem arrayPixel_index (bs : List Byte) (sw j : Nat) :
    (arrayPixel bs ColorType.palette.channels sw j).getD 0 0 = sampOf bs j sw := by
  rw [arrayPixel_getD _ _ _ (ColorType.channels_pos _), ColorType.channels, Nat.mul_one, Nat.add_zero]

theorem convertBytes_error {s : State} {dst : ColorType} {sw n j : Nat} {bs : List Byte} (hj : j < n)
    (hgood : ∀ i, i < j → sampOf bs i sw < s.pal.plteN.toNat) (hbad : s.pal.plteN.toNat ≤ sampOf bs j sw) :
    convertBytes s .palette dst sw n bs = .error (.paletteIndexOutOfRange (BitVec.ofNat 8 (sampOf bs j sw))) := by
  rw [convertBytes_eq]
  refine collectPixels_error (i := j) (by simpa using hj) (fun i hi => ?_) ?_
  · rw [List.getElem_range]
    exact exists_convertPixel_eq_ok fun _ => by rw [arrayPixel_index]; exact hgood i hi
  · rw [List.getElem_range, convertPixel_error (by rwa [arrayPixel_index]), arrayPixel_index]

/-- The checks of COLOR_CONVERT of 8-bit palette indices are those of an image command, where the palette is there. -/
theorem colorConvert_palette_checks {s : State} {dst : ColorType} (hdst : dst ∈ [ColorType.rgb, .palette, .rgba])
    (hn : s.pal.plteN ≠ 0) {nIn nOut : Nat} (hc : firstError (imageOrder s nIn nOut) = none) :
    firstError ([(supportedPair .palette dst && !(ColorType.palette == .palette && false), .unsupportedColorConversion),
      (srcLen s == nIn, .insufficientPixelData), (!(ColorType.palette == .palette && s.pal.plteN == 0), .paletteRequired)] ++
        srcDestChecks s nIn nOut) = none := by
  obtain ⟨hlen, hregions⟩ := firstError_cons_eq_none.1 hc
  refine firstError_cons_eq_none.2 ⟨?_, firstError_cons_eq_none.2 ⟨?_, firstError_cons_eq_none.2 ⟨?_, hregions⟩⟩⟩
  · rw [supportedCheck_eq]; simpa using hdst
  · rw [beq_eq_decide]; exact hlen
  · rw [paletteCheck_eq]; exact decide_eq_true fun _ => hn

/-! ### DECODE_NORMALIZE -/

theorem normalizeBytes_error {s : State} {h : Header} {bs : List Byte} {x y : Nat} (narrow : Bool) (hc : h.color = .palette)
    (hx : x < h.width) (hy : y < h.height)
    (hgood : ∀ x' y', x' < h.width → y' < y ∨ y' = y ∧ x' < x → (rawPixel h bs y' x').getD 0 0 < s.pal.plteN.toNat)
    (hbad : s.pal.plteN.toNat ≤ (rawPixel h bs y x).getD 0 0) :
    normalizeBytes s h narrow bs = .error (.paletteIndexOutOfRange (BitVec.ofNat 8 ((rawPixel h bs y x).getD 0 0))) := by
  rw [normalizeBytes_eq]
  refine collectPixels_error (pixel_number_lt hx hy) (fun i hi => ?_) ?_
  · rw [pixelsOf_getElem_div_mod]
    exact exists_canonicalPixel_eq_ok fun _ => hgood _ _ (Nat.mod_lt _ (Nat.zero_lt_of_lt hx)) (before_of_number_lt hx hi)
  · rw [pixelsOf_getElem h x y hx hy]
    exact canonicalPixel_error hc hbad

/-! ### DEPTH_PACK -/

theorem packBytes_error {h : Header} {sw j : Nat} {bs : List Byte} {e : Err} (hj : j < h.width * h.height * h.color.channels)
    (hok : ∀ i, i < j → ∃ v, packSample h sw (sampOf bs i sw) = .ok v)
    (he : packSample h sw (sampOf bs j sw) = .error e) : packBytes h sw bs = .error e := by
  rw [Nat.mul_comm h.width h.height, Nat.mul_assoc] at hj
  have hpos : 0 < h.width * h.color.channels := Nat.pos_of_lt_mul_left hj
  obtain ⟨y, m, hm, rfl⟩ : ∃ y m, m < h.width * h.color.channels ∧ y * h.width * h.color.channels + m = j :=
    ⟨_, _, Nat.mod_lt j hpos, by rw [Nat.mul_assoc, Nat.div_add_mod']⟩
  have hy : y < h.height := by
    rw [Nat.mul_assoc] at hj
    exact Nat.lt_of_mul_lt_mul_right ((Nat.le_add_right _ _).trans_lt hj)
  rw [packBytes_eq]
  refine collect_error_at (i := y) (by simpa using hy) (fun y' hy' => ?_) ?_
  · rw [List.getElem_range]
    refine exists_packRow_eq_ok (fun j hj => hok _ ?_) _ _
    rw [Nat.mul_assoc, Nat.mul_assoc]
    exact ((Nat.add_lt_add_left hj _).trans_le (row_end_le hy')).trans_le (Nat.le_add_right _ _)
  · rw [List.getElem_range]
    exact packRow_error hm (fun j hj => hok _ (Nat.add_lt_add_left hj _)) he _ _

/-! ### The statement -/

/-- Settles O59: each command scans its indices in order, and those before the bad one raise nothing. -/
theorem firstBadPaletteIndexIsReported : Obligations.FirstBadPaletteIndexIsReported := by
  intro s
  refine ⟨?_, fun h hh hcol => ⟨?_, ?_⟩⟩
  · intro dst j hdst hn hj index hc hgood hbad
    have hindex : ∀ i, i ≤ j → sampOf (memRead s (srcAddr s) (paramCount s)) i 8 = (index i).toNat := fun i hi => by
      have hi' : i < paramCount s := hi.trans_lt hj
      rw [sampOf, if_pos rfl, byteAt_memRead _ _ _ _ hi']
    have hrule : exec (.colorConvert .palette dst false) s = _ := congrArg (finish s) (colorConvert_eq .palette dst false s)
    rw [show sampleWidth false = 8 from rfl, arrayBytes_eight, arrayBytes_eight, ColorType.channels, Nat.mul_one] at hrule
    have hfails := failsWith_of_built hrule (colorConvert_palette_checks hdst hn hc) (convertBytes_error hj
      (fun i hi => by rw [hindex i hi.le]; exact hgood i hi) (by rw [hindex j le_rfl]; exact hbad))
    rwa [hindex j le_rfl, BitVec.ofNat_toNat, BitVec.setWidth_eq] at hfails
  · intro narrow x y hn hx hy index hc hgood hbad
    have hraw : ∀ x y, y < h.height →
        (rawPixel h (memRead s (srcAddr s) (fullBytes h)) y x).getD 0 0 = index x y := fun x y hy => by
      rw [rawPixel_getD _ _ _ _ h.color.channels_pos, rowOf_fullRaster _ _ _ hy, hcol, ColorType.channels, Nat.mul_one]
      rfl
    have hrule := congrArg (finish s) (decodeNormalize_eq hh narrow)
    rw [outWidth_palette hh hcol, arrayBytes_eight] at hrule
    rw [← hraw x y hy] at hbad ⊢
    refine failsWith_of_built (i := .decodeNormalize narrow) hrule (decodeNormalize_checks hc fun _ => hn)
      (normalizeBytes_error narrow hcol hx hy (fun x' y' hx' hbefore => ?_) hbad)
    rw [hraw x' y' (by omega)]
    exact hgood x' y' hx' hbefore
  · intro s16 j hj sw index hc hgood hbad
    have hsize : arrayBytes (h.width * h.height) h.color.channels (sampleWidth s16) = h.width * h.height * sw / 8 := by
      rw [arrayBytes, hcol, ColorType.channels, Nat.mul_one]
      rfl
    have hrule := congrArg (finish s) (depthPack_eq hh s16)
    rw [hsize] at hrule
    exact failsWith_of_built (i := .depthPack s16) hrule hc (packBytes_error (by simpa [hcol, ColorType.channels] using hj)
      (fun i hi => ⟨_, packSample_ok fun _ => hgood i hi⟩) (packSample_error _ hcol hbad))

end Sys2Proof.Machine
end

section
/-! SUPPORT. Completions of every command (60_exceptions.md rules R260, R262, R272; 41_framer.md rules R121, R126): what a
failed command outside the parser changes, and what a failed parse changes in FAILED and outside it. -/

namespace Sys2Proof.Machine

/-! ### Every completion (R260, R262) -/

/-- A completion without an error has INFO 0, since every error has a code. -/
theorem CompletesFrom.errInfo_eq_zero {i : Instr} {s t : State} (h : CompletesFrom i s t) (hc : t.ctl.errCode = 0) :
    t.ctl.errInfo = 0 := by
  obtain ⟨u, -, -, rfl | ⟨e, rfl⟩⟩ := h
  · rfl
  · exact absurd hc e.code_reported.2

/-- A failed command outside the parser discards every write of its rule (R262, R272). -/
theorem exec_discards {i : Instr} {s t : State} (hi : i ∉ [Instr.sigCheck, .chunkParse, .streamParse])
    (h : exec i s = .next t) (hc : t.ctl.errCode ≠ 0) : t = { s with ctl := t.ctl } := by
  by_cases hreset : i = .framerReset
  · subst hreset
    cases h
    exact absurd rfl hc
  · rcases exec_own (List.not_mem_cons_of_ne_of_not_mem hreset hi) h with ⟨e, rfl⟩ | ⟨u, -, rfl⟩
    · rfl
    · exact absurd rfl hc

/-! ### A parse command in FAILED (R121) -/

/-- In FAILED the first check of every parse command raises FramerFailed. -/
theorem firstError_of_failed {s : State} (hp : s.framer.phase = .failed) (cs : List Check) :
    firstError ((s.framer.phase != .failed, .framerFailed s.framer.failCode) :: cs) =
      some (.framerFailed s.framer.failCode) := by
  rw [firstError_cons, hp]
  rfl

theorem exec_parse_of_failed {i : Instr} {s : State} (hi : i ∈ [Instr.sigCheck, .chunkParse, .streamParse])
    (hp : s.framer.phase = .failed) : exec i s = .next (fail s (.framerFailed s.framer.failCode)) := by
  simp only [List.mem_cons, List.not_mem_nil, or_false] at hi
  rcases hi with rfl | rfl | rfl
  · rw [failsParse_of_sigChecks (firstError_of_failed hp _), if_pos hp]
    rfl
  · rw [failsParse_of_framingOrder (firstError_of_failed hp _), if_pos hp]
    rfl
  · rw [exec_streamParse_of_order (firstError_of_failed hp _), if_pos hp, if_pos hp]
    rfl

/-! ### A failed parse command outside FAILED (R121, R126) -/

/-- A rule that checks for FAILED first, and raises FramerFailed nowhere else, never raises it outside FAILED. -/
theorem runChecks_ne_framerFailed {s : State} {cs : List Check} {e : Err} (hp : s.framer.phase ≠ .failed)
    (h : runChecks ((s.framer.phase != .failed, .framerFailed s.framer.failCode) :: cs) = .error e)
    (hcs : ∀ c, .framerFailed c ∉ cs.map Prod.snd) (c : Byte) : e ≠ .framerFailed c :=
  fun he => hp ((framerFailed_iff (firstError_of_runChecks h) hcs c).1 he).1

theorem parseSignature_error {s : State} {e : Err} (hp : s.framer.phase ≠ .failed) (h : parseSignature s = .error e) :
    ∀ c, e ≠ .framerFailed c := by
  rw [parseSignature_eq] at h
  rcases bind_eq_error.1 h with h | ⟨_, -, h⟩
  · exact runChecks_ne_framerFailed hp h (by simp [regionCheck])
  · cases h

/-- Each chunk of the loop starts outside FAILED, so none raises FramerFailed. -/
theorem streamLoop_raised {q : Nat × Nat} {fuel off n off' : Nat} {t u : State} {e : Err} (hp : t.framer.phase ≠ .failed)
    (h : streamLoop q fuel off n t = .raised e u off') : ∀ c, e ≠ .framerFailed c := by
  induction fuel generalizing off n t with
  | zero => cases h
  | succ fuel ih =>
    cases hchunk : parseChunk t (q.1 + off) (q.2 - off) q with
    | error e' =>
      rw [streamLoop_error hchunk] at h
      cases h
      exact parseChunk_error hp hchunk
    | ok r =>
      rw [streamLoop_chunk (k := r.2) hchunk] at h
      split at h
      · cases h
      · exact ih (parseChunk_phase hchunk) h

theorem streamParse_raised {s u : State} {e : Err} {off : Nat} (hp : s.framer.phase ≠ .failed)
    (h : streamParse s = .raised e u off) : ∀ c, e ≠ .framerFailed c := by
  unfold streamParse at h
  split at h
  · rename_i hc
    cases h
    rw [streamChecks_eq] at hc
    exact runChecks_ne_framerFailed hp hc (by simp [regionCheck, apartCheck])
  · split at h
    · cases h
      exact parseSignature_error hp ‹_›
    · obtain rfl := parseSignature_keeps ‹_›
      exact streamLoop_raised (by nofun) h

/-- Outside FAILED a failed parse enters FAILED with the code of its error, after writes that only STREAM_PARSE has: those of
the steps before the failing one, and RES0. -/
theorem exec_parse_fails {i : Instr} {s t : State} (hi : i ∈ [Instr.sigCheck, .chunkParse, .streamParse])
    (hp : s.framer.phase ≠ .failed) (h : exec i s = .next t) (hc : t.ctl.errCode ≠ 0) :
    ∃ u e, (∀ c, e ≠ .framerFailed c) ∧ t = fail (failFramer u e) e ∧ (i ≠ .streamParse → u = s) ∧
      u.res = { s.res with res0 := u.res.res0 } ∧ u.crcReg = s.crcReg := by
  simp only [List.mem_cons, List.not_mem_nil, or_false] at hi
  rcases hi with rfl | rfl | rfl
  · obtain ⟨e, he, rfl⟩ := finishParse_failure h hc
    rcases bind_eq_error.1 he with he | ⟨_, -, he⟩
    · exact ⟨s, e, parseSignature_error hp he, rfl, fun _ => rfl, rfl, rfl⟩
    · cases he
  · obtain ⟨e, he, rfl⟩ := finishParse_failure h hc
    rcases bind_eq_error.1 he with he | ⟨_, -, he⟩
    · exact ⟨s, e, parseChunk_error hp he, rfl, fun _ => rfl, rfl, rfl⟩
    · cases he
  · obtain ⟨-, -, -, hres, hcrc, -⟩ := streamParse_keeps s
    rcases finishStream_cases h with ⟨u, off, n, -, rfl⟩ | ⟨c, u, off, hu, -⟩ | ⟨e, u, off, hn, hu, rfl⟩
    · exact absurd rfl hc
    · exact absurd rfl (streamParse_raised hp hu c)
    · rw [hu] at hres hcrc
      exact ⟨setRes0 u off, e, hn, rfl, fun hi => absurd rfl hi, by simp [← hres], hcrc⟩

/-! ### The statement -/

/-- Settles O13: the completion is that of `exec_cases`; a failure is discarded outside the parser, and a failed parse raises
FramerFailed exactly in FAILED. -/
theorem completionCommitsOrDiscards : Obligations.CompletionCommitsOrDiscards := by
  intro i s
  obtain ⟨t, ht⟩ := exec_next i s
  have hcompletes := exec_cases ht
  obtain ⟨hparams, hopd, hbus, -, hctl, hcode⟩ := hcompletes.keeps
  refine ⟨t, ht, hctl, hcode, hcompletes.errInfo_eq_zero, hopd, hparams, hbus, fun hc =>
    ⟨fun hi => exec_discards hi ht hc, fun hi => ⟨fun hp => ?_, fun hp => ?_⟩⟩⟩
  · rw [exec_parse_of_failed hi hp] at ht
    cases ht
    exact ⟨rfl, rfl, rfl⟩
  · obtain ⟨u, e, hn, rfl, hu, hres, hcrc⟩ := exec_parse_fails hi hp ht hc
    rw [fail_failFramer hn]
    refine ⟨rfl, rfl, fun hi => ?_, hres, hcrc⟩
    obtain rfl := hu hi
    rfl

end Sys2Proof.Machine
end

section
/-! SUPPORT. Resets (70_reset_and_hazards.md rules R290 to R293): a reset state is its own soft reset, what its registers
read, and that the state at reset meets the invariant. -/

namespace Sys2Proof.Machine

/-! ### The register values (R291, R293) -/

theorem softReset_reset : softReset State.reset = State.reset := rfl

/-- After a power-on reset a soft reset finds every register at its value already, and keeps the rest (R292, R293). -/
theorem softReset_powerOn (s : State) : softReset (powerOn s) = powerOn s := rfl

theorem step_powerOn {s : State} {es : List Event} (h : s.bus.inbox = .powerOn :: es) :
    step s = .next (powerOn (withInbox s es)) := step_cons h

/-- Settles O9: both reset states are their own soft reset, so their registers read as those of `State.reset`, whose header
is not valid. -/
theorem resetValues : Obligations.ResetValues := by
  intro s t es h
  have hsoft : softReset t = t := by
    rcases h with rfl | ⟨hin, ht⟩
    · exact softReset_reset
    · rw [step_powerOn hin] at ht
      cases ht
      exact softReset_powerOn _
  obtain ⟨hinfo, hrow⟩ := readReg_of_no_header (header_softReset State.reset)
  rw [← hsoft]
  refine ⟨fun r hr => ?_, rfl⟩
  rw [readReg_softReset t hr]
  cases r
  case hdrInfo => exact hinfo
  case rowBytes => exact hrow
  case plteRam | alphaRam => cases hr
  all_goals rfl

/-! ### The invariant (R4, R291) -/

theorem params_default_wf : Params.default.wf := by decide

theorem ctlInv_reset : CtlInv Ctl.reset := by simp [CtlInv, Ctl.reset, reportedCodes]

theorem busInv_reset (size : Nat) : BusInv size Ctl.reset Bus.reset := by simp [BusInv, Bus.reset]

/-- Settles O18: nothing is written to the RAMs, and each group of registers is consistent at its reset value. -/
theorem resetSatisfiesTheInvariant : Obligations.ResetSatisfiesTheInvariant where
  params := params_default_wf
  buf := Ram.wf_nil _
  plteRam := Ram.wf_nil _
  alphaRam := Ram.wf_nil _
  plteN := palReset_counts.1
  trnsN := palReset_counts.2
  framer := framerInv_reset
  ctl := ctlInv_reset
  bus := busInv_reset _

end Sys2Proof.Machine
end
